-- ==== Sys2Proof/Word.lean ====
section
/-! DEFINITION. The word types of the 9440 (R4, R155): 64-bit words and registers, 8-bit bytes, 32-bit
lane masks and program counters, and their plainest arithmetic. -/

namespace Sys2Proof

/-- A 64-bit register, scalar, instruction word or clause header. -/
abbrev Word := BitVec 64
/-- One byte of memory. -/
abbrev Byte := BitVec 8
/-- One bit for each lane of a warp, lane 0 in bit 0 (R6). -/
abbrev LaneMask := BitVec 32
/-- A program counter, in 8-byte words from the start of a code section (R155). -/
abbrev Pc := BitVec 32

/-- Bits `hi` to `lo` of a word, as a number. -/
def Word.field (w : Word) (hi lo : Nat) : Nat := (w.toNat >>> lo) % 2 ^ (hi + 1 - lo)

end Sys2Proof
end

