-- ==== Sys2Proof/Syntax.lean ====
section
/-! DEFINITION. The instructions of the 9440 and the device's own steps: one constructor of `Instr` for each row of
spec/opcode_table.json. Kernel words carry the fields of their word format (R160 to R164), queue bytecodes the fields
of R314, and device steps name the part that takes them and whatever the outside world supplies. -/

namespace Sys2Proof

/-- The sixteen type codes (R170, Table 9), in code order. -/
inductive VTy where
  | u8 | s8 | u16 | s16 | u32 | s32 | u64 | s64 | f16 | bf16 | f32 | f64 | e4m3 | e5m2 | t8 | t6
  deriving DecidableEq, Repr, Inhabited

/-- The sub-element widths of the shape field (R170): 64, 32, 16 and 8 bits. -/
inductive Shape where
  | w64 | w32 | w16 | w8
  deriving DecidableEq, Repr, Inhabited

/-- The rounding codes (R94, Table 7); code 7 is no rounding. -/
inductive Rnd where
  | rne | rtz | rup | rdn | rna | sr | dyn
  deriving DecidableEq, Repr, Inhabited

/-- The `%` values (R165, Table 7). -/
inductive Special where
  | zero | ones | laneid | warpid | coreid | clusterid | stackid | dieid | blockidx | rung | txseq | argbase
  | nblocks | depth | nwarps
  deriving DecidableEq, Repr, Inhabited

/-- What a 9-bit operand field holds (R164, R167): a register, a `%` value, an inline immediate, a predicate number, or
nothing (the field is unused and holds 0x000). -/
inductive Opnd where
  | v (n : BitVec 8)
  | s (n : BitVec 6)
  | q (n : BitVec 4)
  | h (n : BitVec 4)
  | sp (x : Special)
  | imm (n : BitVec 7)
  | pred (n : BitVec 3)
  | none
  deriving DecidableEq, Repr, Inhabited

/-- Binding-time mark, guard predicate and guard negation: bits [55:50] of every word (R160). -/
structure Guard where
  mark : BitVec 2
  pred : BitVec 3
  neg : Bool
  deriving DecidableEq, Repr, Inhabited

/-- The fields of a V-format word (R162). -/
structure VIns where
  g : Guard
  d : Opnd
  a : Opnd
  b : Opnd
  c : Opnd
  ty : VTy
  sh : Shape
  rnd : Rnd
  sat : Bool
  sub : BitVec 4
  deriving DecidableEq, Repr, Inhabited

/-- The fields of an I-format word (R162). -/
structure IIns where
  g : Guard
  d : Opnd
  a : Opnd
  imm : BitVec 32
  deriving DecidableEq, Repr, Inhabited

/-- The fields of an M-format word (R162). In ATOM, RED, ATOM64B and WAITADDR the upper five bits of `off` are the
operation code and the lower five the offset. -/
structure MIns where
  g : Guard
  data : Opnd
  base : Opnd
  idx : Opnd
  off : BitVec 10
  size : BitVec 3
  scope : BitVec 3
  ord : BitVec 2
  space : BitVec 3
  hint : BitVec 2
  deriving DecidableEq, Repr, Inhabited

/-- The fields of a B-format word (R162, R278): offset [49:24], two operand fields [23:15] and [14:6], and [5:0]. -/
structure BIns where
  g : Guard
  off : BitVec 26
  a : Opnd
  b : Opnd
  lo : BitVec 6
  deriving DecidableEq, Repr, Inhabited

/-- The fields of an X-format word (R162, R247). -/
structure XIns where
  g : Guard
  q : Opnd
  a : Opnd
  b : Opnd
  t : BitVec 9
  fa : BitVec 4
  fb : BitVec 4
  lad : BitVec 3
  fl : BitVec 3
  deriving DecidableEq, Repr, Inhabited

/-- The fields of a queue bytecode (R314): D [23:20], A [19:16], IMM [15:0]. -/
structure QIns where
  d : BitVec 4
  a : BitVec 4
  imm : BitVec 16
  deriving DecidableEq, Repr, Inhabited

/-- A window of a queue program (R314). -/
structure QWindow where
  base : Nat
  size : Nat
  writable : Bool
  deriving DecidableEq, Repr, Inhabited

/-- The three engines that take commands (R130, R249). -/
inductive Engine where
  | matrix | tilewalk | collective
  deriving DecidableEq, Repr, Inhabited

/-- A signed object as a die reads it (R388, Table 1). -/
structure SignedObj where
  kind : Nat
  version : BitVec 32
  signer : List Byte
  body : List Byte
  sig : List Byte
  deriving DecidableEq, Repr, Inhabited

/-- What a die reads from the boot flash and finds in its PUF (R389 to R391). -/
structure BootImage where
  cfg : SignedObj
  firmware : SignedObj
  microcode : SignedObj
  puf : Option (List Byte)
  trained : BitVec 2
  deriving DecidableEq, Repr, Inhabited

/-- What firmware gives a new partition: its clusters and its share of the power tokens (R366). -/
structure Allotment where
  clusters : List Nat
  tokens : Nat
  deriving DecidableEq, Repr, Inhabited

/-- The host's answer to a report: the key pair of the report, and the ciphertext (R397). -/
structure Encapsulation where
  key : Nat
  text : List Byte
  deriving DecidableEq, Repr, Inhabited

/-- Requests of the host on BAR 2: reads, writes, and the AtomicOps that the port completes (R379, R380). -/
inductive BarOp where
  | read | write | fetchAdd | swap | cas
  deriving DecidableEq, Repr, Inhabited

/-- Which copy of a privileged register a write names: the die, partition, context and core it belongs to. -/
structure RegSel where
  die : Nat
  part : Nat
  ctx : Nat
  core : Nat
  firmware : Bool
  deriving DecidableEq, Repr, Inhabited

/-- One constructor for each row of spec/opcode_table.json, in the table's order. -/
inductive Instr where
  | iadd (i : VIns) | isub (i : VIns) | imul (i : VIns) | imulh (i : VIns) | imad (i : VIns) | imin (i : VIns)
  | imax (i : VIns) | iabs (i : VIns) | isad (i : VIns) | icmp (i : VIns) | dot4i (i : VIns)
  | iand (i : VIns) | ior (i : VIns) | ixor (i : VIns) | iandn (i : VIns) | inot (i : VIns)
  | shl (i : VIns) | shr (i : VIns) | sar (i : VIns) | rot (i : VIns) | bfe (i : VIns) | bfi (i : VIns)
  | popc (i : VIns) | clz (i : VIns) | ctz (i : VIns) | brev (i : VIns) | permb (i : VIns)
  | lea (i : VIns) | mov (i : VIns) | movU (i : VIns) | sel (i : VIns)
  | movi (i : IIns) | iaddImm (i : IIns) | imulImm (i : IIns) | andImm (i : IIns) | orImm (i : IIns)
  | xorImm (i : IIns) | moviHi (i : IIns) | moviX2 (i : IIns)
  | fadd (i : VIns) | fmul (i : VIns) | ffma (i : VIns) | fmin (i : VIns) | fmax (i : VIns) | fabs (i : VIns)
  | fneg (i : VIns) | fcmp (i : VIns) | fclass (i : VIns) | frnd (i : VIns) | fscale (i : VIns) | fdot2 (i : VIns)
  | cvt (i : VIns) | pack (i : VIns) | unpack (i : VIns) | qnt (i : VIns) | dqnt (i : VIns)
  | rcp (i : VIns) | rsq (i : VIns) | sqrt (i : VIns) | exp2 (i : VIns) | log2 (i : VIns) | sin (i : VIns)
  | cos (i : VIns) | tanh (i : VIns) | sigm (i : VIns)
  | pset (i : VIns) | plop (i : VIns)
  | xpull (i : VIns) | xpush (i : VIns) | xshuf (i : VIns) | xbcast (i : VIns) | xred (i : VIns) | xscan (i : VIns)
  | xballot (i : VIns) | xmatch (i : VIns) | xvote (i : VIns)
  | rep (i : IIns)
  | ld (i : MIns) | st (i : MIns) | ldu (i : MIns) | atom (i : MIns) | red (i : MIns) | atom64b (i : MIns)
  | bind (i : MIns) | unbind (i : MIns) | acq (i : MIns) | rel (i : MIns) | fence (i : MIns) | prefetch (i : MIns)
  | bra (i : BIns) | brx (i : BIns) | call (i : BIns) | ret (i : BIns) | loop (i : BIns) | loopx (i : BIns)
  | exit (i : BIns) | nop (i : BIns) | yield (i : BIns) | elect (i : BIns) | spawn (i : BIns) | spawnfl (i : BIns)
  | join (i : BIns) | emit (i : BIns) | migrate (i : BIns) | lwake (i : BIns)
  | bararv (i : IIns) | barwt (i : IIns) | barsync (i : IIns)
  | waitaddr (i : MIns)
  | qpush (i : VIns) | qpop (i : VIns) | qpeek (i : VIns) | qcount (i : VIns)
  | mldw (i : XIns) | mma (i : XIns) | mmas (i : XIns) | mmag (i : XIns) | mzero (i : XIns) | mrd (i : XIns)
  | mwr (i : XIns) | txbegin (i : XIns) | txcommit (i : XIns) | txabort (i : XIns) | txstat (i : XIns)
  | monset (i : XIns) | monrd (i : XIns) | hmake (i : XIns) | hset (i : XIns) | cpy (i : XIns) | coll (i : XIns)
  | tfence (i : IIns) | trap (i : IIns) | tret (i : IIns) | rdsr (i : IIns) | wrsr (i : IIns) | clock (i : IIns)
  | sleep (i : IIns)
  | qpPkw (i : QIns) | qpLdi (i : QIns) | qpShli (i : QIns) | qpAdd (i : QIns) | qpAnd (i : QIns) | qpOr (i : QIns)
  | qpRdw (i : QIns) | qpWrw (i : QIns) | qpJz (i : QIns) | qpRept (i : QIns) | qpLaunch (i : QIns)
  | qpGraph (i : QIns) | qpOrder (i : QIns) | qpEnd (i : QIns)
  | storeDrain (wk i : Nat)
  | sliceFill (cl part va : Nat)
  | sliceWriteBack (cl line : Nat)
  | sliceEvict (cl line : Nat)
  | crossbarDeliver (src home : Nat)
  | hostAcknowledge (dest : Nat)
  | f64SecondHalf (wk : Nat)
  | warpStart (wk : Nat)
  | warpUnblock (wk : Nat)
  | warpRetire (wk : Nat)
  | warpPark (wk : Nat)
  | warpUnpark (part frame : Nat)
  | frameSave (wk : Nat)
  | waitaddrPoll (wk : Nat)
  | joinPoll (wk : Nat)
  | sleepExpire (wk : Nat)
  | gatherTimeout (core : Nat)
  | childWarpPlace (core i : Nat)
  | spawnSpillRefill (core : Nat)
  | orderedCommitProceed (blk : Nat)
  | orderedCommitSkip (blk : Nat)
  | commitRecordRelease (blk : Nat)
  | deltaMerge (blk : Nat)
  | matrixRetire (core : Nat)
  | matrixOperandFault (core : Nat)
  | matrixWatchdog (core : Nat)
  | matrixResetDone (core : Nat)
  | mxresetTake (wk : Nat)
  | tilewalkComplete (cl id : Nat)
  | engineSegmentFault (eng : Engine) (place id row off : Nat) (dst : Bool)
  | permitReturn (cl id row off len : Nat)
  | collectiveComplete (die id : Nat) (peers : List (List Byte))
  | faultEventPost (die part : Nat)
  | priResponse (part page : Nat) (success : Option Nat)
  | atsInvalidate (part base len : Nat)
  | fresolveRetry (part tag : Nat)
  | fresolveDeliver (part tag : Nat)
  | invgo (part : Nat)
  | invalidationComplete (part : Nat)
  | doorbell (part q : Nat)
  | commandPacket (part q : Nat)
  | queueResume (part q : Nat)
  | queueProgramLoad (part q ctx : Nat) (prog : List (BitVec 32)) (wins : List QWindow) (ringBase ringLen : Nat)
  | graphTableLoad (part place base : Nat)
  | evaluationComplete (launch : Nat)
  | blockPlace (part : Nat)
  | launchComplete (launch : Nat)
  | ctxnext (core ctx : Nat)
  | preloadDone (core : Nat)
  | ctxstop (core : Nat)
  | drainDone (core : Nat)
  | bankExchangeDone (core : Nat)
  | spillDone (core : Nat)
  | pswapOut (part : Nat)
  | pswapIn (part : Nat)
  | swapHaltDone (part : Nat)
  | swapCopyDone (part : Nat)
  | linkFailure (die port : Nat)
  | linkProbeReply (die port : Nat)
  | linkNarrow (die port : Nat)
  | linkSleep (die port : Nat)
  | linkFull (die port : Nat)
  | lnkretrain (die : Nat) (ports : BitVec 2)
  | landingRequest (die : Nat)
  | landingGrant (die : Nat)
  | landingShip (wk : Nat)
  | landingAck (wk : Nat)
  | dieReset (die : Nat) (img : BootImage)
  | mcload (addr : Nat)
  | microcodeLoad
  | attestationRequest (part : Nat) (nonce : List Byte)
  | keyEncapsulation (part : Nat) (ct : Encapsulation)
  | bar2Access (part : Nat) (op : BarOp) (addr len : Nat) (data : List Byte)
  | tdiConfigChange (part : Nat)
  | ideIntegrityFail (part : Nat)
  | ideKeyChange (part : Nat)
  | registerWrite (sel : RegSel) (reg : Nat) (val : Word)
  | illegalInstruction
  | instructionFetchFault
  | launchKill (launch : Nat)
  | graphTableUnload (part place : Nat)
  | tdiStateRequest (part st : Nat)
  | partitionCreate (part vf : Nat) (given : Allotment)
  | contextCreate (part ctx drain slice : Nat)
  deriving DecidableEq, Repr, Inhabited

/-- What moves next: an issue visit of a warp slot (R16, R19), the next bytecode of a command queue's program (R313), or
one device step. -/
inductive Act where
  | issue (wk : Nat)
  | bytecode (part q : Nat)
  | event (i : Instr)
  deriving DecidableEq, Repr, Inhabited

/-- One choice of the device or of the outside world: let `dt` ck pass, then act. -/
structure Choice where
  dt : Nat
  act : Act
  deriving DecidableEq, Repr, Inhabited

end Sys2Proof
end

