-- ==== Sys2Proof/Machine/Forms.lean ====
section
/-! DEFINITION. The legal forms of every instruction: which codes each field accepts, which types, shapes, rounding codes
and sub-ops (R160 to R181, and each instruction's own description). These are the checks of R173 that need nothing but
the word; those that need the issuing warp stand with the machine. -/

namespace Sys2Proof


/-- What an operand field of a form accepts (R164 to R168). -/
inductive FieldUse where
  /-- unused: 0x000 (R163) -/
  | zero
  /-- a source of a V-format word of class 0 or 1: any register, `%` or immediate code, and q8 to q15 -/
  | src
  /-- any v, s, `%` or immediate code -/
  | reg
  /-- a uniform code other than a handle -/
  | uni
  /-- a v or s code -/
  | vs
  /-- a destination: v, s or q8 to q15 -/
  | dst
  /-- a destination: v or q8 to q15 -/
  | dstVQ
  | dstV
  | dstS
  /-- a predicate field -/
  | pred
  /-- an inline immediate -/
  | imm
  /-- q8 to q15 -/
  | qUser
  /-- a queue of QPOP and QPEEK -/
  | qPop
  /-- a queue of QCOUNT -/
  | qCount
  /-- exactly the queue of that number -/
  | qIs (n : Nat)
  /-- a handle -/
  | hnd
  /-- a handle or `%zero` -/
  | hndZero
  /-- s0 to s60 -/
  | sQuad
  /-- a v code, or unused with 0x000, which is the code of v0 -/
  | dataV
  deriving DecidableEq, Repr, Inhabited

/-- A user FIFO number (R242). -/
def isUserQ (n : BitVec 4) : Bool := 8 ≤ n.toNat

/-- Uniform codes other than handles (R164). -/
def Opnd.uniform (o : Opnd) : Bool :=
  match o with
  | .s _ => true
  | .sp .laneid => false
  | .sp _ => true
  | .imm _ => true
  | _ => false

/-- Does the field accept the operand? -/
def FieldUse.ok (u : FieldUse) (o : Opnd) : Bool :=
  match u, o with
  | .zero, .none => true
  | .src, .v _ => true
  | .src, .s _ => true
  | .src, .q n => isUserQ n
  | .src, .sp _ => true
  | .src, .imm _ => true
  | .reg, .v _ => true
  | .reg, .s _ => true
  | .reg, .sp _ => true
  | .reg, .imm _ => true
  | .uni, .s _ => true
  | .uni, .sp x => decide (x ≠ .laneid)
  | .uni, .imm _ => true
  | .vs, .v _ => true
  | .vs, .s _ => true
  | .dst, .v _ => true
  | .dst, .s _ => true
  | .dst, .q n => isUserQ n
  | .dstVQ, .v _ => true
  | .dstVQ, .q n => isUserQ n
  | .dstV, .v _ => true
  | .dstS, .s _ => true
  | .pred, .pred _ => true
  | .imm, .imm _ => true
  | .qUser, .q n => isUserQ n
  | .qPop, .q n => isUserQ n || n == 1 || n == 3 || n == 5 || n == 7
  | .qCount, .q n => isUserQ n || n == 1 || n == 3 || n == 5 || n == 6 || n == 7
  | .qIs k, .q n => n.toNat == k
  | .hnd, .h _ => true
  | .hndZero, .h _ => true
  | .hndZero, .sp x => decide (x = .zero)
  | .sQuad, .s n => n.toNat ≤ 60
  | .dataV, .v _ => true
  | _, _ => false

/-- Width of a type in bits (R170, Table 9). -/
def VTy.width (t : VTy) : Nat :=
  match t with
  | .u8 => 8 | .s8 => 8 | .u16 => 16 | .s16 => 16 | .u32 => 32 | .s32 => 32 | .u64 => 64 | .s64 => 64
  | .f16 => 16 | .bf16 => 16 | .f32 => 32 | .f64 => 64 | .e4m3 => 8 | .e5m2 => 8 | .t8 => 8 | .t6 => 8

/-- Width of a shape in bits (R170). -/
def Shape.width (s : Shape) : Nat :=
  match s with
  | .w64 => 64 | .w32 => 32 | .w16 => 16 | .w8 => 8

/-- The integer types, codes 0 to 7. -/
def VTy.isInt (t : VTy) : Bool :=
  match t with
  | .u8 => true | .s8 => true | .u16 => true | .s16 => true | .u32 => true | .s32 => true | .u64 => true
  | .s64 => true | _ => false

/-- The signed integer types. -/
def VTy.signed (t : VTy) : Bool :=
  match t with
  | .s8 => true | .s16 => true | .s32 => true | .s64 => true | _ => false

/-- The tapered types (R88). -/
def VTy.tapered (t : VTy) : Bool :=
  match t with
  | .t8 => true | .t6 => true | _ => false

/-- The type of a code (R170, Table 9). -/
def VTy.ofCode (n : Nat) : VTy :=
  match n % 16 with
  | 0 => .u8 | 1 => .s8 | 2 => .u16 | 3 => .s16 | 4 => .u32 | 5 => .s32 | 6 => .u64 | 7 => .s64 | 8 => .f16
  | 9 => .bf16 | 10 => .f32 | 11 => .f64 | 12 => .e4m3 | 13 => .e5m2 | 14 => .t8 | _ => .t6

/-- The code of a type. -/
def VTy.code (t : VTy) : Nat :=
  match t with
  | .u8 => 0 | .s8 => 1 | .u16 => 2 | .s16 => 3 | .u32 => 4 | .s32 => 5 | .u64 => 6 | .s64 => 7 | .f16 => 8
  | .bf16 => 9 | .f32 => 10 | .f64 => 11 | .e4m3 => 12 | .e5m2 => 13 | .t8 => 14 | .t6 => 15

/-- Which types and shapes a form takes. -/
inductive TyRule where
  /-- an integer type as wide as the shape (R194) -/
  | int
  /-- a signed integer type -/
  | sint
  /-- S32 or U32 -/
  | dot4
  /-- U32 or U64 -/
  | lea
  /-- a float or tapered type (R198) -/
  | float
  /-- any type -/
  | any
  /-- U64 with shape 0b00 -/
  | u64
  /-- F16, BF16 or F32 (R101, R204, R205) -/
  | half
  /-- F16, BF16, F32 or F64 (R101) -/
  | root
  /-- type 0, shape 0b00 (R193) -/
  | none
  /-- U8, shape 0b11 (R203) -/
  | bytes
  /-- destination type, and source type in the sub-op, shape of the wider (R201) -/
  | cvt
  deriving DecidableEq, Repr, Inhabited

/-- Does the rule accept the type, shape and sub-op? -/
def TyRule.ok (r : TyRule) (t : VTy) (sh : Shape) (sub : BitVec 4) : Bool :=
  let same := t.width == sh.width
  match r with
  | .int => t.isInt && same
  | .sint => t.signed && same
  | .dot4 => (t == .u32 || t == .s32) && same
  | .lea => (t == .u32 || t == .u64) && same
  | .float => !t.isInt && same
  | .any => same
  | .u64 => t == .u64 && sh == .w64
  | .half => (t == .f16 || t == .bf16 || t == .f32) && same
  | .root => (t == .f16 || t == .bf16 || t == .f32 || t == .f64) && same
  | .none => t == .u8 && sh == .w64
  | .bytes => t == .u8 && sh == .w8
  | .cvt => sh.width == max t.width (VTy.ofCode sub.toNat).width

/-- Which rounding codes a form takes. -/
inductive RndRule where
  /-- 0b000 only -/
  | zero
  /-- any of Table 7; to a tapered type RNE or as-mode (R90, R198) -/
  | float
  /-- any of Table 7 -/
  | any
  /-- R171: zero between integer types; R90 for a tapered destination -/
  | cvt
  /-- XRED and XSCAN: as a float instruction, zero for an integer type (R171, R214) -/
  | fold
  deriving DecidableEq, Repr, Inhabited

/-- The fold operation of XRED and XSCAN is `.add`. -/
def subIsAdd (sub : BitVec 4) : Bool := sub == 0 || sub == 8

/-- Does the rule accept the rounding code? -/
def RndRule.ok (r : RndRule) (t : VTy) (sub : BitVec 4) (m : Rnd) : Bool :=
  let tap := m == .rne || m == .dyn
  match r with
  | .zero => m == .rne
  | .float => !t.tapered || tap
  | .any => true
  | .cvt => if t.isInt && (VTy.ofCode sub.toNat).isInt then m == .rne else (!t.tapered || tap)
  | .fold => if t.isInt then m == .rne else (!t.tapered || tap)

/-- Which sub-ops a form takes (R179, R202 to R204). -/
inductive SubRule where
  | zero
  /-- exactly 1, MOV.u -/
  | one
  /-- 0 to 5: comparisons and predicate logic -/
  | cond
  /-- XRED -/
  | xred
  /-- XSCAN -/
  | xscan
  /-- XVOTE -/
  | vote
  /-- CVT: any -/
  | any
  /-- PACK, UNPACK: 0 to 8 -/
  | pack
  /-- QNT, DQNT: 0 to 4, 7, 8 -/
  | quant
  deriving DecidableEq, Repr, Inhabited

/-- Does the rule accept the sub-op, at the type? -/
def SubRule.ok (r : SubRule) (t : VTy) (sub : BitVec 4) : Bool :=
  let n := sub.toNat
  match r with
  | .zero => n == 0
  | .one => n == 1
  | .cond => n ≤ 5
  | .xred => n ≤ 5 && (t.isInt || n ≤ 2)
  | .xscan => (n ≤ 5 || (8 ≤ n && n ≤ 13)) && (t.isInt || n % 8 ≤ 2)
  | .vote => n ≤ 2
  | .any => true
  | .pack => n ≤ 8
  | .quant => n ≤ 4 || n == 7 || n == 8

/-- Which saturate bits a form takes. -/
inductive SatRule where
  | zero | any
  /-- XRED and XSCAN: with `.add` (R214, R216) -/
  | fold
  deriving DecidableEq, Repr, Inhabited

/-- Does the rule accept the saturate bit? -/
def SatRule.ok (r : SatRule) (sub : BitVec 4) (sat : Bool) : Bool :=
  match r with
  | .zero => !sat
  | .any => true
  | .fold => !sat || subIsAdd sub

/-- Rules of one form that bind several fields. -/
inductive VExtra where
  | none
  /-- FDOT2: pairs within one file (R199) -/
  | dot2
  /-- CVT: the part number in srcB (R201) -/
  | cvt
  /-- PACK: srcB used by the 4-bit formats only (R203) -/
  | pack
  /-- UNPACK: the part number in srcB (R203) -/
  | unpack
  /-- PLOP: pb 0 under `.not` and `.mov` (R208) -/
  | plop
  deriving DecidableEq, Repr, Inhabited

/-- A V-format form. `sdst`: an s destination may stand beside a source that is not uniform (R168, R188). -/
structure VForm where
  d : FieldUse := .dst
  a : FieldUse := .src
  b : FieldUse := .zero
  c : FieldUse := .zero
  ty : TyRule := .int
  rnd : RndRule := .zero
  sat : SatRule := .zero
  sub : SubRule := .zero
  sdst : Bool := false
  extra : VExtra := .none
  deriving DecidableEq, Repr, Inhabited

/-- Is the operand a queue code? -/
def Opnd.isQ (o : Opnd) : Bool :=
  match o with
  | .q _ => true
  | _ => false

/-- Is the operand an s code? -/
def Opnd.isS (o : Opnd) : Bool :=
  match o with
  | .s _ => true
  | _ => false

/-- A source that needs no lane: a uniform code or an unused field. -/
def Opnd.laneless (o : Opnd) : Bool :=
  match o with
  | .none => true
  | o => Opnd.uniform o

/-- At most one queue code among the sources, and not the destination's (R167). -/
def queuesOk (d a b c : Opnd) : Bool :=
  let n := (if a.isQ then 1 else 0) + (if b.isQ then 1 else 0) + (if c.isQ then 1 else 0)
  n ≤ 1 && (!d.isQ || (d != a && d != b && d != c))

/-- The part number or other small number of an inline immediate (R166). -/
def Opnd.immNat (o : Opnd) : Option Nat :=
  match o with
  | .imm n => if n.toNat < 64 then some n.toNat else Option.none
  | _ => Option.none

/-- The rules that bind several fields. -/
def VExtra.ok (x : VExtra) (i : VIns) : Bool :=
  match x with
  | .none => true
  | .dot2 =>
    let pair := fun o => match o with | Opnd.s n => decide (n.toNat < 63) | Opnd.v n => decide (n.toNat < 255) | _ => true
    pair i.a && pair i.b
  | .cvt =>
    match i.b.immNat with
    | some p => p < i.sh.width / min i.ty.width (VTy.ofCode i.sub.toNat).width
    | Option.none => false
  | .pack => true
  | .unpack =>
    match i.b.immNat with
    | some p => if i.sub == 0 || i.sub == 8 then p ≤ 1 else p == 0
    | Option.none => false
  | .plop => !(i.sub == 4 || i.sub == 5) || i.b == .pred 0

/-- What srcB accepts: PACK uses it for the 4-bit formats only (R203). -/
def VForm.bUse (f : VForm) (sub : BitVec 4) : FieldUse :=
  if f.extra == .pack && (sub == 0 || sub == 8) then .src else f.b

/-- Every static check of a V-format word. -/
def VForm.ok (f : VForm) (i : VIns) : Bool :=
  f.d.ok i.d && f.a.ok i.a && (f.bUse i.sub).ok i.b && f.c.ok i.c &&
  f.ty.ok i.ty i.sh i.sub && f.rnd.ok i.ty i.sub i.rnd && f.sat.ok i.sub i.sat && f.sub.ok i.ty i.sub &&
  (f.sdst || !i.d.isS || (i.a.laneless && i.b.laneless && i.c.laneless)) &&
  queuesOk i.d i.a i.b i.c && f.extra.ok i

/-! ### V-format forms -/

/-- `d, a` on an integer type. -/
def fInt1 : VForm := {}
/-- `d, a, b` on an integer type. -/
def fInt2 : VForm := { b := .src }
/-- `d, a, b` with saturation. -/
def fInt2s : VForm := { b := .src, sat := .any }
/-- `d, a, b, c` on an integer type. -/
def fInt3 : VForm := { b := .src, c := .src }
/-- `d, a, b, c` with saturation. -/
def fInt3s : VForm := { b := .src, c := .src, sat := .any }
/-- IABS. -/
def fIabs : VForm := { ty := .sint, sat := .any }
/-- ICMP. -/
def fIcmp : VForm := { b := .src, sub := .cond }
/-- DOT4I. -/
def fDot4 : VForm := { b := .src, c := .src, ty := .dot4, sat := .any }
/-- PERMB. -/
def fPermb : VForm := { b := .src, c := .src, ty := .u64 }
/-- LEA. -/
def fLea : VForm := { b := .src, c := .src, ty := .lea }
/-- MOV. -/
def fMov : VForm := { ty := .u64 }
/-- MOV.u. -/
def fMovU : VForm := { d := .dstS, ty := .u64, sub := .one, sdst := true }
/-- SEL. -/
def fSel : VForm := { d := .dstV, b := .src, c := .pred, ty := .u64 }
/-- `d, a, b` on a float type. -/
def fFlt2 : VForm := { b := .src, ty := .float, rnd := .float, sat := .any }
/-- `d, a, b, c` on a float type. -/
def fFlt3 : VForm := { b := .src, c := .src, ty := .float, rnd := .float, sat := .any }
/-- FMIN and FMAX. -/
def fFmin : VForm := { b := .src, ty := .float }
/-- FABS and FNEG. -/
def fFabs : VForm := { ty := .float }
/-- FCMP. -/
def fFcmp : VForm := { b := .src, ty := .float, sub := .cond }
/-- FCLASS. -/
def fFclass : VForm := { b := .uni, ty := .float }
/-- FRND. -/
def fFrnd : VForm := { ty := .float, rnd := .float }
/-- FDOT2. -/
def fDot2 : VForm := { a := .vs, b := .vs, c := .src, ty := .float, rnd := .float, sat := .any, extra := .dot2 }
/-- CVT. -/
def fCvt : VForm := { b := .imm, ty := .cvt, rnd := .cvt, sat := .any, sub := .any, extra := .cvt }
/-- PACK. -/
def fPack : VForm := { ty := .bytes, sub := .pack, extra := .pack }
/-- UNPACK. -/
def fUnpack : VForm := { b := .imm, ty := .bytes, sub := .pack, extra := .unpack }
/-- QNT. -/
def fQnt : VForm := { d := .dstV, ty := .half, rnd := .any, sub := .quant }
/-- DQNT. -/
def fDqnt : VForm := { b := .src, ty := .half, rnd := .any, sub := .quant }
/-- RCP, RSQ and SQRT. -/
def fRoot : VForm := { ty := .root }
/-- EXP2 to SIGM. -/
def fTrans : VForm := { ty := .half }
/-- PSET. -/
def fPset : VForm := { d := .pred, b := .src, ty := .any, sub := .cond }
/-- PLOP. -/
def fPlop : VForm := { d := .pred, a := .pred, b := .pred, ty := .none, sub := .cond, extra := .plop }
/-- XPULL. -/
def fXpull : VForm := { d := .dstVQ, b := .src, c := .src, ty := .any }
/-- XPUSH. -/
def fXpush : VForm := { d := .dstVQ, b := .src, ty := .any }
/-- XSHUF. -/
def fXshuf : VForm := { d := .dstVQ, b := .uni, c := .src, ty := .any }
/-- XBCAST. -/
def fXbcast : VForm := { b := .uni, c := .src, ty := .any, sdst := true }
/-- XRED. -/
def fXred : VForm := { c := .src, ty := .any, rnd := .fold, sat := .fold, sub := .xred, sdst := true }
/-- XSCAN. -/
def fXscan : VForm := { d := .dstVQ, c := .src, ty := .any, rnd := .fold, sat := .fold, sub := .xscan }
/-- XBALLOT. -/
def fXballot : VForm := { a := .pred, ty := .none, sdst := true }
/-- XMATCH. -/
def fXmatch : VForm := { d := .dstVQ, ty := .u64 }
/-- XVOTE. -/
def fXvote : VForm := { d := .pred, a := .pred, ty := .none, sub := .vote }
/-- QPUSH. -/
def fQpush : VForm := { d := .qUser, a := .reg, ty := .u64 }
/-- QPOP and QPEEK. -/
def fQpop : VForm := { d := .dstV, a := .qPop, ty := .u64 }
/-- QCOUNT. -/
def fQcount : VForm := { d := .dstV, a := .qCount, ty := .u64 }

/-! ### I-format forms -/

/-- An I-format form: its fields, and the bits of imm32 that may be set. -/
structure IForm where
  d : FieldUse := .zero
  a : FieldUse := .zero
  immMask : BitVec 32 := 0xFFFFFFFF
  bar : Bool := false
  deriving DecidableEq, Repr, Inhabited

/-- What srcA accepts: a barrier word with IDR set takes its number from it (R237). -/
def IForm.aUse (f : IForm) (imm : BitVec 32) : FieldUse :=
  if f.bar then (if imm.getLsbD 7 then .uni else .zero) else f.a

/-- Every static check of an I-format word. A barrier word with IDR set holds zero in imm32 [6:0] (R237). -/
def IForm.ok (f : IForm) (i : IIns) : Bool :=
  f.d.ok i.d && (f.aUse i.imm).ok i.a && (i.imm &&& ~~~f.immMask) == 0 && (!i.d.isS || i.a.laneless) &&
  (!(f.bar && i.imm.getLsbD 7) || (i.imm &&& 0x7F) == 0)

/-- MOVI, MOVI.hi and MOVI.x2. -/
def fMovi : IForm := { d := .vs }
/-- The immediate forms with srcA. -/
def fImm : IForm := { d := .vs, a := .reg }
/-- REP. -/
def fRep : IForm := { immMask := 0x3FFF }
/-- BARARV and BARSYNC. -/
def fBar : IForm := { immMask := 0x3FFF, bar := true }
/-- BARWT. -/
def fBarwt : IForm := { immMask := 0xFF, bar := true }
/-- TFENCE. -/
def fTfence : IForm := { immMask := 0 }
/-- TRAP. -/
def fTrap : IForm := { immMask := 0xFFFF }
/-- TRET. -/
def fTret : IForm := { immMask := 1 }
/-- RDSR. -/
def fRdsr : IForm := { d := .vs, immMask := 0xFFF }
/-- WRSR. -/
def fWrsr : IForm := { a := .uni, immMask := 0xFFF }
/-- CLOCK. -/
def fClock : IForm := { d := .vs, immMask := 0 }
/-- SLEEP. -/
def fSleep : IForm := { a := .uni }

/-! ### M-format forms -/

/-- Which order and scope combinations a form takes (R136). -/
inductive OrdRule where
  /-- plain with scope 0, or acquire with scope 1 to 7 -/
  | load
  /-- plain with scope 0, or release with scope 1 to 7 -/
  | store
  /-- any order, scope 1 to 7 -/
  | atom
  /-- plain or release, scope 1 to 7 -/
  | red
  /-- acquire, release or acq_rel, scope 1 to 7 -/
  | fence
  /-- order 0, scope 1 to 7 -/
  | scoped
  /-- order 0, scope 0 -/
  | none
  deriving DecidableEq, Repr, Inhabited

/-- Does the rule accept the order and scope? -/
def OrdRule.ok (r : OrdRule) (ord : BitVec 2) (scope : BitVec 3) : Bool :=
  let some_ := scope != 0
  match r with
  | .load => if ord == 0 then !some_ else ord == 1 && some_
  | .store => if ord == 0 then !some_ else ord == 2 && some_
  | .atom => some_
  | .red => (ord == 0 || ord == 2) && some_
  | .fence => ord != 0 && some_
  | .scoped => ord == 0 && some_
  | .none => ord == 0 && !some_

/-- The size and operation rules of the M-format forms (R181, R224, R234). -/
inductive MKind where
  /-- any size 0 to 6, a 10-bit offset -/
  | plain
  | atom | red | atom64
  | waitaddr
  /-- size and hint 0, offset bit 0 only: BIND and UNBIND -/
  | bind
  /-- size, offset and hint 0 -/
  | sync
  deriving DecidableEq, Repr, Inhabited

/-- An M-format form. -/
structure MForm where
  data : FieldUse
  base : FieldUse := .reg
  idx : FieldUse := .reg
  ord : OrdRule
  kind : MKind := .plain
  deriving DecidableEq, Repr, Inhabited

/-- The operation code of ATOM, RED, ATOM64B and WAITADDR: word bits [22:18] (R162). -/
def MIns.aop (i : MIns) : Nat := (i.off >>> 5).toNat

/-- Is the ATOM operation legal at the size code? (R181, R224) -/
def atomOpOk (op size : Nat) : Bool :=
  if op ≤ 9 then size == 2 || size == 3
  else if op ≤ 12 then size == 1 || size == 2 || size == 3
  else op == 13 && size == 1

/-- The size, operation and hint checks. -/
def MKind.ok (k : MKind) (i : MIns) : Bool :=
  let size := i.size.toNat
  match k with
  | .plain => size ≤ 6
  | .atom => atomOpOk i.aop size
  | .red => atomOpOk i.aop size && i.aop != 8 && i.aop != 9
  | .atom64 => size == 6 && (i.aop == 8 || i.aop == 9)
  | .waitaddr => (size == 2 || size == 3) && i.aop ≤ 5 && i.hint == 0
  | .bind => size == 0 && i.hint == 0 && (i.off &&& ~~~(1 : BitVec 10)) == 0
  | .sync => size == 0 && i.hint == 0 && i.off == 0

/-- How many registers the data operand occupies (R218, R224, R225). -/
def MKind.group (k : MKind) (i : MIns) : Nat :=
  match k with
  | .plain => if i.size.toNat ≤ 3 then 1 else 2 ^ (i.size.toNat - 3)
  | .atom => if i.aop == 9 then 2 else 1
  | .atom64 => if i.aop == 9 then 16 else 8
  | _ => 1

/-- A group of registers stays in its file; a code that is no register makes no group of several (R169, R172, R218). -/
def groupOk (o : Opnd) (n : Nat) : Bool :=
  match o with
  | .v r => r.toNat + n ≤ 256
  | .s r => r.toNat + n ≤ 64
  | .none => true
  | _ => n ≤ 1

/-- Every static check of an M-format word: fields, order and scope, size, space (R59, R73). -/
def MForm.ok (f : MForm) (i : MIns) : Bool :=
  f.data.ok i.data && f.base.ok i.base && f.idx.ok i.idx && f.ord.ok i.ord i.scope && f.kind.ok i &&
  groupOk i.data (f.kind.group i) &&
  (i.space == 0 || i.space == 1 || i.space == 4 || i.space == 5) &&
  (!(i.space == 1 || i.space == 4) || i.scope.toNat ≤ 3)

/-- LD. -/
def fLd : MForm := { data := .dstV, ord := .load }
/-- ST. -/
def fSt : MForm := { data := .reg, ord := .store }
/-- LDU. -/
def fLdu : MForm := { data := .dstS, base := .uni, idx := .uni, ord := .load }
/-- ATOM. -/
def fAtom : MForm := { data := .dstV, ord := .atom, kind := .atom }
/-- RED. -/
def fRed : MForm := { data := .reg, ord := .red, kind := .red }
/-- ATOM64B. -/
def fAtom64 : MForm := { data := .dstV, ord := .atom, kind := .atom64 }
/-- BIND and UNBIND. -/
def fBind : MForm := { data := .uni, base := .uni, idx := .uni, ord := .none, kind := .bind }
/-- ACQ. -/
def fAcq : MForm := { data := .dstS, base := .uni, idx := .uni, ord := .scoped, kind := .sync }
/-- REL. -/
def fRel : MForm := { data := .zero, base := .uni, idx := .uni, ord := .scoped, kind := .sync }
/-- FENCE; its space is 0, which the decoder checks with its fields. -/
def fFence : MForm := { data := .zero, base := .zero, idx := .zero, ord := .fence, kind := .sync }
/-- PREFETCH. -/
def fPrefetch : MForm := { data := .zero, ord := .none }
/-- WAITADDR. -/
def fWaitaddr : MForm := { data := .uni, base := .uni, idx := .uni, ord := .load, kind := .waitaddr }

/-! ### B-format forms -/

/-- A B-format form (R278): is the offset used, the two operand fields, and the bits of [5:0] that may be set. -/
structure BForm where
  off : Bool := false
  a : FieldUse := .zero
  b : FieldUse := .zero
  loMask : BitVec 6 := 0
  deriving DecidableEq, Repr, Inhabited

/-- The checks of a B-format word that its form states. -/
def BForm.ok (f : BForm) (i : BIns) : Bool :=
  (f.off || i.off == 0) && f.a.ok i.a && f.b.ok i.b && (i.lo &&& ~~~f.loMask) == 0

/-- BRA and LOOPX. -/
def fBra : BForm := { off := true }
/-- BRX. -/
def fBrx : BForm := { off := true, a := .reg }
/-- CALL. -/
def fCall : BForm := { off := true, a := .vs }
/-- RET. -/
def fRet : BForm := { a := .vs }
/-- LOOP. -/
def fLoop : BForm := { off := true, a := .reg }
/-- EXIT, NOP, YIELD and SPAWNFL. -/
def fNop : BForm := {}
/-- ELECT. -/
def fElect : BForm := { a := .pred }
/-- SPAWN. -/
def fSpawn : BForm := { off := true, a := .uni, b := .dataV, loMask := 0x3C }
/-- JOIN. -/
def fJoin : BForm := { a := .uni, loMask := 0x04 }
/-- EMIT. -/
def fEmit : BForm := { a := .uni, b := .dataV, loMask := 0x3C }
/-- MIGRATE and LWAKE. -/
def fMigrate : BForm := { a := .uni }

/-- LOOP's offset is at least 2 (R278). -/
def loopOffOk (i : BIns) : Bool := 2 ≤ i.off.toInt

/-- SPAWN's count is not 7, and with n = 0 the payload field holds 0x000, the code of v0 (R278). -/
def spawnOk (i : BIns) : Bool :=
  (i.lo >>> 3).toNat ≠ 7 && ((i.lo >>> 3).toNat ≠ 0 || i.b == .v 0)

/-! ### X-format forms -/

/-- An X-format form (R247). `t9`: field [22:14] used; `fmt`: format fields used; the bits of [5:3] and [2:0] that may be
set; `arr`: [1:0] is ARR. -/
structure XForm where
  q : FieldUse := .zero
  a : FieldUse := .zero
  b : FieldUse := .zero
  t9 : Nat := 0
  fa : Bool := false
  fb : Bool := false
  ladMask : BitVec 3 := 0
  flMask : BitVec 3 := 0
  arr : Bool := false
  deriving DecidableEq, Repr, Inhabited

/-- MX with a format that R92 excludes. -/
def mxOk (fmt scl : Nat) : Bool := scl == 0 || (scl == 1 && (fmt ≤ 4 || fmt == 7 || fmt == 8))

/-- RF: ladder-control bit [5] (R108). -/
def XIns.rf (i : XIns) : Bool := i.lad.getLsbD 2
/-- MON: ladder-control bit [4] (R108). -/
def XIns.mon (i : XIns) : Bool := i.lad.getLsbD 1

/-- Every static check of an X-format word. `t9` is the largest value field [22:14] may hold. -/
def XForm.ok (f : XForm) (i : XIns) : Bool :=
  f.q.ok i.q && f.a.ok i.a && f.b.ok i.b && i.t.toNat ≤ f.t9 &&
  (if f.fa && !i.rf then i.fa.toNat ≤ 10 else i.fa == 0) &&
  (if f.fb && !i.rf then i.fb.toNat ≤ 10 else i.fb == 0) &&
  (i.lad &&& ~~~f.ladMask) == 0 && (i.fl &&& ~~~f.flMask) == 0 &&
  (!f.arr || (i.fl &&& 3) != 3)

/-- MLDW. -/
def fMldw : XForm := { q := .qIs 0, b := .hnd, fb := true, ladMask := 4, flMask := 7, arr := true }
/-- MMA, MMAS and MMAG. -/
def fMma : XForm :=
  { q := .qIs 0, a := .hnd, b := .hndZero, t9 := 511, fa := true, fb := true, ladMask := 6, flMask := 7, arr := true }
/-- MZERO. -/
def fMzero : XForm := { q := .qIs 0, a := .imm, t9 := 511, flMask := 7, arr := true }
/-- MRD. -/
def fMrd : XForm := { q := .dstV, a := .uni, t9 := 511, flMask := 2 }
/-- MWR. -/
def fMwr : XForm := { q := .dstV, a := .uni, t9 := 511, flMask := 3 }
/-- TXBEGIN and TXABORT. -/
def fTx : XForm := {}
/-- TXCOMMIT. -/
def fTxcommit : XForm := { a := .uni, flMask := 3 }
/-- TXSTAT and MONRD. -/
def fTxstat : XForm := { q := .vs }
/-- MONSET. -/
def fMonset : XForm := { a := .uni }
/-- HMAKE. -/
def fHmake : XForm := { q := .hnd, a := .sQuad }
/-- HSET. -/
def fHset : XForm := { q := .hnd, a := .uni, flMask := 3 }
/-- CPY. -/
def fCpy : XForm := { q := .qIs 2, a := .hnd, b := .hnd, t9 := 60, flMask := 3 }
/-- COLL. -/
def fColl : XForm := { q := .qIs 4, a := .hnd, b := .hnd, t9 := 62, flMask := 7 }

/-- With B field `%zero` the B format field must be 0 (R260). -/
def mmaLatchOk (i : XIns) : Bool := i.b != .sp .zero || i.fb == 0

/-- Format 0xA must be both operands' format or neither's (R259), where both stand in the word. -/
def mmaSplitOk (i : XIns) : Bool := i.rf || i.b == .sp .zero || (i.fa == 10) == (i.fb == 10)

end Sys2Proof
end

