-- ==== Sys2Proof/WellFormed.lean ====
section
/-! DEFINITION. Which instructions a word can encode: the static checks of R173, one line for each constructor. -/

namespace Sys2Proof

/-- MZERO's srcA is an immediate 0 to 4 (R266). -/
def mzeroOk (i : XIns) : Bool :=
  match i.a.immNat with
  | some n => n ≤ 4
  | Option.none => false

/-- TXCOMMIT with ORD names an object (R268). -/
def txcommitOk (i : XIns) : Bool := !(i.fl.getLsbD 0) || i.a != .sp .zero

/-- The bits of IMM that a queue bytecode uses (R314, Table 1). -/
def qMask (i : Instr) : BitVec 16 :=
  match i with
  | .qpPkw _ => 7
  | .qpLdi _ => 0xFFFF
  | .qpShli _ => 0x3F
  | .qpAdd _ => 0xF
  | .qpAnd _ => 0xF
  | .qpOr _ => 0xF
  | .qpRdw _ => 7
  | .qpWrw _ => 7
  | .qpJz _ => 0xFFFF
  | .qpRept _ => 0xFFFF
  | .qpLaunch _ => 7
  | .qpGraph _ => 0
  | .qpOrder _ => 0
  | .qpEnd _ => 0
  | _ => 0

/-- A bytecode with no unused IMM bit set, a JZ that skips something, a REPT that runs something (R314). -/
def qOk (i : Instr) (q : QIns) : Bool := (q.imm &&& ~~~(qMask i)) == 0

/-- The static checks of R173 on an instruction. Device steps have no word: of them there is nothing to check. -/
def Instr.wf (i : Instr) : Bool :=
  match i with
  | .iadd i => fInt2s.ok i
  | .isub i => fInt2s.ok i
  | .imul i => fInt2s.ok i
  | .imulh i => fInt2.ok i
  | .imad i => fInt3s.ok i
  | .imin i => fInt2.ok i
  | .imax i => fInt2.ok i
  | .iabs i => fIabs.ok i
  | .isad i => fInt3s.ok i
  | .icmp i => fIcmp.ok i
  | .dot4i i => fDot4.ok i
  | .iand i => fInt2.ok i
  | .ior i => fInt2.ok i
  | .ixor i => fInt2.ok i
  | .iandn i => fInt2.ok i
  | .inot i => fInt1.ok i
  | .shl i => fInt2.ok i
  | .shr i => fInt2.ok i
  | .sar i => fInt2.ok i
  | .rot i => fInt2.ok i
  | .bfe i => fInt2.ok i
  | .bfi i => fInt3.ok i
  | .popc i => fInt1.ok i
  | .clz i => fInt1.ok i
  | .ctz i => fInt1.ok i
  | .brev i => fInt1.ok i
  | .permb i => fPermb.ok i
  | .lea i => fLea.ok i
  | .mov i => fMov.ok i
  | .movU i => fMovU.ok i
  | .sel i => fSel.ok i
  | .movi i => fMovi.ok i
  | .iaddImm i => fImm.ok i
  | .imulImm i => fImm.ok i
  | .andImm i => fImm.ok i
  | .orImm i => fImm.ok i
  | .xorImm i => fImm.ok i
  | .moviHi i => fMovi.ok i
  | .moviX2 i => fMovi.ok i
  | .fadd i => fFlt2.ok i
  | .fmul i => fFlt2.ok i
  | .ffma i => fFlt3.ok i
  | .fmin i => fFmin.ok i
  | .fmax i => fFmin.ok i
  | .fabs i => fFabs.ok i
  | .fneg i => fFabs.ok i
  | .fcmp i => fFcmp.ok i
  | .fclass i => fFclass.ok i
  | .frnd i => fFrnd.ok i
  | .fscale i => fFlt2.ok i
  | .fdot2 i => fDot2.ok i
  | .cvt i => fCvt.ok i
  | .pack i => fPack.ok i
  | .unpack i => fUnpack.ok i
  | .qnt i => fQnt.ok i
  | .dqnt i => fDqnt.ok i
  | .rcp i => fRoot.ok i
  | .rsq i => fRoot.ok i
  | .sqrt i => fRoot.ok i
  | .exp2 i => fTrans.ok i
  | .log2 i => fTrans.ok i
  | .sin i => fTrans.ok i
  | .cos i => fTrans.ok i
  | .tanh i => fTrans.ok i
  | .sigm i => fTrans.ok i
  | .pset i => fPset.ok i
  | .plop i => fPlop.ok i
  | .xpull i => fXpull.ok i
  | .xpush i => fXpush.ok i
  | .xshuf i => fXshuf.ok i
  | .xbcast i => fXbcast.ok i
  | .xred i => fXred.ok i
  | .xscan i => fXscan.ok i
  | .xballot i => fXballot.ok i
  | .xmatch i => fXmatch.ok i
  | .xvote i => fXvote.ok i
  | .rep i => fRep.ok i
  | .ld i => fLd.ok i
  | .st i => fSt.ok i
  | .ldu i => fLdu.ok i
  | .atom i => fAtom.ok i
  | .red i => fRed.ok i
  | .atom64b i => fAtom64.ok i
  | .bind i => fBind.ok i
  | .unbind i => fBind.ok i
  | .acq i => fAcq.ok i
  | .rel i => fRel.ok i
  | .fence i => fFence.ok i && i.space == 0
  | .prefetch i => fPrefetch.ok i
  | .bra i => fBra.ok i
  | .brx i => fBrx.ok i
  | .call i => fCall.ok i
  | .ret i => fRet.ok i
  | .loop i => fLoop.ok i && loopOffOk i
  | .loopx i => fBra.ok i
  | .exit i => fNop.ok i
  | .nop i => fNop.ok i
  | .yield i => fNop.ok i
  | .elect i => fElect.ok i
  | .spawn i => fSpawn.ok i && spawnOk i
  | .spawnfl i => fNop.ok i
  | .join i => fJoin.ok i
  | .emit i => fEmit.ok i
  | .migrate i => fMigrate.ok i
  | .lwake i => fMigrate.ok i
  | .bararv i => fBar.ok i
  | .barwt i => fBarwt.ok i
  | .barsync i => fBar.ok i
  | .waitaddr i => fWaitaddr.ok i
  | .qpush i => fQpush.ok i
  | .qpop i => fQpop.ok i
  | .qpeek i => fQpop.ok i
  | .qcount i => fQcount.ok i
  | .mldw i => fMldw.ok i
  | .mma i => fMma.ok i && mmaLatchOk i && mmaSplitOk i
  | .mmas i => fMma.ok i && mmaLatchOk i && mmaSplitOk i
  | .mmag i => fMma.ok i && mmaLatchOk i && mmaSplitOk i
  | .mzero i => fMzero.ok i && mzeroOk i
  | .mrd i => fMrd.ok i
  | .mwr i => fMwr.ok i && i.fl.getLsbD 0
  | .txbegin i => fTx.ok i
  | .txcommit i => fTxcommit.ok i && txcommitOk i
  | .txabort i => fTx.ok i
  | .txstat i => fTxstat.ok i
  | .monset i => fMonset.ok i
  | .monrd i => fTxstat.ok i
  | .hmake i => fHmake.ok i
  | .hset i => fHset.ok i
  | .cpy i => fCpy.ok i
  | .coll i => fColl.ok i && i.fl.toNat ≤ 4
  | .tfence i => fTfence.ok i
  | .trap i => fTrap.ok i
  | .tret i => fTret.ok i
  | .rdsr i => fRdsr.ok i
  | .wrsr i => fWrsr.ok i
  | .clock i => fClock.ok i
  | .sleep i => fSleep.ok i
  | .qpPkw i => qOk (.qpPkw i) i
  | .qpLdi i => qOk (.qpLdi i) i
  | .qpShli i => qOk (.qpShli i) i
  | .qpAdd i => qOk (.qpAdd i) i
  | .qpAnd i => qOk (.qpAnd i) i
  | .qpOr i => qOk (.qpOr i) i
  | .qpRdw i => qOk (.qpRdw i) i
  | .qpWrw i => qOk (.qpWrw i) i
  | .qpJz i => qOk (.qpJz i) i && i.imm != 0
  | .qpRept i => qOk (.qpRept i) i && (i.imm &&& 0xFF) != 0 && i.imm >>> 8 != 0
  | .qpLaunch i => qOk (.qpLaunch i) i
  | .qpGraph i => qOk (.qpGraph i) i
  | .qpOrder i => qOk (.qpOrder i) i
  | .qpEnd i => qOk (.qpEnd i) i
  | .storeDrain _ _ => true
  | .sliceFill _ _ _ => true
  | .sliceWriteBack _ _ => true
  | .sliceEvict _ _ => true
  | .crossbarDeliver _ _ => true
  | .hostAcknowledge _ => true
  | .f64SecondHalf _ => true
  | .warpStart _ => true
  | .warpUnblock _ => true
  | .warpRetire _ => true
  | .warpPark _ => true
  | .warpUnpark _ _ => true
  | .frameSave _ => true
  | .waitaddrPoll _ => true
  | .joinPoll _ => true
  | .sleepExpire _ => true
  | .gatherTimeout _ => true
  | .childWarpPlace _ _ => true
  | .spawnSpillRefill _ => true
  | .orderedCommitProceed _ => true
  | .orderedCommitSkip _ => true
  | .commitRecordRelease _ => true
  | .deltaMerge _ => true
  | .matrixRetire _ => true
  | .matrixOperandFault _ => true
  | .matrixWatchdog _ => true
  | .matrixResetDone _ => true
  | .mxresetTake _ => true
  | .tilewalkComplete _ _ => true
  | .engineSegmentFault _ _ _ _ _ _ => true
  | .permitReturn _ _ _ _ _ => true
  | .collectiveComplete _ _ _ => true
  | .faultEventPost _ _ => true
  | .priResponse _ _ _ => true
  | .atsInvalidate _ _ _ => true
  | .fresolveRetry _ _ => true
  | .fresolveDeliver _ _ => true
  | .invgo _ => true
  | .invalidationComplete _ => true
  | .doorbell _ _ => true
  | .commandPacket _ _ => true
  | .queueResume _ _ => true
  | .queueProgramLoad _ _ _ _ _ _ _ => true
  | .graphTableLoad _ _ _ => true
  | .evaluationComplete _ => true
  | .blockPlace _ => true
  | .launchComplete _ => true
  | .ctxnext _ _ => true
  | .preloadDone _ => true
  | .ctxstop _ => true
  | .drainDone _ => true
  | .bankExchangeDone _ => true
  | .spillDone _ => true
  | .pswapOut _ => true
  | .pswapIn _ => true
  | .swapHaltDone _ => true
  | .swapCopyDone _ => true
  | .linkFailure _ _ => true
  | .linkProbeReply _ _ => true
  | .linkNarrow _ _ => true
  | .linkSleep _ _ => true
  | .linkFull _ _ => true
  | .lnkretrain _ _ => true
  | .landingRequest _ => true
  | .landingGrant _ => true
  | .landingShip _ => true
  | .landingAck _ => true
  | .dieReset _ _ => true
  | .mcload _ => true
  | .microcodeLoad => true
  | .attestationRequest _ _ => true
  | .keyEncapsulation _ _ => true
  | .bar2Access _ _ _ _ _ => true
  | .tdiConfigChange _ => true
  | .ideIntegrityFail _ => true
  | .ideKeyChange _ => true
  | .registerWrite _ _ _ => true
  | .illegalInstruction => true
  | .instructionFetchFault => true
  | .launchKill _ => true
  | .graphTableUnload _ _ => true
  | .tdiStateRequest _ _ => true
  | .partitionCreate _ _ _ => true
  | .contextCreate _ _ _ _ => true

end Sys2Proof
end

