-- ==== Sys2Proof/Decode.lean ====
section
/-! DEFINITION. The decoder of instruction words, clause headers and queue bytecodes, and the encoder, both from the
tables of 07_encoding_assembler.md and of R314. Decoding is total: a pattern that is no instruction gives `none`. -/

namespace Sys2Proof

/-- Bits `hi` to `lo` of a number. -/
def bits (w hi lo : Nat) : Nat := w / 2 ^ lo % 2 ^ (hi + 1 - lo)

/-! ### Operand codes -/

/-- The `%` value of a code (R165, Table 7). -/
def Special.ofCode (n : Nat) : Option Special :=
  match n with
  | 0x160 => some .zero | 0x161 => some .ones | 0x162 => some .laneid | 0x163 => some .warpid | 0x164 => some .coreid
  | 0x165 => some .clusterid | 0x166 => some .stackid | 0x167 => some .dieid | 0x168 => some .blockidx
  | 0x169 => some .rung | 0x16A => some .txseq | 0x16B => some .argbase | 0x16C => some .nblocks
  | 0x16D => some .depth | 0x16E => some .nwarps | _ => none

/-- The code of a `%` value. -/
def Special.code (x : Special) : Nat :=
  match x with
  | .zero => 0x160 | .ones => 0x161 | .laneid => 0x162 | .warpid => 0x163 | .coreid => 0x164 | .clusterid => 0x165
  | .stackid => 0x166 | .dieid => 0x167 | .blockidx => 0x168 | .rung => 0x169 | .txseq => 0x16A | .argbase => 0x16B
  | .nblocks => 0x16C | .depth => 0x16D | .nwarps => 0x16E

/-- The operand of a 9-bit code (R164, Table 6). -/
def Opnd.ofCode (n : Nat) : Option Opnd :=
  if n < 0x100 then some (.v (BitVec.ofNat 8 n))
  else if n < 0x140 then some (.s (BitVec.ofNat 6 (n - 0x100)))
  else if n < 0x150 then some (.q (BitVec.ofNat 4 (n - 0x140)))
  else if n < 0x160 then some (.h (BitVec.ofNat 4 (n - 0x150)))
  else if n < 0x180 then (Special.ofCode n).map Opnd.sp
  else if n < 0x200 then some (.imm (BitVec.ofNat 7 (n - 0x180)))
  else none

/-- The 9-bit code of an operand. -/
def Opnd.code (o : Opnd) : Nat :=
  match o with
  | .v n => n.toNat
  | .s n => 0x100 + n.toNat
  | .q n => 0x140 + n.toNat
  | .h n => 0x150 + n.toNat
  | .sp x => x.code
  | .imm n => 0x180 + n.toNat
  | .pred n => n.toNat
  | .none => 0

/-- What a field of the use holds when its code is `n`. -/
def FieldUse.parse (u : FieldUse) (n : Nat) : Option Opnd :=
  match u with
  | .zero => if n = 0 then some .none else none
  | .pred => if n < 8 then some (.pred (BitVec.ofNat 3 n)) else none
  | _ => Opnd.ofCode n

/-- The rounding code (R94, Table 7). -/
def Rnd.ofCode (n : Nat) : Option Rnd :=
  match n with
  | 0 => some .rne | 1 => some .rtz | 2 => some .rup | 3 => some .rdn | 4 => some .rna | 5 => some .sr
  | 6 => some .dyn | _ => none

/-- The code of a rounding mode. -/
def Rnd.code (m : Rnd) : Nat :=
  match m with
  | .rne => 0 | .rtz => 1 | .rup => 2 | .rdn => 3 | .rna => 4 | .sr => 5 | .dyn => 6

/-- The shape of a code (R170). -/
def Shape.ofCode (n : Nat) : Shape :=
  match n with
  | 0 => .w64 | 1 => .w32 | 2 => .w16 | _ => .w8

/-- The code of a shape. -/
def Shape.code (s : Shape) : Nat :=
  match s with
  | .w64 => 0 | .w32 => 1 | .w16 => 2 | .w8 => 3

/-! ### Fields of the formats -/

/-- Bits [55:50] (R160). -/
def Guard.ofWord (w : Nat) : Guard :=
  { mark := BitVec.ofNat 2 (bits w 55 54), pred := BitVec.ofNat 3 (bits w 53 51), neg := bits w 50 50 == 1 }

/-- The opcode and the guard as the top 14 bits. -/
def headNat (op : Nat) (g : Guard) : Nat :=
  ((op * 4 + g.mark.toNat) * 8 + g.pred.toNat) * 2 + g.neg.toNat

/-- The V-format fields under a form (R162). -/
def VForm.decode (f : VForm) (w : Nat) : Option VIns := do
  let sub := BitVec.ofNat 4 (bits w 3 0)
  let d ← f.d.parse (bits w 49 41)
  let a ← f.a.parse (bits w 40 32)
  let b ← (f.bUse sub).parse (bits w 31 23)
  let c ← f.c.parse (bits w 22 14)
  let rnd ← Rnd.ofCode (bits w 7 5)
  some { g := Guard.ofWord w, d, a, b, c, ty := VTy.ofCode (bits w 13 10), sh := Shape.ofCode (bits w 9 8), rnd,
         sat := bits w 4 4 == 1, sub }

/-- The word of V-format fields. -/
def VIns.encode (op : Nat) (i : VIns) : Nat :=
  ((((((((headNat op i.g * 512 + i.d.code) * 512 + i.a.code) * 512 + i.b.code) * 512 + i.c.code) * 16 + i.ty.code) * 4
    + i.sh.code) * 8 + i.rnd.code) * 2 + i.sat.toNat) * 16 + i.sub.toNat

/-- The I-format fields under a form. -/
def IForm.decode (f : IForm) (w : Nat) : Option IIns := do
  let imm := BitVec.ofNat 32 (bits w 31 0)
  let d ← f.d.parse (bits w 49 41)
  let a ← (f.aUse imm).parse (bits w 40 32)
  some { g := Guard.ofWord w, d, a, imm }

/-- The word of I-format fields. -/
def IIns.encode (op : Nat) (i : IIns) : Nat :=
  ((headNat op i.g * 512 + i.d.code) * 512 + i.a.code) * 2 ^ 32 + i.imm.toNat

/-- The M-format fields under a form. -/
def MForm.decode (f : MForm) (w : Nat) : Option MIns := do
  let data ← f.data.parse (bits w 49 41)
  let base ← f.base.parse (bits w 40 32)
  let idx ← f.idx.parse (bits w 31 23)
  some { g := Guard.ofWord w, data, base, idx, off := BitVec.ofNat 10 (bits w 22 13),
         size := BitVec.ofNat 3 (bits w 12 10), scope := BitVec.ofNat 3 (bits w 9 7), ord := BitVec.ofNat 2 (bits w 6 5),
         space := BitVec.ofNat 3 (bits w 4 2), hint := BitVec.ofNat 2 (bits w 1 0) }

/-- The word of M-format fields. -/
def MIns.encode (op : Nat) (i : MIns) : Nat :=
  ((((((((headNat op i.g * 512 + i.data.code) * 512 + i.base.code) * 512 + i.idx.code) * 1024 + i.off.toNat) * 8
    + i.size.toNat) * 8 + i.scope.toNat) * 4 + i.ord.toNat) * 8 + i.space.toNat) * 4 + i.hint.toNat

/-- The B-format fields under a form (R278). -/
def BForm.decode (f : BForm) (w : Nat) : Option BIns := do
  let a ← f.a.parse (bits w 23 15)
  let b ← f.b.parse (bits w 14 6)
  some { g := Guard.ofWord w, off := BitVec.ofNat 26 (bits w 49 24), a, b, lo := BitVec.ofNat 6 (bits w 5 0) }

/-- The word of B-format fields. -/
def BIns.encode (op : Nat) (i : BIns) : Nat :=
  (((headNat op i.g * 2 ^ 26 + i.off.toNat) * 512 + i.a.code) * 512 + i.b.code) * 64 + i.lo.toNat

/-- The X-format fields under a form. -/
def XForm.decode (f : XForm) (w : Nat) : Option XIns := do
  let q ← f.q.parse (bits w 49 41)
  let a ← f.a.parse (bits w 40 32)
  let b ← f.b.parse (bits w 31 23)
  some { g := Guard.ofWord w, q, a, b, t := BitVec.ofNat 9 (bits w 22 14), fa := BitVec.ofNat 4 (bits w 13 10),
         fb := BitVec.ofNat 4 (bits w 9 6), lad := BitVec.ofNat 3 (bits w 5 3), fl := BitVec.ofNat 3 (bits w 2 0) }

/-- The word of X-format fields. -/
def XIns.encode (op : Nat) (i : XIns) : Nat :=
  (((((((headNat op i.g * 512 + i.q.code) * 512 + i.a.code) * 512 + i.b.code) * 512 + i.t.toNat) * 16 + i.fa.toNat) * 16
    + i.fb.toNat) * 8 + i.lad.toNat) * 8 + i.fl.toNat

/-! ### The opcode map (R176, Table 13) -/

/-- The V-format instruction and form of an opcode and sub-op. -/
def vRow (op sub : Nat) : Option ((VIns → Instr) × VForm) :=
  match op with
  | 0x01 => some (.iadd, fInt2s)
  | 0x02 => some (.isub, fInt2s)
  | 0x03 => some (.imul, fInt2s)
  | 0x04 => some (.imulh, fInt2)
  | 0x05 => some (.imad, fInt3s)
  | 0x06 => some (.imin, fInt2)
  | 0x07 => some (.imax, fInt2)
  | 0x08 => some (.iabs, fIabs)
  | 0x09 => some (.isad, fInt3s)
  | 0x0A => some (.icmp, fIcmp)
  | 0x0B => some (.dot4i, fDot4)
  | 0x10 => some (.iand, fInt2)
  | 0x11 => some (.ior, fInt2)
  | 0x12 => some (.ixor, fInt2)
  | 0x13 => some (.iandn, fInt2)
  | 0x14 => some (.inot, fInt1)
  | 0x15 => some (.shl, fInt2)
  | 0x16 => some (.shr, fInt2)
  | 0x17 => some (.sar, fInt2)
  | 0x18 => some (.rot, fInt2)
  | 0x19 => some (.bfe, fInt2)
  | 0x1A => some (.bfi, fInt3)
  | 0x1B => some (.popc, fInt1)
  | 0x1C => some (.clz, fInt1)
  | 0x1D => some (.ctz, fInt1)
  | 0x1E => some (.brev, fInt1)
  | 0x1F => some (.permb, fPermb)
  | 0x20 => some (.lea, fLea)
  | 0x21 => if sub = 1 then some (.movU, fMovU) else some (.mov, fMov)
  | 0x22 => some (.sel, fSel)
  | 0x40 => some (.fadd, fFlt2)
  | 0x41 => some (.fmul, fFlt2)
  | 0x42 => some (.ffma, fFlt3)
  | 0x43 => some (.fmin, fFmin)
  | 0x44 => some (.fmax, fFmin)
  | 0x45 => some (.fabs, fFabs)
  | 0x46 => some (.fneg, fFabs)
  | 0x47 => some (.fcmp, fFcmp)
  | 0x48 => some (.fclass, fFclass)
  | 0x49 => some (.frnd, fFrnd)
  | 0x4A => some (.fscale, fFlt2)
  | 0x4B => some (.fdot2, fDot2)
  | 0x50 => some (.cvt, fCvt)
  | 0x51 => some (.pack, fPack)
  | 0x52 => some (.unpack, fUnpack)
  | 0x53 => some (.qnt, fQnt)
  | 0x54 => some (.dqnt, fDqnt)
  | 0x60 => some (.rcp, fRoot)
  | 0x61 => some (.rsq, fRoot)
  | 0x62 => some (.sqrt, fRoot)
  | 0x63 => some (.exp2, fTrans)
  | 0x64 => some (.log2, fTrans)
  | 0x65 => some (.sin, fTrans)
  | 0x66 => some (.cos, fTrans)
  | 0x67 => some (.tanh, fTrans)
  | 0x68 => some (.sigm, fTrans)
  | 0x80 => some (.pset, fPset)
  | 0x81 => some (.plop, fPlop)
  | 0x88 => some (.xpull, fXpull)
  | 0x89 => some (.xpush, fXpush)
  | 0x8A => some (.xshuf, fXshuf)
  | 0x8B => some (.xbcast, fXbcast)
  | 0x8C => some (.xred, fXred)
  | 0x8D => some (.xscan, fXscan)
  | 0x8E => some (.xballot, fXballot)
  | 0x8F => some (.xmatch, fXmatch)
  | 0x90 => some (.xvote, fXvote)
  | 0xD8 => some (.qpush, fQpush)
  | 0xD9 => some (.qpop, fQpop)
  | 0xDA => some (.qpeek, fQpop)
  | 0xDB => some (.qcount, fQcount)
  | _ => none

/-- The I-format instruction and form of an opcode. -/
def iRow (op : Nat) : Option ((IIns → Instr) × IForm) :=
  match op with
  | 0x30 => some (.movi, fMovi)
  | 0x31 => some (.iaddImm, fImm)
  | 0x32 => some (.imulImm, fImm)
  | 0x33 => some (.andImm, fImm)
  | 0x34 => some (.orImm, fImm)
  | 0x35 => some (.xorImm, fImm)
  | 0x36 => some (.moviHi, fMovi)
  | 0x37 => some (.moviX2, fMovi)
  | 0x98 => some (.rep, fRep)
  | 0xD0 => some (.bararv, fBar)
  | 0xD1 => some (.barwt, fBarwt)
  | 0xD2 => some (.barsync, fBar)
  | 0xF0 => some (.tfence, fTfence)
  | 0xF1 => some (.trap, fTrap)
  | 0xF2 => some (.tret, fTret)
  | 0xF3 => some (.rdsr, fRdsr)
  | 0xF4 => some (.wrsr, fWrsr)
  | 0xF5 => some (.clock, fClock)
  | 0xF6 => some (.sleep, fSleep)
  | _ => none

/-- The M-format instruction and form of an opcode. -/
def mRow (op : Nat) : Option ((MIns → Instr) × MForm) :=
  match op with
  | 0xA0 => some (.ld, fLd)
  | 0xA1 => some (.st, fSt)
  | 0xA2 => some (.ldu, fLdu)
  | 0xA4 => some (.atom, fAtom)
  | 0xA5 => some (.red, fRed)
  | 0xA6 => some (.atom64b, fAtom64)
  | 0xA8 => some (.bind, fBind)
  | 0xA9 => some (.unbind, fBind)
  | 0xAA => some (.acq, fAcq)
  | 0xAB => some (.rel, fRel)
  | 0xAC => some (.fence, fFence)
  | 0xAD => some (.prefetch, fPrefetch)
  | 0xD3 => some (.waitaddr, fWaitaddr)
  | _ => none

/-- The B-format instruction and form of an opcode. -/
def bRow (op : Nat) : Option ((BIns → Instr) × BForm) :=
  match op with
  | 0xC0 => some (.bra, fBra)
  | 0xC1 => some (.brx, fBrx)
  | 0xC2 => some (.call, fCall)
  | 0xC3 => some (.ret, fRet)
  | 0xC4 => some (.loop, fLoop)
  | 0xC5 => some (.loopx, fBra)
  | 0xC6 => some (.exit, fNop)
  | 0xC7 => some (.nop, fNop)
  | 0xC8 => some (.yield, fNop)
  | 0xC9 => some (.elect, fElect)
  | 0xCA => some (.spawn, fSpawn)
  | 0xCB => some (.spawnfl, fNop)
  | 0xCC => some (.join, fJoin)
  | 0xCD => some (.emit, fEmit)
  | 0xCE => some (.migrate, fMigrate)
  | 0xCF => some (.lwake, fMigrate)
  | _ => none

/-- The X-format instruction and form of an opcode; MRD and MWR share 0xE5 (R181). -/
def xRow (op fl : Nat) : Option ((XIns → Instr) × XForm) :=
  match op with
  | 0xE0 => some (.mldw, fMldw)
  | 0xE1 => some (.mma, fMma)
  | 0xE2 => some (.mmas, fMma)
  | 0xE3 => some (.mmag, fMma)
  | 0xE4 => some (.mzero, fMzero)
  | 0xE5 => if fl % 2 = 1 then some (.mwr, fMwr) else some (.mrd, fMrd)
  | 0xE6 => some (.txbegin, fTx)
  | 0xE7 => some (.txcommit, fTxcommit)
  | 0xE8 => some (.txabort, fTx)
  | 0xE9 => some (.txstat, fTxstat)
  | 0xEA => some (.monset, fMonset)
  | 0xEB => some (.monrd, fTxstat)
  | 0xEC => some (.hmake, fHmake)
  | 0xED => some (.hset, fHset)
  | 0xEE => some (.cpy, fCpy)
  | 0xEF => some (.coll, fColl)
  | _ => none

/-- The instruction of a word before the checks that bind its fields. -/
def parseWord (w : Nat) : Option Instr :=
  let op := bits w 63 56
  match vRow op (bits w 3 0) with
  | some (k, f) => (f.decode w).map k
  | none =>
    match iRow op with
    | some (k, f) => (f.decode w).map k
    | none =>
      match mRow op with
      | some (k, f) => (f.decode w).map k
      | none =>
        match bRow op with
        | some (k, f) => (f.decode w).map k
        | none =>
          match xRow op (bits w 2 0) with
          | some (k, f) => (f.decode w).map k
          | none => none

/-- The instruction a 64-bit word encodes; `none` for every pattern of R173 that the word alone decides. -/
def decodeWord (w : Word) : Option Instr :=
  match parseWord w.toNat with
  | some i => if i.wf then some i else none
  | none => none

/-- The bytecode of a 32-bit word (R314): OP [31:24], D [23:20], A [19:16], IMM [15:0]. -/
def parseBytecode (w : Nat) : Option Instr :=
  let q : QIns := { d := BitVec.ofNat 4 (bits w 23 20), a := BitVec.ofNat 4 (bits w 19 16), imm := BitVec.ofNat 16 (bits w 15 0) }
  match bits w 31 24 with
  | 0x01 => some (.qpPkw q)
  | 0x02 => some (.qpLdi q)
  | 0x03 => some (.qpShli q)
  | 0x04 => some (.qpAdd q)
  | 0x05 => some (.qpAnd q)
  | 0x06 => some (.qpOr q)
  | 0x07 => some (.qpRdw q)
  | 0x08 => some (.qpWrw q)
  | 0x09 => some (.qpJz q)
  | 0x0A => some (.qpRept q)
  | 0x0B => some (.qpLaunch q)
  | 0x0C => some (.qpGraph q)
  | 0x0D => some (.qpOrder q)
  | 0x0F => some (.qpEnd q)
  | _ => none

/-- The bytecode of a 32-bit word, or `none` where a load of it fails (R314). -/
def decodeBytecode (w : BitVec 32) : Option Instr :=
  match parseBytecode w.toNat with
  | some i => if i.wf then some i else none
  | none => none

/-- The opcode of an instruction word. -/
def Instr.opcode (i : Instr) : Nat :=
  match i with
  | .iadd _ => 0x01
  | .isub _ => 0x02
  | .imul _ => 0x03
  | .imulh _ => 0x04
  | .imad _ => 0x05
  | .imin _ => 0x06
  | .imax _ => 0x07
  | .iabs _ => 0x08
  | .isad _ => 0x09
  | .icmp _ => 0x0A
  | .dot4i _ => 0x0B
  | .iand _ => 0x10
  | .ior _ => 0x11
  | .ixor _ => 0x12
  | .iandn _ => 0x13
  | .inot _ => 0x14
  | .shl _ => 0x15
  | .shr _ => 0x16
  | .sar _ => 0x17
  | .rot _ => 0x18
  | .bfe _ => 0x19
  | .bfi _ => 0x1A
  | .popc _ => 0x1B
  | .clz _ => 0x1C
  | .ctz _ => 0x1D
  | .brev _ => 0x1E
  | .permb _ => 0x1F
  | .lea _ => 0x20
  | .mov _ => 0x21
  | .movU _ => 0x21
  | .sel _ => 0x22
  | .movi _ => 0x30
  | .iaddImm _ => 0x31
  | .imulImm _ => 0x32
  | .andImm _ => 0x33
  | .orImm _ => 0x34
  | .xorImm _ => 0x35
  | .moviHi _ => 0x36
  | .moviX2 _ => 0x37
  | .fadd _ => 0x40
  | .fmul _ => 0x41
  | .ffma _ => 0x42
  | .fmin _ => 0x43
  | .fmax _ => 0x44
  | .fabs _ => 0x45
  | .fneg _ => 0x46
  | .fcmp _ => 0x47
  | .fclass _ => 0x48
  | .frnd _ => 0x49
  | .fscale _ => 0x4A
  | .fdot2 _ => 0x4B
  | .cvt _ => 0x50
  | .pack _ => 0x51
  | .unpack _ => 0x52
  | .qnt _ => 0x53
  | .dqnt _ => 0x54
  | .rcp _ => 0x60
  | .rsq _ => 0x61
  | .sqrt _ => 0x62
  | .exp2 _ => 0x63
  | .log2 _ => 0x64
  | .sin _ => 0x65
  | .cos _ => 0x66
  | .tanh _ => 0x67
  | .sigm _ => 0x68
  | .pset _ => 0x80
  | .plop _ => 0x81
  | .xpull _ => 0x88
  | .xpush _ => 0x89
  | .xshuf _ => 0x8A
  | .xbcast _ => 0x8B
  | .xred _ => 0x8C
  | .xscan _ => 0x8D
  | .xballot _ => 0x8E
  | .xmatch _ => 0x8F
  | .xvote _ => 0x90
  | .rep _ => 0x98
  | .ld _ => 0xA0
  | .st _ => 0xA1
  | .ldu _ => 0xA2
  | .atom _ => 0xA4
  | .red _ => 0xA5
  | .atom64b _ => 0xA6
  | .bind _ => 0xA8
  | .unbind _ => 0xA9
  | .acq _ => 0xAA
  | .rel _ => 0xAB
  | .fence _ => 0xAC
  | .prefetch _ => 0xAD
  | .bra _ => 0xC0
  | .brx _ => 0xC1
  | .call _ => 0xC2
  | .ret _ => 0xC3
  | .loop _ => 0xC4
  | .loopx _ => 0xC5
  | .exit _ => 0xC6
  | .nop _ => 0xC7
  | .yield _ => 0xC8
  | .elect _ => 0xC9
  | .spawn _ => 0xCA
  | .spawnfl _ => 0xCB
  | .join _ => 0xCC
  | .emit _ => 0xCD
  | .migrate _ => 0xCE
  | .lwake _ => 0xCF
  | .bararv _ => 0xD0
  | .barwt _ => 0xD1
  | .barsync _ => 0xD2
  | .waitaddr _ => 0xD3
  | .qpush _ => 0xD8
  | .qpop _ => 0xD9
  | .qpeek _ => 0xDA
  | .qcount _ => 0xDB
  | .mldw _ => 0xE0
  | .mma _ => 0xE1
  | .mmas _ => 0xE2
  | .mmag _ => 0xE3
  | .mzero _ => 0xE4
  | .mrd _ => 0xE5
  | .mwr _ => 0xE5
  | .txbegin _ => 0xE6
  | .txcommit _ => 0xE7
  | .txabort _ => 0xE8
  | .txstat _ => 0xE9
  | .monset _ => 0xEA
  | .monrd _ => 0xEB
  | .hmake _ => 0xEC
  | .hset _ => 0xED
  | .cpy _ => 0xEE
  | .coll _ => 0xEF
  | .tfence _ => 0xF0
  | .trap _ => 0xF1
  | .tret _ => 0xF2
  | .rdsr _ => 0xF3
  | .wrsr _ => 0xF4
  | .clock _ => 0xF5
  | .sleep _ => 0xF6
  | .qpPkw _ => 0x01
  | .qpLdi _ => 0x02
  | .qpShli _ => 0x03
  | .qpAdd _ => 0x04
  | .qpAnd _ => 0x05
  | .qpOr _ => 0x06
  | .qpRdw _ => 0x07
  | .qpWrw _ => 0x08
  | .qpJz _ => 0x09
  | .qpRept _ => 0x0A
  | .qpLaunch _ => 0x0B
  | .qpGraph _ => 0x0C
  | .qpOrder _ => 0x0D
  | .qpEnd _ => 0x0F
  | _ => 0

/-- The word of an instruction, as a number: 64 bits for a kernel word, 32 for a bytecode, 0 for a device step. -/
def Instr.encode (i : Instr) : Nat :=
  match i with
  | .iadd x => x.encode 0x01
  | .isub x => x.encode 0x02
  | .imul x => x.encode 0x03
  | .imulh x => x.encode 0x04
  | .imad x => x.encode 0x05
  | .imin x => x.encode 0x06
  | .imax x => x.encode 0x07
  | .iabs x => x.encode 0x08
  | .isad x => x.encode 0x09
  | .icmp x => x.encode 0x0A
  | .dot4i x => x.encode 0x0B
  | .iand x => x.encode 0x10
  | .ior x => x.encode 0x11
  | .ixor x => x.encode 0x12
  | .iandn x => x.encode 0x13
  | .inot x => x.encode 0x14
  | .shl x => x.encode 0x15
  | .shr x => x.encode 0x16
  | .sar x => x.encode 0x17
  | .rot x => x.encode 0x18
  | .bfe x => x.encode 0x19
  | .bfi x => x.encode 0x1A
  | .popc x => x.encode 0x1B
  | .clz x => x.encode 0x1C
  | .ctz x => x.encode 0x1D
  | .brev x => x.encode 0x1E
  | .permb x => x.encode 0x1F
  | .lea x => x.encode 0x20
  | .mov x => x.encode 0x21
  | .movU x => x.encode 0x21
  | .sel x => x.encode 0x22
  | .movi x => x.encode 0x30
  | .iaddImm x => x.encode 0x31
  | .imulImm x => x.encode 0x32
  | .andImm x => x.encode 0x33
  | .orImm x => x.encode 0x34
  | .xorImm x => x.encode 0x35
  | .moviHi x => x.encode 0x36
  | .moviX2 x => x.encode 0x37
  | .fadd x => x.encode 0x40
  | .fmul x => x.encode 0x41
  | .ffma x => x.encode 0x42
  | .fmin x => x.encode 0x43
  | .fmax x => x.encode 0x44
  | .fabs x => x.encode 0x45
  | .fneg x => x.encode 0x46
  | .fcmp x => x.encode 0x47
  | .fclass x => x.encode 0x48
  | .frnd x => x.encode 0x49
  | .fscale x => x.encode 0x4A
  | .fdot2 x => x.encode 0x4B
  | .cvt x => x.encode 0x50
  | .pack x => x.encode 0x51
  | .unpack x => x.encode 0x52
  | .qnt x => x.encode 0x53
  | .dqnt x => x.encode 0x54
  | .rcp x => x.encode 0x60
  | .rsq x => x.encode 0x61
  | .sqrt x => x.encode 0x62
  | .exp2 x => x.encode 0x63
  | .log2 x => x.encode 0x64
  | .sin x => x.encode 0x65
  | .cos x => x.encode 0x66
  | .tanh x => x.encode 0x67
  | .sigm x => x.encode 0x68
  | .pset x => x.encode 0x80
  | .plop x => x.encode 0x81
  | .xpull x => x.encode 0x88
  | .xpush x => x.encode 0x89
  | .xshuf x => x.encode 0x8A
  | .xbcast x => x.encode 0x8B
  | .xred x => x.encode 0x8C
  | .xscan x => x.encode 0x8D
  | .xballot x => x.encode 0x8E
  | .xmatch x => x.encode 0x8F
  | .xvote x => x.encode 0x90
  | .rep x => x.encode 0x98
  | .ld x => x.encode 0xA0
  | .st x => x.encode 0xA1
  | .ldu x => x.encode 0xA2
  | .atom x => x.encode 0xA4
  | .red x => x.encode 0xA5
  | .atom64b x => x.encode 0xA6
  | .bind x => x.encode 0xA8
  | .unbind x => x.encode 0xA9
  | .acq x => x.encode 0xAA
  | .rel x => x.encode 0xAB
  | .fence x => x.encode 0xAC
  | .prefetch x => x.encode 0xAD
  | .bra x => x.encode 0xC0
  | .brx x => x.encode 0xC1
  | .call x => x.encode 0xC2
  | .ret x => x.encode 0xC3
  | .loop x => x.encode 0xC4
  | .loopx x => x.encode 0xC5
  | .exit x => x.encode 0xC6
  | .nop x => x.encode 0xC7
  | .yield x => x.encode 0xC8
  | .elect x => x.encode 0xC9
  | .spawn x => x.encode 0xCA
  | .spawnfl x => x.encode 0xCB
  | .join x => x.encode 0xCC
  | .emit x => x.encode 0xCD
  | .migrate x => x.encode 0xCE
  | .lwake x => x.encode 0xCF
  | .bararv x => x.encode 0xD0
  | .barwt x => x.encode 0xD1
  | .barsync x => x.encode 0xD2
  | .waitaddr x => x.encode 0xD3
  | .qpush x => x.encode 0xD8
  | .qpop x => x.encode 0xD9
  | .qpeek x => x.encode 0xDA
  | .qcount x => x.encode 0xDB
  | .mldw x => x.encode 0xE0
  | .mma x => x.encode 0xE1
  | .mmas x => x.encode 0xE2
  | .mmag x => x.encode 0xE3
  | .mzero x => x.encode 0xE4
  | .mrd x => x.encode 0xE5
  | .mwr x => x.encode 0xE5
  | .txbegin x => x.encode 0xE6
  | .txcommit x => x.encode 0xE7
  | .txabort x => x.encode 0xE8
  | .txstat x => x.encode 0xE9
  | .monset x => x.encode 0xEA
  | .monrd x => x.encode 0xEB
  | .hmake x => x.encode 0xEC
  | .hset x => x.encode 0xED
  | .cpy x => x.encode 0xEE
  | .coll x => x.encode 0xEF
  | .tfence x => x.encode 0xF0
  | .trap x => x.encode 0xF1
  | .tret x => x.encode 0xF2
  | .rdsr x => x.encode 0xF3
  | .wrsr x => x.encode 0xF4
  | .clock x => x.encode 0xF5
  | .sleep x => x.encode 0xF6
  | .qpPkw x => ((0x01 * 16 + x.d.toNat) * 16 + x.a.toNat) * 65536 + x.imm.toNat
  | .qpLdi x => ((0x02 * 16 + x.d.toNat) * 16 + x.a.toNat) * 65536 + x.imm.toNat
  | .qpShli x => ((0x03 * 16 + x.d.toNat) * 16 + x.a.toNat) * 65536 + x.imm.toNat
  | .qpAdd x => ((0x04 * 16 + x.d.toNat) * 16 + x.a.toNat) * 65536 + x.imm.toNat
  | .qpAnd x => ((0x05 * 16 + x.d.toNat) * 16 + x.a.toNat) * 65536 + x.imm.toNat
  | .qpOr x => ((0x06 * 16 + x.d.toNat) * 16 + x.a.toNat) * 65536 + x.imm.toNat
  | .qpRdw x => ((0x07 * 16 + x.d.toNat) * 16 + x.a.toNat) * 65536 + x.imm.toNat
  | .qpWrw x => ((0x08 * 16 + x.d.toNat) * 16 + x.a.toNat) * 65536 + x.imm.toNat
  | .qpJz x => ((0x09 * 16 + x.d.toNat) * 16 + x.a.toNat) * 65536 + x.imm.toNat
  | .qpRept x => ((0x0A * 16 + x.d.toNat) * 16 + x.a.toNat) * 65536 + x.imm.toNat
  | .qpLaunch x => ((0x0B * 16 + x.d.toNat) * 16 + x.a.toNat) * 65536 + x.imm.toNat
  | .qpGraph x => ((0x0C * 16 + x.d.toNat) * 16 + x.a.toNat) * 65536 + x.imm.toNat
  | .qpOrder x => ((0x0D * 16 + x.d.toNat) * 16 + x.a.toNat) * 65536 + x.imm.toNat
  | .qpEnd x => ((0x0F * 16 + x.d.toNat) * 16 + x.a.toNat) * 65536 + x.imm.toNat
  | _ => 0

/-- The 64-bit word of a kernel instruction. -/
def encode (i : Instr) : Word := BitVec.ofNat 64 i.encode

/-- The 32-bit word of a queue bytecode. -/
def encodeBytecode (i : Instr) : BitVec 32 := BitVec.ofNat 32 i.encode

/-- The kernel words. -/
def Instr.isWord (i : Instr) : Bool :=
  match i with
  | .iadd _ => true
  | .isub _ => true
  | .imul _ => true
  | .imulh _ => true
  | .imad _ => true
  | .imin _ => true
  | .imax _ => true
  | .iabs _ => true
  | .isad _ => true
  | .icmp _ => true
  | .dot4i _ => true
  | .iand _ => true
  | .ior _ => true
  | .ixor _ => true
  | .iandn _ => true
  | .inot _ => true
  | .shl _ => true
  | .shr _ => true
  | .sar _ => true
  | .rot _ => true
  | .bfe _ => true
  | .bfi _ => true
  | .popc _ => true
  | .clz _ => true
  | .ctz _ => true
  | .brev _ => true
  | .permb _ => true
  | .lea _ => true
  | .mov _ => true
  | .movU _ => true
  | .sel _ => true
  | .movi _ => true
  | .iaddImm _ => true
  | .imulImm _ => true
  | .andImm _ => true
  | .orImm _ => true
  | .xorImm _ => true
  | .moviHi _ => true
  | .moviX2 _ => true
  | .fadd _ => true
  | .fmul _ => true
  | .ffma _ => true
  | .fmin _ => true
  | .fmax _ => true
  | .fabs _ => true
  | .fneg _ => true
  | .fcmp _ => true
  | .fclass _ => true
  | .frnd _ => true
  | .fscale _ => true
  | .fdot2 _ => true
  | .cvt _ => true
  | .pack _ => true
  | .unpack _ => true
  | .qnt _ => true
  | .dqnt _ => true
  | .rcp _ => true
  | .rsq _ => true
  | .sqrt _ => true
  | .exp2 _ => true
  | .log2 _ => true
  | .sin _ => true
  | .cos _ => true
  | .tanh _ => true
  | .sigm _ => true
  | .pset _ => true
  | .plop _ => true
  | .xpull _ => true
  | .xpush _ => true
  | .xshuf _ => true
  | .xbcast _ => true
  | .xred _ => true
  | .xscan _ => true
  | .xballot _ => true
  | .xmatch _ => true
  | .xvote _ => true
  | .rep _ => true
  | .ld _ => true
  | .st _ => true
  | .ldu _ => true
  | .atom _ => true
  | .red _ => true
  | .atom64b _ => true
  | .bind _ => true
  | .unbind _ => true
  | .acq _ => true
  | .rel _ => true
  | .fence _ => true
  | .prefetch _ => true
  | .bra _ => true
  | .brx _ => true
  | .call _ => true
  | .ret _ => true
  | .loop _ => true
  | .loopx _ => true
  | .exit _ => true
  | .nop _ => true
  | .yield _ => true
  | .elect _ => true
  | .spawn _ => true
  | .spawnfl _ => true
  | .join _ => true
  | .emit _ => true
  | .migrate _ => true
  | .lwake _ => true
  | .bararv _ => true
  | .barwt _ => true
  | .barsync _ => true
  | .waitaddr _ => true
  | .qpush _ => true
  | .qpop _ => true
  | .qpeek _ => true
  | .qcount _ => true
  | .mldw _ => true
  | .mma _ => true
  | .mmas _ => true
  | .mmag _ => true
  | .mzero _ => true
  | .mrd _ => true
  | .mwr _ => true
  | .txbegin _ => true
  | .txcommit _ => true
  | .txabort _ => true
  | .txstat _ => true
  | .monset _ => true
  | .monrd _ => true
  | .hmake _ => true
  | .hset _ => true
  | .cpy _ => true
  | .coll _ => true
  | .tfence _ => true
  | .trap _ => true
  | .tret _ => true
  | .rdsr _ => true
  | .wrsr _ => true
  | .clock _ => true
  | .sleep _ => true
  | _ => false

/-- The queue bytecodes. -/
def Instr.isBytecode (i : Instr) : Bool :=
  match i with
  | .qpPkw _ => true
  | .qpLdi _ => true
  | .qpShli _ => true
  | .qpAdd _ => true
  | .qpAnd _ => true
  | .qpOr _ => true
  | .qpRdw _ => true
  | .qpWrw _ => true
  | .qpJz _ => true
  | .qpRept _ => true
  | .qpLaunch _ => true
  | .qpGraph _ => true
  | .qpOrder _ => true
  | .qpEnd _ => true
  | _ => false

/-- The device steps: neither kernel words nor bytecodes. -/
def Instr.isEvent (i : Instr) : Bool := !i.isWord && !i.isBytecode

/-! ### Clauses (R155, R156) -/

/-- A clause header that decodes. -/
structure Header where
  origin : Nat
  wait : Nat
  cls : Nat
  nwords : Nat
  deriving DecidableEq, Repr, Inhabited

/-- The header of a word; `none` for the header patterns of R173. -/
def decodeHeader (w : Word) : Option Header :=
  let n := w.toNat
  let h : Header := { origin := bits n 63 40, wait := bits n 23 8, cls := bits n 7 4, nwords := bits n 3 0 }
  if h.nwords = 0 ∨ 4 ≤ h.cls ∨ bits n 39 24 ≠ 0 ∨ bits n 23 15 ≠ 0 then none else some h

/-- The word of a header. -/
def Header.encode (h : Header) : Word :=
  BitVec.ofNat 64 (((h.origin * 2 ^ 32 + h.wait) * 16 + h.cls) * 16 + h.nwords)

/-- The engine class of an opcode; REP, whose class is its clause's, gives `none` (R177, Table 14). -/
def opClass (op : Nat) : Option Nat :=
  if op = 0x98 then none
  else if op < 0xA0 then some 0
  else if op < 0xC0 then some 1
  else if op < 0xD3 then some 3
  else if op < 0xE0 then some 1
  else if op < 0xF0 then some 2
  else some 3

/-- May the instruction with the opcode stand at its place in a clause of the class (R156)? `last`: it is the last word;
`next`: the opcode of the word after it. -/
def placeOk (cls op : Nat) (last : Bool) (next : Nat) : Bool :=
  match opClass op with
  | none => !last && next ≠ 0x98 && opClass next ≠ some 3
  | some c => c = cls || (last && c = 3)

/-- What the decoder makes of a table row's word: bytecodes have 32 bits, kernel words 64 (the numbering of
spec/opcode_table.json: bit 0 is the least significant bit of the first word). -/
def decodeTableWord (nbits w : Nat) : Option Instr :=
  if nbits ≤ 32 then decodeBytecode (BitVec.ofNat 32 w) else decodeWord (BitVec.ofNat 64 w)

end Sys2Proof
end

