-- ==== Sys2Proof/Machine/Floats.lean ====
section
/-! DEFINITION. Number formats, exact values and rounding (04_number_formats.md). -/

namespace Sys2Proof.Machine

open Sys2Proof

/-- The float and tapered formats (R84, Table 1). -/
inductive Fmt where
  | f64 | f32 | f16 | bf16 | e4m3 | e5m2 | e2m3 | e3m2 | e2m1 | t8 | t6
  deriving DecidableEq, Repr, Inhabited

/-- Width in bits. -/
def Fmt.width (f : Fmt) : Nat :=
  match f with
  | .f64 => 64 | .f32 => 32 | .f16 => 16 | .bf16 => 16 | .e4m3 => 8 | .e5m2 => 8 | .e2m3 => 6 | .e3m2 => 6
  | .e2m1 => 4 | .t8 => 8 | .t6 => 6

/-- Fraction bits of the IEEE and OCP formats. -/
def Fmt.mbits (f : Fmt) : Nat :=
  match f with
  | .f64 => 52 | .f32 => 23 | .f16 => 10 | .bf16 => 7 | .e4m3 => 3 | .e5m2 => 2 | .e2m3 => 3 | .e3m2 => 2 | .e2m1 => 1
  | _ => 0

/-- Exponent bias. -/
def Fmt.bias (f : Fmt) : Nat :=
  match f with
  | .f64 => 1023 | .f32 => 127 | .f16 => 15 | .bf16 => 127 | .e4m3 => 7 | .e5m2 => 15 | .e2m3 => 1 | .e3m2 => 3
  | .e2m1 => 1 | _ => 0

/-- The code of the largest finite magnitude (R85, Table 2). -/
def Fmt.maxCode (f : Fmt) : Nat :=
  match f with
  | .f64 => 0x7FEFFFFFFFFFFFFF | .f32 => 0x7F7FFFFF | .f16 => 0x7BFF | .bf16 => 0x7F7F | .e4m3 => 0x7E | .e5m2 => 0x7B
  | .e2m3 => 0x1F | .e3m2 => 0x1F | .e2m1 => 0x7 | .t8 => 0x7F | .t6 => 0x1F

/-- The canonical NaN, NaR for a tapered format (R85, R86). -/
def Fmt.nanCode (f : Fmt) : Nat :=
  match f with
  | .f64 => 0x7FF8000000000000 | .f32 => 0x7FC00000 | .f16 => 0x7E00 | .bf16 => 0x7FC0 | .e4m3 => 0x7F | .e5m2 => 0x7E
  | .t8 => 0x80 | .t6 => 0x20 | _ => 0

/-- Formats with an infinity. -/
def Fmt.hasInf (f : Fmt) : Bool :=
  match f with
  | .f64 => true | .f32 => true | .f16 => true | .bf16 => true | .e5m2 => true | _ => false

/-- The 4- and 6-bit float formats, which have neither infinity nor NaN. -/
def Fmt.small (f : Fmt) : Bool :=
  match f with
  | .e2m3 => true | .e3m2 => true | .e2m1 => true | _ => false

/-- The tapered formats. -/
def Fmt.isTapered (f : Fmt) : Bool :=
  match f with
  | .t8 => true | .t6 => true | _ => false

/-- The format of a float type code (R170). -/
def fmtOf (t : VTy) : Fmt :=
  match t with
  | .f16 => .f16 | .bf16 => .bf16 | .f32 => .f32 | .f64 => .f64 | .e4m3 => .e4m3 | .e5m2 => .e5m2 | .t8 => .t8
  | .t6 => .t6 | _ => .f64

/-- Kinds of NaN: signalling, quiet, and NaR (R86, R88). -/
inductive NanKind where
  | sig | quiet | nar
  deriving DecidableEq, Repr, Inhabited

/-- An exact value: NaN, an infinity, or (−1)^neg × m × 2^e. -/
inductive Num where
  | nan (k : NanKind)
  | inf (neg : Bool)
  | fin (neg : Bool) (m : Nat) (e : Int)
  deriving DecidableEq, Repr, Inhabited

/-- The sticky flags an operation sets: IV, DZ, OF, UF, NX, in FCSR order (R96). -/
structure Flags where
  iv : Bool := false
  dz : Bool := false
  of_ : Bool := false
  uf : Bool := false
  nx : Bool := false
  deriving DecidableEq, Repr, Inhabited

/-- Flags of either. -/
def Flags.or (a b : Flags) : Flags :=
  { iv := a.iv || b.iv, dz := a.dz || b.dz, of_ := a.of_ || b.of_, uf := a.uf || b.uf, nx := a.nx || b.nx }

/-- FCSR bits [5:0] of the flags. -/
def Flags.bits (f : Flags) : Nat :=
  f.iv.toNat + 2 * f.dz.toNat + 4 * f.of_.toNat + 8 * f.uf.toNat + 16 * f.nx.toNat

/-- IV alone (R97). -/
def Flags.invalid : Flags := { iv := true }

/-! ### Decoding -/

/-- Length of the run of bits equal to bit `i` of `p` from bit `i` down to bit 0. -/
def runLen (p i : Nat) (b : Bool) : Nat :=
  match i with
  | 0 => if p.testBit 0 == b then 1 else 0
  | k + 1 => if p.testBit (k + 1) == b then 1 + runLen p k b else 0

/-- The value of a positive tapered pattern of `n` bits (R88). -/
def taperValue (n p : Nat) (expo : Bool) : Num :=
  let b := p.testBit (n - 2)
  let m := runLen p (n - 2) b
  let k : Int := if b then (m : Int) - 1 else -(m : Int)
  let left := n - 1 - m - 1
  if expo then
    let e := if left = 0 then 0 else p / 2 ^ (left - 1) % 2
    let nf := left - 1
    .fin false (2 ^ nf + p % 2 ^ nf) (2 * k + e - nf)
  else
    .fin false (2 ^ left + p % 2 ^ left) (k - left)

/-- The sign changed. -/
def Num.negate (x : Num) : Num :=
  match x with
  | .nan k => .nan k
  | .inf s => .inf (!s)
  | .fin s m e => .fin (!s) m e

/-- The value of a tapered pattern (R88). -/
def decodeTaper (n p : Nat) (expo : Bool) : Num :=
  let p := p % 2 ^ n
  if p = 0 then .fin false 0 0
  else if p = 2 ^ (n - 1) then .nan .nar
  else if p < 2 ^ (n - 1) then taperValue n p expo
  else (taperValue n (2 ^ n - p) expo).negate

/-- The value of a code (R84 to R88). -/
def Fmt.decode (f : Fmt) (x : Nat) : Num :=
  match f with
  | .t8 => decodeTaper 8 x true
  | .t6 => decodeTaper 6 x false
  | _ =>
    let w := f.width
    let mb := f.mbits
    let neg := x.testBit (w - 1)
    let mag := x % 2 ^ (w - 1)
    let e := mag / 2 ^ mb
    let fr := mag % 2 ^ mb
    let top := 2 ^ (w - 1 - mb) - 1
    if f == .e4m3 && mag == 0x7F then .nan .quiet
    else if f.hasInf && e == top then
      (if fr = 0 then .inf neg else if f == .e5m2 || fr.testBit (mb - 1) then .nan .quiet else .nan .sig)
    else if e = 0 then .fin neg fr (1 - (f.bias : Int) - mb)
    else .fin neg (2 ^ mb + fr) ((e : Int) - f.bias - mb)

/-- A code with its sign bit. -/
def Fmt.withSign (f : Fmt) (neg : Bool) (mag : Nat) : Nat := if neg then 2 ^ (f.width - 1) + mag else mag

/-! ### Rounding -/

/-- Does a magnitude whose quotient is `y`, remainder `rem` of `2^d`, round up? `u` is the stochastic draw (R94, R95). -/
def roundsUp (mode : Rnd) (u : Nat) (neg : Bool) (y rem d : Nat) : Bool :=
  if rem = 0 then false
  else
    let half := 2 ^ d
    match mode with
    | .rne => 2 * rem > half || (2 * rem == half && y % 2 == 1)
    | .rtz => false
    | .rup => !neg
    | .rdn => neg
    | .rna => 2 * rem ≥ half
    | .sr => rem * 65536 / 2 ^ d + u ≥ 65536
    | .dyn => 2 * rem > half || (2 * rem == half && y % 2 == 1)

/-- Does overflow go away from zero (R99)? -/
def overflowAway (mode : Rnd) (neg : Bool) : Bool :=
  match mode with
  | .rne => true | .rna => true | .sr => true | .dyn => true | .rtz => false | .rup => !neg | .rdn => neg

/-- What overflow delivers (R99, Table 10). -/
def Fmt.overflowCode (f : Fmt) (mode : Rnd) (sat neg : Bool) : Nat :=
  if f.small || sat || !overflowAway mode neg then f.withSign neg f.maxCode
  else if f == .e4m3 then 0x7F
  else f.withSign neg (f.maxCode + 1)

/-- The integer part of m × 2^e scaled to units of 2^q: quotient, remainder, and the remainder's bits. -/
def quantise (m : Nat) (e q : Int) : Nat × Nat × Nat :=
  if q ≤ e then (m * 2 ^ (e - q).toNat, 0, 0)
  else
    let d := (q - e).toNat
    (m / 2 ^ d, m % 2 ^ d, d)

/-- A finite non-zero value rounded to an IEEE or OCP format, with its flags (R94, R97, R99). -/
def Fmt.roundFin (f : Fmt) (mode : Rnd) (u : Nat) (sat neg : Bool) (m : Nat) (e : Int) : Nat × Flags :=
  let mb : Int := f.mbits
  let emin : Int := 1 - (f.bias : Int) - mb
  let lg : Int := (Nat.log2 m : Int) + e
  let q := max (lg - mb) emin
  let (y, rem, d) := quantise m e q
  let y' := if roundsUp mode u neg y rem d then y + 1 else y
  let code := (q - emin).toNat * 2 ^ f.mbits + y'
  if code > f.maxCode then
    let c := f.overflowCode mode sat neg
    -- E4M3 delivers a NaN from operands that held none: IV, which excludes the others (R97)
    (c, if f == .e4m3 && c == 0x7F then .invalid else { of_ := true, nx := true })
  else
    let inexact := rem != 0
    (f.withSign neg code, { uf := inexact && code != 0 && code < 2 ^ f.mbits, nx := inexact })

/-- The first `n` bits of the string regime, e, g of R90 for 2^E × (1 + g/2^gb), and whether any later bit is set. -/
def taperBody (n : Nat) (expo : Bool) (E : Int) (g gb : Nat) : Nat × Bool :=
  let k : Int := if expo then E.fdiv 2 else E
  let eb : Nat := if expo then (E - 2 * k).toNat else 0
  let regime : Nat := if 0 ≤ k then (2 ^ (k.toNat + 1) - 1) * 2 else 1
  let rlen : Nat := if 0 ≤ k then k.toNat + 2 else (-k).toNat + 1
  let str := (regime * 2 ^ (if expo then 1 else 0) + eb) * 2 ^ gb + g
  let len := rlen + (if expo then 1 else 0) + gb
  if len ≤ n then (str * 2 ^ (n - len), false) else (str / 2 ^ (len - n), str % 2 ^ (len - n) != 0)

/-- A finite non-zero value rounded to a tapered format of `n` bits (R90). -/
def roundTaper (n : Nat) (expo neg : Bool) (m : Nat) (e : Int) : Nat × Flags :=
  let lg := Nat.log2 m
  let E : Int := (lg : Int) + e
  let E' := max (-64) (min 64 E)
  let (str, sticky) := taperBody n expo E' (m - 2 ^ lg) lg
  let body := str / 2
  let guard := str % 2 == 1
  let b := if guard && (sticky || body % 2 == 1) then body + 1 else body
  let b := if b = 0 then 1 else if b ≥ 2 ^ (n - 1) then 2 ^ (n - 1) - 1 else b
  let p := if neg then 2 ^ n - b else b
  let exact := match taperValue n b expo with
    | .fin _ m' e' => if e ≤ e' then m == m' * 2 ^ (e' - e).toNat else m' == m * 2 ^ (e - e').toNat
    | _ => false
  (p, { nx := !exact })

/-- A value delivered in a format, with the flags of R97 and R99. A NaR stays NaR without a flag (R100). -/
def Fmt.round (f : Fmt) (mode : Rnd) (u : Nat) (sat : Bool) (x : Num) : Nat × Flags :=
  match x with
  | .nan k =>
    if f.small then (0, .invalid)
    else if f.isTapered then (f.nanCode, if k == .nar then {} else .invalid)
    else (f.nanCode, {})
  | .inf neg =>
    if f.small then (f.withSign neg f.maxCode, { of_ := true, nx := true })
    else if f.isTapered then (f.nanCode, .invalid)
    else if f == .e4m3 then (0x7F, .invalid)
    else (f.withSign neg (f.maxCode + 1), {})
  | .fin neg m e =>
    if m = 0 then (if f.isTapered then 0 else f.withSign neg 0, {})
    else
      match f with
      | .t8 => roundTaper 8 true neg m e
      | .t6 => roundTaper 6 false neg m e
      | _ => f.roundFin mode u sat neg m e

/-! ### Exact arithmetic (R100) -/

/-- The mode is toward −∞. -/
def isRdn (m : Rnd) : Bool := m == .rdn

/-- Signed integer significand at exponent `q` at or below the value's own. -/
def scaleTo (neg : Bool) (m : Nat) (e q : Int) : Int :=
  let v : Int := (m : Int) * 2 ^ (e - q).toNat
  if neg then -v else v

/-- The exact sum of finite values, with R94's sign of a zero sum. -/
def addFin (mode : Rnd) (s1 : Bool) (m1 : Nat) (e1 : Int) (s2 : Bool) (m2 : Nat) (e2 : Int) : Num :=
  let q := min e1 e2
  let v := scaleTo s1 m1 e1 q + scaleTo s2 m2 e2 q
  if v = 0 then .fin (if s1 == s2 then s1 else isRdn mode) 0 0
  else .fin (v < 0) v.natAbs q

/-- The sum of two values that are not NaN; `none` for ∞ − ∞. -/
def Num.add (mode : Rnd) (a b : Num) : Option Num :=
  match a, b with
  | .nan _, _ => none
  | _, .nan _ => none
  | .inf s, .inf t => if s == t then some (.inf s) else none
  | .inf s, .fin .. => some (.inf s)
  | .fin .., .inf t => some (.inf t)
  | .fin s1 m1 e1, .fin s2 m2 e2 => some (addFin mode s1 m1 e1 s2 m2 e2)

/-- The product of two values that are not NaN; `none` for 0 × ∞. -/
def Num.mul (a b : Num) : Option Num :=
  match a, b with
  | .nan _, _ => none
  | _, .nan _ => none
  | .inf s, .inf t => some (.inf (s != t))
  | .inf s, .fin t m _ => if m = 0 then none else some (.inf (s != t))
  | .fin s m _, .inf t => if m = 0 then none else some (.inf (s != t))
  | .fin s1 m1 e1, .fin s2 m2 e2 => some (.fin (s1 != s2) (m1 * m2) (e1 + e2))

/-- Is it a NaN or NaR? -/
def Num.isNan (x : Num) : Bool :=
  match x with
  | .nan _ => true
  | _ => false

/-- Is it a signalling NaN? -/
def Num.isSig (x : Num) : Bool :=
  match x with
  | .nan .sig => true
  | _ => false

/-- Is it infinite or NaN? -/
def Num.nonFinite (x : Num) : Bool :=
  match x with
  | .fin .. => false
  | _ => true

/-- Is it a finite non-zero value? -/
def Num.finNonzero (x : Num) : Bool :=
  match x with
  | .fin _ m _ => m != 0
  | _ => false

/-- ε(x) = floor(log2 |x|) of a finite non-zero value (R110). -/
def Num.eps (x : Num) : Int :=
  match x with
  | .fin _ m e => (Nat.log2 m : Int) + e
  | _ => 0

/-- |x| < 2^k, of a finite value. -/
def Num.ltPow (x : Num) (k : Int) : Bool :=
  match x with
  | .fin _ m e => m == 0 || (Nat.log2 m : Int) + e < k
  | _ => false

/-- The NaN of an operation with a NaN operand: NaR among tapered operands, otherwise quiet. -/
def nanOf (l : List Num) : Num := if l.any (fun x => x == .nan .nar) then .nan .nar else .nan .quiet

/-- Delivers an operation's exact result: `r` is `none` for an invalid operation. A NaN operand gives a NaN, with IV if
any is signalling or the operation is invalid in itself (`inv`) (R86, R97, R100). -/
def deliver (f : Fmt) (mode : Rnd) (u : Nat) (sat inv : Bool) (ops : List Num) (r : Option Num) : Nat × Flags :=
  if ops.any Num.isNan then
    (f.nanCode, if inv || ops.any Num.isSig then .invalid else {})
  else
    match r with
    | none => (f.nanCode, .invalid)
    | some x =>
      let (c, fl) := f.round mode u sat x
      (c, if fl.iv then .invalid else fl)

/-- round(a + b). -/
def fAdd (f : Fmt) (mode : Rnd) (u : Nat) (sat : Bool) (a b : Nat) : Nat × Flags :=
  let x := f.decode a
  let y := f.decode b
  deliver f mode u sat false [x, y] (x.add mode y)

/-- round(a × b). -/
def fMul (f : Fmt) (mode : Rnd) (u : Nat) (sat : Bool) (a b : Nat) : Nat × Flags :=
  let x := f.decode a
  let y := f.decode b
  deliver f mode u sat false [x, y] (x.mul y)

/-- 0 × ∞. -/
def mulInvalid (x y : Num) : Bool := !x.isNan && !y.isNan && (x.mul y).isNone

/-- round(a × b + c). -/
def fFma (f : Fmt) (mode : Rnd) (u : Nat) (sat : Bool) (a b c : Nat) : Nat × Flags :=
  let x := f.decode a
  let y := f.decode b
  let z := f.decode c
  deliver f mode u sat (mulInvalid x y) [x, y, z] ((x.mul y).bind fun p => p.add mode z)

/-- round(a0 × b0 + a1 × b1 + c); the sign of a zero sum is that of its terms when they agree (R94, R199). -/
def fDot (f : Fmt) (mode : Rnd) (u : Nat) (sat : Bool) (a0 b0 a1 b1 c : Nat) : Nat × Flags :=
  let x0 := f.decode a0
  let y0 := f.decode b0
  let x1 := f.decode a1
  let y1 := f.decode b1
  let z := f.decode c
  let r := do
    let p ← x0.mul y0
    let q ← x1.mul y1
    let pq ← p.add .rne q
    let all ← pq.add .rne z
    match p, q, z, all with
    | .fin s1 _ _, .fin s2 _ _, .fin s3 _ _, .fin _ 0 _ =>
      some (Num.fin (if s1 == s2 && s2 == s3 then s1 else isRdn mode) 0 0)
    | .inf s1, .inf s2, _, _ => if s1 == s2 then some all else none
    | _, _, _, _ => some all
  deliver f mode u sat (mulInvalid x0 y0 || mulInvalid x1 y1) [x0, y0, x1, y1, z] r

/-- round(a × 2^n) (R100, R198); n beyond ±8192 rounds as ±8192 does. -/
def fScale (f : Fmt) (mode : Rnd) (u : Nat) (sat : Bool) (a : Nat) (n : Int) : Nat × Flags :=
  let x := f.decode a
  let n := max (-8192) (min 8192 n)
  match x with
  | .fin s m e => deliver f mode u sat false [x] (some (if m = 0 then .fin s 0 0 else .fin s m (e + n)))
  | _ => deliver f mode u sat false [x] (some x)

/-! ### Integers, order and classes -/

/-- A finite value rounded to an integer by the mode: magnitude, and whether it was inexact. -/
def roundInt (mode : Rnd) (u : Nat) (neg : Bool) (m : Nat) (e : Int) : Nat × Bool :=
  let (y, rem, d) := quantise m e 0
  (if roundsUp mode u neg y rem d then y + 1 else y, rem != 0)

/-- FRND (R198). -/
def fRndInt (f : Fmt) (mode : Rnd) (u : Nat) (a : Nat) : Nat × Flags :=
  match f.decode a with
  | .nan k => (f.nanCode, if k == .sig then .invalid else {})
  | .inf neg => (f.withSign neg (f.maxCode + 1), {})
  | .fin neg m e =>
    let (y, inexact) := roundInt mode u neg m e
    let (c, fl) := f.round mode u false (.fin neg y 0)
    (c, { nx := inexact || fl.nx })

/-- Place in totalOrder (R102): for a tapered pattern its two's complement value. -/
def Fmt.key (f : Fmt) (x : Nat) : Int :=
  let w := f.width
  let x := x % 2 ^ w
  if f.isTapered then (if x < 2 ^ (w - 1) then (x : Int) else (x : Int) - 2 ^ w)
  else if x < 2 ^ (w - 1) then (x : Int) else -1 - ((x : Int) - 2 ^ (w - 1))

/-- FABS. -/
def Fmt.absCode (f : Fmt) (x : Nat) : Nat :=
  let w := f.width
  let x := x % 2 ^ w
  if f.isTapered then (if x > 2 ^ (w - 1) then 2 ^ w - x else x) else x % 2 ^ (w - 1)

/-- FNEG. -/
def Fmt.negCode (f : Fmt) (x : Nat) : Nat :=
  let w := f.width
  let x := x % 2 ^ w
  if f.isTapered then (if x = 0 ∨ x = 2 ^ (w - 1) then x else 2 ^ w - x)
  else if x < 2 ^ (w - 1) then x + 2 ^ (w - 1) else x - 2 ^ (w - 1)

/-- The class bit of a value (R200, Table 4). -/
def Fmt.classBit (f : Fmt) (x : Nat) : Nat :=
  match f.decode x with
  | .nan .sig => 0
  | .nan _ => 1
  | .inf true => 2
  | .inf false => 9
  | .fin neg m _ =>
    if m = 0 then (if neg && !f.isTapered then 5 else 6)
    else if f.isTapered then (if neg then 3 else 8)
    else
      let sub := x % 2 ^ (f.width - 1) < 2 ^ f.mbits
      if neg then (if sub then 4 else 3) else (if sub then 7 else 8)

/-- A w-bit pattern as the integer of a type. -/
def intOf (signed : Bool) (w x : Nat) : Int :=
  let x := x % 2 ^ w
  if signed && x ≥ 2 ^ (w - 1) then (x : Int) - 2 ^ w else x

/-- Smallest value of an integer type. -/
def intMin (signed : Bool) (w : Nat) : Int := if signed then -(2 ^ (w - 1)) else 0
/-- Largest value of an integer type. -/
def intMax (signed : Bool) (w : Nat) : Int := if signed then 2 ^ (w - 1) - 1 else 2 ^ w - 1

/-- sat(x, type). -/
def clampInt (signed : Bool) (w : Nat) (x : Int) : Int := max (intMin signed w) (min (intMax signed w) x)

/-- x modulo 2^w. -/
def wrapInt (w : Nat) (x : Int) : Nat := (x % 2 ^ w).toNat

/-- Float or tapered to integer (R98, Table 9). -/
def floatToInt (f : Fmt) (signed : Bool) (w : Nat) (mode : Rnd) (u a : Nat) : Nat × Flags :=
  match f.decode a with
  | .nan _ => (0, .invalid)
  | .inf neg => (wrapInt w (if neg then intMin signed w else intMax signed w), .invalid)
  | .fin neg m e =>
    let (y, inexact) := roundInt mode u neg m e
    let v : Int := if neg then -(y : Int) else y
    let c := clampInt signed w v
    if c = v then (wrapInt w v, { nx := inexact }) else (wrapInt w c, .invalid)

/-- An integer as an exact value. -/
def numOfInt (v : Int) : Num := .fin (v < 0) v.natAbs 0

/-- Float to float: exact, rounded, or NaN (R98); a signalling NaN sets IV. -/
def floatToFloat (src dst : Fmt) (mode : Rnd) (u : Nat) (sat : Bool) (a : Nat) : Nat × Flags :=
  let x := src.decode a
  let (c, fl) := dst.round mode u sat x
  (c, if x.isSig || fl.iv then .invalid else fl)

/-- CVT of one element (R98, R201). -/
def cvtElem (src dst : VTy) (mode : Rnd) (u : Nat) (sat : Bool) (a : Nat) : Nat × Flags :=
  if src.isInt then
    let v := intOf src.signed src.width a
    if dst.isInt then
      (wrapInt dst.width (if sat && dst.width ≤ src.width then clampInt dst.signed dst.width v else v), {})
    else
      let (c, fl) := (fmtOf dst).round mode u sat (numOfInt v)
      (c, fl)
  else if dst.isInt then floatToInt (fmtOf src) dst.signed dst.width mode u a
  else floatToFloat (fmtOf src) (fmtOf dst) mode u sat a

/-! ### Matrix formats (R87, R91 to R93) -/

/-- The float or tapered format of a matrix format code, `none` for the integers and split-3. -/
def mxFmt (code : Nat) : Option Fmt :=
  match code with
  | 0 => some .e2m1 | 1 => some .e2m3 | 2 => some .e3m2 | 3 => some .e4m3 | 4 => some .e5m2 | 5 => some .t8
  | 6 => some .t6 | 9 => some .bf16 | _ => none

/-- The value of an element of a matrix format; INT8 and INT4 with a zero point (R91). -/
def mxValue (code x : Nat) (zp : Int) : Num :=
  match mxFmt code with
  | some f => f.decode (x % 2 ^ f.width)
  | none =>
    if code = 7 then numOfInt (intOf true 8 x - zp)
    else if code = 8 then numOfInt (intOf true 4 x - zp)
    else Fmt.f32.decode x

/-- emax of R93. -/
def mxEmax (code : Nat) : Int :=
  match code with
  | 0 => 2 | 1 => 2 | 2 => 4 | 3 => 8 | 4 => 15 | 7 => 6 | 8 => 2 | _ => 0

/-- Multiplies by 2^n. -/
def Num.shift (x : Num) (n : Int) : Num :=
  match x with
  | .fin s m e => .fin s m (e + n)
  | x => x

/-- One element of a quantised block (R93 step 4): saturated, NX if inexact. -/
def quantElem (code : Nat) (mode : Rnd) (u : Nat) (x : Num) : Nat × Flags :=
  match mxFmt code with
  | some f =>
    let (c, fl) := f.round mode u true x
    (c, { nx := fl.nx })
  | none =>
    let w := if code = 7 then 8 else 4
    match x with
    | .fin neg m e =>
      let (y, inexact) := roundInt mode u neg m e
      let lim := 2 ^ (w - 1) - 1
      let y' := min y lim
      (wrapInt w (if neg then -(y' : Int) else y'), { nx := inexact || y' != y })
    | _ => (0, {})

/-- The exponent X of R93 for the largest |v| (a finite non-zero value). -/
def quantExp (code : Nat) (mx : Num) : Int := max (-127) (min 127 (mx.eps - mxEmax code))

end Sys2Proof.Machine
end

