-- ==== Sys2Proof/Machine/State.lean ====
section
/-! DEFINITION. Everything the spec gives the 9440, as plain data. Tables are lists of (key, value) pairs in strictly
rising key order (`KMap`); memories are lists of (address, byte) pairs in the same form that list no zero byte.
Units are numbered package-wide: a core is `die * 56 + %coreid`, a cluster `die * 14 + %clusterid`, a stack and a stack
domain 0 to 7. A warp is keyed by core, context and slot: `(core * 256 + context) * 32 + slot`. -/

namespace Sys2Proof.Machine

open Sys2Proof

/-- A table: keys strictly rising. -/
abbrev KMap (α : Type) := List (Nat × α)

/-- A memory: addresses strictly rising, no zero byte listed (log entries 1 and 2). -/
abbrev Memory := List Host.Cell

/-- Who raises it: `exec` of a kernel word when no warp is issuing, and of a queue bytecode when no queue is running.
Safe: `step` never calls `exec` so. -/
inductive Fault where
  /-- `exec` was handed a kernel word or a bytecode with nobody to run it. Safe: the device has no such event. -/
  | noIssuer
  deriving DecidableEq, Repr, Inhabited

/-- Reasons for an instruction to have no meaning here. -/
inductive Refusal where
  /-- An arm of `exec` not yet written. Safe: the run stops. -/
  | notModelled (mnemonic : String)
  deriving DecidableEq, Repr, Inhabited

/-! ## Threads and warps -/

/-- One hardware loop level (R281). -/
structure LoopLevel where
  lc : BitVec 32
  ls : Pc
  le : Pc
  deriving DecidableEq, Repr, Inhabited

/-- Thread states (R11). -/
inductive ThreadSt where
  | sub | loop | wait | done | off
  deriving DecidableEq, Repr, Inhabited

/-- Where a thread stands: its PC, the header of the clause it is in (`none`: a header stands at the PC), and the
repeats left of a REP with the REP's immediate (R155, R159, R211). -/
structure Pos where
  pc : Pc := 0
  hdr : Option Pc := none
  rep : Nat := 0
  repImm : BitVec 32 := 0
  deriving DecidableEq, Repr, Inhabited

/-- The trap save of one thread (R355). -/
structure TrapSave where
  pos : Pos
  loops : List LoopLevel
  deriving DecidableEq, Repr, Inhabited

/-- The join counter a record names: global space or A-buffer, and its address (R286). -/
structure JoinCtr where
  glob : Bool
  addr : Nat
  deriving DecidableEq, Repr, Inhabited

/-- One thread: state, position, loop levels with the innermost first (LD is their number), the range of code its loop
buffer holds, trap state, stochastic draw counter, and the counter a child thread decrements at EXIT. -/
structure Thread where
  st : ThreadSt := .off
  pos : Pos := {}
  loops : List LoopLevel := []
  bufBase : Pc := 0
  bufLen : Nat := 0
  trapped : Bool := false
  save : Option TrapSave := none
  tret : Option Bool := none
  draw : BitVec 32 := 0
  join : Option JoinCtr := none
  deriving DecidableEq, Repr, Inhabited

/-- The code a warp runs: an image's own, or a launch's residual code (R54, R359 CODE). -/
inductive CodeRef where
  | orig (image : Nat)
  | resid (launch : Nat)
  deriving DecidableEq, Repr, Inhabited

/-- Which lanes execute which word: what one visit of a slot issues (R12, R16). -/
structure Issue where
  wk : Nat
  lanes : LaneMask
  buf : Bool := false
  pc : Pc := 0
  hdr : Pc := 0
  last : Bool := false
  deriving DecidableEq, Repr, Inhabited

/-- Why a warp is Blocked (R25). -/
inductive WaitKind where
  /-- `n` elements of one of a block's user FIFOs or q7, and `n` places in one -/
  | fifo (pop push : Option Nat) (n : Nat)
  /-- `n` elements of the warp's own q1, q3 or q5 -/
  | records (q n : Nat)
  /-- room in an engine's queue (R249) -/
  | engine (e : Engine)
  /-- room for records still owed to the warp's part of q1, q3 or q5 (R251) -/
  | owed (q : Nat)
  /-- a barrier's phase beyond `phase` (R240) -/
  | barrier (id phase : Nat)
  | waitaddr
  | join
  /-- until the die's count reaches `ck` (R302) -/
  | sleep (ck : Nat)
  /-- room in the spawn queue and spill area (R286) -/
  | spawnRoom
  /-- room in a node's record queue (R292) -/
  | nodeRoom
  | txbegin
  | txcommit
  /-- MIGRATE waits for conditions, a landing slot or the shipment (R293, R377) -/
  | landing
  /-- matrix commands to retire before TFENCE or MRD and MWR (R296, R267) -/
  | matrix
  /-- every lower-indexed block to close its delta (R153) -/
  | delta
  /-- a free frame, or a fault event's room on its die (R342, R340) -/
  | frame
  /-- a map unit's fix-up list at a fence (R348) -/
  | mapFixup
  /-- nothing: its other pieces or lanes are steps still to be taken (R132, R225) -/
  | more
  deriving DecidableEq, Repr, Inhabited

/-- One fault record before it is laid out (R339). `hostpri` holds the bus page of a host page request (R345). -/
structure FaultRec where
  cause : Nat
  reason : Nat := 0
  lanes : LaneMask := 0
  addr : Nat := 0
  client : Nat := 0
  acc : Nat := 0
  space : Nat := 0
  hostpri : Option Nat := none
  deriving DecidableEq, Repr, Inhabited

/-- What a faulting word reports: the cause, the value TINFO takes, and for PAGE, PERM, ABSENT and ALIGN the records
(R220, R299). -/
structure FaultInfo where
  cause : Nat
  info : Word := 0
  recs : List FaultRec := []
  deriving DecidableEq, Repr, Inhabited

/-- What a leaf gives an access: physical address, memory type, compression, counter enable (R331). -/
structure Attr where
  pa : Nat := 0
  mtype : Nat := 0
  cmp : Nat := 0
  ace : Bool := false
  deriving DecidableEq, Repr, Inhabited

/-- One piece of a lane's access (R79): its place in the access, its address, and where it lands. -/
structure Piece where
  lane : Nat
  off : Nat
  n : Nat
  addr : Nat
  attr : Attr := {}
  blk : Nat := 0
  deriving DecidableEq, Repr, Inhabited

/-- A word that could not complete: the visit that issued it, the word, why it waits, its place in the order of waiting
(R244), and the die's count when it first blocked. `met`: a poll has found its condition (R235, R290). A word of several
pieces or lanes keeps those still to be performed and the bytes that the others gave (R132, R225). -/
structure Pend where
  iss : Issue
  word : Instr
  why : WaitKind
  ticket : Nat
  since : Nat
  met : Bool := false
  left : List Piece := []
  got : List (Nat × List Byte) := []
  deriving DecidableEq, Repr, Inhabited

/-- One store-queue entry (R132): one piece of one lane's store, with the space, the issuing address, the target core and
block of a scratch space, the leaf of a global or host one with the cache hint (R82), and whether a member of an open
transaction issued it. -/
structure SqEntry where
  space : Nat
  addr : Nat
  bytes : List Byte
  attr : Attr := {}
  core : Nat := 0
  blk : Nat := 0
  member : Bool := false
  hint : Nat := 0
  deriving DecidableEq, Repr, Inhabited

/-- The trap registers of a warp (R299). -/
structure TrapRegs where
  tcause : Word := 0
  tpc : Word := 0
  topc : Word := 0
  titer : Word := 0
  tmask : Word := 0
  tinfo : Word := 0
  deriving DecidableEq, Repr, Inhabited

/-- An FP64 word between its two visits (R22): its visit and destination, the results of the lanes that execute at the
second visit, the flags those set, the lanes that participate, and what a queue destination receives. -/
structure F64Pend where
  iss : Issue
  dst : Opnd
  results : List (Nat × Word)
  flags : Nat
  draws : Nat
  lanes : LaneMask
  pushed : List Word
  deriving DecidableEq, Repr, Inhabited

/-- Warp-slot states (R25); a Free slot has no entry. -/
inductive WarpSt where
  | start | run | blocked | retire | frozen
  deriving DecidableEq, Repr, Inhabited

/-- A saved fault of a warp that waits for a frame or is in one (R220, R342). -/
structure WarpFault where
  info : FaultInfo
  iss : Issue
  opc : Word
  rpc : Word
  iter : Nat
  deriving DecidableEq, Repr, Inhabited

/-- One warp. `vreg` is keyed by 32 × register + lane, `sreg`, `preg`, `hreg` by number; an absent key reads zero. `lwake`
holds the ring positions of the links its LWAKE words named, `landing` the core granted to a migrating warp, `away` that it
has landed (R35), `srepSave` the scalar REP count of the code a handler interrupts (R211). -/
structure Warp where
  uid : Nat := 0
  st : WarpSt := .start
  launch : Nat := 0
  blk : Nat := 0
  warpid : Nat := 0
  child : Bool := false
  depth : Nat := 0
  nregs : Nat := 0
  threads : List Thread := []
  vreg : KMap Word := []
  sreg : KMap Word := []
  preg : KMap LaneMask := []
  hreg : KMap (BitVec 256) := []
  fcsr : Word := 0
  sdraw : BitVec 32 := 0
  srep : Nat := 0
  srepSave : Nat := 0
  sq : List SqEntry := []
  wroteG : KMap (BitVec 64) := []
  wroteH : KMap (BitVec 64) := []
  pend : Option Pend := none
  fault : Option WarpFault := none
  lastBuf : Bool := true
  yielded : Option Bool := none
  q1 : List Word := []
  q3 : List Word := []
  q5 : List (Word × Nat × Nat × Nat × Nat) := []
  code : CodeRef := .orig 0
  tcode : CodeRef := .orig 0
  tregs : TrapRegs := {}
  barSeen : KMap Nat := []
  f64 : List F64Pend := []
  lwake : List Nat := []
  mxreset : Option (Pc × LaneMask) := none
  landing : Option Nat := none
  shipped : Bool := false
  away : Bool := false
  acqScope : Nat := 0
  deriving DecidableEq, Repr, Inhabited

/-! ## Blocks, launches, images -/

/-- A region of a block's A-buffer with its span code and map (R60, R63, R346). -/
structure Region where
  off : Nat
  size : Nat
  span : Nat := 0
  map : Option (Nat × Bool) := none
  deriving DecidableEq, Repr, Inhabited

/-- A line of written bytes: which bytes, and their values (R70), and whether its transaction's commit has written it. -/
structure HeldLine where
  mask : BitVec 64
  data : BitVec 512
  attr : Attr := {}
  va : Nat := 0
  core : Nat := 0
  blk : Nat := 0
  sent : Bool := false
  deriving DecidableEq, Repr, Inhabited

/-- Phases of a block's one transaction (R112, R117, R119). -/
inductive TxPhase where
  | idle | open | ordered | releasing | closed
  deriving DecidableEq, Repr, Inhabited

/-- The transaction of a block (R112 to R122, R268 to R270). -/
structure Tx where
  phase : TxPhase := .idle
  begun : List Nat := []
  arrived : List Nat := []
  named : Bool := false
  obj : Option (Bool × Nat) := none
  ord : Bool := false
  topTrip : Bool := false
  thr : Option (BitVec 28) := none
  monU : Nat := 0
  monN : Nat := 0
  monC : Nat := 0
  tripped : BitVec 4 := 0
  objAttr : Attr := {}
  synced : Bool := false
  deriving DecidableEq, Repr, Inhabited

/-- A named barrier (R239): phase number, arrivals of the current phase, and the CNT of its first arrival. -/
structure Barrier where
  phase : Nat := 0
  count : Nat := 0
  cnt : Option Nat := none
  deriving DecidableEq, Repr, Inhabited

/-- A delta byte of a deterministic launch (R152): host space or HBM, its physical and virtual address, and its value. -/
structure DeltaByte where
  host : Bool
  addr : Nat
  va : Nat
  val : Byte
  attr : Attr := {}
  deriving DecidableEq, Repr, Inhabited

/-- One block on its core. `presynced`: the warps whose words wait at a sync point that the merge of its delta has passed
(R153). `endDue`: a discard has ended the block, and its last delta is still to close (R116, R122, R152). -/
structure Block where
  launch : Nat := 0
  idx : Nat := 0
  core : Nat := 0
  rung : Nat := 0
  startRung : Nat := 0
  txseq : Nat := 0
  narrow : Bool := false
  dirtyTx : Bool := false
  payload : List Word := []
  reserved : Bool := false
  ended : Bool := false
  aSize : Nat := 0
  wSize : Nat := 0
  cSize : Nat := 0
  aMem : Memory := []
  wMem : Memory := []
  cMem : Memory := []
  regions : List Region := []
  filled : KMap Unit := []
  dirty : KMap Unit := []
  mapFixup : List Nat := []
  specA : KMap (BitVec 512) := []
  specC : KMap (BitVec 512) := []
  heldG : KMap HeldLine := []
  heldH : KMap HeldLine := []
  heldR : KMap HeldLine := []
  heldRecs : List (Nat × List (List Word)) := []
  poolA : Nat := 0
  poolC : Nat := 0
  reservedA : Nat := 0
  tx : Tx := {}
  fifos : KMap (List Word) := []
  q7 : List Word := []
  nbar : Nat := 0
  bars : KMap Barrier := []
  group : Option Nat := none
  token : Bool := false
  delta : List DeltaByte := []
  round : Nat := 0
  presynced : List Nat := []
  endDue : Bool := false
  deriving DecidableEq, Repr, Inhabited

/-- An argument of an image (R37). -/
structure ArgDecl where
  size : Nat
  static : Bool
  deriving DecidableEq, Repr, Inhabited

/-- A role (R26). -/
structure Role where
  warps : Nat
  regs : Nat
  entry : Pc
  deriving DecidableEq, Repr, Inhabited

/-- A spawn entry point (R186). -/
structure SpawnEntry where
  entry : Pc
  regs : Nat
  deriving DecidableEq, Repr, Inhabited

/-- A map attached to a region: MAPARG and MAPWB (R346). -/
structure MapDecl where
  region : Nat
  arg : Nat
  wb : Bool
  deriving DecidableEq, Repr, Inhabited

/-- A loaded kernel image or handler image (R37, R60, R106, R186, R238). `rungs` holds the rung table's bytes, and
`rungNos` the number that each of its entries was declared with (R107). -/
structure Image where
  code : List Word := []
  args : List ArgDecl := []
  roles : List Role := []
  spawns : List SpawnEntry := []
  rungs : List Byte := []
  rungNos : List Nat := []
  regions : List Region := []
  maps : List MapDecl := []
  wSize : Nat := 0
  cSize : Nat := 0
  vpa : Nat := 0
  vpc : Nat := 0
  spill : Nat := 0
  nbar : Nat := 0
  nospec : Bool := false
  identity : List Byte := []
  deriving DecidableEq, Repr, Inhabited

/-- A back-map entry: original PC and iteration (R53). -/
structure BackMap where
  opc : Pc
  iter : Nat
  deriving DecidableEq, Repr, Inhabited

/-- Residual code: words, back-map, and for each root of the image, by PC and register count, its entry (R53). -/
structure Residual where
  code : List Word := []
  back : List BackMap := []
  roots : List (Pc × Nat × Pc) := []
  deriving DecidableEq, Repr, Inhabited

/-- Life of a launch. -/
inductive LaunchPhase where
  | evaluating | running | finishing | faulted | complete
  deriving DecidableEq, Repr, Inhabited

/-- A block not yet placed (R324). -/
structure Unplaced where
  idx : Nat
  replay : Bool := false
  rung : Nat := 0
  startRung : Nat := 0
  txseq : Nat := 0
  narrow : Bool := false
  dirtyTx : Bool := false
  place : Option Nat := none
  recs : List Word := []
  deriving DecidableEq, Repr, Inhabited

/-- One launch (R317 to R319, R129). `refuse`: a word marked 0b10 did not fold in its walk (R51). -/
structure Launch where
  part : Nat := 0
  ctx : Nat := 0
  queue : Nat := 0
  image : Nat := 0
  phase : LaunchPhase := .running
  argPage : Nat := 0
  nblocks : Nat := 0
  clusg : Nat := 0
  stackg : Nat := 0
  dieg : Nat := 0
  det : Bool := false
  prio : Nat := 0
  seed : Word := 0
  doneVa : Nat := 0
  spillVa : Nat := 0
  status : Nat := 0
  resid : Option Residual := none
  spec : Bool := false
  refuse : Bool := false
  key : BitVec 128 := 0
  readyCk : Nat := 0
  unplaced : List Unplaced := []
  endedIdx : List Nat := []
  ordDone : List (Nat × Bool × Nat × Nat) := []
  replays : Nat := 0
  topTrips : Nat := 0
  abandoned : List Nat := []
  graph : Option (Nat × Nat) := none
  recNode : Bool := false
  domains : KMap Nat := []
  detHbm : Memory := []
  detBus : Memory := []
  merged : List (Nat × Nat × List DeltaByte) := []
  closed : KMap Nat := []
  wroteG : KMap (BitVec 64) := []
  wroteH : KMap (BitVec 64) := []
  deriving DecidableEq, Repr, Inhabited

/-! ## Cores and engines -/

/-- A binding-table entry (R138). -/
structure Binding where
  blk : Nat
  oab : Bool
  obj : Nat
  space : Nat
  base : Nat
  len : Nat
  deriving DecidableEq, Repr, Inhabited

/-- A spawn record (R286 to R288): `ck` is the issue of its SPAWN and `arr` its arrival in the spawn queue; `spillIx` is its
place in the spill area, and `spillAt` where that place lies, if it could be written. -/
structure SpawnRec where
  entry : Pc
  blk : Nat
  depth : Nat
  join : JoinCtr
  payload : List Word
  parent : Nat
  parentSlot : Nat
  lane : Nat
  ck : Nat
  arr : Nat := 0
  spillIx : Nat := 0
  spillAt : Option Attr := none
  deriving DecidableEq, Repr, Inhabited

/-- A child warp in the gatherer (R288). -/
structure Gather where
  entry : Pc
  blk : Nat
  recs : List SpawnRec
  firstCk : Nat
  launched : Bool := false
  deriving DecidableEq, Repr, Inhabited

/-- An array latch (R255) with the weight set, scales and metadata it holds (offsets 0, 16384 and 32768). -/
structure Latch where
  valid : Bool := false
  owner : Nat := 0
  fmt : Nat := 0
  scl : Nat := 0
  spr : Bool := false
  cover : Nat := 0
  wt : Memory := []
  deriving DecidableEq, Repr, Inhabited

/-- Matrix operations (R247). -/
inductive MOp where
  | mldw | mma | mmas | mmag | mzero
  deriving DecidableEq, Repr, Inhabited

/-- A matrix command as the push copied it (R249, R256, R258). `frozen*` hold operand bytes the engine has read before a
later write (R250); `before` holds, for a held command, the warp's threads as they stood at the word (R265). -/
structure MCmd where
  uid : Nat := 0
  blk : Nat := 0
  pc : Pc := 0
  op : MOp := .mma
  arr : Nat := 0
  lanes : LaneMask := 0
  tile : Nat := 0
  recd : Bool := false
  mon : Bool := false
  member : Bool := false
  held : Bool := false
  fa : Nat := 0
  fb : Nat := 0
  sca : Nat := 0
  scb : Nat := 0
  spr : Bool := false
  hA : BitVec 256 := 0
  hB : Option (BitVec 256) := none
  rows : List Nat := []
  k : Nat := 0
  thr : BitVec 28 := 0
  frozenA : KMap Byte := []
  frozenW : KMap Byte := []
  frozenG : KMap Byte := []
  frozenC : KMap Byte := []
  hdr : Pc := 0
  before : List Thread := []
  deriving DecidableEq, Repr, Inhabited

/-- The state of a core (R57, R130, R287, R361 to R365). `exchange` holds when the banks' exchange ends and `incoming` the
context it brings; `cut` what a context's next slice loses (R364); `slotCk` the count at which each slot last issued (R20). -/
structure Core where
  q0 : List MCmd := []
  west : Latch := {}
  east : Latch := {}
  mxSince : Nat := 0
  mxReset : Option Nat := none
  binds : List Binding := []
  spawnQ : List SpawnRec := []
  spillQ : List SpawnRec := []
  gather : List Gather := []
  ctxCur : Nat := 0
  ctxNext : Option Nat := none
  preloaded : Bool := false
  spillDone : Bool := true
  spilling : Option Nat := none
  draining : Bool := false
  drained : Bool := false
  exchange : Option Nat := none
  incoming : Nat := 0
  sliceStart : Nat := 0
  overrun : KMap Nat := []
  cut : KMap Nat := []
  halted : Bool := false
  landRes : List (Nat × Nat) := []
  slotCk : KMap Nat := []
  deriving DecidableEq, Repr, Inhabited

/-- An engine segment: a piece of one row within a page, source or destination (R344). -/
structure Segment where
  row : Nat
  off : Nat
  len : Nat
  dst : Bool
  deriving DecidableEq, Repr, Inhabited

/-- A tile-walk command (R271 to R274). `moved` and `wrote` are the bytes moved, by row and by global line; `frozen` holds
source bytes read before a later write, by row × 2^24 + offset (R250); `res` the lines it has reserved (R71);
`posted` the clients and pages of the records posted for the segments on its list (R344). -/
structure TwCmd where
  id : Nat := 0
  uid : Nat := 0
  blk : Nat := 0
  core : Nat := 0
  pc : Pc := 0
  kind : Nat := 0
  hS : BitVec 256 := 0
  hD : BitVec 256 := 0
  rows : List Nat := []
  ctl : Word := 0
  cval : Word := 0
  acq : Option (Bool × Nat × Nat) := none
  member : Bool := false
  moved : List (Nat × Nat × Nat) := []
  fixup : List Segment := []
  slot : Nat := 0
  opc : Nat := 0
  iter : Nat := 0
  frozen : KMap Byte := []
  res : List Nat := []
  wrote : KMap (BitVec 64) := []
  posted : List (Nat × Nat) := []
  deriving DecidableEq, Repr, Inhabited

/-- A collective command (R275, R276), numbered in push order over the package. `frozen` holds source bytes read before a
later write, and `kept` destination bytes written after the result's, both by virtual address (R250). -/
structure CollCmd where
  id : Nat := 0
  uid : Nat := 0
  blk : Nat := 0
  core : Nat := 0
  part : Nat := 0
  pc : Pc := 0
  kind : Nat := 0
  hS : BitVec 256 := 0
  hD : BitVec 256 := 0
  ctl : Word := 0
  tag : Word := 0
  g : Nat := 1
  rank : Nat := 0
  seq : Nat := 0
  slot : Nat := 0
  opc : Nat := 0
  iter : Nat := 0
  frozen : KMap Byte := []
  kept : KMap Unit := []
  fixup : List Segment := []
  deriving DecidableEq, Repr, Inhabited

/-! ## Slices, homes, fabric -/

/-- A line copy in a slice (R81, R130): which bytes it holds, which are dirty, their values, the leaf and address it
was reached by, the hint it was allocated with, and its last use (R82). -/
structure SliceLine where
  valid : BitVec 64 := 0
  dirty : BitVec 64 := 0
  data : BitVec 512 := 0
  attr : Attr := {}
  part : Nat := 0
  va : Nat := 0
  hint : Nat := 0
  used : Nat := 0
  deriving DecidableEq, Repr, Inhabited

/-- The state of a cluster: its slice's lines by physical line number with the count of their uses, and its tile-walk engine
(R74, R82, R130, R329). -/
structure Cluster where
  lines : KMap SliceLine := []
  uses : Nat := 0
  q2 : List TwCmd := []
  deriving DecidableEq, Repr, Inhabited

/-- A message of a crossbar path: bytes of one line for a home (R130). -/
structure Msg where
  line : Nat
  mask : BitVec 64
  data : BitVec 512
  attr : Attr := {}
  part : Nat := 0
  va : Nat := 0
  nak : Bool := false
  deriving DecidableEq, Repr, Inhabited

/-- A write on its way to the host or a peer (R130): from its address up, the bytes it holds. -/
structure FpWrite where
  addr : Nat
  bytes : List (Option Byte)
  va : Nat := 0
  deriving DecidableEq, Repr, Inhabited

/-- The fabric port's FIFO for one destination: writes not yet delivered, and delivered but not acknowledged. -/
structure FpQueue where
  q : List FpWrite := []
  unacked : List FpWrite := []
  deriving DecidableEq, Repr, Inhabited

/-! ## Dies -/

/-- A cached translation (R335, R337). -/
structure TlbEntry where
  part : Nat
  level : Nat
  prefix_ : Nat
  pte : Word
  cont : Bool := false
  deriving DecidableEq, Repr, Inhabited

/-- A rung-history entry (R125). -/
structure RungEntry where
  tag : Nat
  rung : Nat
  conf : Nat
  deriving DecidableEq, Repr, Inhabited

/-- An access counter (R350). -/
structure AccCounter where
  part : Nat
  region : Nat
  count : Nat
  deriving DecidableEq, Repr, Inhabited

/-- A specialisation-cache entry (R53), least recently used first in its list. -/
structure CacheEntry where
  key : BitVec 128
  identity : List Byte
  res : Residual
  deriving DecidableEq, Repr, Inhabited

/-- Link power states (R376). -/
inductive LinkSt where
  | full | narrow | sleep | down
  deriving DecidableEq, Repr, Inhabited

/-- One end of a link (R373 to R376, R392): `since` is the ck at which it took its state, `used` the last at which a packet
needed it. -/
structure Port where
  st : LinkSt := .down
  passed : Bool := false
  held : Bool := false
  since : Nat := 0
  used : Nat := 0
  waking : Option Nat := none
  deriving DecidableEq, Repr, Inhabited

/-- A request for a landing slot waiting at its target die (R377). -/
structure LandReq where
  uid : Nat
  wk : Nat
  domain : Nat
  charge : Nat
  deriving DecidableEq, Repr, Inhabited

/-- A fault event waiting on its die for room in the ring (R340); `quiet` once its page request has been answered, so that
its record is for information only (R345). -/
structure WaitEvent where
  part : Nat
  tag : Nat
  recs : List (List Word)
  quiet : Bool := false
  deriving DecidableEq, Repr, Inhabited

/-- Boot progress of a die (R391). -/
inductive BootSt where
  | reset | halted | running | excluded
  deriving DecidableEq, Repr, Inhabited

/-- The state of a die. `seed` and `privKey` are its security block's, from step 3 of a boot to the next reset (R390); `cfg`
is the configuration record it accepted; `owners` holds the owners in force of granules of its stacks that a walk has named
(R399). -/
structure Die where
  boot : BootSt := .reset
  clk0 : Nat := 0
  tlb : List TlbEntry := []
  q4 : List CollCmd := []
  history : KMap RungEntry := []
  counters : List AccCounter := []
  cache : List CacheEntry := []
  port0 : Port := {}
  port1 : Port := {}
  lnkIdle : BitVec 32 := 0
  lnkDown : Nat := 0
  mxRst : Nat := 0
  seed : Option (List Byte) := none
  privKey : Option (List Byte) := none
  meas : List Byte := List.replicate 32 0
  measBoot : List Byte := List.replicate 32 0
  pubKey : List Byte := []
  cfg : Option SignedObj := none
  owners : KMap Nat := []
  landReqs : List LandReq := []
  landNew : List LandReq := []
  waitEv : List WaitEvent := []
  deriving DecidableEq, Repr, Inhabited

/-! ## Partitions, contexts, queues, graphs -/

/-- A context of a partition (R360, R369). -/
structure Ctx where
  drain : Nat := 0
  slice : Nat := 0
  tvbase : BitVec 52 := 0
  thimg : BitVec 52 := 0
  deriving DecidableEq, Repr, Inhabited

/-- What a queue's program waits for (R316, R319, R402). -/
inductive QWait where
  | none | argPage | order | write
  deriving DecidableEq, Repr, Inhabited

/-- A queue program at work on one packet (R313, R314). -/
structure QRun where
  packet : List Word := []
  regs : KMap Word := []
  pc : Nat := 0
  rept : Option (Nat × Nat × Nat) := none
  wait : QWait := .none
  deriving DecidableEq, Repr, Inhabited

/-- A command queue (R313 to R316). -/
structure Queue where
  prog : List (BitVec 32) := []
  wins : List QWindow := []
  ringBase : Nat := 0
  ringLen : Nat := 0
  head : Nat := 0
  bell : Nat := 0
  run : Option QRun := none
  ordered : Bool := false
  pendingIds : List Nat := []
  pendingGraphs : List Nat := []
  ctx : Nat := 0
  deriving DecidableEq, Repr, Inhabited

/-- A graph node as loaded (R320, Table 5). -/
structure GNode where
  desc : Nat := 0
  succ : List Nat := []
  qcap : Nat := 0
  coal : Nat := 0
  recw : Nat := 1
  isRec : Bool := false
  pred : Nat := 0
  deriving DecidableEq, Repr, Inhabited

/-- A node of a running graph (R321, R322). -/
structure GRun where
  counter : Nat := 0
  desc : List Word := []
  page : Option Nat := none
  launch : Option Nat := none
  recs : List (List Word) := []
  done : Bool := false
  started : Bool := false
  deriving DecidableEq, Repr, Inhabited

/-- A resident graph table (R320 to R323). -/
structure Graph where
  base : Nat := 0
  doneVa : Nat := 0
  nodes : List GNode := []
  running : Bool := false
  queue : Nat := 0
  runs : List GRun := []
  bad : Option (Nat × Nat) := none
  sumAband : Nat := 0
  sumTop : Nat := 0
  sumReplay : Nat := 0
  writing : Bool := false
  deriving DecidableEq, Repr, Inhabited

/-- A front-end write that faulted and waits for FRESOLVE (R319). -/
inductive FeWrite where
  | launchDone (launch : Nat)
  | graphDone (place : Nat)
  | capture (queue : Nat)
  | word (queue va : Nat) (val : Word)
  deriving DecidableEq, Repr, Inhabited

/-- What waits under a fault tag (R341). -/
inductive EvWho where
  | warp
  | tilewalk (cl id : Nat)
  | collective (die id : Nat)
  | map (blk : Nat)
  | front (w : FeWrite)
  deriving DecidableEq, Repr, Inhabited

/-- A posted or waiting fault event (R340, R341, R345): the host pages it still waits for, and whether a page request of it
has failed, so that it waits for FRESOLVE. -/
structure Event where
  who : EvWho
  posted : Bool := false
  first : FaultRec := { cause := 0 }
  pris : List Nat := []
  failed : Bool := false
  deriving DecidableEq, Repr, Inhabited

/-- A saved warp in a frame (R342, R359). -/
structure Frame where
  w : Warp
  core : Nat
  ctx : Nat
  slot : Nat
  parked : Bool
  ready : Bool := false
  deliver : Option FaultInfo := none
  deriving DecidableEq, Repr, Inhabited

/-- Swap state of a partition (R367, R368). -/
inductive SwapSt where
  | resident | halting | copying | out | restoring
  deriving DecidableEq, Repr, Inhabited

/-- The registers of a partition (R328, R352, R387). `invRange` is the base and length that the last accepted write of INVGO
took (R338). -/
structure PartRegs where
  argPool : BitVec 52 := 0
  argPoolN : BitVec 16 := 0
  ptRoot : KMap (BitVec 52) := []
  fqBase : BitVec 52 := 0
  fqSize : BitVec 17 := 0
  fqHead : BitVec 16 := 0
  fqTail : BitVec 16 := 0
  invBase : BitVec 52 := 0
  invLen : BitVec 64 := 0
  invDone : Bool := true
  invRange : Nat × Nat := (0, 0)
  frameBase : BitVec 52 := 0
  frameCnt : BitVec 16 := 0
  mdBase : KMap (BitVec 52) := []
  acThresh : BitVec 16 := 0
  hqBase : BitVec 52 := 0
  hqSize : BitVec 17 := 0
  hqHead : BitVec 16 := 0
  hqTail : BitVec 16 := 0
  hqDrop : BitVec 32 := 0
  commBase : BitVec 52 := 0
  commCnt : BitVec 17 := 0
  stepBase : BitVec 52 := 0
  stepCnt : BitVec 16 := 0
  stepMiss : BitVec 32 := 0
  barErr : BitVec 32 := 0
  feRefused : BitVec 6 := 0
  feLoadBad : Bool := false
  feDropped : Bool := false
  deriving DecidableEq, Repr, Inhabited

/-- What a swapped-out partition's carve holds of its cores (R367). -/
structure Carve where
  warps : KMap Warp := []
  blocks : KMap Block := []
  cores : KMap Core := []
  deriving DecidableEq, Repr, Inhabited

/-- A partition (R366). `tokShare` is its share of the power tokens; `atc` holds the ATS translations by first bus page and order, `priOut` the page requests, of which
the first 512 are outstanding (R345, R379); `resolved` holds the FRESOLVE answers given while it is swapped out (R368). -/
structure Part where
  vf : Nat := 0
  clusters : List Nat := []
  regs : PartRegs := {}
  tdi : Nat := 0
  keyId : Nat := 0
  tokShare : Nat := 224
  ats : Bool := false
  atc : List (Nat × Nat) := []
  priOut : List Nat := []
  queues : KMap Queue := []
  graphs : KMap Graph := []
  ctxs : KMap Ctx := []
  pages : List Nat := []
  frames : KMap Frame := []
  events : KMap Event := []
  stepCounts : KMap Nat := []
  nextCmd : Nat := 0
  lastSeq : Nat := 223
  swap : SwapSt := .resident
  swapDone : Bool := false
  carve : Bool := false
  saved : Carve := {}
  resolved : List (Nat × Bool) := []
  sessionKey : List Byte := []
  wrapKey : List Byte := []
  deriving DecidableEq, Repr, Inhabited

/-! ## The device -/

/-- An event in the firmware mailbox (R358, R365, R375). -/
inductive Mail where
  | doubleFault (slot core die first second : Nat) (tpc topc : Word)
  | engineReset (core : Nat)
  | linksDown (die : Nat)
  deriving DecidableEq, Repr, Inhabited

/-- A report that still serves its exchange (R396, R397): its partition, the number of its key pair, and its bytes. -/
structure Report where
  part : Nat
  key : Nat
  bytes : List Byte
  deriving DecidableEq, Repr, Inhabited

/-- The image of a context on a core, for one slot (R362): its warp, the registers of the live bank that are the warp's, and the
slot area. -/
structure CtxImage where
  uid : Nat := 0
  regs : List Byte := []
  area : List Byte := []
  deriving DecidableEq, Repr, Inhabited

/-- Bring-up state (R391 to R400). `cfg` is the configuration record of the leader, `fwKey` and `devKey` name the memory keys of firmware and of the device. -/
structure Boot where
  present : BitVec 4 := 0
  excluded : BitVec 4 := 0
  leader : Nat := 0
  cfgVersion : BitVec 32 := 0
  cfgFloor : BitVec 32 := 0
  ownBase : BitVec 52 := 0
  up : Bool := false
  fwKey : Nat := 0
  devKey : Nat := 0
  cfg : Option SignedObj := none
  mcload : Option SignedObj := none
  reports : List Report := []
  deriving DecidableEq, Repr, Inhabited

/-- Who executes: nobody, a warp at an issue visit, or the front end on a queue's packet. -/
inductive Cur where
  | idle
  | warp (i : Issue)
  | queue (part q : Nat)
  deriving DecidableEq, Repr, Inhabited

/-- The whole device, and the model's own fields: `agenda` and `ticks` drive the choice of the next event, `free` counts
the free values used so far, `nextUid` names warps, blocks and launches, `nextTicket` orders waiting words. `imgs` holds the
context images by warp key (R362). -/
structure State where
  agenda : List Choice := []
  ticks : Nat := 0
  free : Nat := 0
  nextUid : Nat := 1
  nextTicket : Nat := 0
  ck : Nat := 0
  cur : Cur := .idle
  warps : KMap Warp := []
  blocks : KMap Block := []
  launches : KMap Launch := []
  images : KMap Image := []
  cores : KMap Core := []
  clusters : KMap Cluster := []
  dies : KMap Die := []
  parts : KMap Part := []
  hbm : Memory := []
  bus : Memory := []
  imgs : KMap CtxImage := []
  dx : KMap (List Msg) := []
  fp : KMap FpQueue := []
  ptokCap : BitVec 8 := 224
  mailbox : List Mail := []
  boot : Boot := {}
  deriving DecidableEq, Repr, Inhabited

/-- The machine right after reset: step 1 of the boot sequence on every die (R391): every register at its reset value,
links down, HBM untrained, caches and rung history clear, no partition, no image, no launch. -/
def State.reset : State := {}

end Sys2Proof.Machine
end

