-- ==== Sys2Proof/Machine/Maps.lean ====
section
/-! DEFINITION. Tables in rising key order, memories in canonical form, little-endian byte strings and 64-byte lines. -/

namespace Sys2Proof.Machine

open Sys2Proof

/-! ### Tables -/

/-- The entry of a key. -/
def KMap.get? {α : Type} (m : KMap α) (k : Nat) : Option α :=
  match m with
  | [] => none
  | (j, v) :: r => if j = k then some v else if k < j then none else KMap.get? r k

/-- The entry of a key, or a default. -/
def KMap.getD {α : Type} (m : KMap α) (k : Nat) (d : α) : α := (KMap.get? m k).getD d

/-- Sets the entry of a key. -/
def KMap.set {α : Type} (m : KMap α) (k : Nat) (v : α) : KMap α :=
  match m with
  | [] => [(k, v)]
  | (j, w) :: r => if j = k then (k, v) :: r else if k < j then (k, v) :: (j, w) :: r else (j, w) :: KMap.set r k v

/-- Removes the entry of a key. -/
def KMap.erase {α : Type} (m : KMap α) (k : Nat) : KMap α :=
  match m with
  | [] => []
  | (j, w) :: r => if j = k then r else if k < j then (j, w) :: r else (j, w) :: KMap.erase r k

/-- Changes the entry of a key that has one. -/
def KMap.modify {α : Type} (m : KMap α) (k : Nat) (f : α → α) : KMap α :=
  match m with
  | [] => []
  | (j, w) :: r => if j = k then (j, f w) :: r else (j, w) :: KMap.modify r k f

/-- Changes every value. -/
def KMap.mapVals {α : Type} (m : KMap α) (f : α → α) : KMap α := m.map fun e => (e.1, f e.2)

/-- The values in key order. -/
def KMap.vals {α : Type} (m : KMap α) : List α := m.map (·.2)

/-- The keys in order. -/
def KMap.keys {α : Type} (m : KMap α) : List Nat := m.map (·.1)

/-! ### Memories -/

/-- What an address that is not listed reads as: zero (R305 for scratch; log entry 2 for HBM and the bus). -/
def memDefault : Byte := 0

/-- Reads one byte. -/
def Memory.read (m : Memory) (a : Nat) : Byte := KMap.getD m a memDefault

/-- The cells of bytes from an address up, those that are not listed left out. -/
def Memory.cells (a : Nat) (bs : List Byte) : Memory :=
  match bs with
  | [] => []
  | b :: r => if b = memDefault then Memory.cells (a + 1) r else (a, b) :: Memory.cells (a + 1) r

/-- Writes bytes from an address up, keeping the canonical form. -/
def Memory.writeN (m : Memory) (a : Nat) (bs : List Byte) : Memory :=
  m.filter (fun c => c.1 < a) ++ Memory.cells a bs ++ m.filter (fun c => a + bs.length ≤ c.1)

/-- Writes one byte. -/
def Memory.write (m : Memory) (a : Nat) (b : Byte) : Memory := Memory.writeN m a [b]

/-- Writes those of some bytes that are held, from an address up. -/
def Memory.writeSome (m : Memory) (a : Nat) (bs : List (Option Byte)) : Memory :=
  match bs with
  | [] => m
  | none :: r => Memory.writeSome m (a + 1) r
  | some b :: r => Memory.writeSome (Memory.write m a b) (a + 1) r

/-- The canonical form: addresses strictly rising, no entry equal to what an unlisted address reads as. -/
def Memory.wf (m : Memory) : Bool :=
  match m with
  | [] => true
  | [(_, b)] => b != memDefault
  | (a, b) :: (a', b') :: r => a < a' && b != memDefault && Memory.wf ((a', b') :: r)

/-- Reads `n` bytes from an address up. -/
def Memory.readN (m : Memory) (a n : Nat) : List Byte := (List.range n).map fun i => Memory.read m (a + i)

/-! ### Little-endian numbers (R4) -/

/-- The number a byte string holds, byte 0 least significant. -/
def leNat (bs : List Byte) : Nat :=
  match bs with
  | [] => 0
  | b :: r => b.toNat + 256 * leNat r

/-- The `n` low bytes of a number. -/
def leBytes (n v : Nat) : List Byte :=
  match n with
  | 0 => []
  | k + 1 => BitVec.ofNat 8 v :: leBytes k (v / 256)

/-- A word's eight bytes. -/
def wordBytes (w : Word) : List Byte := leBytes 8 w.toNat

/-- The word of the first eight bytes. -/
def leWord (bs : List Byte) : Word := BitVec.ofNat 64 (leNat (bs.take 8))

/-! ### 64-byte lines -/

/-- Byte `i` of a line. -/
def lineByte (d : BitVec 512) (i : Nat) : Byte := BitVec.ofNat 8 (d.toNat / 2 ^ (8 * i))

/-- The bytes of a line. -/
def lineBytes (d : BitVec 512) : List Byte := leBytes 64 d.toNat

/-- The line of 64 bytes. -/
def lineOf (bs : List Byte) : BitVec 512 := BitVec.ofNat 512 (leNat (bs.take 64))

/-- A line with byte `i` replaced. -/
def setLineByte (d : BitVec 512) (i : Nat) (b : Byte) : BitVec 512 :=
  (d &&& ~~~((0xFF : BitVec 512) <<< (8 * i))) ||| (BitVec.ofNat 512 b.toNat <<< (8 * i))

/-- The bytes of `new` where the mask has a one, those of `old` elsewhere. -/
def mergeLine (mask : BitVec 64) (new old : BitVec 512) : BitVec 512 :=
  lineOf ((List.range 64).map fun i => if mask.getLsbD i then lineByte new i else lineByte old i)

/-- A mask with bits `off` to `off + n − 1` set. -/
def byteMask (off n : Nat) : BitVec 64 := BitVec.ofNat 64 ((2 ^ n - 1) * 2 ^ off)

/-- A line whose bytes from `off` up are `bs`, zero elsewhere. -/
def linePlace (off : Nat) (bs : List Byte) : BitVec 512 := BitVec.ofNat 512 (leNat bs * 2 ^ (8 * off))

/-- The bytes of a line from `off` on. -/
def lineRange (d : BitVec 512) (off n : Nat) : List Byte := leBytes n (d.toNat / 2 ^ (8 * off))

/-- The parts of a byte range by 64-byte line: line number, offset in the line, bytes. `fuel` bounds the lines. -/
def splitLines (fuel a : Nat) (bs : List Byte) : List (Nat × Nat × List Byte) :=
  match fuel with
  | 0 => []
  | f + 1 =>
    match bs with
    | [] => []
    | _ =>
      let n := 64 - a % 64
      (a / 64, a % 64, bs.take n) :: splitLines f (a + n) (bs.drop n)

/-- As `splitLines`, for a range of `n` bytes: line number, offset, length. -/
def rangeLines (fuel a n : Nat) : List (Nat × Nat × Nat) :=
  match fuel with
  | 0 => []
  | f + 1 =>
    if n = 0 then []
    else
      let k := min n (64 - a % 64)
      (a / 64, a % 64, k) :: rangeLines f (a + k) (n - k)

/-- The lines that meet a range. -/
def linesOf (a n : Nat) : List Nat :=
  if n = 0 then [] else (List.range ((a + n - 1) / 64 + 1 - a / 64)).map (· + a / 64)

/-- Two byte ranges share a byte. -/
def rangesMeet (a n b k : Nat) : Bool := a < b + k && b < a + n && n != 0 && k != 0

/-- The lanes of a mask, ascending. -/
def lanesOf (m : LaneMask) : List Nat := (List.range 32).filter fun i => m.getLsbD i

/-- The mask of some lanes. -/
def maskOf (l : List Nat) : LaneMask := l.foldl (fun m i => m ||| ((1 : LaneMask) <<< i)) 0

/-- Puts an element in its place in a sorted list, after those that do not come behind it. -/
def insertBy {α : Type} (le : α → α → Bool) (x : α) (l : List α) : List α :=
  match l with
  | [] => [x]
  | y :: r => if le y x then y :: insertBy le x r else x :: y :: r

/-- Sorts a list; elements that are equal in the order keep their places. -/
def sortBy {α : Type} (le : α → α → Bool) (l : List α) : List α := l.foldl (fun acc x => insertBy le x acc) []

/-- Replaces element `i` of a list. -/
def setNth {α : Type} (l : List α) (i : Nat) (v : α) : List α :=
  match l, i with
  | [], _ => []
  | _ :: r, 0 => v :: r
  | x :: r, k + 1 => x :: setNth r k v

/-- Changes element `i` of a list. -/
def modNth {α : Type} (l : List α) (i : Nat) (f : α → α) : List α :=
  match l, i with
  | [], _ => []
  | x :: r, 0 => f x :: r
  | x :: r, k + 1 => x :: modNth r k f

end Sys2Proof.Machine
end

