-- ==== Sys2Proof/Machine/MatrixArith.lean ====
section
/-! DEFINITION. The arithmetic of the matrix engine: elements, scales and zero points, sparse columns, block sums in the
order of R103, and what the monitors see (R87, R91, R92, R103 to R105, R110, R257, R261). -/

namespace Sys2Proof.Machine

open Sys2Proof

/-! ### Elements (R87, R91, R92, R104) -/

/-- Elements of a format in 256 bytes (R87, Table 4). -/
def mElems (f : Nat) : Nat := if f = 0 ∨ f = 8 then 512 else if f = 9 then 128 else if f = 10 then 64 else 256

/-- Bits an element takes in scratch. -/
def mBits (f : Nat) : Nat := 2048 / mElems f

/-- The vector format of a matrix format code, where it is a float or tapered one. -/
def mFmt (f : Nat) : Option Fmt :=
  match f with
  | 0 => some .e2m1 | 1 => some .e2m3 | 2 => some .e3m2 | 3 => some .e4m3 | 4 => some .e5m2 | 5 => some .t8
  | 6 => some .t6 | 9 => some .bf16 | 10 => some .f32 | _ => none

/-- log2 of the smallest normal of a format, for formats with subnormals (R85, R110). -/
def smallNormal (f : Nat) : Option Int :=
  match f with
  | 0 => some 0 | 1 => some 0 | 2 => some (-2) | 3 => some (-6) | 4 => some (-14) | 9 => some (-126) | 10 => some (-126)
  | _ => none

/-- An integer as an exact value. -/
def numInt (x : Int) : Num := .fin (x < 0) x.natAbs 0

/-- The exact sum of two finite values; otherwise the first. -/
def Num.plus (a b : Num) : Num := ((a.add .rne b).getD a)

/-- A finite FP32 value as the sum of its three BF16 pieces, overflow saturated; an infinity or NaN stays (R104). -/
def splitThree (x : Num) : Num :=
  match x with
  | .fin .. =>
    let piece := fun (r : Num) => Fmt.bf16.decode (Fmt.bf16.round .rne 0 true r).1
    let hi := piece x
    let r1 := x.plus hi.negate
    let mid := piece r1
    let lo := piece (r1.plus mid.negate)
    (hi.plus mid).plus lo
  | x => x

/-- The value of an element's code, an integer less its zero point (R91). -/
def mRaw (f code : Nat) (zp : Int) : Num :=
  match mFmt f with
  | some g => g.decode (code % 2 ^ g.width)
  | none => numInt (intOf true (mBits f) code - zp)

/-- What an element brings to a product of finite factors: its value, or the sum of its pieces in format 0xA (R104). -/
def mValue (f code : Nat) (zp : Int) : Num := if f = 10 then splitThree (mRaw f code zp) else mRaw f code zp

/-- The code of element `k` of a run of bytes (R87). -/
def mCode (f : Nat) (byte : Nat → Byte) (k : Nat) : Nat :=
  let n := mBits f
  if n < 8 then (byte (k / 2)).toNat / 2 ^ (4 * (k % 2)) % 16
  else leNat ((List.range (n / 8)).map fun i => byte (k * (n / 8) + i))

/-- An element with its scale: what it brings to a product of finite factors, its own value, the scale's exponent, and whether
the scale is 0xFF. -/
structure Elem where
  val : Num
  raw : Num
  exp : Int
  bad : Bool
  deriving DecidableEq, Repr, Inhabited

/-- A value times a power of two. -/
def Num.scaled (x : Num) (e : Int) : Num :=
  match x with
  | .fin n m k => .fin n m (k + e)
  | x => x

/-- An element under an MX scale, or under none (R92). -/
def Elem.make (x raw : Num) (scale : Option Nat) : Elem :=
  match scale with
  | none => { val := x, raw, exp := 0, bad := false }
  | some s =>
    let e : Int := (s : Int) - 127
    if s = 255 then { val := .nan .quiet, raw := .nan .quiet, exp := 0, bad := true }
    else { val := x.scaled e, raw := raw.scaled e, exp := e, bad := false }

/-- The element of a format's code under a scale. -/
def Elem.ofCode (f code : Nat) (zp : Int) (scale : Option Nat) : Elem := Elem.make (mValue f code zp) (mRaw f code zp) scale

/-- A product: of the values where a factor is infinite or NaN, of the sums of the pieces otherwise (R104). -/
def Elem.mul (a b : Elem) : Option Num := if a.raw.nonFinite || b.raw.nonFinite then a.raw.mul b.raw else a.val.mul b.val

/-! ### Block sums and monitors (R103, R110) -/

/-- What an operation has seen so far: flags, the trip conditions met, and the counts u, n and largest c. -/
structure Seen where
  iv : Bool := false
  of_ : Bool := false
  range : Bool := false
  nonfin : Bool := false
  u : Nat := 0
  n : Nat := 0
  cmax : Nat := 0
  canc : Bool := false
  deriving DecidableEq, Repr, Inhabited

/-- The exact sum of finite products, zero as +0. -/
def sumFin (ps : List Num) : Num :=
  let q := ps.foldl (fun (q : Int) p => match p with
    | .fin _ m e => if m = 0 then q else min q e
    | _ => q) 0
  let v := ps.foldl (fun (v : Int) p => match p with
    | .fin s m e => if m = 0 then v else v + scaleTo s m e q
    | _ => v) 0
  .fin (v < 0) v.natAbs q

/-- The block sum s: none for NaN (R103). -/
def blockSum (ps : List (Option Num)) : Option Num :=
  if ps.any (·.isNone) then none
  else
    let xs := ps.filterMap id
    let pos := xs.any (· == .inf false)
    let neg := xs.any (· == .inf true)
    if pos && neg then none else if pos then some (.inf false) else if neg then some (.inf true) else some (sumFin xs)

/-- The largest exponent of the non-zero finite products of a block. -/
def maxEps (ps : List (Option Num)) : Option Int :=
  ps.foldl (fun m p =>
    match p with
    | some x => if x.finNonzero then some (match m with | some e => max e x.eps | none => x.eps) else m
    | none => m) none

/-- Is a code of FP32 an infinity or NaN? -/
def f32Special (c : Nat) : Bool := c / 2 ^ 23 % 256 == 255

/-- |x| ≥ 2^(128 − H) for an FP32 code; a NaN has no magnitude. -/
def overRange (h c : Nat) : Bool :=
  match Fmt.f32.decode c with
  | .fin _ m e => m != 0 && (128 : Int) - h ≤ (Nat.log2 m : Int) + e
  | .inf _ => true
  | .nan _ => false

/-- The cancellation c of a block (Table 4). -/
def cancelBits (ps : List (Option Num)) (s : Option Num) (rs : Nat) : Int :=
  match s with
  | none => 0
  | some x =>
    if x.nonFinite || f32Special rs then 0
    else
      match maxEps ps with
      | none => 0
      | some e => if rs % 2 ^ 31 = 0 then 255 else e - (Fmt.f32.decode rs).eps

/-- Is a product below the smallest normals of its factors' formats (Table 4)? -/
def underflows (fa fb : Nat) (a b : Elem) (p : Num) : Bool :=
  match smallNormal fa, smallNormal fb with
  | some x, some y => p.ltPow (x + a.exp + y + b.exp)
  | _, _ => false

/-- One block of one accumulator element: the new accumulator and what was seen. `thr` holds the monitor values of Table 10:
HEAD, UFRAC, CANC and the enables. A block whose NaN arises from operands without one sets IV even if the accumulator holds a
NaN (log entry 118). -/
def blockStep (fa fb : Nat) (thr : Nat) (st : Nat × Seen) (xs : List (Elem × Elem)) : Nat × Seen :=
  let (acc, w) := st
  let head := bits thr 7 0
  let ps := xs.map fun x => x.1.mul x.2
  let s := blockSum ps
  let held := xs.any fun x => x.1.val.isNan || x.2.val.isNan
  let (rs, fl) := match s with
    | none => (Fmt.f32.nanCode, ({} : Flags))
    | some x => Fmt.f32.round .rne 0 false x
  let counted := xs.filter fun x => x.1.raw.finNonzero && x.2.raw.finNonzero
  let under := (counted.filter fun x => underflows fa fb x.1 x.2 ((x.1.mul x.2).getD (.fin false 0 0))).length
  let c := cancelBits ps s rs
  let a := Fmt.f32.decode acc
  let r := Fmt.f32.decode rs
  let sum := a.add .rne r
  let (acc', fl') := match sum with
    | none => (Fmt.f32.nanCode, ({} : Flags))
    | some x => Fmt.f32.round .rne 0 false x
  let odd := ps.any (fun p => match p with | some x => x.nonFinite | none => true)
  let iv := w.iv || (s.isNone && !held) || (sum.isNone && !a.isNan && !r.isNan)
  let range := w.range || overRange head rs || overRange head acc'
  let nonfin := w.nonfin || odd || f32Special rs || f32Special acc' || xs.any (fun x => x.1.bad || x.2.bad)
  let canc := w.canc || (bits thr 23 16 : Int) ≤ c
  (acc', { iv, of_ := w.of_ || fl.of_ || fl'.of_, range, nonfin, u := w.u + under, n := w.n + counted.length,
           cmax := max w.cmax (min 255 c.toNat), canc })

/-- The monitors that trip: NFE, CNE, UFE and RHE, from bit 3 down (R110). -/
def tripBits (thr : Nat) (w : Seen) : Nat :=
  let en := bits thr 27 24
  (if w.nonfin && en.testBit 3 then 8 else 0) + (if w.canc && en.testBit 2 then 4 else 0) +
  (if en.testBit 1 && 256 * w.u > bits thr 15 8 * w.n then 2 else 0) + (if w.range && en.testBit 0 then 1 else 0)

/-- Splits a list into runs of 32. -/
def blocks32 {α : Type} (fuel : Nat) (l : List α) : List (List α) :=
  match fuel with
  | 0 => []
  | f + 1 => if l.isEmpty then [] else l.take 32 :: blocks32 f (l.drop 32)

/-- One accumulator element over the whole operation, ascending K. -/
def accumulate (fa fb thr acc : Nat) (w : Seen) (row col : List (List Elem)) : Nat × Seen :=
  (row.zip col).foldl (fun st p => blockStep fa fb thr st (p.1.zip p.2)) (acc, w)

/-! ### Rows and columns -/

/-- The elements of an A row of K elements: its bytes, its zero point, and the scale of each block. -/
def rowElems (f k : Nat) (byte : Nat → Byte) (zp : Int) (scale : Nat → Option Nat) : List (List Elem) :=
  blocks32 (k / 32 + 1) ((List.range k).map fun i => Elem.ofCode f (mCode f byte i) zp (scale (i / 32)))

/-- The stored index of a position of a sparse column, from the metadata nibble of its group; none where nothing is stored
(R257). -/
def sparseIndex (md : Nat → Byte) (p : Nat) : Option Nat :=
  let q := p / 4
  let nib := (md (q / 2)).toNat / 2 ^ (4 * (q % 2)) % 16
  let i0 := nib % 4
  let i1 := nib / 4
  if p % 4 = i0 then some (2 * q) else if p % 4 = i1 then some (2 * q + 1) else none

/-- The elements of a column of one weight set: `cover` logical K positions (R257, R261). -/
def columnElems (f cover : Nat) (spr : Bool) (byte md : Nat → Byte) (scale : Nat → Option Nat) : List (List Elem) :=
  blocks32 (cover / 32 + 1) ((List.range cover).map fun p =>
    let at_ := if spr then sparseIndex md p else some p
    match at_ with
    | some i => Elem.ofCode f (mCode f byte i) 0 (scale (p / 32))
    | none => Elem.make (.fin false 0 0) (.fin false 0 0) (scale (p / 32)))

end Sys2Proof.Machine
end

