-- ==== Sys2Proof/Machine/Crypto.lean ====
section
/-! DEFINITION. SHAKE256 (R52, R388 to R397) and Philox-4x32-10 (R95, R326), by their public definitions, which the spec
names and does not repeat (log entry 9). -/

namespace Sys2Proof.Machine

open Sys2Proof

/-! ### Keccak-f[1600] and SHAKE256 -/

/-- The 24 round constants. -/
def keccakRC : List Word :=
  [0x0000000000000001, 0x0000000000008082, 0x800000000000808A, 0x8000000080008000, 0x000000000000808B,
   0x0000000080000001, 0x8000000080008081, 0x8000000000008009, 0x000000000000008A, 0x0000000000000088,
   0x0000000080008009, 0x000000008000000A] ++
  [0x000000008000808B, 0x800000000000008B, 0x8000000000008089, 0x8000000000008003, 0x8000000000008002,
   0x8000000000000080, 0x000000000000800A, 0x800000008000000A, 0x8000000080008081, 0x8000000000008080,
   0x0000000080000001, 0x8000000080008008]

/-- Rotation offset of lane x + 5y. -/
def keccakRot : List Nat :=
  [0, 1, 62, 28, 27, 36, 44, 6, 55, 20, 3, 10, 43, 25, 39, 41, 45, 15, 21, 8, 18, 2, 61, 56, 14]

/-- Lane x + 5y of a state. -/
def laneAt (a : List Word) (x y : Nat) : Word := a.getD (x % 5 + 5 * (y % 5)) 0

/-- One round. -/
def keccakRound (a : List Word) (rc : Word) : List Word :=
  let c := (List.range 5).map fun x => laneAt a x 0 ^^^ laneAt a x 1 ^^^ laneAt a x 2 ^^^ laneAt a x 3 ^^^ laneAt a x 4
  let d := (List.range 5).map fun x => c.getD ((x + 4) % 5) 0 ^^^ (c.getD ((x + 1) % 5) 0).rotateLeft 1
  let a := (List.range 25).map fun i => a.getD i 0 ^^^ d.getD (i % 5) 0
  -- ρ and π: lane (x, y) of the result comes from lane (x + 3y, x)
  let b := (List.range 25).map fun i =>
    let x := i % 5
    let y := i / 5
    let j := (x + 3 * y) % 5 + 5 * x
    (a.getD j 0).rotateLeft (keccakRot.getD j 0)
  let e := (List.range 25).map fun i =>
    let x := i % 5
    let y := i / 5
    laneAt b x y ^^^ (~~~(laneAt b (x + 1) y) &&& laneAt b (x + 2) y)
  match e with
  | [] => []
  | l :: r => (l ^^^ rc) :: r

/-- Keccak-f[1600]. -/
def keccakF (a : List Word) : List Word := keccakRC.foldl keccakRound a

/-- XORs a 136-byte block into the state. -/
def absorbBlock (a : List Word) (blk : List Byte) : List Word :=
  (List.range 25).map fun i => a.getD i 0 ^^^ (if i < 17 then leWord (blk.drop (8 * i)) else 0)

/-- The padded last block. -/
def padBlock (b : List Byte) : List Byte :=
  let l := b ++ [(0x1F : Byte)] ++ List.replicate (135 - b.length) 0
  modNth l 135 (· ||| 0x80)

/-- Absorbs a message. -/
def absorb (fuel : Nat) (a : List Word) (msg : List Byte) : List Word :=
  match fuel with
  | 0 => a
  | f + 1 =>
    if msg.length < 136 then keccakF (absorbBlock a (padBlock msg))
    else absorb f (keccakF (absorbBlock a (msg.take 136))) (msg.drop 136)

/-- Squeezes `n` bytes. -/
def squeeze (fuel : Nat) (a : List Word) (n : Nat) : List Byte :=
  match fuel with
  | 0 => []
  | f + 1 =>
    let out := (a.take 17).flatMap wordBytes
    if n ≤ 136 then out.take n else out ++ squeeze f (keccakF a) (n - 136)

/-- SHAKE256 with an output of `n` bytes. -/
def shake256 (n : Nat) (msg : List Byte) : List Byte :=
  squeeze (n / 136 + 1) (absorb (msg.length / 136 + 1) (List.replicate 25 0) msg) n

/-- SHAKE256-256: 32 bytes. -/
def digest (msg : List Byte) : List Byte := shake256 32 msg

/-! ### Philox-4x32-10 -/

/-- One round on four 32-bit words under a key pair. -/
def philoxRound (c : Nat × Nat × Nat × Nat) (k0 k1 : Nat) : Nat × Nat × Nat × Nat :=
  let (c0, c1, c2, c3) := c
  let p0 := 0xD2511F53 * c0
  let p1 := 0xCD9E8D57 * c2
  (Nat.xor (Nat.xor (p1 / 2 ^ 32) c1) k0, p1 % 2 ^ 32, Nat.xor (Nat.xor (p0 / 2 ^ 32) c3) k1, p0 % 2 ^ 32)

/-- The rounds left. -/
def philoxRounds (n : Nat) (c : Nat × Nat × Nat × Nat) (k0 k1 : Nat) : Nat × Nat × Nat × Nat :=
  match n with
  | 0 => c
  | m + 1 => philoxRounds m (philoxRound c k0 k1) ((k0 + 0x9E3779B9) % 2 ^ 32) ((k1 + 0xBB67AE85) % 2 ^ 32)

/-- Output word 0 of Philox-4x32-10, keyed by a 64-bit seed, low word first. -/
def philox (seed : Word) (c0 c1 c2 c3 : Nat) : Nat :=
  (philoxRounds 10 (c0 % 2 ^ 32, c1 % 2 ^ 32, c2 % 2 ^ 32, c3 % 2 ^ 32) (seed.toNat % 2 ^ 32) (seed.toNat / 2 ^ 32)).1

/-- The 16-bit draw of R95. -/
def stochDraw (seed : Word) (blockidx warpid lane drawc : Nat) : Nat := philox seed blockidx warpid lane drawc % 65536

end Sys2Proof.Machine
end

