-- ==== Sys2Proof/Config.lean ====
section
/-! DEFINITION. What the spec leaves open or to cryptography: constants without a body, of which nothing can be proved
but what holds of every value (log entries 3, 4 and 8). -/

namespace Sys2Proof

/-- What moves next when the agenda is empty: the order of device steps and every input from outside (R132, log entry 3). -/
opaque Config.choice : Nat → Choice

/-- The n-th free value (log entry 4). -/
opaque Config.freeBits : Nat → BitVec 64

/-- Falcon-1024: does the signature verify for the message under the public key? (R388) -/
opaque Config.falconVerify (key msg sig : List Byte) : Bool

/-- The public key of the Falcon-1024 key pair generated from 64 bytes of SHAKE256 output (R390). -/
opaque Config.falconPublic (seed : List Byte) : List Byte

/-- The private key of that pair. -/
opaque Config.falconPrivate (seed : List Byte) : List Byte

/-- The Falcon-1024 signature over a message under a private key (R392, R396). -/
opaque Config.falconSign (key msg : List Byte) : List Byte

/-- The root key digest in mask ROM (R391). -/
opaque Config.romDigest : List Byte

/-- The encapsulation key of the n-th ML-KEM-1024 key pair drawn (R396). -/
opaque Config.kemPublic : Nat → List Byte

/-- Decapsulation under the n-th key pair (R397). -/
opaque Config.kemShared : Nat → List Byte → List Byte

/-- Which peer device a bus address belongs to (R333). -/
opaque Config.peerOf : Nat → Nat

/-- Whether ATS is enabled for a virtual function (R345). -/
opaque Config.atsEnabled : Nat → Bool

end Sys2Proof
end

