-- ==== Sys2Proof/Machine/Ops.lean ====
section
/-! DEFINITION. The named operations every meaning is written over: access to the parts of State, places and time, free
values, the positions of threads, how a word ends (it completes, blocks or faults), and taking an exception: the trap,
the double fault, and the fault records with the frame (R25, R220, R339 to R342, R353 to R359). -/

namespace Sys2Proof.Machine

open Sys2Proof

/-! ### Parts of the state -/

/-- The warp in a slot. -/
def State.warp (s : State) (wk : Nat) : Option Warp := KMap.get? s.warps wk
/-- Sets the warp in a slot. -/
def State.setWarp (s : State) (wk : Nat) (w : Warp) : State := { s with warps := KMap.set s.warps wk w }
/-- Changes the warp in a slot that holds one. -/
def State.modWarp (s : State) (wk : Nat) (f : Warp → Warp) : State := { s with warps := KMap.modify s.warps wk f }
/-- Frees a slot. -/
def State.dropWarp (s : State) (wk : Nat) : State := { s with warps := KMap.erase s.warps wk }

/-- A block. -/
def State.block (s : State) (b : Nat) : Option Block := KMap.get? s.blocks b
/-- Sets a block. -/
def State.setBlock (s : State) (b : Nat) (x : Block) : State := { s with blocks := KMap.set s.blocks b x }
/-- Changes a block that exists. -/
def State.modBlock (s : State) (b : Nat) (f : Block → Block) : State := { s with blocks := KMap.modify s.blocks b f }

/-- A launch. -/
def State.launch (s : State) (l : Nat) : Option Launch := KMap.get? s.launches l
/-- Sets a launch. -/
def State.setLaunch (s : State) (l : Nat) (x : Launch) : State := { s with launches := KMap.set s.launches l x }
/-- Changes a launch that exists. -/
def State.modLaunch (s : State) (l : Nat) (f : Launch → Launch) : State :=
  { s with launches := KMap.modify s.launches l f }

/-- A core; every core has a state. -/
def State.core (s : State) (c : Nat) : Core := KMap.getD s.cores c {}
/-- Changes a core. -/
def State.modCore (s : State) (c : Nat) (f : Core → Core) : State :=
  { s with cores := KMap.set s.cores c (f (s.core c)) }

/-- A cluster; every cluster has a state. -/
def State.cluster (s : State) (c : Nat) : Cluster := KMap.getD s.clusters c {}
/-- Changes a cluster. -/
def State.modCluster (s : State) (c : Nat) (f : Cluster → Cluster) : State :=
  { s with clusters := KMap.set s.clusters c (f (s.cluster c)) }

/-- A die; every die has a state. -/
def State.die (s : State) (d : Nat) : Die := KMap.getD s.dies d {}
/-- Changes a die. -/
def State.modDie (s : State) (d : Nat) (f : Die → Die) : State := { s with dies := KMap.set s.dies d (f (s.die d)) }

/-- A partition. -/
def State.part (s : State) (p : Nat) : Option Part := KMap.get? s.parts p
/-- A partition, or an empty one. -/
def State.partD (s : State) (p : Nat) : Part := KMap.getD s.parts p {}
/-- Changes a partition that exists. -/
def State.modPart (s : State) (p : Nat) (f : Part → Part) : State := { s with parts := KMap.modify s.parts p f }
/-- Changes the registers of a partition that exists. -/
def State.modRegs (s : State) (p : Nat) (f : PartRegs → PartRegs) : State :=
  s.modPart p fun x => { x with regs := f x.regs }

/-- The image loaded at a virtual address of a partition. -/
def imageKey (part va : Nat) : Nat := part * 2 ^ 52 + va
/-- An image. -/
def State.image (s : State) (k : Nat) : Option Image := KMap.get? s.images k

/-- The slot that holds the warp of a name. -/
def State.findUid (s : State) (uid : Nat) : Option (Nat × Warp) := s.warps.find? fun x => x.2.uid == uid

/-! ### Places -/

/-- The core of a warp key. -/
def coreOfWk (wk : Nat) : Nat := wk / 32 / 256
/-- The context of a warp key. -/
def ctxOfWk (wk : Nat) : Nat := wk / 32 % 256
/-- The slot of a warp key. -/
def slotOfWk (wk : Nat) : Nat := wk % 32
/-- The key of a slot. -/
def wkOf (core ctx slot : Nat) : Nat := (core * 256 + ctx) * 32 + slot
/-- The die of a core. -/
def dieOfCore (c : Nat) : Nat := c / 56
/-- The cluster of a core, package-wide (`%coreid` = 4 × cluster + position, R325). -/
def clusterOfCore (c : Nat) : Nat := c / 4
/-- The position of a core in its cluster. -/
def posOfCore (c : Nat) : Nat := c % 4
/-- The die of a cluster. -/
def dieOfCluster (cl : Nat) : Nat := cl / 14
/-- The stack domain of a core (R325). -/
def stackOfCore (c : Nat) : Nat := 2 * (c / 56) + (if c / 4 % 14 ≥ 7 then 1 else 0)
/-- The die of a warp key. -/
def dieOfWk (wk : Nat) : Nat := dieOfCore (coreOfWk wk)
/-- The cluster of a warp key. -/
def clusterOfWk (wk : Nat) : Nat := clusterOfCore (coreOfWk wk)

/-- The count of ck since a die's reset (R301). -/
def State.dieCk (s : State) (d : Nat) : Nat := s.ck - (s.die d).clk0

/-! ### Free values -/

/-- The next free value (log entry 4). -/
def State.freeWord (s : State) : Word := Config.freeBits s.free
/-- The state after one free value is used. -/
def State.useFree (s : State) : State := { s with free := s.free + 1 }

/-- A new name. -/
def State.newUid (s : State) : State := { s with nextUid := s.nextUid + 1 }

/-! ### Code -/

/-- The words of a code section. -/
def State.codeOf (s : State) (c : CodeRef) : List Word :=
  match c with
  | .orig k => ((s.image k).map (·.code)).getD []
  | .resid l => (((s.launch l).bind (·.resid)).map (·.code)).getD []

/-- Is any thread of the warp in trap mode? -/
def Warp.inTrap (w : Warp) : Bool := w.threads.any (·.trapped)

/-- The code the warp's issuing threads run: the handler's in trap mode (R354). -/
def Warp.activeCode (w : Warp) : CodeRef := if w.inTrap then w.tcode else w.code

/-- The original PC and the iteration of a PC (R56). -/
def State.backOf (s : State) (c : CodeRef) (pc : Pc) : Pc × Nat :=
  match c with
  | .orig _ => (pc, 0)
  | .resid l =>
    match ((s.launch l).bind (·.resid)).bind (fun r => r.back[pc.toNat]?) with
    | some b => (b.opc, b.iter)
    | none => (pc, 0)

/-! ### Threads -/

/-- Runnable threads (R11). -/
def Thread.runnable (t : Thread) : Bool := t.st == .sub || t.st == .loop || t.st == .wait

/-- Threads that may issue: runnable, and in trap mode those of the trapped set that have not executed TRET (R356, R298). -/
def Warp.mayIssue (w : Warp) (t : Thread) : Bool := t.runnable && (!w.inTrap || (t.trapped && t.tret.isNone))

/-- The broadcast PC: that of the lowest-numbered thread that may issue (R13). -/
def Warp.broadcast (w : Warp) : Option Pc := (w.threads.find? w.mayIssue).map (·.pos.pc)

/-- Thread of a lane. -/
def Warp.thread (w : Warp) (lane : Nat) : Thread := w.threads.getD lane {}

/-- Does the word lie in the thread's loop buffer? -/
def Thread.inBuf (t : Thread) (pc : Pc) : Bool :=
  t.bufBase.toNat ≤ pc.toNat && pc.toNat < t.bufBase.toNat + t.bufLen

/-- May the thread execute its next word from its loop buffer: it lies there, and is a class-0 word or the BRA that ends a
class-0 clause (R15)? -/
def Thread.bufferable (t : Thread) (code : List Word) : Bool :=
  let hpc : Pc := t.pos.hdr.getD t.pos.pc
  let wpc : Pc := if t.pos.hdr.isNone then t.pos.pc + 1 else t.pos.pc
  t.bufLen != 0 && t.inBuf wpc && (t.pos.hdr.isSome || t.inBuf hpc) &&
  match (code[hpc.toNat]?).bind decodeHeader, (code[wpc.toNat]?).bind decodeWord with
  | some h, some i =>
    h.cls == 0 &&
    (i.opcode < 0xA0 || (i.opcode == 0xC0 && wpc.toNat == hpc.toNat + h.nwords))
  | _, _ => false

/-- The states of the threads after an issue (R11, Table 3; R13). -/
def Warp.regroup (w : Warp) (code : List Word) : Warp :=
  let low := w.threads.findIdx w.mayIssue
  let bpos := w.broadcast
  let upd := fun (i : Nat) (t : Thread) =>
    if w.mayIssue t then
      let away : ThreadSt := if t.bufferable code then .loop else .wait
      match t.st with
      | .sub => if bpos = some t.pos.pc then t else { t with st := away }
      | .loop => if away == .loop then t else { t with st := if i = low then .sub else .wait }
      | .wait => if i = low then { t with st := .sub } else t
      | _ => t
    else t
  { w with threads := w.threads.mapIdx upd }

/-- No thread is runnable: the warp retires (R25). -/
def Warp.retireIfDone (w : Warp) : Warp :=
  if w.threads.any (·.runnable) then w else { w with st := .retire, pend := none }

/-- The loop-end step at the word at `x` (R282): levels that end there are dropped or return to their start. -/
def loopEnd (x : Pc) (ls : List LoopLevel) : Option Pc × List LoopLevel :=
  match ls with
  | [] => (none, [])
  | l :: r =>
    if l.le = x then
      (if l.lc - 1 = 0 then loopEnd x r else (some l.ls, { l with lc := l.lc - 1 } :: r))
    else (none, l :: r)

/-- The thread after a word of the visit that leaves it at the next PC: the next repeat of a REP, or the next word with the
loop-end step, which empties the loop buffer when a loop ends (R14, R211, R282). -/
def Thread.advance (iss : Issue) (t : Thread) : Thread :=
  if t.pos.rep > 1 then { t with pos := { t.pos with pc := iss.pc, hdr := some iss.hdr, rep := t.pos.rep - 1 } }
  else
    let next : Pos := { pc := iss.pc + 1, hdr := if iss.last then none else some iss.hdr }
    match loopEnd iss.pc t.loops with
    | (some ls, r) =>
      { t with pos := { pc := ls }, loops := r, bufLen := if r.length = t.loops.length then t.bufLen else 0 }
    | (none, r) => { t with pos := next, loops := r, bufLen := if r.length = t.loops.length then t.bufLen else 0 }

/-- The thread sent to a PC, where a clause header stands (R159). -/
def Thread.jump (pc : Pc) (t : Thread) : Thread := { t with pos := { pc } }

/-- Changes the threads of some lanes. -/
def Warp.modLanes (w : Warp) (m : LaneMask) (f : Nat → Thread → Thread) : Warp :=
  { w with threads := w.threads.mapIdx fun i t => if m.getLsbD i then f i t else t }

/-- The warp after a word of the visit has completed and every active lane goes on at the next PC. -/
def Warp.finish (w : Warp) (iss : Issue) (code : List Word) : Warp :=
  (({ w with pend := none }.modLanes iss.lanes fun _ t => t.advance iss).regroup code).retireIfDone

/-- The state after the word of the visit has completed. -/
def State.finish (s : State) (iss : Issue) : State :=
  match s.warp iss.wk with
  | some w => s.setWarp iss.wk (w.finish iss (s.codeOf w.activeCode))
  | none => s

/-! ### Guards -/

/-- Predicate p of a warp; p0 reads all true (R161). -/
def Warp.pred (w : Warp) (p : Nat) : LaneMask := if p = 0 then BitVec.allOnes 32 else KMap.getD w.preg p 0

/-- Writes a predicate; p0 ignores writes (R207). -/
def Warp.setPred (w : Warp) (p : Nat) (m : LaneMask) : Warp :=
  if p = 0 then w else { w with preg := KMap.set w.preg p m }

/-- The lanes whose guard holds (R161). -/
def Warp.guardMask (w : Warp) (g : Guard) : LaneMask :=
  let m := w.pred g.pred.toNat
  if g.neg then ~~~m else m

/-- The participating lanes of a visit. -/
def Warp.partLanes (w : Warp) (iss : Issue) (g : Guard) : LaneMask := iss.lanes &&& w.guardMask g

/-- The lowest active lane. -/
def Issue.elected (iss : Issue) : Nat := (lanesOf iss.lanes).headD 0

/-- Does the guard of the lowest active lane hold (R187, R248)? -/
def Warp.electedGuard (w : Warp) (iss : Issue) (g : Guard) : Bool := (w.guardMask g).getLsbD iss.elected

/-! ### Membership and place of a warp -/

/-- Does the warp run on its block's core, and not as one that has arrived by MIGRATE (R35)? -/
def State.atHome (s : State) (wk : Nat) (w : Warp) : Bool :=
  match s.block w.blk with
  | some b => b.core == coreOfWk wk && !w.away
  | none => false

/-- Is a transaction of the block open (R112)? -/
def Block.txOpen (b : Block) : Bool := b.tx.phase == .open || b.tx.phase == .ordered || b.tx.phase == .releasing

/-- Is the warp a member of an open transaction (R66)? -/
def State.isMember (s : State) (wk : Nat) (w : Warp) : Bool :=
  match s.block w.blk with
  | some b => b.txOpen && (!w.child || b.core == coreOfWk wk)
  | none => false

/-- The launch of a warp. -/
def State.launchOf (s : State) (w : Warp) : Launch := ((s.launch w.launch).getD {})
/-- The partition of a warp. -/
def State.partOf (s : State) (w : Warp) : Nat := (s.launchOf w).part

/-! ### Physical access (R403) -/

/-- Reads HBM bytes as they are stored. -/
def State.physRead (s : State) (pa n : Nat) : List Byte := Memory.readN s.hbm pa n
/-- Writes HBM bytes as they are stored. -/
def State.physWrite (s : State) (pa : Nat) (bs : List Byte) : State := { s with hbm := Memory.writeN s.hbm pa bs }
/-- Reads a 64-bit word of HBM. -/
def State.physWord (s : State) (pa : Nat) : Word := leWord (s.physRead pa 8)

/-! ### Fault records and the ring (R339, R340) -/

/-- The four words of a record. -/
def FaultRec.words (r : FaultRec) (tag ridx rcnt opc rpc die core slot iter : Nat) : List Word :=
  [BitVec.ofNat 64 (r.addr % 2 ^ 52),
   BitVec.ofNat 64 (((tag % 65536 * 256 + ridx % 256) * 256 + rcnt % 256) * 2 ^ 32 + r.lanes.toNat),
   BitVec.ofNat 64 (opc % 2 ^ 32 * 2 ^ 32 + rpc % 2 ^ 32),
   BitVec.ofNat 64 (((((((((r.cause % 256 * 16 + r.reason % 16) * 16 + r.client % 16) * 8 + r.acc % 8) * 8 + r.space % 8) * 4
     + die % 4) * 64 + core % 64) * 32 + slot % 32) * 2 + r.hostpri.isSome.toNat) * 2 ^ 28 + iter % 4096 * 65536)]

/-- Is the size one a ring exists for (R340)? -/
def ringSizeOk (n : Nat) : Bool := 64 ≤ n && n ≤ 65536 && n == 2 ^ Nat.log2 n

/-- Records free in a ring; equal head and tail mean empty, so one place stays unused (log entry 15). -/
def ringFree (size head tail : Nat) : Nat := size - 1 - (tail + size - head % size) % size

/-- Writes the records of an event at the tail, and advances it. -/
def State.ringWrite (s : State) (part : Nat) (recs : List (List Word)) : State :=
  recs.foldl (fun s r =>
    let g := (s.partD part).regs
    let size := g.fqSize.toNat
    let t := g.fqTail.toNat % size
    (s.physWrite (g.fqBase.toNat + 32 * t) (r.flatMap wordBytes)).modRegs part fun g =>
      { g with fqTail := BitVec.ofNat 16 ((t + 1) % size) }) s

/-- Has the partition's ring room for the records? -/
def State.ringRoom (s : State) (part n : Nat) : Bool :=
  let g := (s.partD part).regs
  ringSizeOk g.fqSize.toNat && n ≤ ringFree g.fqSize.toNat g.fqHead.toNat g.fqTail.toNat

/-- Writes the die's first waiting event of the partition to the ring if it has room (R340). -/
def State.postFirst (s : State) (die part : Nat) : State :=
  match (s.die die).waitEv.find? (fun e => e.part == part) with
  | some e =>
    if s.ringRoom part e.recs.length then
      ((s.ringWrite part e.recs).modDie die fun d => { d with waitEv := d.waitEv.erase e }).modPart part fun p =>
        { p with events := if e.quiet then p.events else KMap.modify p.events e.tag fun v => { v with posted := true } }
    else s
  | none => s

/-- Reports an event: its records wait on the die behind earlier ones, and are written at once if there is room. -/
def State.report (s : State) (die part tag : Nat) (ev : Event) (recs : List (List Word)) : State :=
  let s := s.modPart part fun p => { p with events := KMap.set p.events tag ev }
  let s := s.modDie die fun d => { d with waitEv := d.waitEv ++ [{ part, tag, recs }] }
  s.postFirst die part

/-! ### The context frame (R359) -/

/-- Register charge of N registers, in units of 8 (R26). -/
def charge (n : Nat) : Nat := (n + 7) / 8 * 8

/-- The state code of a thread in TSTATE. -/
def ThreadSt.code (t : ThreadSt) : Nat :=
  match t with
  | .sub => 0 | .loop => 1 | .wait => 2 | .done => 3 | .off => 4

/-- The state of a code in TSTATE; an unused code reads as Off. -/
def ThreadSt.ofCode (n : Nat) : ThreadSt :=
  match n with
  | 0 => .sub | 1 => .loop | 2 => .wait | 3 => .done | _ => .off

/-- Loop levels as the twelve 32-bit words of LOOPS, level 0 the outermost; a level not in use holds zero. -/
def loopWords (l : List LoopLevel) : List Byte :=
  let o := l.reverse
  (List.range 4).flatMap fun i =>
    match o[i]? with
    | some x => leBytes 4 x.lc.toNat ++ leBytes 4 x.ls.toNat ++ leBytes 4 x.le.toNat
    | none => leBytes 12 0

/-- The first 8 KiB of a frame, as (offset, bytes). -/
def State.frameHead (s : State) (w : Warp) (frame core slot reason : Nat) : List (Nat × List Byte) :=
  let ts := (List.range 32).map w.thread
  let entry := match w.code with
    | .orig k => k % 2 ^ 52
    | .resid l => l
  [(0x0000, leBytes 8 (frame % 65536 + slot * 2 ^ 16 + core % 56 * 2 ^ 21 + core / 56 * 2 ^ 27 + reason * 2 ^ 29
      + charge w.nregs / 8 * 2 ^ 32)),
   (0x0008, leBytes 8 (((s.block w.blk).map (·.idx)).getD 0 % 2 ^ 32 + w.depth % 256 * 2 ^ 32 + w.warpid % 64 * 2 ^ 40)),
   (0x0010, leBytes 8 entry), (0x0018, wordBytes w.fcsr),
   (0x0020, leBytes 16 ((ts.mapIdx fun i t => (t.st.code + (if t.trapped then 8 else 0)) * 2 ^ (4 * i)).sum)),
   (0x0030, leBytes 8 w.lastBuf.toNat),
   (0x0038, [w.tregs.tcause, w.tregs.tpc, w.tregs.topc, w.tregs.titer, w.tregs.tmask, w.tregs.tinfo].flatMap wordBytes),
   (0x0080, ts.flatMap fun t => leBytes 4 t.pos.pc.toNat),
   (0x0100, ts.flatMap fun t => leBytes 4 (t.pos.rep + t.loops.length * 128)),
   (0x0180, ts.flatMap fun t => loopWords t.loops),
   (0x0780, ts.flatMap fun t =>
      match t.save with
      | some v => leBytes 4 v.pos.pc.toNat ++ leBytes 4 (v.pos.rep + v.loops.length * 128) ++ loopWords v.loops
      | none => leBytes 56 0),
   (0x0E80, ts.flatMap fun t => leBytes 4 t.draw.toNat),
   (0x0F00, leBytes 4 w.sdraw.toNat ++ leBytes 4 w.srep),
   (0x0F08, (List.range 7).flatMap fun p => leBytes 4 (w.pred (p + 1)).toNat),
   (0x1000, (List.range 64).flatMap fun r => wordBytes (KMap.getD w.sreg r 0)),
   (0x1200, (List.range 16).flatMap fun r => leBytes 32 (KMap.getD w.hreg r (0 : BitVec 256)).toNat)]

/-- Writes a frame at a physical address; the vector registers when `full`. -/
def State.writeFrame (s : State) (w : Warp) (base frame core slot reason : Nat) (full : Bool) : State :=
  let s := (s.frameHead w frame core slot reason).foldl (fun s x => s.physWrite (base + x.1) x.2) s
  if full then
    s.physWrite (base + 0x2000)
      ((List.range (charge w.nregs)).flatMap fun r => (List.range 32).flatMap fun l =>
        wordBytes (KMap.getD w.vreg (32 * r + l) 0))
  else s

/-- The levels in use of twelve words of LOOPS, innermost first. -/
def loopsOf (n : Nat) (bs : List Byte) : List LoopLevel :=
  let word := fun (k : Nat) => BitVec.ofNat 32 (leNat ((bs.drop k).take 4))
  ((List.range (min n 4)).map fun i => { lc := word (12 * i), ls := word (12 * i + 4), le := word (12 * i + 8) }).reverse

/-- A position at a PC with repeats left. The clause and the REP immediate, which a frame does not hold, are those of the
warp as it was saved, while it stands at the same word. -/
def Pos.backAt (p : Pos) (pc : Nat) (rep : Nat) : Pos :=
  let pc := BitVec.ofNat 32 pc
  { p with pc, rep, hdr := if pc = p.pc then p.hdr else none }

/-- A thread as a frame's words give it; `rd` reads bytes of the frame at an offset. -/
def Thread.ofFrame (rd : Nat → Nat → List Byte) (lane : Nat) (t : Thread) : Thread :=
  let word := fun (k : Nat) => leNat (rd k 4)
  let st := leNat (rd 0x20 16) / 2 ^ (4 * lane) % 16
  let back := fun (p : Pos) (pc lrep loops : Nat) =>
    (p.backAt (word pc) (word lrep % 128), loopsOf (word lrep / 128 % 8) (rd loops 48))
  let (pos, loops) := back t.pos (0x80 + 4 * lane) (0x100 + 4 * lane) (0x180 + 48 * lane)
  { t with
    st := .ofCode (st % 8), trapped := 8 ≤ st, pos, loops, draw := BitVec.ofNat 32 (word (0xE80 + 4 * lane)),
    save := t.save.map fun v =>
      let (pos, loops) := back v.pos (0x780 + 56 * lane) (0x784 + 56 * lane) (0x788 + 56 * lane)
      { pos, loops } }

/-- A table of the entries of some keys, those that read zero left out. -/
def tableOf {α : Type} [DecidableEq α] (zero : α) (keys : List Nat) (f : Nat → α) : KMap α :=
  (keys.map fun k => (k, f k)).filter fun e => e.2 != zero

/-- The vector registers below a charge, as a frame's VREG holds them. -/
def vregOf (rd : Nat → Nat → List Byte) (base n : Nat) : KMap Word :=
  tableOf 0 (List.range (32 * n)) fun k => leWord (rd (base + 8 * k) 8)

/-- A warp as the first 8 KiB of a frame give it (R359): everything they hold, the rest as it was saved. -/
def Warp.ofFrame (rd : Nat → Nat → List Byte) (w : Warp) : Warp :=
  let word := fun (k : Nat) => leWord (rd k 8)
  { w with
    depth := leNat (rd 0x0C 1), warpid := leNat (rd 0x0D 1) % 64, fcsr := word 0x18,
    threads := w.threads.mapIdx fun i t => t.ofFrame rd i, lastBuf := (leNat (rd 0x30 1)).testBit 0,
    tregs := { tcause := word 0x38, tpc := word 0x40, topc := word 0x48, titer := word 0x50, tmask := word 0x58,
               tinfo := word 0x60 },
    sdraw := BitVec.ofNat 32 (leNat (rd 0xF00 4)), srep := leNat (rd 0xF04 4),
    preg := tableOf 0 ((List.range 7).map (· + 1)) fun p => BitVec.ofNat 32 (leNat (rd (0xF04 + 4 * p) 4)),
    sreg := tableOf 0 (List.range 64) fun r => word (0x1000 + 8 * r),
    hreg := tableOf 0 (List.range 16) fun r => BitVec.ofNat 256 (leNat (rd (0x1200 + 32 * r) 32)) }

/-- The warp that a whole frame at a physical address holds (R359). -/
def State.readFrame (s : State) (base : Nat) (w : Warp) : Warp :=
  let rd := fun (k n : Nat) => s.physRead (base + k) n
  { w.ofFrame rd with vreg := vregOf rd 0x2000 (charge w.nregs) }

/-- Bytes of a list replaced from a place on. -/
def patch (l : List Byte) (k : Nat) (bs : List Byte) : List Byte := l.take k ++ bs ++ l.drop (k + bs.length)

/-- The slot area of a warp: the first 8 KiB of a frame, reason 2 (R359, R362). -/
def State.slotArea (s : State) (wk : Nat) (w : Warp) : List Byte :=
  (s.frameHead w 0 (coreOfWk wk) (slotOfWk wk) 2).foldl (fun l x => patch l x.1 x.2) (List.replicate 8192 0)

/-- The image of a warp of a context (R362). -/
def State.imageOfWarp (s : State) (wk : Nat) (w : Warp) : CtxImage :=
  { uid := w.uid, area := s.slotArea wk w,
    regs := (List.range (32 * charge w.nregs)).flatMap fun k => wordBytes (KMap.getD w.vreg k 0) }

/-- The warp that an image of a context holds. -/
def CtxImage.warp (x : CtxImage) (w : Warp) : Warp :=
  let rd := fun (l : List Byte) (k n : Nat) => (l.drop k).take n
  { w.ofFrame (rd x.area) with vreg := vregOf (rd x.regs) 0 (charge w.nregs) }

/-- Changes every warp, in its slot or in a frame, by a function that changes no frame field but FCSR; the FCSR of a frame and
of a context's image follows. -/
def State.modWarps (s : State) (g : Warp → Warp) : State :=
  let put := fun (base : Nat) (s : State) (f : Nat × Frame) =>
    let v := (g f.2.w).fcsr
    if v = f.2.w.fcsr then s else s.physWrite (base + 73728 * f.1 + 0x18) (wordBytes v)
  let s := s.parts.foldl (fun s p => p.2.frames.foldl (put p.2.regs.frameBase.toNat) s) s
  let image := fun (e : Nat × CtxImage) =>
    match s.warp e.1 with
    | some w =>
      let v := (g w).fcsr
      if v = w.fcsr then e else (e.1, { e.2 with area := patch e.2.area 0x18 (wordBytes v) })
    | none => e
  { s with warps := s.warps.mapVals g, imgs := s.imgs.map image, parts := s.parts.mapVals fun (p : Part) =>
      { p with frames := p.frames.mapVals fun (r : Frame) => { r with w := g r.w } } }

/-- The lowest free frame of a partition (R342). -/
def Part.freeFrame (p : Part) : Option Nat :=
  (List.range (min p.regs.frameCnt.toNat 32768)).find? fun n => (KMap.get? p.frames n).isNone

/-- Saves a warp to a frame and frees its slot (R25, R342). -/
def State.saveFrame (s : State) (wk : Nat) (w : Warp) (part frame : Nat) (parked : Bool) : State :=
  let core := coreOfWk wk
  let base := (s.partD part).regs.frameBase.toNat + 73728 * frame
  let s := s.writeFrame w base frame core (slotOfWk wk) (if parked then 1 else 0) true
  let f : Frame := { w, core, ctx := ctxOfWk wk, slot := slotOfWk wk, parked }
  (s.dropWarp wk).modPart part fun p => { p with frames := KMap.set p.frames frame f }

/-- A faulted warp saves and posts if a frame is free; otherwise it stays in its slot, Blocked (R342). -/
def State.tryFrame (s : State) (wk : Nat) : State :=
  match s.warp wk with
  | some w =>
    match w.fault with
    | some f =>
      let part := s.partOf w
      match (s.partD part).freeFrame with
      | some n =>
        let core := coreOfWk wk
        let die := dieOfCore core
        let recs := f.info.recs.mapIdx fun i r =>
          r.words n i f.info.recs.length f.opc.toNat f.rpc.toNat die (core % 56) (slotOfWk wk) f.iter
        let ev : Event :=
          { who := .warp, first := f.info.recs.headD { cause := f.info.cause }, pris := f.info.recs.filterMap (·.hostpri) }
        (s.saveFrame wk w part n false).report die part n ev recs
      | none => s
    | none => s
  | none => s

/-! ### Traps (R353 to R358) -/

/-- Where a trapped thread stood at the word: the trapping word at its repeat (R357). -/
def Thread.atWord (iss : Issue) (t : Thread) : Pos :=
  { t.pos with pc := iss.pc, hdr := if iss.pc = iss.hdr then none else some iss.hdr }

/-- The vector entry of a cause (R353): SOFT selects by its trap number. -/
def vectorIndex (cause n : Nat) : Nat := if cause = 0x10 then (if n < 32 then 0x20 + n else 0x10) else cause

/-- Freezes a warp and mails firmware (R358). -/
def State.doubleFault (s : State) (wk first second : Nat) (tpc topc : Word) : State :=
  let core := coreOfWk wk
  let s := s.modWarp wk fun w => { w with st := .frozen, pend := none, fault := none }
  { s with mailbox := s.mailbox ++ [.doubleFault (slotOfWk wk) (core % 56) (core / 56) first second tpc topc] }

/-- The trap registers at an entry (R299, R355). -/
def State.trapRegsAt (s : State) (w : Warp) (pc : Pc) (lanes : LaneMask) (cause : Nat) (info : Word) : TrapRegs :=
  let (opc, iter) := s.backOf w.code pc
  { tcause := BitVec.ofNat 64 cause, tpc := BitVec.ofNat 64 pc.toNat, topc := BitVec.ofNat 64 opc.toNat,
    titer := BitVec.ofNat 64 iter, tmask := BitVec.ofNat 64 lanes.toNat, tinfo := info }

/-- The trapped set's threads at the handler: position, loops and REP count saved, loop buffer emptied, Sub at the
handler's entry (R355). -/
def Thread.enterTrap (handler : Pc) (ret : Pos) (t : Thread) : Thread :=
  { t with save := some { pos := ret, loops := t.loops }, trapped := true, tret := none, bufLen := 0, loops := [],
           pos := { pc := handler }, st := .sub }

/-- The causes that write records and save the warp to a frame: PAGE, PERM, ALIGN, ABSENT (R341, R353). -/
def isMemCause (c : Nat) : Bool := 3 ≤ c && c ≤ 6

/-- The causes for which the spec says what TINFO takes (R299), and CONFLICT, whose byte it names (R154, log entry 20). For
any other TINFO is a free value. -/
def tinfoStated (c : Nat) : Bool := isMemCause c || c == 9 || c == 0x10 || c == 0x11

/-- Trap entry: one step, at the visit where the trapping word ends (R355). `ret` gives a thread's return position. A
vector of MODE 0 is a double fault (R358). -/
def State.trapEnter (s : State) (wk : Nat) (pc : Pc) (lanes : LaneMask) (cause : Nat) (info : Word)
    (ret : Thread → Pos) : State :=
  match s.warp wk with
  | some w =>
    let part := s.partOf w
    let ctx := KMap.getD (s.partD part).ctxs (ctxOfWk wk) {}
    let v := (s.physWord (ctx.tvbase.toNat + 8 * vectorIndex cause info.toNat)).toNat
    let mode := if bits v 61 32 != 0 then 0 else bits v 63 62
    let tr := s.trapRegsAt w pc lanes cause info
    if mode = 1 ∨ mode = 2 then
      let free := !tinfoStated cause
      let tr := if free then { tr with tinfo := s.freeWord } else tr
      let s := if free then s.useFree else s
      let w := w.modLanes lanes fun _ t => if t.runnable then t.enterTrap (BitVec.ofNat 32 v) (ret t) else t
      let code : CodeRef :=
        if mode = 1 then .orig (imageKey part (s.launchOf w).image) else .orig (imageKey part ctx.thimg.toNat)
      let w := { w with tregs := tr, tcode := code, pend := none, st := .run, srepSave := w.srep, srep := 0 }
      s.setWarp wk (w.regroup (s.codeOf code))
    else s.doubleFault wk cause 0 tr.tpc tr.topc
  | none => s

/-- Taking an exception at a word of the visit (R25, R174, R220, R355, R358): in trap mode a double fault; a memory cause
saves the warp to a frame and reports; any other enters the handler at once, to return to the trapping word. -/
def State.takeFault (s : State) (iss : Issue) (fi : FaultInfo) : State :=
  match s.warp iss.wk with
  | some w =>
    let (opc, iter) := s.backOf w.activeCode iss.pc
    if w.inTrap then
      s.doubleFault iss.wk 0x0C fi.cause (BitVec.ofNat 64 iss.pc.toNat) (BitVec.ofNat 64 opc.toNat)
    else if isMemCause fi.cause then
      let f : WarpFault :=
        { info := fi, iss, opc := BitVec.ofNat 64 opc.toNat, rpc := BitVec.ofNat 64 iss.pc.toNat, iter }
      (s.setWarp iss.wk { w with st := .blocked, pend := none, fault := some f }).tryFrame iss.wk
    else s.trapEnter iss.wk iss.pc iss.lanes fi.cause fi.info (fun t => t.atWord iss)
  | none => s

/-- SOFT and ARITH: the trapped set is the participating lanes, and the return PC the word after, with its loop-end step
(R296, R297, R355; log entry 16). The other active lanes go on. -/
def State.takeTrapWord (s : State) (iss : Issue) (lanes : LaneMask) (cause : Nat) (info : Word) : State :=
  match s.warp iss.wk with
  | some w =>
    let (opc, _) := s.backOf w.activeCode iss.pc
    if w.inTrap then
      s.doubleFault iss.wk 0x0C cause (BitVec.ofNat 64 iss.pc.toNat) (BitVec.ofNat 64 opc.toNat)
    else
      (s.setWarp iss.wk ({ w with pend := none }.modLanes iss.lanes fun _ t => t.advance iss)).trapEnter iss.wk iss.pc
        lanes cause info (fun t => t.pos)
  | none => s

/-! ### How a word ends -/

/-- A word that does not complete: it blocks for a reason, faults, or is discarded with its block. The state carries what happened before. -/
inductive Stop where
  | block (why : WaitKind) (s : State)
  /-- Pieces or lanes are left, and these values have been read (R132, R225): the word goes on at a later step. -/
  | more (left : List Piece) (got : List (Nat × List Byte)) (s : State)
  | trap (fi : FaultInfo) (s : State)
  /-- The word has ended in this state: its transaction was discarded while it ran, and its warp with it (R71, R115), or it
  raised SOFT or ARITH. -/
  | gone (s : State)

/-- What a word's body gives: the state after its effect, or why it stops. -/
abbrev Res := Except Stop State

/-- The slot Blocked at the word, keeping its place in the order of waiting (R25, R244). -/
def State.blockWord (s : State) (iss : Issue) (word : Instr) (why : WaitKind) : State :=
  match s.warp iss.wk with
  | some w =>
    let (ticket, since) := match w.pend with
      | some p => (p.ticket, p.since)
      | none => (s.nextTicket, s.ck)
    { s.setWarp iss.wk { w with st := .blocked, pend := some { iss, word, why, ticket, since } } with
      nextTicket := s.nextTicket + 1 }
  | none => s

/-- A word with pieces or lanes left, which the warp goes on with at its next step (R132, R225). -/
def State.holdWord (s : State) (iss : Issue) (word : Instr) (left : List Piece) (got : List (Nat × List Byte)) : State :=
  s.modWarp iss.wk fun w =>
    { w with pend := some { iss, word, why := .more, ticket := s.nextTicket, since := s.ck, left, got } }

/-- The word of which pieces or lanes are left (R132). -/
def Warp.unfinished (w : Warp) : Option Pend := w.pend.filter (·.why == .more)

/-- Ends a word: its state, or Blocked, or the exception taken. -/
def endWord (iss : Issue) (word : Instr) (r : Res) : Host.Outcome State Fault Refusal :=
  match r with
  | .ok s => .next s
  | .error (.block why s) => .next (s.blockWord iss word why)
  | .error (.more left got s) => .next (s.holdWord iss word left got)
  | .error (.trap fi s) => .next (s.takeFault iss fi)
  | .error (.gone s) => .next s

/-- Runs the body of a kernel word for the warp that issues it; the body sets every PC itself. -/
def runRaw (s : State) (word : Instr) (body : State → Issue → Warp → Res) : Host.Outcome State Fault Refusal :=
  match s.cur with
  | .warp iss =>
    match s.warp iss.wk with
    | some w => endWord iss word (body s iss w)
    | none => .fault .noIssuer
  | _ => .fault .noIssuer

/-- Runs a kernel word after which every active lane goes on at the next PC. -/
def runWord (s : State) (word : Instr) (body : State → Issue → Warp → Res) : Host.Outcome State Fault Refusal :=
  runRaw s word fun s iss w => (body s iss w).map (·.finish iss)

/-- A fault of the word itself, without records. -/
def faultOf (cause : Nat) (s : State) : Res := .error (.trap { cause } s)

/-- ILLEGAL (0x01). -/
def illegal (s : State) : Res := faultOf 0x01 s

/-- PERM of a word that names no address (a barrier, a queue, a system register): one place record for each lane it acts
for, its own lane alone in LANES (R220, R339). Their address, access and space the spec leaves open, and they are free
values (log entry 22). -/
def permFault (lanes : List Nat) (s : State) : Res :=
  let a := s.freeWord.toNat % 2 ^ 52
  let b := (Config.freeBits (s.free + 1)).toNat
  .error (.trap
    { cause := 4, info := BitVec.ofNat 64 a,
      recs := lanes.map fun l => { cause := 4, lanes := maskOf [l], addr := a, acc := b % 8, space := b / 8 % 8 } }
    { s with free := s.free + 2 })

/-- A PERM, ALIGN, PAGE or ABSENT fault with one record for the lanes that issued the word. -/
def memFault (cause reason : Nat) (lanes : LaneMask) (addr acc space : Nat) (s : State) : Res :=
  .error (.trap { cause, info := BitVec.ofNat 64 addr, recs := [{ cause, reason, lanes, addr, acc, space }] } s)

end Sys2Proof.Machine
end

