-- ==== Sys2Proof/Machine/Operands.lean ====
section
/-! DEFINITION. Every operand form: registers, `%` values, immediates and queue codes, by lane and by sub-element
(R164 to R170, R187 to R191, R217, R218). -/

namespace Sys2Proof.Machine

open Sys2Proof

/-! ### Registers -/

/-- Vector register r of a lane. -/
def Warp.v (w : Warp) (r lane : Nat) : Word := KMap.getD w.vreg (32 * r + lane) 0
/-- Writes vector register r of a lane. -/
def Warp.setV (w : Warp) (r lane : Nat) (x : Word) : Warp := { w with vreg := KMap.set w.vreg (32 * r + lane) x }
/-- Scalar register. -/
def Warp.s (w : Warp) (r : Nat) : Word := KMap.getD w.sreg r 0
/-- Writes a scalar register. -/
def Warp.setS (w : Warp) (r : Nat) (x : Word) : Warp := { w with sreg := KMap.set w.sreg r x }
/-- Handle register. -/
def Warp.h (w : Warp) (r : Nat) : BitVec 256 := KMap.getD w.hreg r 0
/-- Writes a handle register. -/
def Warp.setH (w : Warp) (r : Nat) (x : BitVec 256) : Warp := { w with hreg := KMap.set w.hreg r x }

/-- Is the operand no v code at or above the role's N, counting `n` consecutive registers (R169)? -/
def opndBelow (o : Opnd) (nregs n : Nat) : Bool :=
  match o with
  | .v r => r.toNat + n ≤ nregs
  | _ => true

/-! ### `%` values and immediates -/

/-- The signed value of an inline immediate (R166). -/
def immInt (n : BitVec 7) : Int := n.toInt

/-- The number of warps of a block: the roles' counts. -/
def Image.warps (i : Image) : Nat := (i.roles.map (·.warps)).sum

/-- The image a warp's launch runs. -/
def State.imageOf (s : State) (w : Warp) : Image :=
  ((s.image (imageKey (s.partOf w) (s.launchOf w).image)).getD {})

/-- A `%` value (R165, Table 7). -/
def State.special (s : State) (wk : Nat) (w : Warp) (lane : Nat) (x : Special) : Word :=
  let b := (s.block w.blk).getD {}
  let l := s.launchOf w
  let c := coreOfWk wk
  let n : Nat :=
    match x with
    | .zero => 0
    | .ones => 2 ^ 64 - 1
    | .laneid => lane
    | .warpid => w.warpid
    | .coreid => c % 56
    | .clusterid => c / 4 % 14
    | .stackid => stackOfCore c
    | .dieid => dieOfCore c
    | .blockidx => b.idx
    | .rung => b.rung
    | .txseq => b.txseq
    | .argbase => l.argPage
    | .nblocks => if l.recNode then 0 else l.nblocks
    | .depth => w.depth
    | .nwarps => (s.imageOf w).warps
  BitVec.ofNat 64 n

/-- A w-bit value in every sub-element of a word. -/
def splat (w x : Nat) : Word := BitVec.ofNat 64 (((List.range (64 / w)).map fun k => x % 2 ^ w * 2 ^ (w * k)).sum)

/-- Sub-element k of a word at width w (R170). -/
def elem (w k : Nat) (x : Word) : Nat := x.toNat / 2 ^ (w * k) % 2 ^ w

/-- The word whose sub-elements, from 0 up, are given. -/
def ofElems (w : Nat) (xs : List Nat) : Word := BitVec.ofNat 64 ((xs.mapIdx fun k x => x % 2 ^ w * 2 ^ (w * k)).sum)

/-- An immediate at a type: modulo 2^w, or rounded to nearest even (R166). -/
def immAt (t : VTy) (n : BitVec 7) : Nat :=
  if t.isInt then wrapInt t.width (immInt n)
  else ((fmtOf t).round .rne 0 false (numOfInt (immInt n))).1

/-- A source operand as a 64-bit word whose sub-elements are those the type and shape take (R189); `popped` is the element
a queue code gave this lane. -/
def State.src (s : State) (wk : Nat) (w : Warp) (t : VTy) (o : Opnd) (lane : Nat) (popped : Word) : Word :=
  match o with
  | .v r => w.v r.toNat lane
  | .s r => w.s r.toNat
  | .q _ => popped
  | .sp x => splat t.width (s.special wk w lane x).toNat
  | .imm n => splat t.width (immAt t n)
  | .h _ => 0
  | .pred p => if (w.pred p.toNat).getLsbD lane then 1 else 0
  | .none => 0

/-- A whole 64-bit operand: registers, `%` values and sign-extended immediates. -/
def State.opnd (s : State) (wk : Nat) (w : Warp) (o : Opnd) (lane : Nat) : Word := s.src wk w .u64 o lane 0

/-- A uniform 64-bit operand, read once (R248, R279). -/
def State.uni (s : State) (wk : Nat) (w : Warp) (o : Opnd) : Word := s.opnd wk w o 0

/-! ### Consecutive registers (R218) -/

/-- `n` registers from the operand up, for one lane. -/
def State.group (s : State) (wk : Nat) (w : Warp) (o : Opnd) (lane n : Nat) : List Word :=
  match o with
  | .v r => (List.range n).map fun i => w.v (r.toNat + i) lane
  | .s r => (List.range n).map fun i => w.s (r.toNat + i)
  | o => (List.range n).map fun i => if i = 0 then s.opnd wk w o lane else 0

/-- The first `size` bytes of a register group. -/
def groupBytes (ws : List Word) (size : Nat) : List Byte := (ws.flatMap wordBytes).take size

/-- Bytes as words, the last zero-filled. -/
def bytesWords (fuel : Nat) (bs : List Byte) : List Word :=
  match fuel with
  | 0 => []
  | f + 1 =>
    match bs with
    | [] => []
    | _ => leWord bs :: bytesWords f (bs.drop 8)

/-- Writes words to consecutive registers of a file, for one lane. -/
def Warp.setGroup (w : Warp) (o : Opnd) (lane : Nat) (ws : List Word) : Warp :=
  match o with
  | .v r => (ws.foldl (fun (a : Warp × Nat) x => (a.1.setV (r.toNat + a.2) lane x, a.2 + 1)) (w, 0)).1
  | .s r => (ws.foldl (fun (a : Warp × Nat) x => (a.1.setS (r.toNat + a.2) x, a.2 + 1)) (w, 0)).1
  | _ => w

/-- Writes a 64-bit result to a v code in some lanes, or to an s code once. -/
def Warp.setDst (w : Warp) (o : Opnd) (lanes : LaneMask) (f : Nat → Word) : Warp :=
  match o with
  | .v r => (lanesOf lanes).foldl (fun w l => w.setV r.toNat l (f l)) w
  | .s r => match lanesOf lanes with
    | l :: _ => w.setS r.toNat (f l)
    | [] => w
  | _ => w

/-- Writes a value to a v code in every participating lane, or to an s code once. -/
def Warp.setAll (w : Warp) (o : Opnd) (lanes : LaneMask) (x : Word) : Warp := w.setDst o lanes fun _ => x

/-! ### Effective addresses (R217) -/

/-- The access size of a size code (R172, Table 10). -/
def sizeOf_ (n : BitVec 3) : Nat := 2 ^ n.toNat

/-- The offset field, sign-extended: ten bits, or five in the words with an operation code. -/
def memOff (i : MIns) (five : Bool) : Int :=
  if five then (BitVec.ofNat 5 i.off.toNat).toInt else i.off.toInt

/-- ea[L]. -/
def State.ea (s : State) (wk : Nat) (w : Warp) (i : MIns) (five : Bool) (lane : Nat) : Nat :=
  wrapInt 64 ((s.opnd wk w i.base lane).toNat + (s.opnd wk w i.idx lane).toNat + memOff i five * sizeOf_ i.size)

end Sys2Proof.Machine
end

