-- ==== Sys2Proof/Machine/Flags.lean ====
section
/-! DEFINITION. FCSR: the sticky flags and the rounding mode, and the draws of stochastic rounding (R94 to R97, R192). -/

namespace Sys2Proof.Machine

open Sys2Proof

/-- Sets sticky flags in FCSR; no instruction clears one but WRSR (R97). -/
def Warp.flag (w : Warp) (f : Nat) : Warp := { w with fcsr := w.fcsr ||| BitVec.ofNat 64 (f % 64) }

/-- Flags of either of two sets of FCSR bits. -/
def orBits (a b : Nat) : Nat := a ||| b

/-- The bit of ATOP (R96). -/
def atopBit : Nat := 32

/-- The mode a rounding code selects; as-mode reads FCSR.RMODE (R94, R96). -/
def Warp.mode (w : Warp) (m : Rnd) : Rnd :=
  match m with
  | .dyn =>
    match w.fcsr.field 18 16 with
    | 0 => .rne | 1 => .rtz | 2 => .rup | 3 => .rdn | 4 => .rna | 5 => .sr | _ => .rne
  | m => m

/-- What a write to FCSR stores: reserved bits zero, an RMODE of 6 or 7 as 0 (R96). -/
def fcsrWrite (x : Word) : Word :=
  let r := x.field 18 16
  (x &&& 0x3F3F) ||| BitVec.ofNat 64 ((if r ≥ 6 then 0 else r) * 65536)

/-- The enabled flags that are set (R296). -/
def Warp.armed (w : Warp) : Nat := (w.fcsr.toNat % 64) &&& w.fcsr.field 13 8

/-- The draw of a lane whose counter stands at `drawc` (R95). -/
def State.draw (s : State) (w : Warp) (lane drawc : Nat) : Nat :=
  stochDraw (s.launchOf w).seed (((s.block w.blk).map (·.idx)).getD 0) w.warpid lane (drawc % 2 ^ 32)

/-- The lane word of a scalar-unit draw. -/
def scalarLane : Nat := 0xFFFFFFFF

/-- Advances a lane's draw counter. -/
def Warp.addDraw (w : Warp) (lane n : Nat) : Warp :=
  { w with threads := modNth w.threads lane fun t => { t with draw := t.draw + BitVec.ofNat 32 n } }

/-- Advances the scalar draw counter. -/
def Warp.addScalarDraw (w : Warp) (n : Nat) : Warp := { w with sdraw := w.sdraw + BitVec.ofNat 32 n }

end Sys2Proof.Machine
end

