-- ==== Sys2Proof/Machine/Translate.lean ====
section
/-! DEFINITION. Address translation: the page walk with its cached entries, the checks of a leaf, reach over the links,
compression at the home, and the access counters with their hints (R330 to R338, R345, R350, R351, R371, R375, R398). -/

namespace Sys2Proof.Machine

open Sys2Proof

/-! ### Physical places -/

/-- Lies the address in the populated part of a stack window (R334)? -/
def hbmOk (pa : Nat) : Bool := pa < 2 ^ 39 && pa % 2 ^ 36 < 48 * 2 ^ 30

/-- The stack of an HBM address. -/
def stackOfPa (pa : Nat) : Nat := pa / 2 ^ 36 % 8

/-- The die of an HBM address. -/
def dieOfPa (pa : Nat) : Nat := stackOfPa pa / 2

/-- Was the stack of the address excluded at boot (R334, R394)? -/
def State.stackExcluded (s : State) (pa : Nat) : Bool := s.boot.excluded.getLsbD (dieOfPa pa)

/-- Where the ownership byte of the 2 MiB granule of an HBM address lies (R398). -/
def State.ownerPlace (s : State) (pa : Nat) : Nat :=
  s.boot.ownBase.toNat + stackOfPa pa * 24576 + pa % 2 ^ 36 / 2 ^ 21

/-- Place of a die in the clockwise ring 0, 1, 3, 2 (R370). -/
def ringPos (d : Nat) : Nat := match d with | 0 => 0 | 1 => 1 | 3 => 2 | _ => 3

/-- Die at a place of the ring. -/
def ringDie (p : Nat) : Nat := match p % 4 with | 0 => 0 | 1 => 1 | 2 => 3 | _ => 2

/-- Is the link from ring place `p` to `p + 1` up? Its ends are port 0 of the one die and port 1 of the other. -/
def State.linkUp (s : State) (p : Nat) : Bool :=
  (s.die (ringDie p)).port0.st != .down && (s.die (ringDie (p + 1))).port1.st != .down

/-- Is every link of `n` hops clockwise from ring place `p` up? -/
def State.routeUp (s : State) (p n : Nat) : Bool := (List.range n).all fun i => s.linkUp (p + i)

/-- Can die `d` reach die `h` (R371, R374, R375)? -/
def State.reach (s : State) (d h : Nat) : Bool :=
  d == h ||
  let n := (ringPos h + 4 - ringPos d) % 4
  s.routeUp (ringPos d) n || s.routeUp (ringPos h) (4 - n)

/-! ### Routes (R371, R374) -/

/-- The links, by ring position, of the current route between two dies: clockwise to a neighbour or across, the other way
round where a link of that route is down. -/
def State.routeLinks (s : State) (die target : Nat) : List Nat :=
  let p := ringPos die
  let n := (ringPos target + 4 - p) % 4
  let cw := (List.range n).map fun i => (p + i) % 4
  let ccw := (List.range ((4 - n) % 4)).map fun i => (p + 3 - i) % 4
  if n = 3 then (if ccw.all s.linkUp then ccw else cw) else (if cw.all s.linkUp then cw else ccw)

/-- Is the link from ring position `p` to the next awake: no end of it asleep (R294)? -/
def State.linkAwake (s : State) (p : Nat) : Bool :=
  (s.die (ringDie p)).port0.st != .sleep && (s.die (ringDie (p + 1))).port1.st != .sleep

/-- Begins the wake of a port that sleeps or is narrow. -/
def Port.wake (p : Port) (ck : Nat) : Port :=
  if (p.st == .sleep || p.st == .narrow) && p.waking.isNone then { p with waking := some ck } else p

/-- A packet needs a port: it is in use, and wakes on demand if it sleeps (R376). -/
def Port.use (p : Port) (ck : Nat) : Port :=
  let q := { p with used := ck }
  if p.st == .sleep then q.wake ck else q

/-- Changes both ends of the link from a ring position to the next. -/
def State.modLink (s : State) (p : Nat) (f : Port → Port) : State :=
  (s.modDie (ringDie p) fun d => { d with port0 := f d.port0 }).modDie (ringDie (p + 1)) fun d => { d with port1 := f d.port1 }

/-- Begins the wake of the link from a ring position to the next. -/
def State.wakeLink (s : State) (p : Nat) : State := s.modLink p (·.wake s.ck)

/-- A packet needs the links of the route between two dies. -/
def State.useRoute (s : State) (die target : Nat) : State :=
  (s.routeLinks die target).foldl (fun s p => s.modLink p (·.use s.ck)) s

/-! ### The page walk -/

/-- Why a translation fails: cause and reason (R300, R339), and the bus page of the page request it waits for (R345). -/
structure TErr where
  cause : Nat
  reason : Nat := 0
  hostpri : Option Nat := none
  deriving DecidableEq, Repr, Inhabited

/-- The low bit of a level's index (R330, Table 1). -/
def levelShift (lvl : Nat) : Nat := match lvl with | 0 => 48 | 1 => 39 | 2 => 30 | 3 => 21 | _ => 12

/-- The index of a level. -/
def levelIndex (lvl va : Nat) : Nat := va / 2 ^ levelShift lvl % (if lvl = 0 then 16 else 512)

/-- V. -/
def pteV (p : Word) : Bool := p.getLsbD 0
/-- LEAF. -/
def pteLeaf (p : Word) : Bool := p.getLsbD 1
/-- W. -/
def pteW (p : Word) : Bool := p.getLsbD 2
/-- CONT. -/
def pteCont (p : Word) : Bool := p.getLsbD 56
/-- ACE. -/
def pteAce (p : Word) : Bool := p.getLsbD 60
/-- MTYPE. -/
def pteMtype (p : Word) : Nat := p.field 59 57
/-- CMP. -/
def pteCmp (p : Word) : Nat := p.field 63 61
/-- The physical address field, in place. -/
def ptePa (p : Word) : Nat := p.field 51 12 * 4096

/-- Is a present entry malformed at its level (R332)? -/
def pteMalformed (lvl : Nat) (p : Word) : Bool :=
  (pteLeaf p && lvl ≤ 1) || (!pteLeaf p && lvl == 4) || p.field 55 52 != 0 ||
  (if pteLeaf p then
    ptePa p % 2 ^ levelShift lvl != 0 || (pteCont p && lvl != 4) || pteMtype p ≥ 5 || pteCmp p ≥ 6 ||
    (pteCmp p != 0 && pteMtype p ≥ 2) || (pteMtype p ≤ 1 && !hbmOk (ptePa p))
  else
    pteCmp p != 0 || pteAce p || pteMtype p != 0 || pteCont p || pteW p || !hbmOk (ptePa p))

/-- Does a present entry name HBM: a table, or a leaf of type 0 or 1? -/
def pteHbm (p : Word) : Bool := !pteLeaf p || pteMtype p ≤ 1

/-- Does a cached entry serve the level's part of an address (R335, R337)? -/
def TlbEntry.covers (e : TlbEntry) (part lvl va : Nat) : Bool :=
  e.part == part && e.level == lvl &&
  (e.prefix_ == va / 2 ^ levelShift lvl || (e.cont && e.prefix_ / 16 == va / 2 ^ 16))

/-- The entries that may serve a level's part of an address: memory's, where the table's home can be reached (R375), and
those cached (R335, R337). -/
def State.pteCands (s : State) (die part lvl base va : Nat) : List Word :=
  let mem := s.physWord (base + 8 * levelIndex lvl va)
  let cached := ((s.die die).tlb.filter (·.covers part lvl va)).map (·.pte)
  (if s.reach die (dieOfPa base) then mem :: cached else cached).dedup

/-- The entry an access uses at a level, whichever the device takes of those that may serve it (log entry 4), and the state
with a present entry cached; `none` where none may. -/
def State.pteAt (s : State) (die part lvl base va : Nat) : State × Option Word :=
  match s.pteCands die part lvl base va with
  | [] => (s, none)
  | c :: r =>
    let (s, p) := if r.isEmpty then (s, c) else (s.useFree, (c :: r).getD (s.freeWord.toNat % (r.length + 1)) c)
    let e : TlbEntry :=
      { part, level := lvl, prefix_ := va / 2 ^ levelShift lvl, pte := p, cont := lvl == 4 && pteCont p && pteLeaf p }
    let held := (s.die die).tlb.any fun x => x.covers part lvl va && x.pte == p
    if pteV p && !held then (s.modDie die fun d => { d with tlb := d.tlb ++ [e] }, some p) else (s, some p)

/-- Granules of 2 MiB that an entry of a level names: those of a leaf's page, or that of a table (R398). -/
def pteGranules (lvl : Nat) (p : Word) : Nat := if pteLeaf p && lvl ≤ 2 then 2 ^ (levelShift lvl - 21) else 1

/-- Is a translation to a granule cached anywhere, of another partition than the one an ownership byte names? -/
def State.granuleCached (s : State) (g byte : Nat) : Bool :=
  (KMap.vals s.dies).any fun d => d.tlb.any fun e =>
    e.part + 1 != byte && pteHbm e.pte && ptePa e.pte / 2 ^ 21 ≤ g && g < ptePa e.pte / 2 ^ 21 + pteGranules e.level e.pte

/-- The owner in force of the 2 MiB granule that holds an HBM address (R398, R399): its byte in the ownership table; where a
walk has found another owner before, the new one only once the granule is zero and no other translation to it is cached. -/
def State.ownerOf (s : State) (pa : Nat) : Nat :=
  let g := pa / 2 ^ 21
  let byte := leNat (s.physRead (s.ownerPlace pa) 1)
  match KMap.get? (s.die (dieOfPa pa)).owners g with
  | some o => if byte = o ∨ ((s.hbm.all fun c => c.1 / 2 ^ 21 != g) ∧ !s.granuleCached g byte) then byte else o
  | none => byte

/-- Does a partition own every granule of `n` from the one that holds an HBM address on (R398)? -/
def State.ownsAll (s : State) (part pa n : Nat) : Bool := (List.range n).all fun i => s.ownerOf (pa + i * 2 ^ 21) == part + 1

/-- A walk has found a partition to own the granules that an entry names. -/
def State.noteOwner (s : State) (part pa n : Nat) : State :=
  s.modDie (dieOfPa pa) fun d =>
    { d with owners := (List.range n).foldl (fun m i => KMap.set m (pa / 2 ^ 21 + i) (part + 1)) d.owners }

/-- The walk from a level's table: the leaf and its level, or why it fails: PAGE, MALFORMED, ABSENT or NOTOWNED, in this
order at each entry (R331, R332, R334, R375, R394, R398). -/
def State.walk (s : State) (die part va : Nat) (fuel lvl base : Nat) : State × Except TErr (Word × Nat) :=
  match fuel with
  | 0 => (s, .error { cause := 4, reason := 3 })
  | f + 1 =>
    match s.pteAt die part lvl base va with
    | (s, none) => (s, .error { cause := 6 })
    | (s, some p) =>
      if !pteV p then (s, .error { cause := 3 })
      else if pteMalformed lvl p then (s, .error { cause := 4, reason := 3 })
      else if pteHbm p && s.stackExcluded (ptePa p) then (s, .error { cause := 6 })
      else if pteHbm p && !s.ownsAll part (ptePa p) (pteGranules lvl p) then (s, .error { cause := 4, reason := 8 })
      else
        let s := if pteHbm p then s.noteOwner part (ptePa p) (pteGranules lvl p) else s
        if pteLeaf p then (s, .ok (p, lvl)) else s.walk die part va f (lvl + 1) (ptePa p)

/-- The physical address a leaf of a level gives a virtual one (R331, R335). -/
def leafPa (lvl : Nat) (p : Word) (va : Nat) : Nat :=
  let k := if pteCont p then 16 else levelShift lvl
  ptePa p / 2 ^ k * 2 ^ k + va % 2 ^ k

/-- Does the device hold the ATS translation of a bus page (R345, R379)? Each result covers 2^n pages from its first on. -/
def Part.atsHas (p : Part) (page : Nat) : Bool := p.atc.any fun e => page / 2 ^ e.2 == e.1 / 2 ^ e.2

/-- Translates a virtual address for a client of a die (R219, R330 to R335, R345). `space` is 0 or 5; `acc` is 0 read,
1 write, 2 atomic, 3 fetch (R404). -/
def State.translate (s : State) (die part va space acc : Nat) : State × Except TErr Attr :=
  if va ≥ 2 ^ 52 then (s, .error { cause := 4, reason := 5 })
  else
    let root := (KMap.getD (s.partD part).regs.ptRoot die (0 : BitVec 52)).toNat
    match s.walk die part va 5 0 root with
    | (s, .error e) => (s, .error e)
    | (s, .ok (p, lvl)) =>
      let pa := leafPa lvl p va
      let m := pteMtype p
      if (m ≤ 1) != (space != 5) then (s, .error { cause := 4, reason := 2 })
      else if m = 0 ∧ dieOfPa pa ≠ die then (s, .error { cause := 4, reason := 4 })
      else if (acc = 1 ∨ acc = 2) ∧ !pteW p then (s, .error { cause := 4, reason := 1 })
      else if m ≥ 2 && (s.partD part).ats && !(s.partD part).atsHas (pa / 4096) then
        (s.modPart part fun q =>
          { q with priOut := if q.priOut.contains (pa / 4096) then q.priOut else q.priOut ++ [pa / 4096] },
         .error { cause := 3, hostpri := some (pa / 4096) })
      else (s, .ok { pa, mtype := m, cmp := pteCmp p, ace := pteAce p })

/-- The physical ranges that a virtual one stands for, by every entry that may serve it: (16 for HBM and 21 for the bus,
address, length). No state changes (R135, R337). -/
def State.physRanges (s : State) (die part fuel lvl base va n : Nat) : List (Nat × Nat × Nat) :=
  match fuel with
  | 0 => []
  | f + 1 =>
    let sz := 2 ^ levelShift lvl
    (List.range (if n = 0 then 0 else (va + n - 1) / sz + 1 - va / sz)).flatMap fun k =>
      let a := max va ((va / sz + k) * sz)
      let m := min (va + n) ((va / sz + k + 1) * sz) - a
      (s.pteCands die part lvl base a).flatMap fun p =>
        if !pteV p || pteMalformed lvl p then []
        else if pteLeaf p then [(if pteMtype p ≤ 1 then 16 else 21, leafPa lvl p a, m)]
        else s.physRanges die part f (lvl + 1) (ptePa p) a m

/-- The pages of 4 KiB that a range meets, as (address, bytes) pieces. -/
def pagePieces (fuel a n : Nat) : List (Nat × Nat) :=
  match fuel with
  | 0 => []
  | f + 1 =>
    if n = 0 then []
    else
      let k := min n (4096 - a % 4096)
      (a, k) :: pagePieces f (a + k) (n - k)

/-! ### Compression at the home (R336) -/

/-- A line's bytes as little-endian units of `n` bytes. -/
def unitsOf (fuel n : Nat) (bs : List Byte) : List Nat :=
  match fuel with
  | 0 => []
  | f + 1 =>
    match bs with
    | [] => []
    | _ => leNat (bs.take n) :: unitsOf f n (bs.drop n)

/-- Are consecutive halfword differences within a signed byte? -/
def deltasFit (ws : List Nat) : Bool :=
  match ws with
  | a :: b :: r =>
    let d := (b + 65536 - a) % 65536
    (d < 128 || d ≥ 65408) && deltasFit (b :: r)
  | _ => true

/-- The low bytes of consecutive differences. -/
def deltasOf (ws : List Nat) : List Byte :=
  match ws with
  | a :: b :: r => BitVec.ofNat 8 (b + 65536 - a) :: deltasOf (b :: r)
  | _ => []

/-- Numbers of `k` bits packed with element 0 lowest. -/
def packBits (k : Nat) (xs : List Nat) : Nat :=
  match xs with
  | [] => 0
  | x :: r => x % 2 ^ k + 2 ^ k * packBits k r

/-- Units sharing their bits above the low `k`: the shared field in `hb` bytes, then the fractions, padded to `len`. -/
def packShared (w k hb len : Nat) (bs : List Byte) : Option (List Byte) :=
  let us := unitsOf 64 w bs
  let h := us.headD 0 / 2 ^ k
  if us.all (fun u => u / 2 ^ k == h) then some (leBytes hb h ++ leBytes (len - hb) (packBits k us)) else none

/-- The stored form and nibble that Table 4 selects for a line. -/
def packLine (cmp : Nat) (bs : List Byte) : List Byte × Nat :=
  if bs.all (· == 0) then ([], 0)
  else
    let packed : Option (List Byte × Nat) :=
      match cmp with
      | 2 =>
        let ws := unitsOf 64 2 bs
        if deltasFit ws then some (bs.take 2 ++ deltasOf ws ++ leBytes 7 0, 5) else none
      | 3 => (packShared 4 23 2 48 bs).map (·, 6)
      | 4 => (packShared 2 10 1 48 bs).map (·, 6)
      | 5 => (packShared 2 7 2 32 bs).map (·, 4)
      | _ => none
    packed.getD (bs, 8)

/-- The units whose shared field and fractions a packed form holds. -/
def unpackShared (w k hb n : Nat) (bs : List Byte) : List Byte :=
  let h := leNat (bs.take hb)
  let v := leNat (bs.drop hb)
  (List.range n).flatMap fun i => leBytes w (h * 2 ^ k + v / 2 ^ (k * i) % 2 ^ k)

/-- Halfwords rebuilt from their first and the differences. -/
def undelta (w : Nat) (ds : List Byte) : List Byte :=
  match ds with
  | [] => []
  | d :: r =>
    let v := (w + (if d.toNat < 128 then d.toNat else d.toNat + 65280)) % 65536
    leBytes 2 v ++ undelta v r

/-- The 64 bytes of a line from its slot and nibble; `none` where the nibble is of no form the scheme stores. -/
def unpackLine (cmp nib : Nat) (slot : List Byte) : Option (List Byte) :=
  if nib = 0 then some (leBytes 64 0)
  else if nib ≥ 8 then some slot
  else
    match cmp, nib with
    | 2, 5 => some (slot.take 2 ++ undelta (leNat (slot.take 2)) ((slot.drop 2).take 31))
    | 3, 6 => some (unpackShared 4 23 2 16 (slot.take 48))
    | 4, 6 => some (unpackShared 2 10 1 32 (slot.take 48))
    | 5, 4 => some (unpackShared 2 7 2 32 (slot.take 32))
    | _, _ => none

/-- The byte address of a line's nibble, and whether it is the high half (R336). -/
def PartRegs.nibblePlace (g : PartRegs) (pa : Nat) : Nat × Bool :=
  let o := pa % 2 ^ 36
  ((KMap.getD g.mdBase (stackOfPa pa) (0 : BitVec 52)).toNat + o / 2 ^ 7, o.testBit 6)

/-- A line's nibble. -/
def nibbleOf (mem : Memory) (g : PartRegs) (pa : Nat) : Nat :=
  let (a, hi) := g.nibblePlace pa
  let b := (Memory.read mem a).toNat
  if hi then b / 16 else b % 16

/-- The 64 bytes of the line that holds an HBM address, as its page's scheme reads them in a memory. -/
def lineIn (mem : Memory) (g : PartRegs) (pa cmp : Nat) : Option (List Byte) :=
  let slot := Memory.readN mem (pa / 64 * 64) 64
  if cmp = 0 then some slot else unpackLine cmp (nibbleOf mem g pa) slot

/-- Eight free words as a line (log entry 4). -/
def State.freeLine (s : State) : List Byte := (List.range 8).flatMap fun i => wordBytes (Config.freeBits (s.free + i))

/-- Reads a line at its home. A nibble of no form of the scheme gives a free value. -/
def State.homeRead (s : State) (part pa cmp : Nat) : State × List Byte :=
  match lineIn s.hbm (s.partD part).regs pa cmp with
  | some bs => (s, bs)
  | none => ({ s with free := s.free + 8 }, s.freeLine)

/-- Writes a whole line at its home, packed, with its nibble. -/
def State.homeWriteLine (s : State) (part pa cmp : Nat) (bs : List Byte) : State :=
  if cmp = 0 then s.physWrite (pa / 64 * 64) bs
  else
    let (form, nib) := packLine cmp bs
    let (a, hi) := (s.partD part).regs.nibblePlace pa
    let b := (Memory.read s.hbm a).toNat
    let b' := if hi then nib * 16 + b % 16 else b / 16 * 16 + nib
    (s.physWrite (pa / 64 * 64) form).physWrite a [BitVec.ofNat 8 b']

/-- Writes the masked bytes of a line at its home. -/
def State.homeWrite (s : State) (part pa cmp : Nat) (mask : BitVec 64) (data : BitVec 512) : State :=
  let (s, old) := s.homeRead part pa cmp
  s.homeWriteLine part pa cmp (lineBytes (mergeLine mask data (lineOf old)))

/-! ### Access counters and hints (R350, R351) -/

/-- Posts a hint, or counts it as dropped. -/
def State.postHint (s : State) (die part region mtype count : Nat) : State :=
  let g := (s.partD part).regs
  let size := g.hqSize.toNat
  if ringSizeOk size && 1 ≤ ringFree size g.hqHead.toNat g.hqTail.toNat then
    let t := g.hqTail.toNat % size
    (s.physWrite (g.hqBase.toNat + 16 * t)
      (leBytes 8 (region * 65536) ++ leBytes 8 (die + mtype * 4 + count % 65536 * 65536))).modRegs part fun g =>
        { g with hqTail := BitVec.ofNat 16 ((t + 1) % size) }
  else s.modRegs part fun g => { g with hqDrop := g.hqDrop + 1 }

/-- Counts a request of a die's client to a page with ACE set. A set holds the four regions last used whose numbers agree
modulo 4,096 (log entry 17). -/
def State.countAccess (s : State) (die part va : Nat) (at_ : Attr) : State :=
  let thr := (s.partD part).regs.acThresh.toNat
  if !at_.ace || thr == 0 then s
  else
    let region := va / 65536
    let tbl := (s.die die).counters
    let same := fun (c : AccCounter) => c.part == part && c.region == region
    let inSet := fun (c : AccCounter) => c.region % 4096 == region % 4096
    let n := (((tbl.find? same).map (·.count)).getD 0) + 1
    let rest := tbl.filter fun c => !same c
    let rest :=
      if (rest.filter inSet).length ≥ 4 then
        match rest.find? inSet with
        | some c => rest.erase c
        | none => rest
      else rest
    let n' := if n ≥ thr then 0 else n
    let s := s.modDie die fun d => { d with counters := rest ++ [{ part, region, count := n' }] }
    if n ≥ thr then s.postHint die part region at_.mtype n else s

end Sys2Proof.Machine
end

