-- ==== Sys2Proof/Machine/Slice.lean ====
section
/-! DEFINITION. The parts of the abstract machine beyond the cores: crossbar paths, homes, cluster slices and the fabric
port, with the steps FL, WB, EV, DL and HA of R132 (R81 to R83, R130 to R135, R143). -/

namespace Sys2Proof.Machine

open Sys2Proof

/-! ### Crossbar paths (DX) -/

/-- The path from a source to a home: a cluster's slice is source 0 to 55, the collective engine of die d is 56 + d, and
host accesses are source 60, whose one path holds its writes to every home in order (R380). -/
def pathKey (src home : Nat) : Nat := if src = 60 then 480 else src * 8 + home

/-- The die a path of the crossbar starts at: a slice's, a collective engine's, or the leader's for the host. -/
def State.srcDie (s : State) (src : Nat) : Nat :=
  if src < 56 then dieOfCluster src else if src < 60 then src - 56 else s.boot.leader


/-- The messages on a path, oldest first. -/
def State.path (s : State) (src home : Nat) : List Msg := KMap.getD s.dx (pathKey src home) []

/-- Sets the messages of a path. -/
def State.setPath (s : State) (src home : Nat) (l : List Msg) : State :=
  { s with dx := if l.isEmpty then KMap.erase s.dx (pathKey src home) else KMap.set s.dx (pathKey src home) l }

/-- Appends a message to its path. -/
def State.send (s : State) (src : Nat) (m : Msg) : State :=
  let h := stackOfPa (m.line * 64)
  s.setPath src h (s.path src h ++ [m])

/-- Applies a message at its home. -/
def State.applyMsg (s : State) (m : Msg) : State := s.homeWrite m.part (m.line * 64) m.attr.cmp m.mask m.data

/-- A packet needs the links between a source and an HBM address. -/
def State.useHome (s : State) (src pa : Nat) : State := s.useRoute (s.srcDie src) (dieOfPa pa)

/-- DL: the message at the head of a path is applied at its home. -/
def State.deliver1 (s : State) (src home : Nat) : State :=
  match s.path src home with
  | m :: r => ((s.applyMsg m).setPath src home r).useHome src (m.line * 64)
  | [] => s

/-- Delivers the first `n` messages of a path. -/
def State.deliverN (s : State) (src home n : Nat) : State :=
  match n with
  | 0 => s
  | k + 1 => (s.deliver1 src home).deliverN src home k

/-- Delivers every message of a path. -/
def State.deliverAll (s : State) (src home : Nat) : State := s.deliverN src home (s.path src home).length

/-- How many messages stand on a path up to the last that meets a condition. -/
def upToLast {α : Type} (p : α → Bool) (l : List α) : Nat := l.length - (l.reverse.findIdx p)

/-- Delivers a path up to the last message that meets a condition. -/
def State.deliverUpTo (s : State) (src home : Nat) (p : Msg → Bool) : State :=
  let l := s.path src home
  if l.any p then s.deliverN src home (upToLast p l) else s

/-! ### Slices (CS) -/

/-- The copy of a line in a slice. -/
def State.sliceLine (s : State) (cl line : Nat) : Option SliceLine := KMap.get? (s.cluster cl).lines line

/-- Sets or drops the copy of a line. -/
def State.setSlice (s : State) (cl line : Nat) (x : Option SliceLine) : State :=
  s.modCluster cl fun c =>
    { c with lines := match x with
        | some v => KMap.set c.lines line v
        | none => KMap.erase c.lines line }

/-- WB: the dirty bytes of a copy are sent to the home, and the copy becomes clean. -/
def State.writeBack (s : State) (cl line : Nat) : State :=
  match s.sliceLine cl line with
  | some x =>
    if x.dirty = 0 then s
    else
      let s := s.send cl { line, mask := x.dirty, data := x.data, attr := x.attr, part := x.part, va := x.va }
      (s.setSlice cl line (some { x with dirty := 0 })).countAccess (dieOfCluster cl) x.part x.va x.attr
  | none => s

/-- A use of a copy, which the replacement remembers (R82). -/
def State.useSlice (s : State) (cl line : Nat) : State :=
  s.modCluster cl fun c =>
    { c with uses := c.uses + 1, lines := KMap.modify c.lines line fun x => { x with used := c.uses + 1 } }

/-- FL: every earlier message of the path is delivered, then the home's bytes replace all but the dirty bytes. A copy keeps
the hint that it was allocated with (R82). -/
def State.fill (s : State) (cl part va hint : Nat) (at_ : Attr) : State :=
  let line := at_.pa / 64
  let s := (s.deliverAll cl (stackOfPa at_.pa)).useHome cl at_.pa
  let (s, bs) := s.homeRead part at_.pa at_.cmp
  let old := (s.sliceLine cl line).getD { hint }
  let x : SliceLine :=
    { old with valid := BitVec.allOnes 64, data := mergeLine old.dirty old.data (lineOf bs), attr := at_, part, va }
  ((s.setSlice cl line (some x)).useSlice cl line).countAccess (dieOfCluster cl) part va at_

/-- Reads bytes of one line through a slice, filling it if a byte is not held; a bypass read of an absent line leaves no
copy (R82). -/
def State.sliceRead (s : State) (cl part va n hint : Nat) (at_ : Attr) : State × List Byte :=
  let line := at_.pa / 64
  let off := at_.pa % 64
  let want := byteMask off n
  let held := match s.sliceLine cl line with
    | some x => x.valid &&& want == want
    | none => false
  let absent := (s.sliceLine cl line).isNone
  let s := if held then s else s.fill cl part va hint at_
  let bs := match s.sliceLine cl line with
    | some x => lineRange x.data off n
    | none => leBytes n 0
  (if absent && hint == 3 then s.setSlice cl line none else s.useSlice cl line, bs)

/-- Writes bytes of one line into a slice as dirty bytes, with no fill (R133); a bypass write of an absent line leaves no
copy: its bytes are written back at once (R82, R132). -/
def State.sliceWrite (s : State) (cl part va hint : Nat) (at_ : Attr) (mask : BitVec 64) (data : BitVec 512) : State :=
  let line := at_.pa / 64
  let absent := (s.sliceLine cl line).isNone
  let old := (s.sliceLine cl line).getD { hint }
  let s := (s.setSlice cl line (some
    { old with valid := old.valid ||| mask, dirty := old.dirty ||| mask, data := mergeLine mask data old.data, attr := at_,
               part, va })).useSlice cl line
  if absent && hint == 3 then (s.writeBack cl line).setSlice cl line none else s

/-- Bytes at an address as a line's mask and data. -/
def atLine (pa : Nat) (bs : List Byte) : BitVec 64 × BitVec 512 :=
  (byteMask (pa % 64) bs.length, linePlace (pa % 64) bs)

/-! ### Sets of bytes -/

/-- A set of bytes: everything, or ranges of (space, address, length). Spaces 16 and 21 stand for physical addresses of HBM
and of the bus. -/
inductive ByteSet where
  | all
  | ranges (l : List (Nat × Nat × Nat))
  deriving DecidableEq, Repr, Inhabited

/-- Does a set hold a byte of the range, in a space? -/
def ByteSet.meets (x : ByteSet) (space a n : Nat) : Bool :=
  match x with
  | .all => true
  | .ranges l => l.any fun r => r.1 == space && rangesMeet a n r.2.1 r.2.2

/-- The bytes of a line, at a line address of a space, that a set holds. -/
def ByteSet.maskAt (x : ByteSet) (space a : Nat) : BitVec 64 :=
  match x with
  | .all => BitVec.allOnes 64
  | .ranges l =>
    l.foldl (fun m r =>
      if r.1 == space && rangesMeet a 64 r.2.1 r.2.2 then
        let lo := max a r.2.1
        let hi := min (a + 64) (r.2.1 + r.2.2)
        m ||| byteMask (lo - a) (hi - lo)
      else m) 0

/-- The bytes of a physical HBM line, last reached by a virtual address, that a set holds. -/
def ByteSet.lineMask (x : ByteSet) (va line : Nat) : BitVec 64 := x.maskAt 0 (va / 64 * 64) ||| x.maskAt 16 (line * 64)

/-- The bytes of ranges of a partition's spaces, as a die reaches them: global and host ranges by their virtual addresses
and by the physical ones these stand for, so that a line is found under whichever name it was reached (R135). -/
def State.byteSet (s : State) (die part : Nat) (l : List (Nat × Nat × Nat)) : ByteSet :=
  let root := (KMap.getD (s.partD part).regs.ptRoot die (0 : BitVec 52)).toNat
  .ranges (l ++ l.flatMap fun r => if r.1 = 0 ∨ r.1 = 5 then s.physRanges die part 5 0 root r.2.1 r.2.2 else [])

/-- The acquire of a slice (R135): drops every clean copy that meets the set. -/
def State.dropClean (s : State) (cl part : Nat) (x : ByteSet) : State :=
  s.modCluster cl fun c =>
    { c with lines := c.lines.filter fun e =>
        !(e.2.dirty == 0 &&
          (x == .all || (e.2.part == part && x.meets 0 (e.2.va / 64 * 64) 64) || x.meets 16 (e.1 * 64) 64)) }

/-- The slice part of a release at stack scope or wider (R135): of the bytes a warp wrote (`wrote`, by line) that lie in
the set, those dirty are written back, and every message that carries one is delivered. -/
def State.releaseSlice (s : State) (cl : Nat) (wrote : KMap (BitVec 64)) (x : ByteSet) : State :=
  wrote.foldl (fun s e =>
    let line := e.1
    let s :=
      match s.sliceLine cl line with
      | some c => if c.dirty &&& e.2 &&& x.lineMask c.va line != 0 then s.writeBack cl line else s
      | none => s
    s.deliverUpTo cl (stackOfPa (line * 64)) fun m =>
      m.line == line && m.mask &&& e.2 &&& x.lineMask m.va line != 0) s

/-! ### The fabric port (FP) -/

/-- The destination of a host-space access: 0 the host, 1 + p peer p (R333). -/
def fpDest (at_ : Attr) : Nat := if at_.mtype = 4 then 1 + Config.peerOf at_.pa else 0

/-- The FIFO of a destination. -/
def State.fpQueue (s : State) (d : Nat) : FpQueue := KMap.getD s.fp d {}

/-- Sets the FIFO of a destination. -/
def State.setFp (s : State) (d : Nat) (q : FpQueue) : State :=
  { s with fp := if q.q.isEmpty && q.unacked.isEmpty then KMap.erase s.fp d else KMap.set s.fp d q }

/-- Appends one write for a host or peer address, of the bytes given. -/
def State.fpPut (s : State) (at_ : Attr) (va : Nat) (bs : List (Option Byte)) : State :=
  let q := s.fpQueue (fpDest at_)
  s.setFp (fpDest at_) { q with q := q.q ++ [{ addr := at_.pa, bytes := bs, va }] }

/-- Appends a write for a host or peer address. -/
def State.fpSend (s : State) (at_ : Attr) (va : Nat) (bs : List Byte) : State := s.fpPut at_ va (bs.map some)

/-- The byte that a write holds for an address. -/
def FpWrite.at? (w : FpWrite) (a : Nat) : Option Byte := if w.addr ≤ a then (w.bytes[a - w.addr]?).join else none

/-- DL: the head of a destination's FIFO is applied there. -/
def State.fpDeliver1 (s : State) (d : Nat) : State :=
  let q := s.fpQueue d
  match q.q with
  | w :: r => { s with bus := Memory.writeSome s.bus w.addr w.bytes }.setFp d { q := r, unacked := q.unacked ++ [w] }
  | [] => s

/-- Delivers the first `n` writes of a FIFO. -/
def State.fpDeliverN (s : State) (d n : Nat) : State :=
  match n with
  | 0 => s
  | k + 1 => (s.fpDeliver1 d).fpDeliverN d k

/-- HA: the destination confirms every delivered write. -/
def State.fpAck (s : State) (d : Nat) : State := s.setFp d { s.fpQueue d with unacked := [] }

/-- Does a write of a FIFO hold a byte of the set that a warp wrote, by the lines and masks it keeps? -/
def FpWrite.hits (w : FpWrite) (wrote : KMap (BitVec 64)) (x : ByteSet) : Bool :=
  (List.range w.bytes.length).any fun i =>
    let a := w.addr + i
    (w.at? a).isSome && (KMap.getD wrote (a / 64) (0 : BitVec 64)).getLsbD (a % 64) &&
    (x.meets 5 (w.va + i) 1 || x.meets 21 a 1)

/-- The fabric part of a release (R135): every host or peer write of the warp in the set is delivered and acknowledged. -/
def State.releaseFabric (s : State) (wrote : KMap (BitVec 64)) (x : ByteSet) : State :=
  (KMap.keys s.fp).foldl (fun s d =>
    let q := s.fpQueue d
    let s := if q.q.any (·.hits wrote x) then s.fpDeliverN d (upToLast (·.hits wrote x) q.q) else s
    if (s.fpQueue d).unacked.any (·.hits wrote x) then s.fpAck d else s) s

/-- Reads host or peer bytes: the newest write in the FIFO, else the destination's memory (R134). -/
def State.busRead (s : State) (at_ : Attr) (n : Nat) : List Byte :=
  let pend := (s.fpQueue (fpDest at_)).q
  (List.range n).map fun i =>
    let a := at_.pa + i
    (pend.reverse.findSome? (·.at? a)).getD (Memory.read s.bus a)

/-- Performs at the destination: every earlier write of its FIFO is delivered first, then the bytes are replaced. -/
def State.busAtomic (s : State) (at_ : Attr) (n : Nat) (f : List Byte → List Byte) : State × List Byte :=
  let d := fpDest at_
  let s := s.fpDeliverN d (s.fpQueue d).q.length
  let old := Memory.readN s.bus at_.pa n
  ({ s with bus := Memory.writeN s.bus at_.pa (f old) }, old)

/-! ### Homes -/

/-- Reads bytes of one line at its home. -/
def State.homeReadBytes (s : State) (part : Nat) (at_ : Attr) (n : Nat) : State × List Byte :=
  let (s, bs) := s.homeRead part at_.pa at_.cmp
  (s, (bs.drop (at_.pa % 64)).take n)

/-- An atomic at the home (R143): the slice writes back its dirty bytes of the line, the path is delivered, the bytes are
replaced in one step, and the slice's copy is dropped. -/
def State.homeAtomic (s : State) (cl part va : Nat) (at_ : Attr) (n : Nat) (f : List Byte → List Byte) :
    State × List Byte :=
  let line := at_.pa / 64
  let s := s.writeBack cl line
  let s := (s.deliverAll cl (stackOfPa at_.pa)).useHome cl at_.pa
  let (s, old) := s.homeReadBytes part at_ n
  let (m, d) := atLine at_.pa (f old)
  let s := s.homeWrite part at_.pa at_.cmp m d
  ((s.setSlice cl line none).countAccess (dieOfCluster cl) part va at_, old)

/-- An atomic in a slice (R143): after a fill if a byte is absent; the result bytes become dirty. -/
def State.sliceAtomic (s : State) (cl part va : Nat) (at_ : Attr) (n : Nat) (f : List Byte → List Byte) :
    State × List Byte :=
  let (s, old) := s.sliceRead cl part va n 0 at_
  let (m, d) := atLine at_.pa (f old)
  (s.sliceWrite cl part va 0 at_ m d, old)

/-- Writes bytes of a range at the homes through a path: each line's message is sent and delivered. -/
def State.sendBytes (s : State) (src part va : Nat) (at_ : Attr) (bs : List Byte) : State :=
  (splitLines (bs.length / 64 + 2) at_.pa bs).foldl (fun s x =>
    let (m, d) := atLine (x.1 * 64 + x.2.1) x.2.2
    s.send src { line := x.1, mask := m, data := d, attr := at_, part, va := va + (x.1 * 64 + x.2.1 - at_.pa) }) s

end Sys2Proof.Machine
end

