-- ==== Sys2Proof/Machine/Blocks.lean ====
section
/-! DEFINITION. What holds a block together: its warps, the events of its engines and map unit, the write-back of its
mapped lines, its end, and the discard of its transaction (R9, R38, R111, R115, R116, R122, R339, R343, R344, R346 to
R349). -/

namespace Sys2Proof.Machine

open Sys2Proof

/-! ### Warps of a block -/

/-- The warps of a block in slots, and in frames of its partition. -/
def State.blockWarps (s : State) (b : Nat) : List Warp :=
  (KMap.vals s.warps ++ (KMap.vals s.parts).flatMap fun p => (KMap.vals p.frames).map (·.w)).filter fun w => w.blk == b

/-- The same, each with its cluster. -/
def State.blockPlaces (s : State) (b : Nat) : List (Nat × Warp) :=
  ((s.warps.map fun e => (clusterOfWk e.1, e.2)) ++
    (KMap.vals s.parts).flatMap fun p => (KMap.vals p.frames).map fun f => (clusterOfCore f.core, f.w)).filter fun e =>
      e.2.blk == b

/-- Has a warp exited: no thread of it is runnable? -/
def Warp.exited (w : Warp) : Bool := !w.threads.any (·.runnable)

/-- The block's own warps that have not exited, children left out (R112, R239). -/
def State.ownLive (s : State) (b : Nat) : List Warp := (s.blockWarps b).filter fun w => !w.child && !w.exited

/-- Is a child of the block still to come or to exit (R117)? -/
def State.childrenLeft (s : State) (b : Nat) : Bool :=
  (s.blockWarps b).any (fun w => w.child && !w.exited) ||
  (KMap.vals s.cores).any fun c =>
    c.spawnQ.any (·.blk == b) || c.spillQ.any (·.blk == b) || c.gather.any (·.blk == b)

/-- Has the block matrix or tile-walk commands outstanding? -/
def State.commandsLeft (s : State) (b : Nat) : Bool :=
  (KMap.vals s.cores).any (fun c => c.q0.any (·.blk == b)) ||
  (KMap.vals s.clusters).any (fun c => c.q2.any (·.blk == b))

/-! ### Events of engines and map units (R339, R344) -/

/-- The first tag of engine commands. -/
def engineTag (n : Nat) : Nat := 32768 + n

/-- A new engine command number of a partition, below 0x7FC0 (log entry 18). -/
def State.newCmdNo (s : State) (part : Nat) : State × Nat :=
  let n := (s.partD part).nextCmd
  (s.modPart part fun p => { p with nextCmd := (n + 1) % 0x7FC0 }, n)

/-- Reports records of an engine command under its tag; an event already posted stays posted. -/
def State.reportEngine (s : State) (die part tag : Nat) (who : EvWho) (core slot opc rpc iter : Nat)
    (recs : List FaultRec) : State :=
  let old := (KMap.get? (s.partD part).events tag).getD { who }
  let words := recs.mapIdx fun i r => r.words tag i recs.length opc rpc die (core % 56) slot iter
  s.report die part tag
    { who, posted := old.posted, first := recs.headD { cause := 0 }, pris := (old.pris ++ recs.filterMap (·.hostpri)).dedup,
      failed := old.failed } words

/-- Drops a waiting or posted event (R343). -/
def State.dropEvent (s : State) (part tag : Nat) : State :=
  let s := s.modPart part fun p => { p with events := KMap.erase p.events tag }
  { s with dies := s.dies.mapVals fun (d : Die) =>
      { d with waitEv := d.waitEv.filter fun e => !(e.part == part && e.tag == tag) } }

/-- The tags of a partition's events that belong to somebody. -/
def Part.tagsOf (p : Part) (f : EvWho → Bool) : List Nat := (p.events.filter fun e => f e.2.who).map (·.1)

/-- Drops the events of some owner. -/
def State.dropEventsOf (s : State) (part : Nat) (f : EvWho → Bool) : State :=
  ((s.partD part).tagsOf f).foldl (fun s t => s.dropEvent part t) s

/-! ### Scratch maps (R346 to R349) -/

/-- The region of the A-buffer allocation that holds an offset. -/
def Block.regionAt (b : Block) (off : Nat) : Option Region :=
  b.regions.find? fun r => r.off ≤ off && off < r.off + r.size

/-- The global address a mapped offset stands for, and whether the map writes back. -/
def Block.mapAt (b : Block) (off : Nat) : Option (Nat × Bool) :=
  (b.regionAt off).bind fun r => r.map.map fun m => (m.1 + (off - r.off), m.2)

/-- Adds the mask of a line's bytes to a table of written bytes. -/
def addMask (t : KMap (BitVec 64)) (line : Nat) (m : BitVec 64) : KMap (BitVec 64) :=
  KMap.set t line (KMap.getD t line 0 ||| m)

/-- Writes bytes into every speculative line of a table that a range meets. -/
def writeSpec (t : KMap (BitVec 512)) (off : Nat) (bs : List Byte) : KMap (BitVec 512) :=
  (splitLines (bs.length / 64 + 2) off bs).foldl (fun t p =>
    KMap.modify t p.1 fun d => mergeLine (byteMask p.2.1 p.2.2.length) (linePlace p.2.1 p.2.2) d) t

/-- The lines of a range that a written-back map covers become dirty (R348). -/
def Block.markDirty (x : Block) (off n : Nat) : Block :=
  { x with dirty := (linesOf off n).foldl (fun d l =>
      match x.mapAt (l * 64) with
      | some (_, true) => KMap.set d l ()
      | _ => d) x.dirty }

/-- A committed write: to the committed version and to the speculative one where there is one (R68). -/
def Block.writeA (x : Block) (off : Nat) (bs : List Byte) : Block :=
  { x with aMem := Memory.writeN x.aMem off bs, specA := writeSpec x.specA off bs }.markDirty off bs.length

/-- Is the block of a deterministic launch? -/
def State.isDet (s : State) (b : Nat) : Bool :=
  match s.block b with
  | some x => ((s.launch x.launch).getD {}).det
  | none => false

/-- A byte of a delta, the last written. -/
def deltaByte (d : List DeltaByte) (host : Bool) (a : Nat) : Option Byte :=
  (d.reverse.find? fun x => x.host == host && x.addr == a).map (·.val)

/-- Adds a merged delta, keeping the order of R153: ascending round, then ascending block. -/
def insertDelta (l : List (Nat × Nat × List DeltaByte)) (d : Nat × Nat × List DeltaByte) :
    List (Nat × Nat × List DeltaByte) :=
  match l with
  | [] => [d]
  | e :: r => if e.1 < d.1 ∨ (e.1 = d.1 ∧ e.2.1 ≤ d.2.1) then e :: insertDelta r d else d :: e :: r

/-- Appends bytes to a block's delta (R152): an HBM or host address, byte by byte. -/
def State.addDelta (s : State) (b : Nat) (host : Bool) (va : Nat) (at_ : Attr) (bs : List Byte) : State :=
  s.modBlock b fun x =>
    { x with delta := x.delta ++ bs.mapIdx fun i v => { host, addr := at_.pa + i, va := va + i, val := v, attr := at_ } }

/-- The key of a launch's written line: its cluster and the line. -/
def launchLine (cl line : Nat) : Nat := cl * 2 ^ 34 + line

/-- The bytes of a delta, each once with its last value, by (host, address, virtual address, value). -/
def deltaFinal (d : List DeltaByte) : List DeltaByte :=
  d.reverse.foldl (fun acc b => if acc.any (fun a => a.host == b.host && a.addr == b.addr) then acc else b :: acc) []

/-- Is a byte of the round written with another value by an earlier block? -/
def Launch.clashes (l : Launch) (idx round : Nat) (b : DeltaByte) : Bool :=
  l.merged.any fun m =>
    m.1 == round && m.2.1 < idx &&
    match deltaByte m.2.2 b.host b.addr with
    | some v => v != b.val
    | none => false

/-- The lowest conflicting byte's virtual address. -/
def Launch.conflict (l : Launch) (x : Block) : Option Nat :=
  ((deltaFinal x.delta).filter (l.clashes x.idx x.round)).foldl
    (fun (m : Option Nat) b => some (match m with | some a => min a b.va | none => b.va)) none

/-- Has every lower-indexed block closed its delta of the round, or ended? -/
def Launch.lowerClosed (l : Launch) (idx round : Nat) : Bool :=
  (List.range idx).all fun j => round < KMap.getD l.closed j 0 || l.endedIdx.contains j

/-- Merges a block's delta, each conflicting byte left as the lowest-indexed block wrote it (R154, R357). -/
def State.mergeDelta (s : State) (b : Nat) : State :=
  match s.block b with
  | some x =>
    let l := (s.launch x.launch).getD {}
    let d := (deltaFinal x.delta).filter fun y => !l.clashes x.idx x.round y
    (s.modLaunch x.launch fun l =>
      { l with merged := insertDelta l.merged (x.round, x.idx, d), closed := KMap.set l.closed x.idx (x.round + 1) }).modBlock b
        fun x => { x with delta := [], round := x.round + 1 }
  | none => s

/-- What a warp wrote joins its launch's writes, for the release at the launch's end (R151). -/
def Launch.addWrites (l : Launch) (cl : Nat) (w : Warp) : Launch :=
  { l with wroteG := w.wroteG.foldl (fun t e => addMask t (launchLine cl e.1) e.2) l.wroteG,
           wroteH := w.wroteH.foldl (fun t e => addMask t e.1 e.2) l.wroteH }

/-! ### Stores outside a transaction (R133) -/

/-- An entry of a warp of a cluster that no open transaction holds, drained at its first part. -/
def State.applyOut (s : State) (cl : Nat) (w : Warp) (e : SqEntry) : State :=
  if e.space = 1 ∨ e.space = 4 then s.modBlock e.blk fun b => b.writeA e.addr e.bytes
  else if s.isDet w.blk then s.addDelta w.blk (e.space == 5) e.addr e.attr e.bytes
  else
    let part := s.partOf w
    let (m, d) := atLine e.attr.pa e.bytes
    if e.space = 0 then s.sliceWrite cl part e.addr e.hint e.attr m d
    else (s.fpSend e.attr e.addr e.bytes).countAccess (dieOfCluster cl) part e.addr e.attr

/-- Adds a drained entry to the bytes that the warp wrote: those it sent to its slice or to the fabric port. -/
def Warp.noteEntry (w : Warp) (det : Bool) (e : SqEntry) : Warp :=
  let line := e.attr.pa / 64
  let m := byteMask (e.attr.pa % 64) e.bytes.length
  if e.member || det then w
  else if e.space = 0 then { w with wroteG := addMask w.wroteG line m }
  else if e.space = 5 then { w with wroteH := addMask w.wroteH line m }
  else w

/-- Before the warps of a block go: the stores they issued outside its transaction are performed, and what they wrote joins
the launch's writes (R115, R151). -/
def State.drainOut (s : State) (b launch : Nat) : State :=
  (s.blockPlaces b).foldl (fun s e =>
    let s := (e.2.sq.filter (!·.member)).foldl (fun s q => s.applyOut e.1 e.2 q) s
    s.modLaunch launch fun l => l.addWrites e.1 (e.2.sq.foldl (fun w q => w.noteEntry (s.isDet b) q) e.2)) s

/-! ### Write-back of mapped lines (R348) -/

/-- Writes one dirty line of a mapped region back, as a global write of the block; a fault lists the line. While 256 lines
are listed no other is written back (R344). -/
def State.mapLineBack (s : State) (b : Nat) (line : Nat) : State × Option FaultRec :=
  match s.block b with
  | some x =>
    match x.mapAt (line * 64) with
    | some (va, true) =>
      let part := ((s.launch x.launch).getD {}).part
      if x.mapFixup.length ≥ 256 && !x.mapFixup.contains line then (s, none)
      else
      match s.translate (dieOfCore x.core) part va 0 1 with
      | (s, .ok at_) =>
        let bs := Memory.readN x.aMem (line * 64) 64
        let s := s.modBlock b fun x =>
          { x with dirty := KMap.erase x.dirty line, mapFixup := x.mapFixup.filter (· != line) }
        if ((s.launch x.launch).getD {}).det then (s.addDelta b false va at_ bs, none)
        else
          let cl := clusterOfCore x.core
          let s := s.sliceWrite cl part va 0 at_ (BitVec.allOnes 64) (lineOf bs)
          (s.modLaunch x.launch fun l => { l with wroteG := addMask l.wroteG (launchLine cl (at_.pa / 64)) (BitVec.allOnes 64) },
           none)
      | (s, .error e) =>
        (s.modBlock b fun x =>
          { x with mapFixup := if x.mapFixup.contains line then x.mapFixup else x.mapFixup ++ [line] },
         some { cause := e.cause, reason := e.reason, addr := va, client := 7, acc := 1, hostpri := e.hostpri })
    | _ => (s.modBlock b fun x => { x with dirty := KMap.erase x.dirty line }, none)
  | none => (s, none)

/-- One record for each distinct page, with the lowest address of those listed (R220, R344). -/
def onePerPage (rs : List FaultRec) : List FaultRec :=
  rs.foldl (fun acc r =>
    let same := fun (a : FaultRec) => a.addr / 4096 == r.addr / 4096
    if acc.any same then acc.map fun a => if same a then { a with addr := min a.addr r.addr } else a else acc ++ [r]) []

/-- Writes lines back in turn and reports the pages that fault (R348). -/
def State.mapLinesBack (s : State) (b : Nat) (lines : List Nat) : State :=
  let (s, recs) := lines.foldl (fun (acc : State × List FaultRec) l =>
    let (s, r) := acc.1.mapLineBack b l
    (s, match r with | some r => acc.2 ++ [r] | none => acc.2)) (s, [])
  if recs.isEmpty then s
  else
    match s.block b with
    | some x =>
      let part := ((s.launch x.launch).getD {}).part
      let (s, tag) :=
        match (s.partD part).tagsOf (· == .map b) with
        | t :: _ => (s, t)
        | [] => let (s, n) := s.newCmdNo part; (s, engineTag n)
      s.reportEngine (dieOfCore x.core) part tag (.map b) x.core 0 0 0 0 (onePerPage recs)
    | none => s

/-- Writes back every dirty line of a block. -/
def State.mapWriteBack (s : State) (b : Nat) : State :=
  match s.block b with
  | some x => s.mapLinesBack b ((KMap.keys x.dirty).filter fun l => !x.mapFixup.contains l)
  | none => s

/-! ### The end of a block (R9, R238, R327) -/

/-- The members of a block's cluster group on cores now, itself included. -/
def State.groupOf (s : State) (x : Block) : List (Nat × Block) :=
  match x.group with
  | some g => s.blocks.filter fun y => y.2.group == some g && y.2.launch == x.launch
  | none => []

/-- Frees a block that has ended, or, in a cluster group, every member once all have (R9). -/
def State.releaseBlock (s : State) (b : Nat) : State :=
  match s.block b with
  | some x =>
    match x.group with
    | some g =>
      let mem := s.groupOf x
      let pend := ((s.launch x.launch).getD {}).unplaced.any fun u => mem.any fun m => u.place == some m.1
      if mem.all (fun m => m.2.ended) && !pend then
        { s with blocks := s.blocks.filter fun y => !(y.2.group == some g && y.2.launch == x.launch) }
      else s
    | none => { s with blocks := KMap.erase s.blocks b }
  | none => s

/-- Ends a block: its barriers, bindings, FIFOs, latch and token go, the launch records its end, and its allocation is
released as R9 says. -/
def State.finishBlock (s : State) (b : Nat) : State :=
  match s.block b with
  | some x =>
    let s := s.modBlock b fun x =>
      { x with ended := true, reserved := false, token := false, bars := [], nbar := 0, fifos := [], q7 := [],
               tx := { phase := .closed } }
    let s := s.modCore x.core fun c => { c with binds := c.binds.filter (·.blk != b) }
    let s := s.modLaunch x.launch fun l => { l with endedIdx := l.endedIdx ++ [x.idx] }
    s.releaseBlock b
  | none => s

/-- Ends a block whose last warp has exited, once its commands, children and map write-backs are done. A block with a
transaction that has not been closed waits for it. One that a discard ends writes back mapped lines only where its
allocation is kept (R348), and closes its last delta: the block's end is a sync point, which waits for the lower blocks
(R152, R153; log entry 110). -/
def State.endBlock (s : State) (b : Nat) : State :=
  match s.block b with
  | some x =>
    let live := (s.blockWarps b).isEmpty
    if x.ended || x.reserved || !live || s.childrenLeft b || s.commandsLeft b || x.txOpen then s
    else
      let s := if x.endDue && x.group.isNone then s else s.mapWriteBack b
      match s.block b with
      | some y =>
        if !y.mapFixup.isEmpty then s
        else if y.endDue && s.isDet b then
          if ((s.launch y.launch).getD {}).lowerClosed y.idx y.round then (s.mergeDelta b).finishBlock b else s
        else s.finishBlock b
      | none => s
  | none => s

/-! ### Discard (R115, R116, R122, R343) -/

/-- Why a transaction is discarded. -/
inductive DiscardWhy where
  | trip | abort | mxreset | pool
  deriving DecidableEq, Repr, Inhabited

/-- The rungs a launch declares. -/
def State.rungsOf (s : State) (l : Launch) : Nat :=
  (((s.image (imageKey l.part l.image)).map (·.rungs.length)).getD 0) / 6

/-- The top rung of a block's launch. -/
def State.topRung (s : State) (x : Block) : Nat := s.rungsOf ((s.launch x.launch).getD {}) - 1

/-- Is the operation that a core's matrix engine runs one of a block, and does it use an array? Its version is dropped with
the block's commands, and the array's latch becomes invalid (R255; log entry 40). -/
def Core.dropsLatch (c : Core) (b a : Nat) : Bool :=
  match c.q0 with
  | k :: _ => k.blk == b && k.op != .mldw && k.op != .mzero && (k.arr == 0 || k.arr == a + 1)
  | [] => false

/-- Takes back the landing requests of warps, those granted too, and their reservations (R377). -/
def State.cancelLanding (s : State) (uids : List Nat) : State :=
  { s with
    dies := s.dies.mapVals fun (d : Die) =>
      { d with landReqs := d.landReqs.filter (fun r => !uids.contains r.uid),
               landNew := d.landNew.filter (fun r => !uids.contains r.uid) }
    cores := s.cores.mapVals fun (c : Core) => { c with landRes := c.landRes.filter fun r => !uids.contains r.1 }
    warps := s.warps.mapVals fun (w : Warp) => if uids.contains w.uid then { w with landing := none, shipped := false } else w }

/-- Steps 1 to 4 of Table 5: warps, frames, events, records, commands, versions and held entries of the block go, with the
fix-up lists of its collective commands (R343) and the landing slots its warps wait for; its place stays. The open delta of
a deterministic block, which holds what it wrote outside the transaction, stays too (log entry 110). -/
def State.clearBlock (s : State) (b : Nat) (x : Block) : State :=
  let part := ((s.launch x.launch).getD {}).part
  let frames := ((s.partD part).frames.filter fun f => f.2.w.blk == b).map (·.1)
  let uids := (s.blockWarps b).map (·.uid)
  let tw := (KMap.keys s.clusters).flatMap fun c => ((s.cluster c).q2.filter (·.blk == b)).map fun k => (c, k.id)
  let s := frames.foldl (fun s f => (s.dropEvent part f).modPart part fun p => { p with frames := KMap.erase p.frames f }) s
  let s := s.dropEventsOf part fun w =>
    match w with
    | .tilewalk c i => tw.contains (c, i)
    | .collective d i => (s.die d).q4.any fun k => k.id == i && k.blk == b
    | .map k => k == b
    | _ => false
  let s := (s.drainOut b x.launch).cancelLanding uids
  let clearCore := fun (c : Core) =>
    let q0 := c.q0.filter (·.blk != b)
    { c with q0, mxSince := if q0.isEmpty then s.ck else c.mxSince,
             spawnQ := c.spawnQ.filter (·.blk != b), spillQ := c.spillQ.filter (·.blk != b),
             gather := c.gather.filter (·.blk != b), binds := c.binds.filter (·.blk != b),
             west := if c.west.owner == b || c.dropsLatch b 0 then {} else c.west,
             east := if c.east.owner == b || c.dropsLatch b 1 then {} else c.east }
  let clearDie := fun (d : Die) =>
    { d with q4 := d.q4.map fun k => if k.blk = b then { k with fixup := [] } else k }
  let s := { s with
    warps := s.warps.filter fun w => w.2.blk != b
    cores := s.cores.mapVals clearCore
    clusters := s.clusters.mapVals fun (c : Cluster) => { c with q2 := c.q2.filter (·.blk != b) }
    dies := s.dies.mapVals clearDie }
  s.modBlock b fun x =>
    { x with specA := [], specC := [], heldG := [], heldH := [], heldR := [], heldRecs := [], reservedA := 0,
             tx := {}, fifos := [], q7 := [], nbar := 0, bars := [], mapFixup := [], presynced := [] }

/-- The rung of the replay (R116). -/
def replayRung (why : DiscardWhy) (rung : Nat) : Nat :=
  match why with
  | .trip => rung + 1
  | .abort => rung + 1
  | _ => rung

/-- The block ends without a replay: TXABORT at the top rung, or a narrow transaction out of entries (R116, R122). -/
def discardEnds (why : DiscardWhy) (x : Block) (top : Nat) : Bool :=
  match why with
  | .abort => top ≤ x.rung
  | .pool => x.narrow
  | _ => false

/-- Discards a block's transaction and re-queues the block ahead of every unplaced one, or ends it. -/
def State.discard (s : State) (b : Nat) (why : DiscardWhy) : State :=
  match s.block b with
  | some x =>
    let top := s.topRung x
    let s := s.clearBlock b x
    if discardEnds why x top then
      let s := s.modLaunch x.launch fun l =>
        if why = .pool then { l with abandoned := l.abandoned ++ [x.idx] } else l
      (s.modBlock b fun x => { x with tx := { phase := .closed }, endDue := true }).endBlock b
    else
      let u : Unplaced :=
        { idx := x.idx, replay := true, rung := replayRung why x.rung, startRung := x.startRung, txseq := x.txseq + 1,
          narrow := why == .pool, dirtyTx := x.dirtyTx || x.tx.topTrip || why != .mxreset, place := some b, recs := x.payload }
      (s.modBlock b fun x => { x with reserved := true }).modLaunch x.launch fun l =>
        { l with unplaced := u :: l.unplaced, replays := l.replays + 1 }
  | none => s

end Sys2Proof.Machine
end

