-- ==== Sys2Proof/Machine/Scratch.lean ====
section
/-! DEFINITION. The core order point: committed and speculative scratch, held entries and the version pool, map fills, and
the images of deterministic launches (R58, R66 to R71, R133, R134, R152, R153, R347). -/

namespace Sys2Proof.Machine

open Sys2Proof

/-! ### The version pool (R69 to R71, R122) -/

/-- Records held for EMIT, counted. -/
def Block.heldCount (x : Block) : Nat := (x.heldRecs.map fun r => r.2.length).sum

/-- Entries of the A-part in use: speculative lines, held lines, two for each held record (R113), and those reserved by
fills. -/
def Block.usedA (x : Block) : Nat :=
  x.specA.length + x.heldG.length + x.heldH.length + x.heldR.length + 2 * x.heldCount + x.reservedA

/-- Entries of the C-part in use. -/
def Block.usedC (x : Block) : Nat := x.specC.length

/-- The blocks resident on a core. -/
def State.coreBlocks (s : State) (core : Nat) : List Block :=
  ((KMap.vals s.blocks).filter fun b => b.core == core && !b.ended)

/-- Free A-part entries for a block: its own share, or in narrow mode every share on the core, up to 4,096 (R122). -/
def State.freeA (s : State) (x : Block) : Nat :=
  if x.narrow then
    let bs := s.coreBlocks x.core
    min 4096 (bs.map (·.poolA)).sum - (bs.map (·.usedA)).sum
  else x.poolA - x.usedA

/-- Free C-part entries for a block. -/
def State.freeC (s : State) (x : Block) : Nat :=
  if x.narrow then
    let bs := s.coreBlocks x.core
    min 4096 (bs.map (·.poolC)).sum - (bs.map (·.usedC)).sum
  else x.poolC - x.usedC

/-! ### A-buffer lines (R66 to R68) -/

/-- Reads A-buffer bytes: the speculative version of a line that has one for a member, the committed one otherwise. -/
def Block.readA (x : Block) (member : Bool) (off n : Nat) : List Byte :=
  (List.range n).map fun i =>
    let a := off + i
    match if member then KMap.get? x.specA (a / 64) else none with
    | some d => lineByte d (a % 64)
    | none => Memory.read x.aMem a

/-- A member's write of bytes within one line (R66, R71): the line's entry, taken if need be; false when the pool has none
free, and the transaction is then discarded. `res` draws on an entry that a fill reserved. -/
def State.specWriteA (s : State) (b : Nat) (off : Nat) (bs : List Byte) (res : Bool) : State × Bool :=
  match s.block b with
  | some x =>
    let line := off / 64
    let put := fun (x : Block) => { x with specA := writeSpec x.specA off bs }
    if (KMap.get? x.specA line).isSome then (s.modBlock b put, true)
    else if res && x.reservedA != 0 || s.freeA x != 0 then
      let x := { x with specA := KMap.set x.specA line (lineOf (Memory.readN x.aMem (line * 64) 64)),
                        reservedA := if res then x.reservedA - 1 else x.reservedA }
      (s.setBlock b (put x), true)
    else (s.discard b .pool, false)
  | none => (s, false)

/-- Adds bytes to a held line of a table. -/
def addHeld (t : KMap HeldLine) (key : Nat) (h : HeldLine) (off : Nat) (bs : List Byte) : KMap HeldLine :=
  let old := (KMap.get? t key).getD { h with mask := 0, data := 0 }
  let m := byteMask off bs.length
  KMap.set t key { old with mask := old.mask ||| m, data := mergeLine m (linePlace off bs) old.data }

/-- A member's store held until commit (R70, R113): in the global, host or cluster-remote table. -/
def State.holdWrite (s : State) (b space : Nat) (key : Nat) (h : HeldLine) (off : Nat) (bs : List Byte) : State × Bool :=
  match s.block b with
  | some x =>
    let t := if space = 0 then x.heldG else if space = 5 then x.heldH else x.heldR
    if (KMap.get? t key).isSome || s.freeA x != 0 then
      let t := addHeld t key h off bs
      (s.setBlock b (if space = 0 then { x with heldG := t } else if space = 5 then { x with heldH := t }
        else { x with heldR := t }), true)
    else (s.discard b .pool, false)
  | none => (s, false)

/-- The key of a held cluster-remote line: the target block and its line. -/
def remoteKey (blk line : Nat) : Nat := blk * 2 ^ 20 + line

/-- An atomic at the core order point (R143, R227): a member's own on the speculative version, any other on the committed
one, its result going to both. -/
def State.copAtomic (s : State) (b off n : Nat) (member : Bool) (f : List Byte → List Byte) :
    State × List Byte × Bool :=
  match s.block b with
  | some x =>
    let old := x.readA member off n
    if member then
      let (s, ok) := s.specWriteA b off (f old) false
      (s, old, ok)
    else (s.modBlock b fun x => x.writeA off (f old), old, true)
  | none => (s, [], true)

/-! ### C-buffer lines -/

/-- Reads C-buffer bytes. -/
def Block.readC (x : Block) (member : Bool) (off n : Nat) : List Byte :=
  (List.range n).map fun i =>
    let a := off + i
    match if member then KMap.get? x.specC (a / 64) else none with
    | some d => lineByte d (a % 64)
    | none => Memory.read x.cMem a

/-- A committed write to the C-buffer. -/
def Block.writeC (x : Block) (off : Nat) (bs : List Byte) : Block :=
  { x with cMem := Memory.writeN x.cMem off bs, specC := writeSpec x.specC off bs }

/-- A member's write of bytes within one line of the C-buffer (R66, R71). -/
def State.specWriteC (s : State) (b : Nat) (off : Nat) (bs : List Byte) : State × Bool :=
  match s.block b with
  | some x =>
    let line := off / 64
    let put := fun (x : Block) => { x with specC := writeSpec x.specC off bs }
    if (KMap.get? x.specC line).isSome then (s.modBlock b put, true)
    else if s.freeC x != 0 then
      (s.setBlock b (put { x with specC := KMap.set x.specC line (lineOf (Memory.readN x.cMem (line * 64) 64)) }), true)
    else (s.discard b .pool, false)
  | none => (s, false)

/-- A write of any bytes to the C-buffer, line by line, speculative for a member; false once the pool has run out. -/
def State.putC (s : State) (b off : Nat) (bs : List Byte) (member : Bool) : State × Bool :=
  if member then
    (splitLines (bs.length / 64 + 2) off bs).foldl (fun a p =>
      if a.2 then a.1.specWriteC b (p.1 * 64 + p.2.1) p.2.2 else a) (s, true)
  else (s.modBlock b fun x => x.writeC off bs, true)

/-! ### Deterministic images (R152, R153) -/

/-- The merged deltas that a block sees in its round: of blocks up to its own and rounds below its own. -/
def Launch.deltasFor (l : Launch) (idx round : Nat) : List (List DeltaByte) :=
  (l.merged.filter fun m => m.1 < round && m.2.1 ≤ idx).map (·.2.2)

/-- Reads global or host bytes of one line through the block's image: its own delta, the merged ones, then the launch's
starting memory. -/
def State.imageRead (s : State) (b : Nat) (host : Bool) (at_ : Attr) (n : Nat) : State × List Byte :=
  match s.block b with
  | some x =>
    let l := (s.launch x.launch).getD {}
    let ds := (l.deltasFor x.idx x.round).flatten ++ x.delta
    let (s, base) :=
      if host then (s, Memory.readN l.detBus at_.pa n)
      else
        match lineIn l.detHbm (s.partD l.part).regs at_.pa at_.cmp with
        | some bs => (s, (bs.drop (at_.pa % 64)).take n)
        | none => ({ s with free := s.free + 8 }, (s.freeLine.drop (at_.pa % 64)).take n)
    (s, base.mapIdx fun i v => (deltaByte ds host (at_.pa + i)).getD v)
  | none => (s, [])

/-! ### Map fills (R347) -/

/-- Fills a line of a mapped region that no client has touched; a fault gives the global address and its reason. -/
def State.mapFill (s : State) (b line : Nat) : State × Option (Nat × TErr) :=
  match s.block b with
  | some x =>
    match x.mapAt (line * 64) with
    | some (va, _) =>
      if (KMap.get? x.filled line).isSome then (s, none)
      else
        let part := ((s.launch x.launch).getD {}).part
        match s.translate (dieOfCore x.core) part va 0 0 with
        | (s, .ok at_) =>
          if !s.reach (dieOfCore x.core) (dieOfPa at_.pa) then (s, some (va, { cause := 6 }))
          else
            let (s, bs) :=
              if s.isDet b then s.imageRead b false at_ 64
              else s.sliceRead (clusterOfCore x.core) part va 64 0 at_
            (s.modBlock b fun x =>
              { x with aMem := Memory.writeN x.aMem (line * 64) bs, filled := KMap.set x.filled line () }, none)
        | (s, .error e) => (s, some (va, e))
    | none => (s, none)
  | none => (s, none)

/-- Fills every mapped line that a range meets: the faults of those that cannot be filled. -/
def State.mapFillRange (s : State) (b off n : Nat) : State × List (Nat × TErr) :=
  (linesOf off n).foldl (fun (a : State × List (Nat × TErr)) l =>
    let (s, e) := a.1.mapFill b l
    (s, a.2 ++ e.toList)) (s, [])

end Sys2Proof.Machine
end

