-- ==== Sys2Proof/Machine/Memory.lean ====
section
/-! DEFINITION. Memory accesses of warps: the three checks of R220, pieces, loads, the store queue and its drain, releases,
acquires and atomics (R72, R79, R132 to R143, R150, R217 to R227). -/

namespace Sys2Proof.Machine

open Sys2Proof

/-! ### Pieces (R79) -/

/-- The largest power of two, up to 2^k, that is at most `lim` and divides the address. -/
def pieceSize (k a lim : Nat) : Nat :=
  match k with
  | 0 => 1
  | j + 1 => if 2 ^ (j + 1) ≤ lim && a % 2 ^ (j + 1) == 0 then 2 ^ (j + 1) else pieceSize j a lim

/-- The pieces of an access of `n` bytes: (offset in the access, length). -/
def splitAccess (fuel maxSz a off n : Nat) : List (Nat × Nat) :=
  match fuel with
  | 0 => []
  | f + 1 =>
    if n = 0 then []
    else
      let k := pieceSize 6 a (min n maxSz)
      (off, k) :: splitAccess f maxSz (a + k) (off + k) (n - k)

/-- The single-copy atomic size of a space (R78): HBM 32, host 8, scratch 64. -/
def atomicSize (space : Nat) : Nat := if space = 0 then 32 else if space = 5 then 8 else 64

/-! ### The three checks (R220) -/

/-- What a memory word asks for: its space, size and kind of access (R404), whether it must be aligned, whether it goes past
the slice to the home, the lanes and their addresses, and the place checks it adds. -/
structure Access where
  space : Nat
  size : Nat
  acc : Nat
  aligned : Bool := false
  home : Bool := false
  lanes : List (Nat × Nat)
  place : Nat → Option Nat := fun _ => none

/-- The block whose A-buffer allocation a scratch address reaches, and the offset there (R58, R72). A cluster-remote address
with a bit of [63:52] set, of which R72 does not speak, reaches none, as one with a bit of [51:22] set (log entry 111). -/
def State.scratchAt (s : State) (wk : Nat) (w : Warp) (space ea n : Nat) : Option (Nat × Nat) :=
  match s.block w.blk with
  | some b =>
    if space = 1 then (if s.atHome wk w && ea + n ≤ b.aSize then some (w.blk, ea) else none)
    else if ea ≥ 2 ^ 22 then none
    else
      match (s.groupOf b).find? (fun m => posOfCore m.2.core == ea / 2 ^ 20) with
      | some m => if ea % 2 ^ 20 + n ≤ m.2.aSize then some (m.1, ea % 2 ^ 20) else none
      | none => none
  | none => none

/-- A record of one lane. -/
def laneRec (cause reason acc space lane addr : Nat) : FaultRec :=
  { cause, reason, lanes := maskOf [lane], addr, acc, space }

/-- A faulting lane joins the record of its page, or starts one (R220, stage 3). -/
def addPage (rs : List FaultRec) (r : FaultRec) : List FaultRec :=
  match rs with
  | [] => [r]
  | x :: t =>
    if x.addr / 4096 = r.addr / 4096 then { x with lanes := x.lanes ||| r.lanes } :: t else x :: addPage t r

/-- A memory fault with its records; TINFO takes the address of the lowest faulting lane. -/
def memTrap (s : State) (recs : List FaultRec) (info : Nat) : Stop :=
  .trap { cause := (recs.headD { cause := 4 }).cause, info := BitVec.ofNat 64 info, recs } s

/-- Is the byte range held by the slice, so that a read needs no link? -/
def State.sliceHolds (s : State) (cl : Nat) (at_ : Attr) (n : Nat) : Bool :=
  match s.sliceLine cl (at_.pa / 64) with
  | some x => let m := byteMask (at_.pa % 64) n; x.valid &&& m == m
  | none => false

/-- ABSENT for an HBM address whose home cannot be reached, unless a read finds the bytes in the slice (R375). -/
def State.linkErr (s : State) (wk : Nat) (at_ : Attr) (n acc : Nat) (home : Bool) : Bool :=
  at_.mtype ≤ 1 && !s.reach (dieOfWk wk) (dieOfPa at_.pa) &&
  !(acc == 0 && !home && (s.sliceHolds (clusterOfWk wk) at_ (min n (64 - at_.pa % 64))))

/-- Translates the pages one lane's access meets; failures join the records. -/
def State.lanePages (s : State) (wk part : Nat) (x : Access) (lane ea : Nat) (rs : List FaultRec) :
    State × List (Nat × Nat × Attr) × List FaultRec :=
  (pagePieces 3 ea x.size).foldl (fun (a : State × List (Nat × Nat × Attr) × List FaultRec) p =>
    match a.1.translate (dieOfWk wk) part p.1 x.space x.acc with
    | (s, .ok at_) =>
      if s.linkErr wk at_ p.2 x.acc x.home then (s, a.2.1, addPage a.2.2 (laneRec 6 0 x.acc x.space lane p.1))
      else (s, a.2.1 ++ [(p.1, p.2, at_)], a.2.2)
    | (s, .error e) =>
      (s, a.2.1, addPage a.2.2 { laneRec e.cause e.reason x.acc x.space lane p.1 with hostpri := e.hostpri }))
    (s, [], rs)

/-- The pieces of one lane over its translated pages. -/
def globalPieces (x : Access) (lane ea : Nat) (pages : List (Nat × Nat × Attr)) : List Piece :=
  (splitAccess 64 (atomicSize x.space) ea 0 x.size).map fun p =>
    let a := ea + p.1
    let at_ : Attr :=
      match pages.find? (fun g => g.1 ≤ a && a < g.1 + g.2.1) with
      | some g => { g.2.2 with pa := g.2.2.pa + (a - g.1) }
      | none => {}
    { lane, off := p.1, n := p.2, addr := a, attr := at_ }

/-- The record of a lane for a mapped line that cannot be filled: CLIENT 6 and the global address (R347). -/
def mapRec (lane : Nat) (e : Nat × TErr) : FaultRec :=
  { laneRec e.2.cause e.2.reason 0 0 lane e.1 with client := 6, hostpri := e.2.hostpri }

/-- An index list in the block's A-buffer, `n` entries of `k` bytes, read at the push once its mapped lines are filled, or the
fault of the pages that do not translate (R75, R220, R258). -/
def State.readIndices (s : State) (iss : Issue) (w : Warp) (off n k : Nat) : Except Stop (State × List Nat) :=
  match s.mapFillRange w.blk off (k * n) with
  | (s, e :: r) => .error (memTrap s ((e :: r).foldl (fun rs e => addPage rs (mapRec iss.elected e)) []) e.1)
  | (s, []) =>
    let bs := ((s.block w.blk).map fun x => x.readA (s.isMember iss.wk w) off (k * n)).getD []
    .ok (s, (List.range n).map fun i => leNat ((bs.drop (k * i)).take k))

/-- Stage 3 in a scratch space: untouched mapped lines are filled (R347). -/
def State.fillLanes (s : State) (ts : List (Nat × Nat × Nat)) (size : Nat) : State × List FaultRec :=
  ts.foldl (fun (a : State × List FaultRec) t =>
    let (s, bad) := a.1.mapFillRange t.2.1 t.2.2 size
    (s, bad.foldl (fun rs e => addPage rs (mapRec t.1 e)) a.2)) (s, [])

/-- The checks of R220 in order; then every lane's pieces, in ascending lane order. -/
def State.checkAccess (s : State) (wk : Nat) (w : Warp) (x : Access) : Except Stop (State × List Piece) :=
  let bad := if x.aligned then x.lanes.filter (fun l => l.2 % x.size != 0) else []
  match bad with
  | l :: _ => .error (memTrap s (bad.map fun l => laneRec 5 0 x.acc x.space l.1 l.2) l.2)
  | [] =>
    let scratch := x.space == 1 || x.space == 4
    let why := fun (l : Nat × Nat) =>
      match x.place l.2 with
      | some r => some r
      | none => if scratch && (s.scratchAt wk w x.space l.2 x.size).isNone then some 0 else none
    match x.lanes.filter (fun l => (why l).isSome) with
    | l :: r =>
      .error (memTrap s ((l :: r).map fun l => laneRec 4 ((why l).getD 0) x.acc x.space l.1 l.2) l.2)
    | [] =>
      if scratch then
        let ts := x.lanes.filterMap fun l => (s.scratchAt wk w x.space l.2 x.size).map fun t => (l.1, t.1, t.2)
        match s.fillLanes ts x.size with
        | (s, []) =>
          .ok (s, ts.flatMap fun t => (splitAccess 64 64 t.2.2 0 x.size).map fun p =>
            { lane := t.1, off := p.1, n := p.2, addr := t.2.2 + p.1, blk := t.2.1 })
        | (s, r :: rs) => .error (memTrap s (r :: rs) r.addr)
      else
        let part := s.partOf w
        let (s, ps, rs) := x.lanes.foldl (fun (a : State × List Piece × List FaultRec) l =>
          let (s, pages, rs) := a.1.lanePages wk part x l.1 l.2 a.2.2
          (s, a.2.1 ++ globalPieces x l.1 l.2 pages, rs)) (s, [], [])
        match rs with
        | [] => .ok (s, ps)
        | r :: rs => .error (memTrap s (r :: rs) r.addr)

/-- A store or atomic that names the page of the launch's captured arguments (R36). -/
def State.argPlace (s : State) (w : Warp) (space size ea : Nat) : Option Nat :=
  let p := (s.launchOf w).argPage / 4096
  if space = 0 && (ea / 4096 == p || (ea + size - 1) / 4096 == p) then some 0 else none

/-! ### The store queue (R132, R133) -/

/-- Do two entries share a byte? -/
def SqEntry.overlaps (a b : SqEntry) : Bool :=
  if a.space = 1 ∨ a.space = 4 then
    (b.space == 1 || b.space == 4) && a.blk == b.blk && rangesMeet a.addr a.bytes.length b.addr b.bytes.length
  else a.space == b.space && rangesMeet a.attr.pa a.bytes.length b.attr.pa b.bytes.length

/-- An entry of a warp of a cluster drained at its first part (R133); false when its transaction was discarded (R71). -/
def State.applyAt (s : State) (cl : Nat) (w : Warp) (e : SqEntry) : State × Bool :=
  if !e.member then (s.applyOut cl w e, true)
  else if !((s.block w.blk).map (·.txOpen)).getD false then (s, true)
  else if e.space = 1 then s.specWriteA e.blk e.addr e.bytes false
  else if e.space = 4 then
    s.holdWrite w.blk 4 (remoteKey e.blk (e.addr / 64)) { mask := 0, data := 0, core := e.core, blk := e.blk }
      (e.addr % 64) e.bytes
  else
    s.holdWrite w.blk e.space (e.attr.pa / 64) { mask := 0, data := 0, attr := e.attr, va := e.addr } (e.attr.pa % 64)
      e.bytes

/-- An entry of a warp in a slot drained (R132). -/
def State.applyEntry (s : State) (wk : Nat) (w : Warp) (e : SqEntry) : State × Bool :=
  let (t, ok) := s.applyAt (clusterOfWk wk) w e
  (t.modWarp wk (·.noteEntry (s.isDet w.blk) e), ok)

/-- Applies entries in order while the warp is still in its slot. -/
def State.applyEntries (s : State) (wk uid : Nat) (es : List SqEntry) : State :=
  match es with
  | [] => s
  | e :: r =>
    match s.warp wk with
    | some w => if w.uid = uid then ((s.applyEntry wk w e).1).applyEntries wk uid r else s
    | none => s

/-- Which entries must drain for those that meet a condition to drain: they, and every earlier one that overlaps one that
must (R132). The list is newest first, as is `later`. -/
def mustDrain (p : SqEntry → Bool) (later : List SqEntry) (l : List SqEntry) : List SqEntry :=
  match l with
  | [] => later
  | e :: r => if p e || later.any (·.overlaps e) then mustDrain p (e :: later) r else mustDrain p later r

/-- Is an entry kept when those that must drain leave? -/
def keptEntries (p : SqEntry → Bool) (later : List SqEntry) (kept : List SqEntry) (l : List SqEntry) : List SqEntry :=
  match l with
  | [] => kept
  | e :: r =>
    if p e || later.any (·.overlaps e) then keptEntries p (e :: later) kept r else keptEntries p later (e :: kept) r

/-- DR, repeated: every entry of the warp's store queue that meets a condition drains, after the earlier ones it waits
for. -/
def State.drainWhere (s : State) (wk : Nat) (p : SqEntry → Bool) : State :=
  match s.warp wk with
  | some w =>
    let go := mustDrain p [] w.sq.reverse
    (s.setWarp wk { w with sq := keptEntries p [] [] w.sq.reverse }).applyEntries wk w.uid go
  | none => s

/-- The warp of a frame changed. -/
def State.modFrame (s : State) (part frame : Nat) (f : Warp → Warp) : State :=
  s.modPart part fun p => { p with frames := KMap.modify p.frames frame fun (r : Frame) => { r with w := f r.w } }

/-- DR for a warp that waits in a frame: its stores drain as those of any warp (R132, R342). -/
def State.drainFramed (s : State) (part frame i : Nat) : State :=
  match KMap.get? (s.partD part).frames frame with
  | some f =>
    match f.w.sq[i]? with
    | some e =>
      if (f.w.sq.take i).any (·.overlaps e) then s
      else
        let det := s.isDet f.w.blk
        let s := s.modFrame part frame fun w => { w with sq := w.sq.eraseIdx i }
        ((s.applyAt (clusterOfCore f.core) f.w e).1).modFrame part frame (·.noteEntry det e)
    | none => s
  | none => s

/-- Does an entry meet a set of bytes? Scratch ranges of a set lie in the A-buffer of a block. -/
def SqEntry.inSet (e : SqEntry) (blk : Nat) (x : ByteSet) : Bool :=
  x == .all ||
  (if e.space = 1 ∨ e.space = 4 then e.blk == blk && x.meets 1 e.addr e.bytes.length
   else x.meets e.space e.addr e.bytes.length || x.meets (16 + e.space) e.attr.pa e.bytes.length)

/-- Is the warp still in its slot? -/
def State.hasWarp (s : State) (wk uid : Nat) : Bool :=
  match s.warp wk with
  | some w => w.uid == uid
  | none => false

/-! ### Release and acquire (R135) -/

/-- Completes a release at a scope of the bytes of a set that the warp wrote. -/
def State.release (s : State) (wk scope : Nat) (x : ByteSet) : State :=
  if scope ≤ 1 then s
  else
    let blk := ((s.warp wk).map (·.blk)).getD 0
    let s := s.drainWhere wk fun e => e.inSet blk x
    match s.warp wk with
    | some w =>
      let s :=
        if scope ≥ 4 then
          (s.releaseSlice (clusterOfWk wk) w.wroteG x).modWarp wk fun w =>
            if x = .all then { w with wroteG := [] } else w
        else s
      if scope = 7 then
        (s.releaseFabric w.wroteH x).modWarp wk fun w => if x = .all then { w with wroteH := [] } else w
      else s
    | none => s

/-- Performs an acquire at a scope for a set, on the slice of the warp's cluster. -/
def State.acquire (s : State) (wk part scope : Nat) (x : ByteSet) : State :=
  if scope ≥ 4 then s.dropClean (clusterOfWk wk) part x else s

/-- Goes on with a word if its warp is still there after a release. -/
def stillHere (s : State) (iss : Issue) (w : Warp) : Res := if s.hasWarp iss.wk w.uid then .ok s else .error (.gone s)

/-! ### Loads (R134) -/

/-- The newest byte that the warp's own store queue holds for a piece's byte, under either name of a scratch line. -/
def Warp.sqByte (w : Warp) (space : Nat) (p : Piece) (i : Nat) : Option Byte :=
  let hit := fun (e : SqEntry) =>
    if space = 1 ∨ space = 4 then
      (e.space == 1 || e.space == 4) && e.blk == p.blk && e.addr ≤ p.addr + i && p.addr + i < e.addr + e.bytes.length
    else e.space == space && e.attr.pa ≤ p.attr.pa + i && p.attr.pa + i < e.attr.pa + e.bytes.length
  let at_ := fun (e : SqEntry) => if space = 1 ∨ space = 4 then p.addr + i - e.addr else p.attr.pa + i - e.attr.pa
  (w.sq.reverse.find? hit).bind fun e => e.bytes[at_ e]?

/-- The byte that the transaction holds for a piece's byte: a scratch line's held bytes were stored through cluster-remote
space, whichever space reads them. -/
def Block.heldByte (b : Block) (space : Nat) (p : Piece) (i : Nat) : Option Byte :=
  let scratch := space == 1 || space == 4
  let a := if scratch then p.addr + i else p.attr.pa + i
  let h :=
    if space = 0 then KMap.get? b.heldG (a / 64)
    else if scratch then KMap.get? b.heldR (remoteKey p.blk (a / 64))
    else KMap.get? b.heldH (a / 64)
  h.bind fun h => if h.mask.getLsbD (a % 64) then some (lineByte h.data (a % 64)) else none

/-- Reads a piece from its space's source. -/
def State.readSource (s : State) (wk : Nat) (w : Warp) (space hint : Nat) (member : Bool) (p : Piece) :
    State × List Byte :=
  if space = 1 ∨ space = 4 then
    match s.block p.blk with
    | some b => (s, b.readA (member && space == 1) p.addr p.n)
    | none => (s, leBytes p.n 0)
  else if s.isDet w.blk then s.imageRead w.blk (space == 5) p.attr p.n
  else if space = 0 then s.sliceRead (clusterOfWk wk) (s.partOf w) p.addr p.n hint p.attr
  else (s.countAccess (dieOfWk wk) (s.partOf w) p.addr p.attr, s.busRead p.attr p.n)

/-- RD: reads a piece in one step, each byte from the first part that holds it. -/
def State.readPiece (s : State) (wk : Nat) (w : Warp) (space hint : Nat) (p : Piece) : State × List Byte :=
  let member := s.isMember wk w
  let own := (List.range p.n).map fun i =>
    match w.sqByte space p i with
    | some v => some v
    | none => if member then ((s.block w.blk).bind fun b => b.heldByte space p i) else none
  if own.all (·.isSome) then (s, own.map (·.getD 0))
  else
    let (s, bs) := s.readSource wk w space hint member p
    (s, own.mapIdx fun i v => v.getD (bs.getD i 0))

/-- The bytes of a piece behind those read for its lane. -/
def addRead (got : List (Nat × List Byte)) (lane : Nat) (bs : List Byte) : List (Nat × List Byte) :=
  match got with
  | [] => [(lane, bs)]
  | (l, old) :: r => if l = lane then (l, old ++ bs) :: r else (l, old) :: addRead r lane bs

/-! ### Stores -/

/-- IS: one entry for each piece, in ascending lane order (R132). -/
def State.issueStores (s : State) (wk : Nat) (w : Warp) (space hint : Nat) (ps : List Piece) (data : Nat → List Byte) :
    State :=
  let member := s.isMember wk w
  let es := ps.map fun p =>
    let core := ((s.block p.blk).map (·.core)).getD 0
    ({ space, addr := p.addr, bytes := (data p.lane |>.drop p.off).take p.n, attr := p.attr, core, blk := p.blk,
       member, hint } : SqEntry)
  s.setWarp wk { w with sq := w.sq ++ es }

/-! ### Atomics (R143, R225 to R228) -/

/-- Performs one lane's atomic at its part; false when its transaction was discarded. `p` is the whole access. -/
def State.performAtomic (s : State) (wk : Nat) (w : Warp) (space scope : Nat) (p : Piece)
    (f : List Byte → List Byte) : State × List Byte × Bool :=
  let probe : SqEntry := { space, addr := p.addr, bytes := leBytes p.n 0, attr := p.attr, blk := p.blk }
  let s := s.drainWhere wk fun e => e.overlaps probe
  if !s.hasWarp wk w.uid then (s, [], false)
  else
    let part := s.partOf w
    let cl := clusterOfWk wk
    if space = 1 ∨ space = 4 then s.copAtomic p.blk p.addr p.n (s.isMember wk w && space == 1) f
    else if s.isDet w.blk then
      let (s, old) := s.imageRead w.blk (space == 5) p.attr p.n
      (s.addDelta w.blk (space == 5) p.addr p.attr (f old), old, true)
    else if space = 5 then
      let (s, old) := (s.countAccess (dieOfWk wk) part p.addr p.attr).busAtomic p.attr p.n f
      (s, old, true)
    else if scope ≤ 3 then
      let (s, old) := s.sliceAtomic cl part p.addr p.attr p.n f
      let m := byteMask (p.attr.pa % 64) p.n
      (s.modWarp wk fun w => { w with wroteG := addMask w.wroteG (p.attr.pa / 64) m }, old, true)
    else
      let (s, old) := s.homeAtomic cl part p.addr p.attr p.n f
      (s, old, true)

/-- The new value of an integer, exchange or compare operation, on numbers of `n` bytes (R225). -/
def atomNat (op n old a b : Nat) : Nat :=
  let w := 8 * n
  let sg := fun (x : Nat) => intOf true w x
  match op with
  | 0 => (old + a) % 2 ^ w
  | 1 => if sg a < sg old then a else old
  | 2 => if sg old < sg a then a else old
  | 3 => min old a
  | 4 => max old a
  | 5 => old &&& a
  | 6 => old ||| a
  | 7 => old ^^^ a
  | 8 => a
  | 9 => if old = a then b else old
  | 10 => (fAdd (if n = 2 then .f16 else if n = 4 then .f32 else .f64) .rne 0 false old a).1
  | 11 =>
    let f : Fmt := if n = 2 then .f16 else if n = 4 then .f32 else .f64
    if f.key a < f.key old then a else old
  | 12 =>
    let f : Fmt := if n = 2 then .f16 else if n = 4 then .f32 else .f64
    if f.key old < f.key a then a else old
  | _ => (fAdd .bf16 .rne 0 false old a).1

/-- The operation on bytes. -/
def atomBytes (op n : Nat) (a b : List Byte) (old : List Byte) : List Byte :=
  leBytes n (atomNat op n (leNat old) (leNat a) (leNat b))

/-- The place checks of atomics (R36, R70, R113, R227): host operations, 64-byte atomics, members away from their own
A-buffer, and the captured arguments. -/
def State.atomPlace (s : State) (wk : Nat) (w : Warp) (space size op : Nat) (ea : Nat) : Option Nat :=
  if space = 5 && !((op == 0 || op == 8 || op == 9) && (size == 4 || size == 8)) then some 6
  else if size = 64 && space == 0 then some 0
  else if s.isMember wk w && space != 1 then some 0
  else s.argPlace w space size ea

end Sys2Proof.Machine
end

