-- ==== Sys2Proof/Machine/Vector.lean ====
section
/-! DEFINITION. How a V-format word executes: on the scalar unit or in the vector pipe, its queue operands, and the two
visits of an FP64 word (R22, R187 to R192, R241 to R244). -/

namespace Sys2Proof.Machine

open Sys2Proof

/-! ### User FIFOs (R242 to R244) -/

/-- The capacity of a user FIFO. -/
def fifoDepth : Nat := 64

/-- Elements of a user FIFO or of q7. -/
def Block.fifo (b : Block) (q : Nat) : List Word := if q = 7 then b.q7 else KMap.getD b.fifos q []

/-- Sets the elements of a user FIFO or of q7. -/
def Block.setFifo (b : Block) (q : Nat) (l : List Word) : Block :=
  if q = 7 then { b with q7 := l } else { b with fifos := KMap.set b.fifos q l }

/-- Does another warp of the block wait with an earlier ticket to take elements (or places) of the queue (R244)? -/
def State.queueAhead (s : State) (wk : Nat) (w : Warp) (q : Nat) (pop : Bool) : Bool :=
  let mine := (w.pend.map (·.ticket)).getD s.nextTicket
  s.warps.any fun x =>
    x.1 != wk && x.2.blk == w.blk &&
    match x.2.pend with
    | some p =>
      p.ticket < mine &&
      (match p.why with
        | .fifo a b _ => if pop then a == some q else b == some q
        | _ => false)
    | none => false

/-- Can a word take `n` elements of `pop` and append `n` to `push` now? -/
def State.fifoOk (s : State) (wk : Nat) (w : Warp) (pop push : Option Nat) (n : Nat) : Bool :=
  match s.block w.blk with
  | some b =>
    (match pop with
      | some q => n ≤ (b.fifo q).length && !s.queueAhead wk w q true
      | none => true) &&
    (match push with
      | some q => (b.fifo q).length + n ≤ fifoDepth && !s.queueAhead wk w q false
      | none => true)
  | none => true

/-- The queue number of an operand. -/
def queueOf (o : Opnd) : Option Nat :=
  match o with
  | .q n => some n.toNat
  | _ => none

/-- Appends elements to a queue of the block. -/
def State.pushFifo (s : State) (blk q : Nat) (l : List Word) : State := s.modBlock blk fun b => b.setFifo q (b.fifo q ++ l)

/-- Removes `n` elements from the head of a queue of the block. -/
def State.popFifo (s : State) (blk q n : Nat) : State := s.modBlock blk fun b => b.setFifo q ((b.fifo q).drop n)

/-- Takes one element for each of some lanes from the queue a word pops, once that and what it pushes have enough elements
and places; a warp away from its block's core has no FIFO (R191, R242). With no lane the word takes and waits for
nothing (R243). -/
def State.takeFifo (s : State) (iss : Issue) (w : Warp) (pop push : Option Nat) (lanes : List Nat) :
    Except Stop (State × List Word) :=
  let n := lanes.length
  if n = 0 then .ok (s, [])
  else if (pop.isSome || push.isSome) && !s.atHome iss.wk w then (permFault lanes s).map fun s => (s, [])
  else if !s.fifoOk iss.wk w pop push n then .error (.block (.fifo pop push n) s)
  else
    match pop, s.block w.blk with
    | some q, some b => .ok (s.popFifo w.blk q n, (b.fifo q).take n)
    | _, _ => .ok (s, [])

/-! ### A word over lanes -/

/-- What a lane's sources hold: the three operands, the second registers of FDOT2's pairs, and the destination's old
value. -/
structure VArgs where
  a : Word
  b : Word
  c : Word
  a1 : Word := 0
  b1 : Word := 0
  old : Word := 0

/-- What a V-format word computes: the registers it needs below N (R169), the type its sources are read at, whether it keeps
destination bits, whether it issues over two visits (R22), and its effect on one lane: given the lane's draws and sources,
the result, the FCSR flags and the number of draws. -/
structure VSpec where
  need : List (Opnd × Nat)
  ty : VTy
  keeps : Bool := false
  pairs : Bool := false
  two : Bool := false
  fn : (Nat → Nat) → VArgs → Word × Nat × Nat

/-- The usual registers: one for each operand. -/
def needs (i : VIns) : List (Opnd × Nat) := [(i.d, 1), (i.a, 1), (i.b, 1), (i.c, 1)]

/-- Are all v codes below N (R169)? -/
def Warp.codesOk (w : Warp) (l : List (Opnd × Nat)) : Bool := l.all fun x => opndBelow x.1 w.nregs x.2

/-- The register after an operand's. -/
def nextReg (o : Opnd) : Opnd :=
  match o with
  | .v r => .v (r + 1)
  | .s r => .s (r + 1)
  | o => o

/-- The sources of one lane. -/
def State.vArgs (s : State) (wk : Nat) (w : Warp) (i : VIns) (sp : VSpec) (lane : Nat) (popped old : Word) : VArgs :=
  { a := s.src wk w sp.ty i.a lane popped, b := s.src wk w sp.ty i.b lane popped,
    c := s.src wk w sp.ty i.c lane popped,
    a1 := if sp.pairs then s.src wk w sp.ty (nextReg i.a) lane popped else 0,
    b1 := if sp.pairs then s.src wk w sp.ty (nextReg i.b) lane popped else 0, old }

/-- Does the word execute once on the scalar unit (R187)? -/
def vScalar (i : VIns) : Bool := i.d.isS && i.a.laneless && i.b.laneless && i.c.laneless

/-- Repeats left after this one. -/
def Warp.repLeft (w : Warp) (iss : Issue) : Nat := (w.thread iss.elected).pos.rep - 1

/-- A word on the scalar unit: under the guard of the lowest active lane, its flags once, its draws from the scalar
counter (R187). -/
def scalarBody (i : VIns) (sp : VSpec) (s : State) (iss : Issue) (w : Warp) : Res :=
  let w := { w with srep := w.repLeft iss }
  if w.electedGuard iss i.g then
    match i.d with
    | .s r =>
      let u := fun k => s.draw w scalarLane (w.sdraw.toNat + k)
      let (x, fl, n) := sp.fn u (s.vArgs iss.wk w i sp iss.elected 0 (w.s r.toNat))
      .ok ((s.setWarp iss.wk (((w.setS r.toNat x).flag fl).addScalarDraw n)).finish iss)
    | _ => .ok (s.finish iss)
  else .ok ((s.setWarp iss.wk w).finish iss)

/-- The results of the participating lanes: lane, result, flags, draws. -/
def State.laneResults (s : State) (wk : Nat) (w : Warp) (i : VIns) (sp : VSpec) (lanes : List Nat)
    (popped : List Word) : List (Nat × Word × Nat × Nat) :=
  lanes.mapIdx fun k l =>
    let old := match i.d with
      | .v r => w.v r.toNat l
      | _ => Config.freeBits (s.free + k)
    let u := fun n => s.draw w l ((w.thread l).draw.toNat + n)
    (l, sp.fn u (s.vArgs wk w i sp l (popped.getD k 0) old))

/-- The value of a lane's result. -/
def valueOf (r : Nat × Word × Nat × Nat) : Word := r.2.1
/-- The draws of a lane's result. -/
def drawsOf (r : Nat × Word × Nat × Nat) : Nat := r.2.2.2

/-- Writes results to v registers, with flags and draws. -/
def Warp.putResults (w : Warp) (d : Opnd) (rs : List (Nat × Word × Nat × Nat)) : Warp :=
  rs.foldl (fun w r =>
    let w := match d with
      | .v n => w.setV n.toNat r.1 r.2.1
      | _ => w
    (w.flag r.2.2.1).addDraw r.1 r.2.2.2) w

/-- The queue that a word's sources name. -/
def popQueue (i : VIns) : Option Nat := (queueOf i.a).or ((queueOf i.b).or (queueOf i.c))

/-- The second visit that an FP64 word owes: what lanes 16 to 31 and a queue destination receive (R22). -/
def f64Pend (i : VIns) (iss : Issue) (rs : List (Nat × Word × Nat × Nat)) : F64Pend :=
  let later := rs.filter fun r => 16 ≤ r.1
  { iss, dst := i.d, results := later.map fun r => (r.1, r.2.1),
    flags := later.foldl (fun m r => orBits m r.2.2.1) 0, draws := (later.map drawsOf).headD 0,
    lanes := maskOf (later.map Prod.fst), pushed := if i.d.isQ then rs.map valueOf else [] }

/-- Pushes the results of a word whose destination is a queue. -/
def State.pushResults (s : State) (blk : Nat) (d : Opnd) (vals : List Word) : State :=
  match queueOf d with
  | some q => s.pushFifo blk q vals
  | none => s

/-- A word in the vector pipe (R187, R189 to R191). -/
def vectorBody (i : VIns) (sp : VSpec) (s : State) (iss : Issue) (w : Warp) : Res :=
  let part := lanesOf (w.partLanes iss i.g)
  (s.takeFifo iss w (popQueue i) (queueOf i.d) part).bind fun (s, els) =>
    let rs := s.laneResults iss.wk w i sp part els
    let s := if sp.keeps && i.d.isQ then { s with free := s.free + part.length } else s
    if sp.two then
      let w := w.putResults i.d (rs.filter fun r => r.1 < 16)
      .ok (s.setWarp iss.wk { w with pend := none, f64 := w.f64 ++ [f64Pend i iss rs] })
    else .ok (((s.setWarp iss.wk (w.putResults i.d rs)).pushResults w.blk i.d (rs.map valueOf)).finish iss)

/-- A V-format word of class 0 that is not a cross-lane word. -/
def vBody (i : VIns) (sp : VSpec) (s : State) (iss : Issue) (w : Warp) : Res :=
  if !w.codesOk sp.need then illegal s
  else if vScalar i then scalarBody i sp s iss w
  else vectorBody i sp s iss w

/-! ### Element-wise functions -/

/-- Applies a function to every sub-element of width w. -/
def map1 (w : Nat) (f : Nat → Nat) (a : Word) : Word := ofElems w ((List.range (64 / w)).map fun k => f (elem w k a))
/-- Applies a function to every pair of sub-elements. -/
def map2 (w : Nat) (f : Nat → Nat → Nat) (a b : Word) : Word :=
  ofElems w ((List.range (64 / w)).map fun k => f (elem w k a) (elem w k b))
/-- Applies a function to every triple of sub-elements. -/
def map3 (w : Nat) (f : Nat → Nat → Nat → Nat) (a b c : Word) : Word :=
  ofElems w ((List.range (64 / w)).map fun k => f (elem w k a) (elem w k b) (elem w k c))

/-- A word that sets no flag and draws nothing: an integer, logic or move word. -/
def pureSpec (i : VIns) (f : VArgs → Word) : VSpec := { need := needs i, ty := i.ty, fn := fun _ x => (f x, 0, 0) }

end Sys2Proof.Machine
end

