-- ==== Sys2Proof/Machine/MemWords.lean ====
section
/-! DEFINITION. Loads, stores, atomics and PREFETCH (R217 to R229). -/

namespace Sys2Proof.Machine

open Sys2Proof

/-- Registers of a data group that holds `n` bytes (R218). -/
def groupRegs (n : Nat) : Nat := (n + 7) / 8

/-- The effective addresses of some lanes. -/
def State.eas (s : State) (wk : Nat) (w : Warp) (i : MIns) (five : Bool) (lanes : List Nat) : List (Nat × Nat) :=
  lanes.map fun l => (l, s.ea wk w i five l)

/-- The order of a memory word is acquire, or acq_rel. -/
def ordAcquires (i : MIns) : Bool := i.ord == 1 || i.ord == 3
/-- The order of a memory word is release, or acq_rel. -/
def ordReleases (i : MIns) : Bool := i.ord == 2 || i.ord == 3

/-- The acquire half of an order, on every line (R142). -/
def State.acquireIf (s : State) (b : Bool) (wk : Nat) (w : Warp) (scope : Nat) : State :=
  if b then s.acquire wk (s.partOf w) scope .all else s

/-- The release half of an order, of everything the warp has written (R142); the word goes on if the warp is still there. -/
def State.releaseIf (s : State) (b : Bool) (iss : Issue) (w : Warp) (scope : Nat) : Res :=
  if b then stillHere (s.release iss.wk scope .all) iss w else .ok s

/-- RD: the next piece of a load is read, in a step of its own (R132). After the last, the registers of every lane are
written, and the acquire follows (R221, R222). -/
def loadNext (i : MIns) (ps : List Piece) (got : List (Nat × List Byte)) (s : State) (iss : Issue) (w : Warp) : Res :=
  match ps with
  | [] => .ok s
  | p :: r =>
    let (s, bs) := s.readPiece iss.wk w i.space.toNat i.hint.toNat p
    let got := addRead got p.lane bs
    if r.isEmpty then
      let w := got.foldl (fun w g => w.setGroup i.data g.1 (bytesWords 8 g.2)) w
      .ok ((s.setWarp iss.wk w).acquireIf (ordAcquires i) iss.wk w i.scope.toNat)
    else .error (.more r got s)

/-- A load by some lanes into register groups: the checks of R220 once, then the pieces one by one, in ascending lane order. -/
def loadLanes (i : MIns) (lanes : List Nat) (s : State) (iss : Issue) (w : Warp) : Res :=
  let size := sizeOf_ i.size
  match w.unfinished with
  | some p => loadNext i p.left p.got s iss w
  | none =>
    if !w.codesOk [(i.data, groupRegs size), (i.base, 1), (i.idx, 1)] then illegal s
    else if lanes.isEmpty then .ok s
    else
      (s.checkAccess iss.wk w
        { space := i.space.toNat, size, acc := 0, lanes := s.eas iss.wk w i false lanes }).bind fun (s, ps) =>
        loadNext i ps [] s iss w

/-- LD (R221): per lane. -/
def execLd (i : MIns) (s : State) : Host.Outcome State Fault Refusal :=
  runWord s (.ld i) fun s iss w => loadLanes i (lanesOf (w.partLanes iss i.g)) s iss w

/-- LDU (R221): once for the warp, under the guard of the lowest active lane. -/
def execLdu (i : MIns) (s : State) : Host.Outcome State Fault Refusal :=
  runWord s (.ldu i) fun s iss w => loadLanes i (if w.electedGuard iss i.g then [iss.elected] else []) s iss w

/-- The effect of ST: the release of its order, then one store-queue entry for each lane and piece (R221, R222). -/
def stBody (i : MIns) (s : State) (iss : Issue) (w : Warp) : Res :=
  let size := sizeOf_ i.size
  let lanes := lanesOf (w.partLanes iss i.g)
  if !w.codesOk [(i.data, groupRegs size), (i.base, 1), (i.idx, 1)] then illegal s
  else if lanes.isEmpty then .ok s
  else
    let data := fun l => groupBytes (s.group iss.wk w i.data l (groupRegs size)) size
    (s.checkAccess iss.wk w
      { space := i.space.toNat, size, acc := 1, lanes := s.eas iss.wk w i false lanes,
        place := s.argPlace w i.space.toNat size }).bind fun (s, ps) =>
      (s.releaseIf (ordReleases i) iss w i.scope.toNat).map fun s =>
        match s.warp iss.wk with
        | some w => s.issueStores iss.wk w i.space.toNat i.hint.toNat ps data
        | none => s

/-- ST (R221). -/
def execSt (i : MIns) (s : State) : Host.Outcome State Fault Refusal := runWord s (.st i) (stBody i)

/-! ### Atomics (R224 to R228) -/

/-- The operands of a lane's atomic: the low bytes of the data register, and of the next one or the second group. -/
def State.atomArgs (s : State) (wk : Nat) (w : Warp) (i : MIns) (lane : Nat) : List Byte × List Byte :=
  let size := sizeOf_ i.size
  let k := groupRegs size
  let regs := s.group wk w i.data lane (2 * k)
  (groupBytes (regs.take k) size, groupBytes (regs.drop k) size)

/-- The next lane's operation of an atomic word, in a step of its own (R143, R225). After the last, the old values go to the
data groups where the word returns them, and the acquire follows (R142). -/
def atomNext (i : MIns) (returns : Bool) (ps : List Piece) (got : List (Nat × List Byte)) (s : State) (iss : Issue)
    (w : Warp) : Res :=
  match ps with
  | [] => .ok s
  | p :: r =>
    let args := s.atomArgs iss.wk w i p.lane
    match s.performAtomic iss.wk w i.space.toNat i.scope.toNat p (atomBytes i.aop (sizeOf_ i.size) args.1 args.2) with
    | (s, _, false) => .error (.gone s)
    | (s, old, true) =>
      let got := got ++ [(p.lane, old)]
      if r.isEmpty then
        let put := fun (w : Warp) => got.foldl (fun w o => w.setGroup i.data o.1 (bytesWords 8 o.2)) w
        .ok ((if returns then s.modWarp iss.wk put else s).acquireIf (ordAcquires i) iss.wk w i.scope.toNat)
      else .error (.more r got s)

/-- The effect of an atomic word: the checks and the release once, then each lane's operation in ascending order. -/
def atomBody (i : MIns) (kind : MKind) (returns : Bool) (s : State) (iss : Issue) (w : Warp) : Res :=
  let size := sizeOf_ i.size
  let lanes := lanesOf (w.partLanes iss i.g)
  let space := i.space.toNat
  match w.unfinished with
  | some p => atomNext i returns p.left p.got s iss w
  | none =>
    if !w.codesOk [(i.data, kind.group i), (i.base, 1), (i.idx, 1)] then illegal s
    else if lanes.isEmpty then .ok s
    else
      (s.checkAccess iss.wk w
        { space, size, acc := 2, aligned := true, home := i.scope.toNat ≥ 4, lanes := s.eas iss.wk w i true lanes,
          place := s.atomPlace iss.wk w space size i.aop }).bind fun (s, ps) =>
        (s.releaseIf (ordReleases i) iss w i.scope.toNat).bind fun s => atomNext i returns ps [] s iss w

/-- ATOM (R224). -/
def execAtom (i : MIns) (s : State) : Host.Outcome State Fault Refusal := runWord s (.atom i) (atomBody i .atom true)
/-- RED (R224). -/
def execRed (i : MIns) (s : State) : Host.Outcome State Fault Refusal := runWord s (.red i) (atomBody i .red false)
/-- ATOM64B (R224). -/
def execAtom64b (i : MIns) (s : State) : Host.Outcome State Fault Refusal :=
  runWord s (.atom64b i) (atomBody i .atom64 true)

/-! ### PREFETCH (R229) -/

/-- Fills the line of one address through the slice; a lane that would fault is dropped. -/
def State.prefetchLane (s : State) (wk : Nat) (w : Warp) (hint ea : Nat) : State :=
  let part := s.partOf w
  let line := ea / 64 * 64
  match s.translate (dieOfWk wk) part line 0 0 with
  | (s, .ok at_) =>
    if s.linkErr wk at_ 64 0 false then s else (s.sliceRead (clusterOfWk wk) part line 64 hint at_).1
  | (s, .error _) => s

/-- The effect of PREFETCH. -/
def prefetchBody (i : MIns) (s : State) (iss : Issue) (w : Warp) : Res :=
  if !w.codesOk [(i.base, 1), (i.idx, 1)] then illegal s
  else if i.space = 0 then
    .ok ((s.eas iss.wk w i false (lanesOf (w.partLanes iss i.g))).foldl
      (fun s l => s.prefetchLane iss.wk w i.hint.toNat l.2) s)
  else .ok s

/-- PREFETCH (R229). -/
def execPrefetch (i : MIns) (s : State) : Host.Outcome State Fault Refusal := runWord s (.prefetch i) (prefetchBody i)

end Sys2Proof.Machine
end

