-- ==== Sys2Proof/Machine/Sync.lean ====
section
/-! DEFINITION. Sync objects, bindings and fences, the sync points of deterministic launches, and WAITADDR (R137 to R144,
R152 to R154, R230 to R236, R348). -/

namespace Sys2Proof.Machine

open Sys2Proof

/-! ### Sync points (R152 to R154) -/

/-- Drains every store queue of a block's warps, in slots and in frames. -/
def State.drainBlock (s : State) (b : Nat) : State :=
  let s := ((s.warps.filter fun w => w.2.blk == b).map (·.1)).foldl (fun s wk => s.drainWhere wk fun _ => true) s
  s.parts.foldl (fun s (p : Nat × Part) =>
    (p.2.frames.filter fun f => f.2.w.blk == b).foldl (fun s (f : Nat × Frame) =>
      f.2.w.sq.foldl (fun s _ => s.drainFramed p.1 f.1 0) s) s) s

/-- A sync point that a warp of a deterministic launch's block reaches: unless the block's delta has been merged for that
warp's word, it waits for every lower-indexed block, then merges the delta, or raises CONFLICT with the lowest byte; in any
other launch nothing. -/
def State.syncPoint (s : State) (b uid : Nat) : Res :=
  if !s.isDet b then .ok s
  else
    let s := s.drainBlock b
    match s.block b with
    | some x =>
      let l := (s.launch x.launch).getD {}
      if x.presynced.contains uid then .ok (s.modBlock b fun x => { x with presynced := x.presynced.filter (· != uid) })
      else if !l.lowerClosed x.idx x.round then .error (.block .delta s)
      else
        match l.conflict x with
        | some va => .error (.trap { cause := 9, info := BitVec.ofNat 64 va } s)
        | none => .ok (s.mergeDelta b)
    | none => .ok s

/-! ### Objects (R137, R230) -/

/-- The reach of a sync object: its 64 bytes at one address of space 0 or 1, checked for a kind of access. -/
def State.objCheck (s : State) (wk : Nat) (w : Warp) (lane space addr acc : Nat) (home : Bool) :
    Except Stop (State × Piece) :=
  (s.checkAccess wk w
    { space, size := 64, acc, aligned := true, home, lanes := [(lane, addr)],
      place := fun a => if space != 0 && space != 1 then some 0 else if acc = 2 then s.argPlace w space 64 a else none }).map
    fun (s, ps) =>
      match ps with
      | p :: _ => (s, { p with n := 64 })
      | [] => (s, { lane, off := 0, n := 64, addr })

/-- The eight bytes at an offset of an object. -/
def Piece.word (p : Piece) (off : Nat) : Piece :=
  { p with addr := p.addr + off, n := 8, attr := { p.attr with pa := p.attr.pa + off } }

/-- The regions bound to an object in a block's entries on the core of a warp (R138). -/
def State.boundSet (s : State) (wk : Nat) (w : Warp) (oab : Bool) (obj : Nat) : ByteSet :=
  s.byteSet (dieOfWk wk) (s.partOf w)
    (((s.core (coreOfWk wk)).binds.filter fun e => e.blk == w.blk && e.oab == oab && e.obj == obj).map
      fun e => (e.space, e.base, e.len))

/-! ### BIND and UNBIND (R138, R230, R231) -/

/-- The ALIGN and PERM checks of BIND and UNBIND on object, base and length: the failing address and space. -/
def bindAlign (obj base len : Nat) (oab unbind : Bool) (space : Nat) : Option (Nat × Nat) :=
  if obj % 64 ≠ 0 then some (obj, oab.toNat)
  else if base % 64 ≠ 0 ∨ len % 64 ≠ 0 ∨ ((len < 64 ∨ 2 ^ 40 < len) ∧ ¬ (unbind ∧ len = 0)) then some (base, space)
  else none

/-- Adds an entry, unless it stands already; none when all 64 of the core are in use. -/
def addBinding (l : List Binding) (b : Binding) : Option (List Binding) :=
  if l.contains b then some l else if l.length ≥ 64 then none else some (l ++ [b])

/-- Removes the entries UNBIND names. -/
def dropBindings (l : List Binding) (b : Binding) : List Binding :=
  l.filter fun e => !(e.blk == b.blk && e.oab == b.oab && e.obj == b.obj && (b.len == 0 || e == b))

/-- The effect of BIND and UNBIND. -/
def bindBody (i : MIns) (unbind : Bool) (s : State) (iss : Issue) (w : Warp) : Res :=
  if !w.electedGuard iss i.g then .ok s
  else
    let lane := iss.elected
    let space := i.space.toNat
    let oab := i.off.getLsbD 0
    let obj := (s.uni iss.wk w i.data).toNat
    let base := (s.uni iss.wk w i.base).toNat
    let len := (s.uni iss.wk w i.idx).toNat
    let perm := memFault 4 0 (maskOf [lane]) base 0 space
    match bindAlign obj base len oab unbind space with
    | some (a, sp) => memFault 5 0 (maskOf [lane]) a 0 sp s
    | none =>
      if !s.atHome iss.wk w || !(space == 0 || space == 1 || space == 5) then perm s
      else
        (s.objCheck iss.wk w lane oab.toNat obj 0 false).bind fun (s, _) =>
          let size := ((s.block w.blk).map (·.aSize)).getD 0
          if space = 1 ∧ base + len > size ∧ !unbind then perm s
          else
            let e : Binding := { blk := w.blk, oab, obj, space, base, len }
            let c := coreOfWk iss.wk
            if unbind then .ok (s.modCore c fun k => { k with binds := dropBindings k.binds e })
            else
              match addBinding (s.core c).binds e with
              | some l => .ok (s.modCore c fun k => { k with binds := l })
              | none => perm s

/-- BIND (R230, R231). -/
def execBind (i : MIns) (s : State) : Host.Outcome State Fault Refusal := runWord s (.bind i) (bindBody i false)
/-- UNBIND (R230, R231). -/
def execUnbind (i : MIns) (s : State) : Host.Outcome State Fault Refusal := runWord s (.unbind i) (bindBody i true)

/-! ### ACQ and REL (R139, R140, R232) -/

/-- The object address of ACQ and REL. -/
def State.objAddr (s : State) (wk : Nat) (w : Warp) (i : MIns) : Nat :=
  (s.uni wk w i.base + s.uni wk w i.idx).toNat

/-- Reads RSEQ at the object's part for a scope (R139, R140); a deterministic block reads its image. Dirty bytes of the object
in the cluster's slice are not written back first, as REL does: R140 names only the part (log entry 112). -/
def State.readRseq (s : State) (wk : Nat) (w : Warp) (space scope : Nat) (p : Piece) : State × List Byte :=
  let q := p.word 24
  if space = 1 then (s, ((s.block q.blk).map fun b => b.readA (s.isMember wk w) q.addr 8).getD [])
  else if s.isDet w.blk then s.imageRead w.blk false q.attr 8
  else if scope ≤ 3 then s.sliceRead (clusterOfWk wk) (s.partOf w) q.addr 8 0 q.attr
  else s.homeReadBytes (s.partOf w) q.attr 8

/-- The effect of ACQ. -/
def acqBody (i : MIns) (s : State) (iss : Issue) (w : Warp) : Res :=
  if !w.electedGuard iss i.g then .ok s
  else
    let space := i.space.toNat
    let scope := i.scope.toNat
    let obj := s.objAddr iss.wk w i
    (s.objCheck iss.wk w iss.elected space obj 0 (scope ≥ 4)).map fun (s, p) =>
      let (s, bs) := s.readRseq iss.wk w space scope p
      let s := s.acquire iss.wk (s.partOf w) scope (s.boundSet iss.wk w (space == 1) obj)
      s.setWarp iss.wk (w.setAll i.data (maskOf [iss.elected]) (leWord bs))

/-- ACQ (R140). -/
def execAcq (i : MIns) (s : State) : Host.Outcome State Fault Refusal := runWord s (.acq i) (acqBody i)

/-- Adds one to a little-endian number of `n` bytes. -/
def incBytes (n : Nat) (bs : List Byte) : List Byte := leBytes n (leNat bs + 1)

/-- The effect of REL: the sync point of a deterministic block, the release of the bound regions, then RSEQ + 1 as an atomic
at the object's part. -/
def relBody (i : MIns) (s : State) (iss : Issue) (w : Warp) : Res :=
  if !w.electedGuard iss i.g then .ok s
  else
    let space := i.space.toNat
    let scope := i.scope.toNat
    let obj := s.objAddr iss.wk w i
    if obj % 64 = 0 ∧ s.isMember iss.wk w then memFault 4 0 (maskOf [iss.elected]) obj 2 space s
    else
      (s.objCheck iss.wk w iss.elected space obj 2 (scope ≥ 4)).bind fun (s, p) =>
        (s.syncPoint w.blk w.uid).bind fun s =>
          (stillHere (s.release iss.wk scope (s.boundSet iss.wk w (space == 1) obj)) iss w).bind fun s =>
            match s.performAtomic iss.wk w space scope (p.word 24) (incBytes 8) with
            | (s, _, true) => .ok s
            | (s, _, false) => .error (.gone s)

/-- REL (R139). -/
def execRel (i : MIns) (s : State) : Host.Outcome State Fault Refusal := runWord s (.rel i) (relBody i)

/-! ### FENCE (R141, R233, R348) -/

/-- Is the warp issuing again a word that waited for the map unit? -/
def Warp.waitedMap (w : Warp) : Bool :=
  match w.pend with
  | some p => p.why == .mapFixup
  | none => false

/-- The lines of a cluster that map write-backs of a launch wrote. -/
def Launch.mapWrote (l : Launch) (cl : Nat) : KMap (BitVec 64) :=
  (l.wroteG.filter fun e => e.1 / 2 ^ 34 == cl).map fun e => (e.1 % 2 ^ 34, e.2)

/-- The release half of a fence at stack scope or wider: dirty mapped lines are written back first, and the fence waits
while their fix-up list is not empty; their writes count as the warp's own (R348). -/
def State.fenceMaps (s : State) (w : Warp) (scope : Nat) : Res :=
  if scope < 4 then .ok s
  else
    let s := if w.waitedMap then s else s.mapWriteBack w.blk
    match s.block w.blk with
    | some x => if x.mapFixup.isEmpty then .ok s else .error (.block .mapFixup s)
    | none => .ok s

/-- Releases at a scope everything the warp has written, the map unit's writes for it included. -/
def State.fenceRelease (s : State) (iss : Issue) (w : Warp) (scope : Nat) : Res :=
  let cl := clusterOfWk iss.wk
  let s := if scope ≥ 4 then s.releaseSlice cl ((s.launchOf w).mapWrote cl) .all else s
  stillHere (s.release iss.wk scope .all) iss w

/-- The effect of FENCE. -/
def fenceBody (i : MIns) (s : State) (iss : Issue) (w : Warp) : Res :=
  let scope := i.scope.toNat
  if !w.electedGuard iss i.g then .ok s
  else
    let rel := ordReleases i
    let s1 : Res := if rel then s.fenceMaps w scope else .ok s
    s1.bind fun s =>
      let s2 : Res := if scope ≥ 6 then s.syncPoint w.blk w.uid else .ok s
      s2.bind fun s =>
        let s3 : Res := if rel then s.fenceRelease iss w scope else .ok s
        s3.map fun s => s.acquireIf (ordAcquires i) iss.wk w scope

/-- FENCE (R141). -/
def execFence (i : MIns) (s : State) : Host.Outcome State Fault Refusal := runWord s (.fence i) (fenceBody i)

/-! ### WAITADDR (R144, R234 to R236) -/

/-- The comparison of a WAITADDR code on numbers of `n` bytes (R181, R234). -/
def waitHolds (c n x a : Nat) : Bool :=
  match c with
  | 0 => x == a | 1 => x != a | 2 => a ≤ x | 3 => x < a
  | 4 => intOf true (8 * n) a ≤ intOf true (8 * n) x | _ => intOf true (8 * n) x < intOf true (8 * n) a

/-- A poll of a word at its home, never through a slice copy and never of the warp's own held or speculative bytes; a
request beyond the slice, so counted (R350). -/
def State.pollRead (s : State) (wk : Nat) (w : Warp) (space : Nat) (p : Piece) : State × List Byte :=
  if space = 1 ∨ space = 4 then (s, ((s.block p.blk).map fun b => b.readA false p.addr p.n).getD [])
  else if s.isDet w.blk then s.imageRead w.blk false p.attr p.n
  else (s.countAccess (dieOfWk wk) (s.partOf w) p.addr p.attr).homeReadBytes (s.partOf w) p.attr p.n

/-- Has a poll of the word the warp waits at found its condition (R235, R290)? -/
def Warp.waitMet (w : Warp) : Bool := w.pend.any (·.met)

/-- One poll of WAITADDR: does the word at its home meet the condition? -/
def waitaddrPoll (i : MIns) (s : State) (iss : Issue) (w : Warp) : Except Stop (State × Bool) :=
  let size := sizeOf_ i.size
  let space := i.space.toNat
  let a := (s.uni iss.wk w i.data).toNat % 2 ^ (8 * size)
  (s.checkAccess iss.wk w
    { space, size, acc := 0, aligned := true, home := true, lanes := [(iss.elected, s.ea iss.wk w i true iss.elected)],
      place := fun _ => if space = 5 then some 0 else none }).map fun (s, ps) =>
    match ps with
    | p :: _ =>
      let (s, bs) := s.pollRead iss.wk w space { p with n := size }
      (s, waitHolds i.aop size (leNat bs) a)
    | [] => (s, true)

/-- The effect of WAITADDR: one poll; it completes, with its acquire, or the slot is Blocked until a poll has found the
condition. -/
def waitaddrBody (i : MIns) (s : State) (iss : Issue) (w : Warp) : Res :=
  let ends := fun (s : State) => s.acquireIf (ordAcquires i) iss.wk w i.scope.toNat
  if w.waitMet then .ok (ends s)
  else if !w.electedGuard iss i.g then .ok s
  else (waitaddrPoll i s iss w).bind fun (s, met) => if met then .ok (ends s) else .error (.block .waitaddr s)

/-- WAITADDR (R234). -/
def execWaitaddr (i : MIns) (s : State) : Host.Outcome State Fault Refusal := runWord s (.waitaddr i) (waitaddrBody i)

end Sys2Proof.Machine
end

