-- ==== Sys2Proof/Machine/Barriers.lean ====
section
/-! DEFINITION. Named barriers and the queue words (R237 to R246). -/

namespace Sys2Proof.Machine

open Sys2Proof

/-! ### Barriers (R237 to R240) -/

/-- CNT of a barrier immediate. -/
def barCnt (i : IIns) : Nat := bits i.imm.toNat 13 8

/-- The barrier a word names: its immediate, or bits [6:0] of srcA. -/
def State.barId (s : State) (wk : Nat) (w : Warp) (i : IIns) : Nat :=
  if i.imm.getLsbD 7 then (s.uni wk w i.a).toNat % 128 else i.imm.toNat % 128

/-- A barrier of a block; one not yet used is at phase 0. -/
def Block.bar (b : Block) (id : Nat) : Barrier := KMap.getD b.bars id {}

/-- Completes the phase of a barrier whose arrivals reach the expected count, `live` for CNT 0 (R239). -/
def Barrier.settle (b : Barrier) (live : Nat) : Barrier :=
  match b.cnt with
  | some c => if (if c = 0 then live else c) ≤ b.count && b.count != 0 then { phase := b.phase + 1 } else b
  | none => b

/-- Evaluates every CNT 0 phase of a block again, as at an exit (R239). -/
def State.settleBars (s : State) (b : Nat) : State :=
  let live := (s.ownLive b).length
  s.modBlock b fun x => { x with bars := x.bars.mapVals (Barrier.settle · live) }

/-- Does a barrier word fault PERM: CNT above 32, a number at or above B, a warp away from its block's core, CNT 0 in an
arriving child, or a CNT that differs from the phase's first (R237 to R239)? -/
def State.barPerm (s : State) (wk : Nat) (w : Warp) (i : IIns) (arrives : Bool) : Bool :=
  let id := s.barId wk w i
  let b := (s.block w.blk).getD {}
  32 < barCnt i || b.nbar ≤ id || !s.atHome wk w || (arrives && w.child && barCnt i == 0) ||
  (arrives && match (b.bar id).cnt with
    | some c => c != barCnt i
    | none => false)

/-- One arrival: the phase is recorded as the warp's last on the barrier, and may complete. -/
def State.arrive (s : State) (wk : Nat) (w : Warp) (id cnt : Nat) : State :=
  let b := ((s.block w.blk).getD {}).bar id
  let live := (s.ownLive w.blk).length
  let b' := ({ b with count := b.count + 1, cnt := some cnt } : Barrier).settle live
  (s.modBlock w.blk fun x => { x with bars := KMap.set x.bars id b' }).modWarp wk fun w =>
    { w with barSeen := KMap.set w.barSeen id b.phase }

/-- The phase that a warp already waits on, if it issues a barrier wait again. -/
def Warp.barWaits (w : Warp) : Option (Nat × Nat) :=
  match w.pend with
  | some p =>
    match p.why with
    | .barrier id phase => some (id, phase)
    | _ => none
  | none => none

/-- Waits until the barrier's phase number exceeds a phase. -/
def State.waitPhase (s : State) (blk id phase : Nat) : Res :=
  if phase < (((s.block blk).getD {}).bar id).phase then .ok s else .error (.block (.barrier id phase) s)

/-- The release at core scope and the arrival of BARARV and BARSYNC; PERM where the word may not arrive. -/
def arriveBody (i : IIns) (s : State) (iss : Issue) (w : Warp) : Res :=
  if s.barPerm iss.wk w i true then permFault [iss.elected] s
  else
    (stillHere (s.release iss.wk 2 .all) iss w).map fun s =>
      match s.warp iss.wk with
      | some w => s.arrive iss.wk w (s.barId iss.wk w i) (barCnt i)
      | none => s

/-- The effect of BARARV. -/
def bararvBody (i : IIns) (s : State) (iss : Issue) (w : Warp) : Res :=
  if !w.electedGuard iss i.g then .ok s else arriveBody i s iss w

/-- BARARV (R239). -/
def execBararv (i : IIns) (s : State) : Host.Outcome State Fault Refusal := runWord s (.bararv i) (bararvBody i)

/-- The effect of BARWT: it waits on the phase of the warp's last arrival, or on the current one. -/
def barwtBody (i : IIns) (s : State) (iss : Issue) (w : Warp) : Res :=
  match w.barWaits with
  | some (id, phase) => s.waitPhase w.blk id phase
  | none =>
    if !w.electedGuard iss i.g then .ok s
    else if s.barPerm iss.wk w i false then permFault [iss.elected] s
    else
      let id := s.barId iss.wk w i
      s.waitPhase w.blk id (KMap.getD w.barSeen id (((s.block w.blk).getD {}).bar id).phase)

/-- BARWT (R240). -/
def execBarwt (i : IIns) (s : State) : Host.Outcome State Fault Refusal := runWord s (.barwt i) (barwtBody i)

/-- The effect of BARSYNC: BARARV, then BARWT on the same barrier. -/
def barsyncBody (i : IIns) (s : State) (iss : Issue) (w : Warp) : Res :=
  match w.barWaits with
  | some (id, phase) => s.waitPhase w.blk id phase
  | none =>
    if !w.electedGuard iss i.g then .ok s
    else
      (arriveBody i s iss w).bind fun s =>
        match s.warp iss.wk with
        | some w =>
          let id := s.barId iss.wk w i
          s.waitPhase w.blk id (KMap.getD w.barSeen id 0)
        | none => .ok s

/-- BARSYNC (R240). -/
def execBarsync (i : IIns) (s : State) : Host.Outcome State Fault Refusal := runWord s (.barsync i) (barsyncBody i)

/-! ### Queue words (R241 to R246) -/

/-- The effect of QPUSH. -/
def qpushBody (i : VIns) (s : State) (iss : Issue) (w : Warp) : Res :=
  if !w.codesOk [(i.a, 1)] then illegal s
  else
    let lanes := lanesOf (w.partLanes iss i.g)
    if lanes.isEmpty then .ok s
    else
      (s.takeFifo iss w none (queueOf i.d) lanes).map fun (s, _) =>
        s.pushResults w.blk i.d (lanes.map fun l => s.opnd iss.wk w i.a l)

/-- QPUSH (R243). -/
def execQpush (i : VIns) (s : State) : Host.Outcome State Fault Refusal := runWord s (.qpush i) (qpushBody i)

/-- The elements of the warp's own part of q1, q3 or q5. -/
def Warp.ownQueue (w : Warp) (q : Nat) : List Word :=
  if q = 1 then w.q1 else if q = 3 then w.q3 else w.q5.map (·.1)

/-- Removes elements of the warp's own part. -/
def Warp.dropOwn (w : Warp) (q n : Nat) : Warp :=
  if q = 1 then { w with q1 := w.q1.drop n } else if q = 3 then { w with q3 := w.q3.drop n }
  else { w with q5 := w.q5.drop n }

/-- The ranges of global space that collective records keep (R148). -/
def recordRanges (l : List (Word × Nat × Nat × Nat × Nat)) : List (Nat × Nat × Nat) :=
  l.flatMap fun r => [(0, r.2.1, r.2.2.1), (0, r.2.2.2.1, r.2.2.2.2)]

/-- Writes elements to a v destination, lane after lane. -/
def Warp.putElems (w : Warp) (d : Opnd) (lanes : List Nat) (els : List Word) : Warp :=
  (lanes.zip els).foldl (fun w e =>
    match d with
    | .v r => w.setV r.toNat e.1 e.2
    | _ => w) w

/-- QPOP and QPEEK of the warp's own part of q1, q3 or q5; a pop of collective records acquires their ranges at fabric scope
(R148). -/
def ownPop (i : VIns) (q : Nat) (pops : Bool) (lanes : List Nat) (s : State) (iss : Issue) (w : Warp) : Res :=
  let n := lanes.length
  if !s.atHome iss.wk w then permFault lanes s
  else if (w.ownQueue q).length < n then .error (.block (.records q n) s)
  else
    let els := (w.ownQueue q).take n
    let part := s.partOf w
    let s := if pops && q == 5 then
        s.acquire iss.wk part 7 (s.byteSet (dieOfWk iss.wk) part (recordRanges (w.q5.take n)))
      else s
    let w := if pops then w.dropOwn q n else w
    .ok (s.setWarp iss.wk (w.putElems i.d lanes els))

/-- QPOP and QPEEK of a user FIFO or q7. -/
def fifoPop (i : VIns) (q : Nat) (pops : Bool) (lanes : List Nat) (s : State) (iss : Issue) (w : Warp) : Res :=
  (s.takeFifo iss w (some q) none lanes).map fun (t, els) =>
    (if pops then t else s).setWarp iss.wk (w.putElems i.d lanes els)

/-- The effect of QPOP and QPEEK. -/
def qpopBody (i : VIns) (pops : Bool) (s : State) (iss : Issue) (w : Warp) : Res :=
  if !w.codesOk [(i.d, 1)] then illegal s
  else
    let lanes := lanesOf (w.partLanes iss i.g)
    if lanes.isEmpty then .ok s
    else
      match queueOf i.a with
      | some q => if q < 7 then ownPop i q pops lanes s iss w else fifoPop i q pops lanes s iss w
      | none => .ok s

/-- QPOP (R243). -/
def execQpop (i : VIns) (s : State) : Host.Outcome State Fault Refusal := runWord s (.qpop i) (qpopBody i true)
/-- QPEEK (R243). -/
def execQpeek (i : VIns) (s : State) : Host.Outcome State Fault Refusal := runWord s (.qpeek i) (qpopBody i false)

/-- The count QCOUNT reads. -/
def State.queueCount (s : State) (wk : Nat) (w : Warp) (q : Nat) : Nat :=
  if q = 6 then (s.core (coreOfWk wk)).spawnQ.length
  else if q < 7 then (w.ownQueue q).length
  else (((s.block w.blk).getD {}).fifo q).length

/-- The effect of QCOUNT. -/
def qcountBody (i : VIns) (s : State) (iss : Issue) (w : Warp) : Res :=
  if !w.codesOk [(i.d, 1)] then illegal s
  else if w.partLanes iss i.g = 0 then .ok s
  else if !s.atHome iss.wk w then permFault (lanesOf (w.partLanes iss i.g)) s
  else
    match queueOf i.a with
    | some q =>
      .ok (s.setWarp iss.wk (w.setAll i.d (w.partLanes iss i.g) (BitVec.ofNat 64 (s.queueCount iss.wk w q))))
    | none => .ok s

/-- QCOUNT (R245). -/
def execQcount (i : VIns) (s : State) : Host.Outcome State Fault Refusal := runWord s (.qcount i) (qcountBody i)

end Sys2Proof.Machine
end

