-- ==== Sys2Proof/Machine/IntVec.lean ====
section
/-! DEFINITION. Integer, logic, address and move words (R178, R194 to R197). -/

namespace Sys2Proof.Machine

open Sys2Proof

/-- An exact integer result at a type: modulo 2^w, or clamped under saturation (R194). -/
def intResult (t : VTy) (sat : Bool) (x : Int) : Nat := wrapInt t.width (if sat then clampInt t.signed t.width x else x)

/-- A sub-element as an integer of the type. -/
def tyInt (t : VTy) (x : Nat) : Int := intOf t.signed t.width x

/-- All ones of width w when a condition holds, else 0. -/
def onesIf (w : Nat) (b : Bool) : Nat := if b then 2 ^ w - 1 else 0

/-- The comparison of a condition code, given less-than and equality (R179, Table 16). -/
def condHolds (c : Nat) (lt eq : Bool) : Bool :=
  match c with
  | 0 => eq | 1 => !eq | 2 => lt | 3 => lt || eq | 4 => !lt && !eq | _ => !lt

/-- A word of two integer operands with an exact result. -/
def int2 (i : VIns) (f : Int → Int → Int) : VSpec :=
  pureSpec i fun x => map2 i.sh.width (fun a b => intResult i.ty i.sat (f (tyInt i.ty a) (tyInt i.ty b))) x.a x.b

/-- A word of three integer operands with an exact result. -/
def int3 (i : VIns) (f : Int → Int → Int → Int) : VSpec :=
  pureSpec i fun x =>
    map3 i.sh.width (fun a b c => intResult i.ty i.sat (f (tyInt i.ty a) (tyInt i.ty b) (tyInt i.ty c))) x.a x.b x.c

/-- A word of two operands taken as bit patterns. -/
def bit2 (i : VIns) (f : Nat → Nat → Nat) : VSpec := pureSpec i fun x => map2 i.sh.width f x.a x.b

/-- A word of one operand taken as a bit pattern. -/
def bit1 (i : VIns) (f : Nat → Nat) : VSpec := pureSpec i fun x => map1 i.sh.width f x.a

/-- IADD (R194). -/
def execIadd (i : VIns) (s : State) : Host.Outcome State Fault Refusal :=
  runRaw s (.iadd i) (vBody i (int2 i fun a b => a + b))

/-- ISUB (R194). -/
def execIsub (i : VIns) (s : State) : Host.Outcome State Fault Refusal :=
  runRaw s (.isub i) (vBody i (int2 i fun a b => a - b))

/-- IMUL (R194). -/
def execImul (i : VIns) (s : State) : Host.Outcome State Fault Refusal :=
  runRaw s (.imul i) (vBody i (int2 i fun a b => a * b))

/-- IMULH: bits [2w−1:w] of the exact product (R194). -/
def execImulh (i : VIns) (s : State) : Host.Outcome State Fault Refusal :=
  runRaw s (.imulh i) (vBody i (int2 i fun a b => (a * b) / 2 ^ i.ty.width))

/-- IMAD (R194). -/
def execImad (i : VIns) (s : State) : Host.Outcome State Fault Refusal :=
  runRaw s (.imad i) (vBody i (int3 i fun a b c => a * b + c))

/-- IMIN (R194). -/
def execImin (i : VIns) (s : State) : Host.Outcome State Fault Refusal :=
  runRaw s (.imin i) (vBody i (int2 i fun a b => min a b))

/-- IMAX (R194). -/
def execImax (i : VIns) (s : State) : Host.Outcome State Fault Refusal :=
  runRaw s (.imax i) (vBody i (int2 i fun a b => max a b))

/-- IABS (R194). -/
def execIabs (i : VIns) (s : State) : Host.Outcome State Fault Refusal :=
  runRaw s (.iabs i) (vBody i (pureSpec i fun x =>
    map1 i.sh.width (fun a => intResult i.ty i.sat (tyInt i.ty a).natAbs) x.a))

/-- ISAD (R194). -/
def execIsad (i : VIns) (s : State) : Host.Outcome State Fault Refusal :=
  runRaw s (.isad i) (vBody i (int3 i fun a b c => (a - b).natAbs + c))

/-- ICMP (R194). -/
def execIcmp (i : VIns) (s : State) : Host.Outcome State Fault Refusal :=
  runRaw s (.icmp i) (vBody i (pureSpec i fun x => map2 i.sh.width (fun a b =>
    onesIf i.sh.width (condHolds i.sub.toNat (tyInt i.ty a < tyInt i.ty b) (a == b))) x.a x.b))

/-- Σ of the four byte products (R194). -/
def dotBytes (signed : Bool) (a b : Nat) : Int :=
  ((List.range 4).map fun k => intOf signed 8 (a / 2 ^ (8 * k)) * intOf signed 8 (b / 2 ^ (8 * k))).sum

/-- DOT4I (R194). -/
def execDot4i (i : VIns) (s : State) : Host.Outcome State Fault Refusal :=
  runRaw s (.dot4i i) (vBody i (pureSpec i fun x => map3 i.sh.width (fun a b c =>
    intResult i.ty i.sat (tyInt i.ty c + dotBytes i.ty.signed a b)) x.a x.b x.c))

/-- AND (R194). -/
def execIand (i : VIns) (s : State) : Host.Outcome State Fault Refusal :=
  runRaw s (.iand i) (vBody i (bit2 i fun a b => a &&& b))

/-- OR (R194). -/
def execIor (i : VIns) (s : State) : Host.Outcome State Fault Refusal :=
  runRaw s (.ior i) (vBody i (bit2 i fun a b => a ||| b))

/-- XOR (R194). -/
def execIxor (i : VIns) (s : State) : Host.Outcome State Fault Refusal :=
  runRaw s (.ixor i) (vBody i (bit2 i fun a b => a ^^^ b))

/-- ANDN: a AND NOT b (R194). -/
def execIandn (i : VIns) (s : State) : Host.Outcome State Fault Refusal :=
  runRaw s (.iandn i) (vBody i (bit2 i fun a b => a &&& (2 ^ i.sh.width - 1 - b)))

/-- NOT (R194). -/
def execInot (i : VIns) (s : State) : Host.Outcome State Fault Refusal :=
  runRaw s (.inot i) (vBody i (bit1 i fun a => 2 ^ i.sh.width - 1 - a))

/-- SHL (R194). -/
def execShl (i : VIns) (s : State) : Host.Outcome State Fault Refusal :=
  runRaw s (.shl i) (vBody i (bit2 i fun a b => a * 2 ^ (b % i.sh.width)))

/-- SHR (R194). -/
def execShr (i : VIns) (s : State) : Host.Outcome State Fault Refusal :=
  runRaw s (.shr i) (vBody i (bit2 i fun a b => a / 2 ^ (b % i.sh.width)))

/-- SAR (R194). -/
def execSar (i : VIns) (s : State) : Host.Outcome State Fault Refusal :=
  runRaw s (.sar i) (vBody i (bit2 i fun a b =>
    wrapInt i.sh.width (intOf true i.sh.width a / 2 ^ (b % i.sh.width))))

/-- A w-bit value rotated left by n < w. -/
def rotl (w a n : Nat) : Nat := a * 2 ^ n % 2 ^ w + a / 2 ^ (w - n)

/-- ROT (R194). -/
def execRot (i : VIns) (s : State) : Host.Outcome State Fault Refusal :=
  runRaw s (.rot i) (vBody i (bit2 i fun a b => rotl i.sh.width a (b % i.sh.width)))

/-- The length of a bit field at `pos` cut to the width (R195). -/
def fieldLen (w pos len : Nat) : Nat := if pos ≥ w then 0 else min len (w - pos)

/-- BFE of one sub-element (R195). -/
def bfeElem (signed : Bool) (w a b : Nat) : Nat :=
  let pos := b % 256
  let len := fieldLen w pos (b / 256 % 256)
  if len = 0 then 0 else wrapInt w (intOf signed len (a / 2 ^ pos))

/-- BFI of one sub-element (R195). -/
def bfiElem (w a b c : Nat) : Nat :=
  let pos := c % 256
  let len := fieldLen w pos (c / 256 % 256)
  if len = 0 then b
  else b % 2 ^ pos + a % 2 ^ len * 2 ^ pos + b / 2 ^ (pos + len) * 2 ^ (pos + len)

/-- BFE (R194, R195). -/
def execBfe (i : VIns) (s : State) : Host.Outcome State Fault Refusal :=
  runRaw s (.bfe i) (vBody i (bit2 i fun a b => bfeElem i.ty.signed i.sh.width a b))

/-- BFI (R194, R195). -/
def execBfi (i : VIns) (s : State) : Host.Outcome State Fault Refusal :=
  runRaw s (.bfi i) (vBody i (pureSpec i fun x => map3 i.sh.width (bfiElem i.sh.width) x.a x.b x.c))

/-- The number of set bits among the low `w`. -/
def popcount (w a : Nat) : Nat := ((List.range w).filter fun k => a.testBit k).length

/-- Leading zeros of a w-bit value. -/
def leadingZeros (w a : Nat) : Nat := if a % 2 ^ w = 0 then w else w - 1 - Nat.log2 (a % 2 ^ w)

/-- Trailing zeros of a w-bit value. -/
def trailingZeros (w a : Nat) : Nat := ((List.range w).find? fun k => a.testBit k).getD w

/-- Bit i moved to bit w − 1 − i. -/
def reverseBits (w a : Nat) : Nat := ((List.range w).map fun k => if a.testBit k then 2 ^ (w - 1 - k) else 0).sum

/-- POPC (R194). -/
def execPopc (i : VIns) (s : State) : Host.Outcome State Fault Refusal :=
  runRaw s (.popc i) (vBody i (bit1 i (popcount i.sh.width)))

/-- CLZ (R194). -/
def execClz (i : VIns) (s : State) : Host.Outcome State Fault Refusal :=
  runRaw s (.clz i) (vBody i (bit1 i (leadingZeros i.sh.width)))

/-- CTZ (R194). -/
def execCtz (i : VIns) (s : State) : Host.Outcome State Fault Refusal :=
  runRaw s (.ctz i) (vBody i (bit1 i (trailingZeros i.sh.width)))

/-- BREV (R194). -/
def execBrev (i : VIns) (s : State) : Host.Outcome State Fault Refusal :=
  runRaw s (.brev i) (vBody i (bit1 i (reverseBits i.sh.width)))

/-- Byte `n` of the 16-byte string of PERMB: `a` supplies bytes 0 to 7, `b` bytes 8 to 15 (R197). -/
def permbByte (a b : Word) (n : Nat) : Nat := if n < 8 then elem 8 n a else elem 8 (n - 8) b

/-- PERMB (R197). -/
def execPermb (i : VIns) (s : State) : Host.Outcome State Fault Refusal :=
  runRaw s (.permb i) (vBody i (pureSpec i fun x =>
    ofElems 8 ((List.range 8).map fun k => permbByte x.a x.b (elem 4 k x.c))))

/-- LEA (R196). -/
def execLea (i : VIns) (s : State) : Host.Outcome State Fault Refusal :=
  runRaw s (.lea i) (vBody i (pureSpec i fun x =>
    map3 i.sh.width (fun a b c => a + b * 2 ^ (c % i.sh.width)) x.a x.b x.c))

/-- MOV (R196). -/
def execMov (i : VIns) (s : State) : Host.Outcome State Fault Refusal :=
  runRaw s (.mov i) (vBody i (pureSpec i fun x => x.a))

/-- The effect of MOV.u: once on the scalar unit where its source is uniform (R187); else the common value of the
participating lanes, or NONUNIFORM; popped elements stay consumed (R196). -/
def movUBody (i : VIns) (s : State) (iss : Issue) (w : Warp) : Res :=
  if !w.codesOk (needs i) then illegal s
  else if vScalar i then scalarBody i (pureSpec i (·.a)) s iss w
  else
    let part := lanesOf (w.partLanes iss i.g)
    (s.takeFifo iss w (popQueue i) none part).bind fun (s, els) =>
      match part.mapIdx fun k l => s.src iss.wk w .u64 i.a l (els.getD k 0), i.d with
      | [], _ => .ok (s.finish iss)
      | v :: r, .s d => if r.all (· == v) then .ok ((s.setWarp iss.wk (w.setS d.toNat v)).finish iss) else faultOf 2 s
      | _, _ => illegal s

/-- MOV.u (R196). -/
def execMovU (i : VIns) (s : State) : Host.Outcome State Fault Refusal := runRaw s (.movU i) (movUBody i)

/-- SEL in the vector pipe: the predicate bit of each lane selects a source (R188, R196). -/
def selBody (i : VIns) (s : State) (iss : Issue) (w : Warp) : Res :=
  if !w.codesOk (needs i) then illegal s
  else
    let sp : VSpec := { need := [], ty := .u64, fn := fun _ x => (if x.c != 0 then x.a else x.b, 0, 0) }
    vectorBody i sp s iss w

/-- SEL (R196). -/
def execSel (i : VIns) (s : State) : Host.Outcome State Fault Refusal := runRaw s (.sel i) (selBody i)

/-! ### Immediate forms (R178, Table 15) -/

/-- An I-format word: its effect on srcA, the destination's old value and imm32; with a uniform destination and source it
executes once (R178, R187). -/
def immBody (i : IIns) (f : Word → Word → BitVec 32 → Word) (s : State) (iss : Issue) (w : Warp) : Res :=
  if !w.codesOk [(i.d, 1), (i.a, 1)] then illegal s
  else
    match i.d with
    | .s r =>
      let w := { w with srep := w.repLeft iss }
      let w := if w.electedGuard iss i.g then
          w.setS r.toNat (f (s.opnd iss.wk w i.a iss.elected) (w.s r.toNat) i.imm)
        else w
      .ok ((s.setWarp iss.wk w).finish iss)
    | d =>
      let old := fun l => match d with
        | .v r => w.v r.toNat l
        | _ => 0
      let w := w.setDst d (w.partLanes iss i.g) fun l => f (s.opnd iss.wk w i.a l) (old l) i.imm
      .ok ((s.setWarp iss.wk w).finish iss)

/-- MOVI (R178). -/
def execMovi (i : IIns) (s : State) : Host.Outcome State Fault Refusal :=
  runRaw s (.movi i) (immBody i fun _ _ m => m.signExtend 64)

/-- IADD, immediate form (R178). -/
def execIaddImm (i : IIns) (s : State) : Host.Outcome State Fault Refusal :=
  runRaw s (.iaddImm i) (immBody i fun a _ m => a + m.signExtend 64)

/-- IMUL, immediate form (R178). -/
def execImulImm (i : IIns) (s : State) : Host.Outcome State Fault Refusal :=
  runRaw s (.imulImm i) (immBody i fun a _ m => a * m.signExtend 64)

/-- AND, immediate form (R178). -/
def execAndImm (i : IIns) (s : State) : Host.Outcome State Fault Refusal :=
  runRaw s (.andImm i) (immBody i fun a _ m => a &&& m.signExtend 64)

/-- OR, immediate form (R178). -/
def execOrImm (i : IIns) (s : State) : Host.Outcome State Fault Refusal :=
  runRaw s (.orImm i) (immBody i fun a _ m => a ||| m.signExtend 64)

/-- XOR, immediate form (R178). -/
def execXorImm (i : IIns) (s : State) : Host.Outcome State Fault Refusal :=
  runRaw s (.xorImm i) (immBody i fun a _ m => a ^^^ m.signExtend 64)

/-- MOVI.hi: the upper half is replaced, the lower half stays (R178). -/
def execMoviHi (i : IIns) (s : State) : Host.Outcome State Fault Refusal :=
  runRaw s (.moviHi i) (immBody i fun _ old m => (m.zeroExtend 64) <<< 32 ||| (old &&& 0xFFFFFFFF))

/-- MOVI.x2: both halves (R178). -/
def execMoviX2 (i : IIns) (s : State) : Host.Outcome State Fault Refusal :=
  runRaw s (.moviX2 i) (immBody i fun _ _ m => (m.zeroExtend 64) <<< 32 ||| m.zeroExtend 64)

end Sys2Proof.Machine
end

