-- ==== Sys2Proof/Machine/Transcend.lean ====
section
/-! DEFINITION. RCP to SIGM: the exact function value rounded once to nearest even (R101). Roots and reciprocals are
computed exactly. The others are computed to some 200 bits beyond the result in fixed point with a bit that marks the
value as inexact; log entry 12 says why that rounds them right. -/

namespace Sys2Proof.Machine

open Sys2Proof

/-- Bits of the fixed-point fraction. -/
def fxBits : Nat := 640

/-- 1 in fixed point. -/
def fxOne : Nat := 2 ^ 640

/-- π in fixed point. -/
def fxPi : Nat :=
  0x3243f6a8885a308d313198a2e03707344a4093822299f31d0082efa98ec4e6c89452821e638d01377be5466cf34e90c6cc0ac29b7c97c50dd3f84d5b5b54709179216d5d98979fb1bd1310ba698dfb5ac

/-- ln 2 in fixed point. -/
def fxLn2 : Nat :=
  0xb17217f7d1cf79abc9e3b39803f2f6af40f343267298b62d8a0d175b8baafa2be7b876206debac98559552fb4afa1b10ed2eae35c138214427573b291169b8253e96ca16224ae8c51acbda11317c387e

/-- Product of two fixed-point numbers. -/
def fxMul (a b : Nat) : Nat := a * b / fxOne

/-- Integer square root, one bit at a time from bit `k` down. -/
def isqrtFrom (n k r : Nat) : Nat :=
  match k with
  | 0 => if (r + 1) * (r + 1) ≤ n then r + 1 else r
  | j + 1 => isqrtFrom n j (if (r + 2 ^ (j + 1)) * (r + 2 ^ (j + 1)) ≤ n then r + 2 ^ (j + 1) else r)

/-- Integer square root. -/
def isqrt (n : Nat) : Nat := isqrtFrom n (Nat.log2 n / 2 + 1) 0

/-- Sum of r^i / i! from term `t` of index `i` on, in fixed point. -/
def expSeries (fuel r i t acc : Nat) : Nat :=
  match fuel with
  | 0 => acc
  | f + 1 =>
    let t' := fxMul t r / (i + 1)
    expSeries f r (i + 1) t' (acc + t')

/-- e^r for 0 ≤ r < 1, in fixed point. -/
def fxExp (r : Nat) : Nat := expSeries 128 r 0 fxOne fxOne

/-- Alternating series of sine (from r) or cosine (from 1): terms with step r². -/
def trigSeries (fuel r2 i t : Nat) (plus : Bool) (acc : Int) : Int :=
  match fuel with
  | 0 => acc
  | f + 1 =>
    let t' := fxMul t r2 / ((i + 1) * (i + 2))
    trigSeries f r2 (i + 2) t' (!plus) (if plus then acc + t' else acc - t')

/-- sin r for 0 ≤ r ≤ π/2. -/
def fxSin (r : Nat) : Int := trigSeries 72 (fxMul r r) 1 r false r

/-- cos r for 0 ≤ r ≤ π/2. -/
def fxCos (r : Nat) : Int := trigSeries 72 (fxMul r r) 0 fxOne false fxOne

/-- 2 × atanh z, z a fixed-point number below 1/3. -/
def atanhSeries (fuel z2 i t acc : Nat) : Nat :=
  match fuel with
  | 0 => acc
  | f + 1 =>
    let t' := fxMul t z2
    atanhSeries f z2 (i + 2) t' (acc + t' / (i + 2))

/-- ln of a fixed-point number in [1, 2). -/
def fxLn (x : Nat) : Nat :=
  let z := (x - fxOne) * fxOne / (x + fxOne)
  2 * atanhSeries 224 (fxMul z z) 1 z z

/-- An inexact value in fixed point as an exact number whose last bit marks that more bits follow. -/
def inexactNum (neg : Bool) (m : Nat) (e : Int) : Num := .fin neg (2 * m + 1) (e - 1)

/-- A value just below x in magnitude. -/
def justBelow (neg : Bool) (m : Nat) (e : Int) : Num := .fin neg (m * 2 ^ 200 - 1) (e - 200)

/-- The quotient of 1 by m × 2^e, exact or marked. -/
def recipNum (neg : Bool) (m : Nat) (e : Int) : Num :=
  let k := Nat.log2 m + 160
  let q := 2 ^ k / m
  if q * m = 2 ^ k then .fin neg q (-(k : Int) - e) else inexactNum neg q (-(k : Int) - e)

/-- √(m × 2^e), exact or marked. -/
def sqrtNum (m : Nat) (e : Int) : Num :=
  let odd := e % 2 = 1
  let m' := if odd then 2 * m else m
  let e' := if odd then e - 1 else e
  let n := m' * 2 ^ 320
  let s := isqrt n
  if s * s = n then .fin false s (e' / 2 - 160) else inexactNum false s (e' / 2 - 160)

/-- 1 ÷ √(m × 2^e), exact or marked. -/
def rsqrtNum (m : Nat) (e : Int) : Num :=
  let odd := e % 2 = 1
  let m' := if odd then 2 * m else m
  let e' := if odd then e - 1 else e
  let k := (Nat.log2 m' + 330) / 2 * 2
  let n := 2 ^ k / m'
  let s := isqrt n
  if s * s * m' = 2 ^ k then .fin false s (-(e' / 2) - k / 2) else inexactNum false s (-(e' / 2) - k / 2)

/-- A finite value in fixed point, truncated: |m × 2^e| × 2^640. -/
def fxOf (m : Nat) (e : Int) : Nat := (quantise m e (-640)).1

/-- e^y for a fixed-point y, as a number: y = n ln 2 + r. -/
def expNum (neg : Bool) (y : Nat) : Num :=
  let n := y / fxLn2
  let r := y % fxLn2
  if neg then
    -- e^(−y) = 2^(−n−1) × e^(ln 2 − r)
    inexactNum false (fxExp (fxLn2 - r)) (-(n : Int) - 1 - 640)
  else inexactNum false (fxExp r) ((n : Int) - 640)

/-- 2^x. -/
def exp2Num (neg : Bool) (m : Nat) (e : Int) : Num :=
  if m = 0 then .fin false 1 0
  else if (Nat.log2 m : Int) + e ≥ 12 then .fin false 1 (if neg then -4096 else 4096)
  else if (Nat.log2 m : Int) + e < -150 then
    (if neg then justBelow false 1 0 else .fin false (2 ^ 200 + 1) (-200))
  else
    let y := fxOf m e
    let n := y / fxOne
    let r := y % fxOne
    if r = 0 then .fin false 1 (if neg then -(n : Int) else n)
    else if neg then inexactNum false (fxExp (fxMul (fxOne - r) fxLn2)) (-(n : Int) - 1 - 640)
    else inexactNum false (fxExp (fxMul r fxLn2)) ((n : Int) - 640)

/-- log2 of a positive value. -/
def log2Num (m : Nat) (e : Int) : Num :=
  let lg := Nat.log2 m
  let k : Int := (lg : Int) + e
  if m = 2 ^ lg then numOfInt k
  else
    let x := m * fxOne / 2 ^ lg
    let f : Int := (fxLn x * fxOne / fxLn2 : Nat)
    let v : Int := k * fxOne + f
    inexactNum (v < 0) v.natAbs (-640)

/-- sin or cos of a value: quadrant and remainder in [0, π/2). Neither is ±1 at a finite value that is not 0. -/
def trigNum (isCos neg : Bool) (m : Nat) (e : Int) : Num :=
  if (Nat.log2 m : Int) + e < -100 then
    (if isCos then justBelow false 1 0 else justBelow neg m e)
  else
    let y := fxOf m e
    let half := fxPi / 2
    let q := y / half
    let r := y % half
    let v : Int :=
      match (if isCos then q + 1 else q) % 4 with
      | 0 => fxSin r
      | 1 => fxCos r
      | 2 => -fxSin r
      | _ => -fxCos r
    let v := if neg && !isCos then -v else v
    inexactNum (v < 0) (min v.natAbs (fxOne - 1)) (-640)

/-- tanh of a value that is not zero. -/
def tanhNum (neg : Bool) (m : Nat) (e : Int) : Num :=
  let lg : Int := (Nat.log2 m : Int) + e
  if lg < -100 then justBelow neg m e
  else if lg ≥ 7 then justBelow neg 1 0
  else
    match expNum false (2 * fxOf m e) with
    | .fin _ a ea =>
      let x := (quantise a ea (-640)).1
      inexactNum neg ((x - fxOne) * fxOne / (x + fxOne)) (-640)
    | n => n

/-- 1 ÷ (1 + e^−x). -/
def sigmNum (neg : Bool) (m : Nat) (e : Int) : Num :=
  if m = 0 then .fin false 1 (-1)
  else
    let lg : Int := (Nat.log2 m : Int) + e
    if lg < -100 then (if neg then justBelow false 1 (-1) else .fin false (2 ^ 200 + 1) (-201))
    else if lg ≥ 8 then (if neg then .fin false 1 (-4096) else justBelow false 1 0)
    else
      -- e^−|x| = E: the value is 1 ÷ (1 + E) for x > 0 and E ÷ (1 + E) for x < 0
      match expNum true (fxOf m e) with
      | .fin _ a ea =>
        let x := (quantise a ea (-1280)).1
        let one := 2 ^ 1280
        inexactNum false ((if neg then x else one) * 2 ^ 640 / (one + x)) (-640)
      | n => n

/-- Delivers a transcendental result, to nearest even. -/
def deliverT (f : Fmt) (x : Num) : Nat × Flags := f.round .rne 0 false x

/-- Common part of R101: a NaN gives the canonical NaN, with IV when signalling. -/
def transcend (f : Fmt) (a : Nat) (onInf : Bool → Nat × Flags) (onFin : Bool → Nat → Int → Nat × Flags) : Nat × Flags :=
  match f.decode a with
  | .nan k => (f.nanCode, if k == .sig then .invalid else {})
  | .inf neg => onInf neg
  | .fin neg m e => onFin neg m e

/-- An infinity's code with DZ. -/
def dzInf (f : Fmt) (neg : Bool) : Nat × Flags := (f.withSign neg (f.maxCode + 1), { dz := true })

/-- An infinity's code. -/
def infCode (f : Fmt) (neg : Bool) : Nat := f.withSign neg (f.maxCode + 1)

/-- RCP. -/
def fRcp (f : Fmt) (a : Nat) : Nat × Flags :=
  transcend f a (fun neg => (f.withSign neg 0, {}))
    (fun neg m e => if m = 0 then dzInf f neg else deliverT f (recipNum neg m e))

/-- RSQ. -/
def fRsq (f : Fmt) (a : Nat) : Nat × Flags :=
  transcend f a (fun neg => if neg then (f.nanCode, .invalid) else (0, {}))
    (fun neg m e => if m = 0 then dzInf f neg else if neg then (f.nanCode, .invalid) else deliverT f (rsqrtNum m e))

/-- SQRT. -/
def fSqrt (f : Fmt) (a : Nat) : Nat × Flags :=
  transcend f a (fun neg => if neg then (f.nanCode, .invalid) else (infCode f false, {}))
    (fun neg m e => if m = 0 then (f.withSign neg 0, {}) else if neg then (f.nanCode, .invalid)
      else deliverT f (sqrtNum m e))

/-- EXP2. -/
def fExp2 (f : Fmt) (a : Nat) : Nat × Flags :=
  transcend f a (fun neg => (if neg then 0 else infCode f false, {})) (fun neg m e => deliverT f (exp2Num neg m e))

/-- LOG2. -/
def fLog2 (f : Fmt) (a : Nat) : Nat × Flags :=
  transcend f a (fun neg => if neg then (f.nanCode, .invalid) else (infCode f false, {}))
    (fun neg m e => if m = 0 then dzInf f true else if neg then (f.nanCode, .invalid) else deliverT f (log2Num m e))

/-- SIN. -/
def fSin (f : Fmt) (a : Nat) : Nat × Flags :=
  transcend f a (fun _ => (f.nanCode, .invalid))
    (fun neg m e => if m = 0 then (f.withSign neg 0, {}) else deliverT f (trigNum false neg m e))

/-- COS. -/
def fCos (f : Fmt) (a : Nat) : Nat × Flags :=
  transcend f a (fun _ => (f.nanCode, .invalid))
    (fun neg m e => if m = 0 then deliverT f (.fin false 1 0) else deliverT f (trigNum true neg m e))

/-- TANH. -/
def fTanh (f : Fmt) (a : Nat) : Nat × Flags :=
  transcend f a (fun neg => deliverT f (.fin neg 1 0))
    (fun neg m e => if m = 0 then (f.withSign neg 0, {}) else deliverT f (tanhNum neg m e))

/-- SIGM. -/
def fSigm (f : Fmt) (a : Nat) : Nat × Flags :=
  transcend f a (fun neg => if neg then (0, {}) else deliverT f (.fin false 1 0))
    (fun neg m e => deliverT f (sigmNum neg m e))

end Sys2Proof.Machine
end

