-- ==== Sys2Proof/Machine/FloatVec.lean ====
section
/-! DEFINITION. Float and transcendental words, and the second visit of an FP64 word (R22, R100 to R102, R198 to R200,
R206). -/

namespace Sys2Proof.Machine

open Sys2Proof

/-- Computes every sub-element of a word: results, flags and draws, where the mode is stochastic one draw for each
sub-element in ascending order (R95, R192). -/
def elemsOf (w : Nat) (mode : Rnd) (u : Nat → Nat) (f : Nat → Nat → Nat × Flags) : Word × Nat × Nat :=
  let rs := (List.range (64 / w)).map fun k => f k (if mode == .sr then u k else 0)
  (ofElems w (rs.map (·.1)), rs.foldl (fun m r => orBits m r.2.bits) 0, if mode == .sr then 64 / w else 0)

/-- The format of a word's type. -/
def fmtI (i : VIns) : Fmt := fmtOf i.ty

/-- The rounding mode of a word: a tapered destination always rounds to nearest even (R90). -/
def modeI (w : Warp) (i : VIns) : Rnd := if i.ty.tapered then .rne else w.mode i.rnd

/-- A rounded float word; `two` says that an F64 one takes two visits (R22). -/
def fltSpec (i : VIns) (w : Warp) (two : Bool) (f : Rnd → Nat → Nat → VArgs → Nat × Flags) : VSpec :=
  { need := needs i, ty := i.ty, two := two && i.ty == .f64,
    fn := fun u x => elemsOf i.sh.width (modeI w i) u fun k d => f (modeI w i) k d x }

/-- The body of a rounded float word. -/
def fltBody (i : VIns) (two : Bool) (f : Rnd → Nat → Nat → VArgs → Nat × Flags) (s : State) (iss : Issue) (w : Warp) :
    Res :=
  vBody i (fltSpec i w two f) s iss w

/-- FADD (R198). -/
def execFadd (i : VIns) (s : State) : Host.Outcome State Fault Refusal :=
  runRaw s (.fadd i) (fltBody i true fun m k u x =>
    fAdd (fmtI i) m u i.sat (elem i.sh.width k x.a) (elem i.sh.width k x.b))

/-- FMUL (R198). -/
def execFmul (i : VIns) (s : State) : Host.Outcome State Fault Refusal :=
  runRaw s (.fmul i) (fltBody i true fun m k u x =>
    fMul (fmtI i) m u i.sat (elem i.sh.width k x.a) (elem i.sh.width k x.b))

/-- FFMA (R198). -/
def execFfma (i : VIns) (s : State) : Host.Outcome State Fault Refusal :=
  runRaw s (.ffma i) (fltBody i true fun m k u x =>
    fFma (fmtI i) m u i.sat (elem i.sh.width k x.a) (elem i.sh.width k x.b) (elem i.sh.width k x.c))

/-- FSCALE: n is the sub-element of b as a w-bit two's complement integer (R198). -/
def execFscale (i : VIns) (s : State) : Host.Outcome State Fault Refusal :=
  runRaw s (.fscale i) (fltBody i true fun m k u x =>
    fScale (fmtI i) m u i.sat (elem i.sh.width k x.a) (intOf true i.sh.width (elem i.sh.width k x.b)))

/-- FDOT2: A and B are register pairs (R199). -/
def fdot2Body (i : VIns) (s : State) (iss : Issue) (w : Warp) : Res :=
  let e := fun k x => elem i.sh.width k x
  let sp := fltSpec i w true fun m k u x => fDot (fmtI i) m u i.sat (e k x.a) (e k x.b) (e k x.a1) (e k x.b1) (e k x.c)
  vBody i { sp with need := [(i.d, 1), (i.a, 2), (i.b, 2), (i.c, 1)], pairs := true } s iss w

/-- FDOT2 (R198, R199). -/
def execFdot2 (i : VIns) (s : State) : Host.Outcome State Fault Refusal := runRaw s (.fdot2 i) (fdot2Body i)

/-- FRND (R198). -/
def execFrnd (i : VIns) (s : State) : Host.Outcome State Fault Refusal :=
  runRaw s (.frnd i) (fltBody i false fun m k u x => fRndInt (fmtI i) m u (elem i.sh.width k x.a))

/-- The lesser (or greater) of two codes under totalOrder, the encoding unchanged; bits above a T6 are zero (R87, R102). -/
def Fmt.pick (f : Fmt) (greater : Bool) (a b : Nat) : Nat :=
  let second := if greater then f.key a < f.key b else f.key b < f.key a
  (if second then b else a) % 2 ^ f.width

/-- FMIN (R198, R102). -/
def execFmin (i : VIns) (s : State) : Host.Outcome State Fault Refusal :=
  runRaw s (.fmin i) (vBody i (bit2 i ((fmtI i).pick false)))

/-- FMAX (R198, R102). -/
def execFmax (i : VIns) (s : State) : Host.Outcome State Fault Refusal :=
  runRaw s (.fmax i) (vBody i (bit2 i ((fmtI i).pick true)))

/-- FABS (R198). -/
def execFabs (i : VIns) (s : State) : Host.Outcome State Fault Refusal :=
  runRaw s (.fabs i) (vBody i (bit1 i (fmtI i).absCode))

/-- FNEG (R198). -/
def execFneg (i : VIns) (s : State) : Host.Outcome State Fault Refusal :=
  runRaw s (.fneg i) (vBody i (bit1 i (fmtI i).negCode))

/-- Less-than and equality of two sub-elements at a type: signed or unsigned order, or totalOrder with identity of
encoding (R102, R179). -/
def tyCond (t : VTy) (c a b : Nat) : Bool :=
  if t.isInt then condHolds c (tyInt t a < tyInt t b) (a == b)
  else condHolds c ((fmtOf t).key a < (fmtOf t).key b) (a % 2 ^ (fmtOf t).width == b % 2 ^ (fmtOf t).width)

/-- FCMP (R198). -/
def execFcmp (i : VIns) (s : State) : Host.Outcome State Fault Refusal :=
  runRaw s (.fcmp i) (vBody i (bit2 i fun a b => onesIf i.sh.width (tyCond i.ty i.sub.toNat a b)))

/-- FCLASS (R200). -/
def execFclass (i : VIns) (s : State) : Host.Outcome State Fault Refusal :=
  runRaw s (.fclass i) (vBody i (bit2 i fun a b => onesIf i.sh.width (b.testBit ((fmtI i).classBit a))))

/-- A transcendental word (R101, R206). -/
def transBody (i : VIns) (f : Fmt → Nat → Nat × Flags) (s : State) (iss : Issue) (w : Warp) : Res :=
  vBody i { need := needs i, ty := i.ty,
            fn := fun u x => elemsOf i.sh.width .rne u fun k _ => f (fmtI i) (elem i.sh.width k x.a) } s iss w

/-- RCP (R101). -/
def execRcp (i : VIns) (s : State) : Host.Outcome State Fault Refusal := runRaw s (.rcp i) (transBody i fRcp)
/-- RSQ (R101). -/
def execRsq (i : VIns) (s : State) : Host.Outcome State Fault Refusal := runRaw s (.rsq i) (transBody i fRsq)
/-- SQRT (R101). -/
def execSqrt (i : VIns) (s : State) : Host.Outcome State Fault Refusal := runRaw s (.sqrt i) (transBody i fSqrt)
/-- EXP2 (R101). -/
def execExp2 (i : VIns) (s : State) : Host.Outcome State Fault Refusal := runRaw s (.exp2 i) (transBody i fExp2)
/-- LOG2 (R101). -/
def execLog2 (i : VIns) (s : State) : Host.Outcome State Fault Refusal := runRaw s (.log2 i) (transBody i fLog2)
/-- SIN (R101). -/
def execSin (i : VIns) (s : State) : Host.Outcome State Fault Refusal := runRaw s (.sin i) (transBody i fSin)
/-- COS (R101). -/
def execCos (i : VIns) (s : State) : Host.Outcome State Fault Refusal := runRaw s (.cos i) (transBody i fCos)
/-- TANH (R101). -/
def execTanh (i : VIns) (s : State) : Host.Outcome State Fault Refusal := runRaw s (.tanh i) (transBody i fTanh)
/-- SIGM (R101). -/
def execSigm (i : VIns) (s : State) : Host.Outcome State Fault Refusal := runRaw s (.sigm i) (transBody i fSigm)

/-- The second visit of an FP64 word: lanes 16 to 31 are written with their flags and draws, a queue destination receives
every lane's result, and the word completes (R22). -/
def f64Second (e : F64Pend) (s : State) (w : Warp) : Res :=
  let n := e.pushed.length
  let push := if n = 0 then none else queueOf e.dst
  if !s.fifoOk e.iss.wk w none push n then .error (.block (.fifo none push n) s)
  else
    let w := { w with f64 := w.f64.filter (· != e), pend := none }
    let w := (w.putResults e.dst (e.results.map fun r => (r.1, r.2, 0, e.draws))).flag e.flags
    let s := s.setWarp e.iss.wk w
    let s := match push with
      | some q => s.pushFifo w.blk q e.pushed
      | none => s
    .ok (s.finish e.iss)

/-- The issuing visit's FP64 word, if the warp owes its second half (R22). -/
def f64Body (s : State) (iss : Issue) (w : Warp) : Res :=
  match w.f64.find? (fun e => e.iss == iss) with
  | some e => f64Second e s w
  | none => .ok s

/-- F64_SECOND_HALF (R22): takes the visit of the group whose first half executed. Named without a visit it does nothing. -/
def execF64SecondHalf (wk : Nat) (s : State) : Host.Outcome State Fault Refusal :=
  match s.cur with
  | .warp iss =>
    match s.warp iss.wk with
    | some w => if iss.wk = wk then endWord iss (.f64SecondHalf wk) (f64Body s iss w) else .next s
    | none => .next s
  | _ => .next s

end Sys2Proof.Machine
end

