-- ==== Sys2Proof/Machine/ConvVec.lean ====
section
/-! DEFINITION. Conversion, packing and quantisation, and the predicate words (R87, R93, R98, R99, R201 to R205, R207,
R208). -/

namespace Sys2Proof.Machine

open Sys2Proof

/-! ### CVT (R201) -/

/-- CVT of one lane: results, flags and draws. -/
def cvtLane (src dst : VTy) (sh part : Nat) (mode : Rnd) (sat : Bool) (u : Nat → Nat) (a old : Word) : Word × Nat × Nat :=
  let n := 64 / sh
  let ws := src.width
  let wd := dst.width
  let draws := mode == .sr && !(src.isInt && dst.isInt)
  let at_ := fun (k : Nat) (x : Nat) => cvtElem src dst mode (if draws then u k else 0) sat x
  let rs := (List.range n).map fun k => at_ k (elem ws (if wd ≥ ws then part * n + k else k) a)
  let flags := rs.foldl (fun m r => orBits m r.2.bits) 0
  let word :=
    if wd ≥ ws then ofElems wd (rs.map (·.1))
    else ofElems wd ((List.range (64 / wd)).map fun j =>
      if part * n ≤ j && j < part * n + n then (rs.getD (j - part * n) (0, {})).1 else elem wd j old)
  (word, flags, if draws then n else 0)

/-- The source type of CVT. -/
def cvtSrc (i : VIns) : VTy := VTy.ofCode i.sub.toNat

/-- The effect of CVT: bits that narrowing does not write are kept. -/
def cvtBody (i : VIns) (s : State) (iss : Issue) (w : Warp) : Res :=
  vBody i { need := needs i, ty := cvtSrc i, keeps := true,
            fn := fun u x => cvtLane (cvtSrc i) i.ty i.sh.width (i.b.immNat.getD 0) (modeI w i) i.sat u x.a x.old } s iss w

/-- CVT (R201). -/
def execCvt (i : VIns) (s : State) : Host.Outcome State Fault Refusal := runRaw s (.cvt i) (cvtBody i)

/-! ### PACK and UNPACK (R203) -/

/-- Byte k of a word. -/
def byteOf (k : Nat) (x : Word) : Nat := elem 8 k x

/-- Is it a 4-bit format, FP4 or INT4? -/
def fourBit (f : Nat) : Bool := f == 0 || f == 8
/-- Is it a 6-bit format, E2M3, E3M2 or T6? -/
def sixBit (f : Nat) : Bool := f == 1 || f == 2 || f == 6

/-- PACK of one lane. -/
def packLane (f : Nat) (a b : Word) : Word :=
  if fourBit f then
    let e := fun k => if k < 8 then byteOf k a % 16 else byteOf (k - 8) b % 16
    ofElems 8 ((List.range 8).map fun i => e (2 * i) + 16 * e (2 * i + 1))
  else if sixBit f then ofElems 6 ((List.range 8).map fun i => byteOf i a % 64)
  else a

/-- UNPACK of one lane. -/
def unpackLane (f p : Nat) (a : Word) : Word :=
  if fourBit f then
    ofElems 8 ((List.range 8).map fun i =>
      let e := elem 4 (8 * p + i) a
      if f = 8 then wrapInt 8 (intOf true 4 e) else e)
  else if sixBit f then ofElems 8 ((List.range 8).map fun i => elem 6 i a)
  else a

/-- PACK (R203). -/
def execPack (i : VIns) (s : State) : Host.Outcome State Fault Refusal :=
  runRaw s (.pack i) (vBody i (pureSpec i fun x => packLane i.sub.toNat x.a x.b))

/-- UNPACK (R203). -/
def execUnpack (i : VIns) (s : State) : Host.Outcome State Fault Refusal :=
  runRaw s (.unpack i) (vBody i (pureSpec i fun x => unpackLane i.sub.toNat (i.b.immNat.getD 0) x.a))

/-! ### QNT and DQNT (R93, R204, R205) -/

/-- What R93 makes of a block: its scale, and the exponent of step 4 where elements are rounded. -/
def blockScale (code : Nat) (vs : List Num) : Nat × Option Int :=
  if vs.any Num.nonFinite then (0xFF, none)
  else
    match vs.filter Num.finNonzero with
    | [] => (0x7F, none)
    | v :: r =>
      let top := r.foldl (fun (m : Num) x => if m.eps < x.eps then x else m) v
      let e := quantExp code top
      ((e + 127).toNat, some e)

/-- The number of elements before k that are rounded, and so draw (log entry 19). -/
def drawsBefore (rounded : List Bool) (k : Nat) : Nat := (rounded.take k).countP (· == true)

/-- QNT of one lane: codes, flags and draws, given the scale of each of the word's blocks. -/
def qntLane (t : VTy) (code : Nat) (mode : Rnd) (u : Nat → Nat) (scales : List (Nat × Option Int)) (a : Word) :
    Word × Nat × Nat :=
  let rounded := scales.map (·.2.isSome)
  let rs := scales.mapIdx fun k sc =>
    match sc.2 with
    | some e =>
      let d := if mode == Rnd.sr then u (drawsBefore rounded k) else 0
      quantElem code mode d (((fmtOf t).decode (elem t.width k a)).shift (-e))
    | none => (0, if sc.1 = 0xFF then .invalid else {})
  (ofElems 8 (rs.map (·.1)), rs.foldl (fun m r => orBits m r.2.bits) 0,
   if mode == .sr then drawsBefore rounded rounded.length else 0)

/-- The effect of QNT: element codes to d and block scales to d + 1, across the participating lanes. -/
def qntBody (i : VIns) (s : State) (iss : Issue) (w : Warp) : Res :=
  if !w.codesOk [(i.d, 2), (i.a, 1)] then illegal s
  else
    let part := lanesOf (w.partLanes iss i.g)
    (s.takeFifo iss w (popQueue i) none part).bind fun (s, els) =>
      let vals := part.mapIdx fun k l => (l, s.src iss.wk w i.ty i.a l (els.getD k 0))
      let scales := (List.range (64 / i.ty.width)).map fun k =>
        blockScale i.sub.toNat (vals.map fun v => (fmtOf i.ty).decode (elem i.ty.width k v.2))
      let mode := w.mode i.rnd
      let rs := vals.map fun v =>
        (v.1, qntLane i.ty i.sub.toNat mode (fun k => s.draw w v.1 ((w.thread v.1).draw.toNat + k)) scales v.2)
      let scaleWord := ofElems 8 (scales.map (·.1))
      let w := (w.putResults i.d rs).setAll (nextReg i.d) (maskOf part) scaleWord
      .ok ((s.setWarp iss.wk w).finish iss)

/-- QNT (R204). -/
def execQnt (i : VIns) (s : State) : Host.Outcome State Fault Refusal := runRaw s (.qnt i) (qntBody i)

/-- DQNT of one lane. -/
def dqntLane (t : VTy) (code : Nat) (mode : Rnd) (sat : Bool) (u : Nat → Nat) (a b : Word) : Word × Nat × Nat :=
  let n := 64 / t.width
  let rounded := (List.range n).map fun k => byteOf k b != 0xFF
  let rs := (List.range n).map fun k =>
    if byteOf k b = 0xFF then ((fmtOf t).nanCode, {})
    else
      let d := if mode == .sr then u (drawsBefore rounded k) else 0
      let x := (mxValue code (byteOf k a) 0).shift ((byteOf k b : Int) - 127)
      (fmtOf t).round mode d sat x
  (ofElems t.width (rs.map (·.1)), rs.foldl (fun m r => orBits m r.2.bits) 0,
   if mode == .sr then drawsBefore rounded n else 0)

/-- DQNT (R205). -/
def execDqnt (i : VIns) (s : State) : Host.Outcome State Fault Refusal :=
  runRaw s (.dqnt i) fun s iss w =>
    vBody i { need := needs i, ty := i.ty,
              fn := fun u x => dqntLane i.ty i.sub.toNat (w.mode i.rnd) i.sat u x.a x.b } s iss w

/-! ### Predicates (R207, R208) -/

/-- Writes a predicate in some lanes. -/
def Warp.putPred (w : Warp) (o : Opnd) (lanes : LaneMask) (m : LaneMask) : Warp :=
  match o with
  | .pred p => w.setPred p.toNat ((w.pred p.toNat &&& ~~~lanes) ||| (m &&& lanes))
  | _ => w

/-- The predicate an operand names. -/
def Warp.predOf (w : Warp) (o : Opnd) : LaneMask :=
  match o with
  | .pred p => w.pred p.toNat
  | _ => 0

/-- The effect of PSET: a comparison of sub-element 0 in every participating lane. -/
def psetBody (i : VIns) (s : State) (iss : Issue) (w : Warp) : Res :=
  if !w.codesOk (needs i) then illegal s
  else
    let lanes := w.partLanes iss i.g
    let part := lanesOf lanes
    (s.takeFifo iss w (popQueue i) none part).bind fun (s, els) =>
      let hit := part.mapIdx fun k l =>
        let a := s.src iss.wk w i.ty i.a l (els.getD k 0)
        let b := s.src iss.wk w i.ty i.b l (els.getD k 0)
        (l, tyCond i.ty i.sub.toNat (elem i.ty.width 0 a) (elem i.ty.width 0 b))
      let m := maskOf ((hit.filter (·.2)).map (·.1))
      .ok ((s.setWarp iss.wk (w.putPred i.d lanes m)).finish iss)

/-- PSET (R207). -/
def execPset (i : VIns) (s : State) : Host.Outcome State Fault Refusal := runRaw s (.pset i) (psetBody i)

/-- The operation of PLOP (R208, R179). -/
def plopMask (op : Nat) (a b : LaneMask) : LaneMask :=
  match op with
  | 0 => a &&& b | 1 => a ||| b | 2 => a ^^^ b | 3 => a &&& ~~~b | 4 => ~~~a | _ => a

/-- The effect of PLOP. -/
def plopBody (i : VIns) (s : State) (iss : Issue) (w : Warp) : Res :=
  let m := plopMask i.sub.toNat (w.predOf i.a) (w.predOf i.b)
  .ok ((s.setWarp iss.wk (w.putPred i.d (w.partLanes iss i.g) m)).finish iss)

/-- PLOP (R208). -/
def execPlop (i : VIns) (s : State) : Host.Outcome State Fault Refusal := runRaw s (.plop i) (plopBody i)

end Sys2Proof.Machine
end

