-- ==== Sys2Proof/Machine/Fold.lean ====
section
/-! DEFINITION. What the launch evaluator knows along a path, what a word reads and writes, and folding: a foldable word is
run by its own meaning on a warp that holds what is known (R39 to R41, R44). -/

namespace Sys2Proof.Machine

open Sys2Proof

/-- What is known along a path: scalars and predicates with what the residual registers hold of them, the loop depth, the
emitted loops that are open (their number and last word), and the unrolled loop the path is in (start, last word, rounds
left, iteration) (R39, R43). -/
structure Known where
  kn : KMap Word := []
  res : KMap Word := []
  pk : KMap Bool := []
  pres : KMap Bool := []
  depth : Option Nat := none
  loops : List (Nat × Nat) := []
  unroll : Option (Nat × Nat × Nat × Nat) := none
  deriving DecidableEq, Repr, Inhabited

/-- At a role or spawn entry every scalar is known zero and p1 to p7 all-false, and the residual registers hold the same
(R31, R39). -/
def Known.entry : Known :=
  let z : KMap Word := (List.range 64).map fun r => (r, 0)
  let p : KMap Bool := (List.range 7).map fun r => (r + 1, false)
  { kn := z, res := z, pk := p, pres := p, depth := some 0 }

/-- Nothing is known of any register. -/
def Known.forget (k : Known) : Known := { k with kn := [], res := [], pk := [], pres := [] }

/-- A guard: true, false or unknown (R161). -/
def Known.guard (k : Known) (g : Guard) : Option Bool :=
  if g.pred = 0 then some (!g.neg) else (KMap.get? k.pk g.pred.toNat).map fun b => b != g.neg

/-! ### What a word reads and writes -/

/-- The scalars a word reads, each with the low bit of its operand field (99: the field takes no immediate), those it
writes, the predicates it reads and writes, and one past the highest v register it names. -/
structure Use where
  rd : List (Nat × Nat) := []
  wr : List Nat := []
  prd : List Nat := []
  pwr : List Nat := []
  vtop : Nat := 0
  deriving DecidableEq, Repr, Inhabited

/-- Joins two uses. -/
def Use.join (a b : Use) : Use :=
  { rd := a.rd ++ b.rd, wr := a.wr ++ b.wr, prd := a.prd ++ b.prd, pwr := a.pwr ++ b.pwr, vtop := max a.vtop b.vtop }

/-- A source of `n` registers in the field at bit `lo`. -/
def useSrc (o : Opnd) (n lo : Nat) : Use :=
  match o with
  | .v r => { vtop := r.toNat + n }
  | .s r => { rd := (List.range n).map fun i => (r.toNat + i, if n = 1 then lo else 99) }
  | .pred p => { prd := [p.toNat] }
  | _ => {}

/-- A destination of `n` registers. -/
def useDst (o : Opnd) (n : Nat) : Use :=
  match o with
  | .v r => { vtop := r.toNat + n }
  | .s r => { wr := (List.range n).map (r.toNat + ·) }
  | .pred p => { pwr := [p.toNat] }
  | _ => {}

/-- Registers of a data group of a size code. -/
def groupOfSize (size : BitVec 3) : Nat := if size.toNat ≤ 3 then 1 else 2 ^ (size.toNat - 3)

/-- Does a V-format word keep bits of its destination: a narrowing CVT (R201)? -/
def vKeeps (op : Nat) (i : VIns) : Bool := op == 0x50 && i.ty.width < (VTy.ofCode i.sub.toNat).width

/-- A V-format word. -/
def useV (op : Nat) (i : VIns) : Use :=
  let two := if op = 0x4B then 2 else 1
  let d := (useDst i.d (if op = 0x53 then 2 else 1)).join (if vKeeps op i then useSrc i.d 1 99 else {})
  d.join ((useSrc i.a two 32).join ((useSrc i.b two 23).join (useSrc i.c 1 14)))

/-- An I-format word. -/
def useI (op : Nat) (i : IIns) : Use :=
  (useDst i.d 1).join ((useSrc i.a 1 32).join (if op = 0x36 then useSrc i.d 1 99 else {}))

/-- The registers of an M-format word's data operand. -/
def mGroup (op : Nat) (i : MIns) : Nat :=
  match op with
  | 0xA0 => groupOfSize i.size
  | 0xA1 => groupOfSize i.size
  | 0xA2 => groupOfSize i.size
  | 0xA4 => MKind.group .atom i
  | 0xA6 => MKind.group .atom64 i
  | _ => 1

/-- An M-format word: loads and ACQ write their data operand, the others read it. -/
def useM (op : Nat) (i : MIns) : Use :=
  let n := mGroup op i
  let data := if op = 0xA0 || op = 0xA2 || op = 0xAA then useDst i.data n else useSrc i.data n 41
  data.join ((useSrc i.base 1 32).join (useSrc i.idx 1 23))

/-- A B-format word (R278): CALL and ELECT write their operand, SPAWN and EMIT read a group of v registers. -/
def useB (op : Nat) (i : BIns) : Use :=
  if op = 0xC2 ∨ op = 0xC9 then useDst i.a 1
  else
    let n := if op = 0xCA then bits i.lo.toNat 5 3 else if op = 0xCD then bits i.lo.toNat 5 2 + 1 else 1
    let grp : Use := match i.b with
      | .v r => { vtop := if n = 0 then 0 else r.toNat + n }
      | _ => {}
    (useSrc i.a 1 15).join grp

/-- An X-format word: TXSTAT and MONRD write the scalar in their first field, HMAKE reads four scalars, CPY four and COLL
two from their c field. -/
def useX (op fl : Nat) (i : XIns) : Use :=
  let t := i.t.toNat
  let grp := fun n => ({ rd := (List.range n).map fun k => (t + k, 99) } : Use)
  let q := if op = 0xE9 ∨ op = 0xEB then useDst i.q 1
    else if op = 0xE5 then useDst i.q (if fl / 2 % 2 = 1 then 1 else 2) else {}
  let a := if op = 0xEC then useSrc i.a 4 99 else useSrc i.a 1 32
  let c := if op = 0xEE then grp 4 else if op = 0xEF then grp 2 else {}
  q.join (a.join c)

/-- What a legal word reads and writes, its guard's predicate among it. -/
def wordUse (w : Word) : Use :=
  let n := w.toNat
  let op := bits n 63 56
  let g := Guard.ofWord n
  let u : Use :=
    match vRow op (bits n 3 0), iRow op, mRow op, bRow op, xRow op (bits n 2 0) with
    | some (_, f), _, _, _, _ => ((f.decode n).map (useV op)).getD {}
    | _, some (_, f), _, _, _ => ((f.decode n).map (useI op)).getD {}
    | _, _, some (_, f), _, _ => ((f.decode n).map (useM op)).getD {}
    | _, _, _, some (_, f), _ => ((f.decode n).map (useB op)).getD {}
    | _, _, _, _, some (_, f) => ((f.decode n).map (useX op (bits n 2 0))).getD {}
    | _, _, _, _, _ => {}
  if g.pred = 0 then u else { u with prd := u.prd ++ [g.pred.toNat] }

/-! ### Immediate operands in place of known scalars (R44) -/

/-- Replaces a nine-bit field. -/
def setField (w : Word) (lo code : Nat) : Word :=
  (w &&& ~~~(BitVec.ofNat 64 (511 * 2 ^ lo))) ||| BitVec.ofNat 64 (code % 512 * 2 ^ lo)

/-- The word of a 7-bit immediate as the V-format word's operands take it, or sign-extended for any other format. -/
def immWord (w : Word) (n : BitVec 7) : Word :=
  let x := w.toNat
  let op := bits x 63 56
  match vRow op (bits x 3 0) with
  | some _ =>
    let t := VTy.ofCode (if op = 0x50 then bits x 3 0 else bits x 13 10)
    splat t.width (immAt t n)
  | none => BitVec.signExtend 64 n

/-- The word with the immediate of a value in the field at `lo`, if the field accepts it and it supplies exactly the bits
that the register holds. -/
def immReplace (w : Word) (lo : Nat) (v : Word) : Option Word :=
  if lo = 99 ∨ ¬ (-64 ≤ v.toInt ∧ v.toInt ≤ 63) then none
  else
    let n : BitVec 7 := BitVec.ofInt 7 v.toInt
    let w' := setField w lo (0x180 + n.toNat)
    if immWord w n = v && (decodeWord w').isSome then some w' else none

/-! ### Folding (R40) -/

/-- The meaning of a word of R40's first kind. -/
def foldMeaning (i : Instr) : Option (State → Host.Outcome State Fault Refusal) :=
  match i with
  | .iadd i => some (execIadd i)
  | .isub i => some (execIsub i)
  | .imul i => some (execImul i)
  | .imulh i => some (execImulh i)
  | .imad i => some (execImad i)
  | .imin i => some (execImin i)
  | .imax i => some (execImax i)
  | .iabs i => some (execIabs i)
  | .isad i => some (execIsad i)
  | .icmp i => some (execIcmp i)
  | .dot4i i => some (execDot4i i)
  | .iand i => some (execIand i)
  | .ior i => some (execIor i)
  | .ixor i => some (execIxor i)
  | .iandn i => some (execIandn i)
  | .inot i => some (execInot i)
  | .shl i => some (execShl i)
  | .shr i => some (execShr i)
  | .sar i => some (execSar i)
  | .rot i => some (execRot i)
  | .bfe i => some (execBfe i)
  | .bfi i => some (execBfi i)
  | .popc i => some (execPopc i)
  | .clz i => some (execClz i)
  | .ctz i => some (execCtz i)
  | .brev i => some (execBrev i)
  | .permb i => some (execPermb i)
  | .lea i => some (execLea i)
  | .mov i => some (execMov i)
  | .movU i => some (execMovU i)
  | .movi i => some (execMovi i)
  | .iaddImm i => some (execIaddImm i)
  | .imulImm i => some (execImulImm i)
  | .andImm i => some (execAndImm i)
  | .orImm i => some (execOrImm i)
  | .xorImm i => some (execXorImm i)
  | .moviHi i => some (execMoviHi i)
  | .moviX2 i => some (execMoviX2 i)
  | .fadd i => some (execFadd i)
  | .fmul i => some (execFmul i)
  | .ffma i => some (execFfma i)
  | .fmin i => some (execFmin i)
  | .fmax i => some (execFmax i)
  | .fabs i => some (execFabs i)
  | .fneg i => some (execFneg i)
  | .fcmp i => some (execFcmp i)
  | .fclass i => some (execFclass i)
  | .frnd i => some (execFrnd i)
  | .fscale i => some (execFscale i)
  | .fdot2 i => some (execFdot2 i)
  | .cvt i => some (execCvt i)
  | .pack i => some (execPack i)
  | .unpack i => some (execUnpack i)
  | .dqnt i => some (execDqnt i)
  | .rcp i => some (execRcp i)
  | .rsq i => some (execRsq i)
  | .sqrt i => some (execSqrt i)
  | .exp2 i => some (execExp2 i)
  | .log2 i => some (execLog2 i)
  | .sin i => some (execSin i)
  | .cos i => some (execCos i)
  | .tanh i => some (execTanh i)
  | .sigm i => some (execSigm i)
  | .pset i => some (execPset i)
  | .plop i => some (execPlop i)
  | _ => none

/-- Is an operand known: a constant code, an immediate, a known scalar or predicate, an unused field? -/
def Known.has (k : Known) (o : Opnd) (n : Nat) : Bool :=
  match o with
  | .s r => (List.range n).all fun i => (KMap.get? k.kn (r.toNat + i)).isSome
  | .sp .zero => true
  | .sp .ones => true
  | .imm _ => true
  | .pred p => p == 0 || (KMap.get? k.pk p.toNat).isSome
  | .none => true
  | _ => false

/-- Is a word of R40's first kind with every source known: uniform, no as-mode or stochastic rounding? -/
def Known.canFold (k : Known) (w : Word) : Bool :=
  let n := w.toNat
  let op := bits n 63 56
  match vRow op (bits n 3 0), iRow op with
  | some (_, f), _ =>
    match f.decode n with
    | some i =>
      let two := if op = 0x4B then 2 else 1
      (i.d.isS || op == 0x80 || op == 0x81) && op ≠ 0x22 && i.rnd != .sr && i.rnd != .dyn &&
      k.has i.a two && k.has i.b two && k.has i.c 1 && (!vKeeps op i || k.has i.d 1)
    | none => false
  | _, some (_, f) =>
    match f.decode n with
    | some i => op < 0x40 && i.d.isS && k.has i.a 1 && (op ≠ 0x36 || k.has i.d 1)
    | none => false
  | _, _ => false

/-- A machine of one warp whose registers hold what is known. -/
def Known.machine (k : Known) : State :=
  let w : Warp :=
    { st := .run, nregs := 255, threads := List.replicate 32 { st := .sub }, sreg := k.kn,
      preg := k.pk.map fun p => (p.1, if p.2 then BitVec.allOnes 32 else 0) }
  { warps := [(0, w)], cur := .warp { wk := 0, lanes := BitVec.allOnes 32 } }

/-- What is known after a word has run on that machine: its destinations, provided no flag is set and nothing stopped it. -/
def Known.learn (k : Known) (u : Use) (w : Warp) : Option Known :=
  if w.st == .run && w.fault.isNone && w.pend.isNone && w.fcsr == 0 && (w.thread 0).pos.pc == 1 then
    let k := u.wr.foldl (fun k r => { k with kn := KMap.set k.kn r (KMap.getD w.sreg r 0) }) k
    some (u.pwr.foldl (fun k p =>
      if p = 0 then k else { k with pk := KMap.set k.pk p (w.pred p == BitVec.allOnes 32) }) k)
  else none

/-- Folds an instruction whose word is `w`. -/
def Known.foldAlu (k : Known) (w : Word) (i : Instr) : Option Known :=
  if k.canFold w then
    match foldMeaning i with
    | some f =>
      match f k.machine with
      | .next t => (t.warp 0).bind fun x => k.learn (wordUse w) x
      | _ => none
    | none => none
  else none

/-- The offset from `%argbase` that an LDU's address lies at, if it is known (R39). -/
def Known.argOff (k : Known) (i : MIns) : Option Nat :=
  let val := fun (o : Opnd) =>
    match o with
    | .s r => (KMap.get? k.kn r.toNat).map fun v => (0, v.toNat)
    | .sp .argbase => some (1, 0)
    | .sp .zero => some (0, 0)
    | .sp .ones => some (0, 2 ^ 64 - 1)
    | .imm n => some (0, wrapInt 64 (immInt n))
    | _ => none
  match val i.base, val i.idx with
  | some (a, x), some (b, y) =>
    if a + b = 1 then some (wrapInt 64 ((x + y : Nat) + memOff i false * sizeOf_ i.size)) else none
  | _, _ => none

/-- The offsets of an image's arguments in its argument block: (offset, size, static) (R37). -/
def argPlaces (off : Nat) (l : List ArgDecl) : List (Nat × Nat × Bool) :=
  match l with
  | [] => []
  | a :: r =>
    let o := (off + a.size - 1) / a.size * a.size
    (o, a.size, a.static) :: argPlaces (o + a.size) r

/-- The size of the argument block an image declares. -/
def Image.argSize (i : Image) : Nat := ((argPlaces 0 i.args).map fun p => p.1 + p.2.1).foldl max 0

/-- The static bytes of an argument block (R37). -/
def Image.staticBytes (i : Image) (args : List Byte) : List Byte :=
  ((argPlaces 0 i.args).filter (·.2.2)).flatMap fun p => (List.range p.2.1).map fun k => args.getD (p.1 + k) 0

/-- Folds an LDU of static bytes (R40). -/
def Known.foldLdu (k : Known) (img : Image) (args : List Byte) (i : MIns) : Option Known :=
  if i.space ≠ 0 ∨ i.ord ≠ 0 ∨ i.scope ≠ 0 ∨ i.size.toNat > 3 then none
  else
    match k.argOff i, i.data with
    | some off, .s r =>
      let n := sizeOf_ i.size
      let held := (argPlaces 0 img.args).filter (·.2.2)
      if (List.range n).all (fun j => held.any fun p => p.1 ≤ off + j && off + j < p.1 + p.2.1) then
        some { k with kn := KMap.set k.kn r.toNat (leWord ((List.range n).map fun j => args.getD (off + j) 0)) }
      else none
    | _, _ => none

/-- Folds a word that is no branch, LOOP or REP. -/
def Known.fold (k : Known) (img : Image) (args : List Byte) (w : Word) (i : Instr) : Option Known :=
  match i with
  | .nop _ => some k
  | .ldu x => k.foldLdu img args x
  | i => k.foldAlu w i

end Sys2Proof.Machine
end

