-- ==== Sys2Proof/Machine/Visit.lean ====
section
/-! DEFINITION. What a slot issues at a visit: the group it takes, the wait mask, the fetch and the repeat of each word
(R12 to R22, R155 to R159, R173, R174, R209 to R211, R284), and what a choice of the device runs. -/

namespace Sys2Proof.Machine

open Sys2Proof

/-- One word to run at a visit. -/
structure Visit where
  word : Instr
  iss : Issue
  deriving DecidableEq, Repr, Inhabited

/-! ### REP (R180, R209, R210) -/

/-- The step of a two-bit code. -/
def repStep (c : Nat) : Nat := match c with | 0 => 0 | 1 => 1 | 2 => 2 | _ => 4

/-- The steps of the four fields: dst, srcA, srcB, srcC. -/
def repD (imm : BitVec 32) : Nat := repStep (bits imm.toNat 13 12)
/-- ASTEP. -/
def repA (imm : BitVec 32) : Nat := repStep (bits imm.toNat 11 10)
/-- BSTEP. -/
def repB (imm : BitVec 32) : Nat := repStep (bits imm.toNat 9 8)
/-- CSTEP. -/
def repC (imm : BitVec 32) : Nat := repStep (bits imm.toNat 7 6)
/-- The number of repeats. -/
def repCount (imm : BitVec 32) : Nat := bits imm.toNat 5 0 + 1

/-- An operand stepped by `n`; a code that leaves its range gives `none`. -/
def stepOpnd (n : Nat) (o : Opnd) : Option Opnd :=
  match o with
  | .v r => if r.toNat + n < 256 then some (.v (BitVec.ofNat 8 (r.toNat + n))) else none
  | .s r => if r.toNat + n < 64 then some (.s (BitVec.ofNat 6 (r.toNat + n))) else none
  | .h r => if r.toNat + n < 16 then some (.h (BitVec.ofNat 4 (r.toNat + n))) else none
  | o => some o

/-- The instruction of a word in repeat `j`: every register field stepped (R210, Table 6), the result checked again. -/
def stepWord (w : Word) (imm : BitVec 32) (j : Nat) : Option Instr :=
  let n := w.toNat
  let op := bits n 63 56
  let i : Option Instr :=
    match vRow op (bits n 3 0), iRow op, mRow op, xRow op (bits n 2 0) with
    | some (c, f), _, _, _ => do
      let i ← f.decode n
      let d ← stepOpnd (j * repD imm) i.d
      let a ← stepOpnd (j * repA imm) i.a
      let b ← stepOpnd (j * repB imm) i.b
      let e ← stepOpnd (j * repC imm) i.c
      some (c { i with d, a, b, c := e })
    | _, some (c, f), _, _ => do
      let i ← f.decode n
      let d ← stepOpnd (j * repD imm) i.d
      let a ← stepOpnd (j * repA imm) i.a
      some (c { i with d, a })
    | _, _, some (c, f), _ => do
      let i ← f.decode n
      let data ← stepOpnd (j * repD imm) i.data
      let base ← stepOpnd (j * repA imm) i.base
      let idx ← stepOpnd (j * repB imm) i.idx
      some (c { i with data, base, idx })
    | _, _, _, some (c, f) => do
      let i ← f.decode n
      let q ← stepOpnd (j * repD imm) i.q
      let a ← stepOpnd (j * repA imm) i.a
      let b ← stepOpnd (j * repB imm) i.b
      -- only a C-tile number steps; c of CPY and COLL names scalar registers
      let t := if op ≥ 0xE6 then i.t.toNat else i.t.toNat + j * repC imm
      if t ≤ 511 then some (c { i with q, a, b, t := BitVec.ofNat 9 t }) else none
    | _, _, _, _ => none
  i.bind fun i => if i.wf then some i else none

/-- The fields that may not step: REP itself is illegal when a field of T that holds a queue code has a non-zero step, or
a step stands where T's format has no field (R210). -/
def repLegal (w : Word) (imm : BitVec 32) : Bool :=
  let n := w.toNat
  let op := bits n 63 56
  let ok := fun (step : Nat) (o : Opnd) => step == 0 || !o.isQ
  match vRow op (bits n 3 0), iRow op, mRow op, xRow op (bits n 2 0) with
  | some (_, f), _, _, _ =>
    match f.decode n with
    | some i => ok (repD imm) i.d && ok (repA imm) i.a && ok (repB imm) i.b && ok (repC imm) i.c
    | none => true
  | _, some _, _, _ => repB imm == 0 && repC imm == 0
  | _, _, some _, _ => repC imm == 0
  | _, _, _, some (_, f) =>
    match f.decode n with
    | some i => ok (repD imm) i.q && ok (repA imm) i.a && ok (repB imm) i.b
    | none => true
  | _, _, _, _ => true

/-! ### Fetch (R155, R159, R173) -/

/-- Why the word at a PC cannot be fetched: it lies outside the code section, or its page does not translate. Residual code
is held by the device and needs no translation. -/
def State.fetchErr (s : State) (wk : Nat) (w : Warp) (lanes : LaneMask) (pc : Pc) : State × Option FaultInfo :=
  let info := fun (cause reason : Nat) (pri : Option Nat) =>
    ({ cause, info := BitVec.ofNat 64 pc.toNat,
       recs := [{ cause, reason, lanes, addr := pc.toNat, client := 8, acc := 3, hostpri := pri }] } : FaultInfo)
  if (s.codeOf w.activeCode).length ≤ pc.toNat then (s, some (info 4 0 none))
  else
    match w.activeCode with
    | .resid _ => (s, none)
    | .orig k =>
      match s.translate (dieOfWk wk) (s.partOf w) (k % 2 ^ 52 + 8 * pc.toNat) 0 3 with
      | (s, .ok _) => (s, none)
      | (s, .error e) => (s, some (info e.cause e.reason e.hostpri))

/-- The word that threads at a position run next: the instruction, or the fault of a header or word that cannot be fetched
or decoded. A buffered word needs no fetch. -/
def State.visitOf (s : State) (wk : Nat) (w : Warp) (lanes : LaneMask) (buf : Bool) (pos : Pos) : Visit :=
  let code := s.codeOf w.activeCode
  let hpc : Pc := pos.hdr.getD pos.pc
  let wpc : Pc := if pos.hdr.isNone then pos.pc + 1 else pos.pc
  let at_ := fun (pc : Pc) (last : Bool) => ({ wk, lanes, buf, pc, hdr := hpc, last } : Issue)
  let unfetched := fun (pc : Pc) => !buf && (s.fetchErr wk w lanes pc).2.isSome
  if pos.hdr.isNone && unfetched hpc then { word := .instructionFetchFault, iss := at_ hpc false }
  else
    match (code[hpc.toNat]?).bind decodeHeader with
    | none => { word := .illegalInstruction, iss := at_ hpc false }
    | some h =>
      let last := wpc.toNat == hpc.toNat + h.nwords
      if unfetched wpc then { word := .instructionFetchFault, iss := at_ wpc last }
      else
        let raw := code.getD wpc.toNat 0
        let next := (code.getD (wpc.toNat + 1) 0).toNat / 2 ^ 56
        let i := if pos.rep = 0 then decodeWord raw else stepWord raw pos.repImm (repCount pos.repImm - pos.rep)
        match i with
        | some i =>
          if placeOk h.cls i.opcode last next then { word := i, iss := at_ wpc last }
          else { word := .illegalInstruction, iss := at_ wpc last }
        | none => { word := .illegalInstruction, iss := at_ wpc last }

/-! ### Wait masks (R158) -/

/-- Do all the conditions of a wait mask hold for the warp? Bit 8 of the header is bit 0 of `m`. -/
def State.waitOk (s : State) (w : Warp) (m : Nat) : Bool :=
  (!m.testBit 0 || !(KMap.vals s.cores).any fun c => c.q0.any (·.uid == w.uid)) &&
  (!m.testBit 1 || !(KMap.vals s.clusters).any fun c => c.q2.any (·.uid == w.uid)) &&
  (!m.testBit 2 || !(KMap.vals s.dies).any fun d => d.q4.any (·.uid == w.uid)) &&
  (!m.testBit 4 || w.sq.isEmpty) &&
  (!m.testBit 5 || !w.sq.any (·.member)) &&
  (!m.testBit 6 || w.lwake.all s.linkAwake)

/-- Does the instruction name an accumulator tile on which a command of the warp is outstanding (R21, R123)? -/
def State.tileBusy (s : State) (wk : Nat) (w : Warp) (i : Instr) : Bool :=
  let busy := fun (t : BitVec 9) => (s.core (coreOfWk wk)).q0.any fun c => c.uid == w.uid && c.op != .mldw && c.tile == t.toNat
  match i with
  | .mma x => busy x.t
  | .mmas x => busy x.t
  | .mmag x => busy x.t
  | .mzero x => busy x.t
  | .mrd x => busy x.t
  | .mwr x => busy x.t
  | _ => false

/-- Does the next word, or the word whose repeat 0 issues with it after REP (R209), wait for a tile? -/
def State.wordBusy (s : State) (wk : Nat) (w : Warp) (v : Visit) : Bool :=
  s.tileBusy wk w v.word ||
  match v.word with
  | .rep _ => (((s.codeOf w.activeCode)[v.iss.pc.toNat + 1]?).bind decodeWord).any (s.tileBusy wk w)
  | _ => false

/-- Is a group at a position ready (R18, R21)? A header that does not decode is ready, to fault. -/
def State.posReady (s : State) (wk : Nat) (w : Warp) (v : Visit) (pos : Pos) : Bool :=
  let code := s.codeOf w.activeCode
  (match pos.hdr with
    | some _ => true
    | none =>
      match (code[pos.pc.toNat]?).bind decodeHeader with
      | some h => s.waitOk w h.wait
      | none => true) && !s.wordBusy wk w v

/-! ### The visit of a slot (R16, R19, R22) -/

/-- Is the context of a warp key at work on its core: the die is up, the context is the one in the live bank, and the core
is not exchanging or halted (R360 to R363, R367, R391)? -/
def State.coreRuns (s : State) (wk : Nat) : Bool :=
  let c := s.core (coreOfWk wk)
  (s.die (dieOfWk wk)).boot == .running && c.ctxCur == ctxOfWk wk && c.exchange.isNone && !c.halted

/-- May the core issue new words of the context of a warp key: it runs, and no stop was asked for (R361)? -/
def State.coreIssues (s : State) (wk : Nat) (w : Warp) : Bool :=
  s.coreRuns wk && !(s.core (coreOfWk wk)).draining && (s.partD (s.partOf w)).swap == .resident

/-- The next count of ck at which a slot's position comes round and in which no warp of it has issued (R19, R20). -/
def State.nextVisitCk (s : State) (wk : Nat) : Nat :=
  let c0 := (s.die (dieOfWk wk)).clk0
  let from_ := match KMap.get? (s.core (coreOfWk wk)).slotCk (slotOfWk wk) with
    | some k => max s.ck (k + 1)
    | none => s.ck
  from_ + (slotOfWk wk / 2 + 16 * 16 - (from_ - c0) % 16) % 16

/-- The slot's position has come round at its next count. -/
def State.atVisit (s : State) (wk : Nat) : State :=
  let ck := s.nextVisitCk wk
  { s with ck }.modCore (coreOfWk wk) fun c => { c with slotCk := KMap.set c.slotCk (slotOfWk wk) ck }

/-- Has the warp a held command outstanding (R265)? -/
def State.hasHeld (s : State) (wk : Nat) (w : Warp) : Bool :=
  (s.core (coreOfWk wk)).q0.any fun c => c.uid == w.uid && c.held

/-- The lanes of a list of threads. -/
def lanesWhere (w : Warp) (f : Nat → Thread → Bool) : List Nat :=
  ((w.threads.mapIdx fun i t => (i, f i t)).filter (·.2)).map (·.1)

/-- Lanes that owe the second half of an FP64 word (R22). -/
def Warp.owed (w : Warp) : LaneMask := w.f64.foldl (fun m e => m ||| e.iss.lanes) 0

/-- The lanes of the broadcast group, by position in order of their lowest lane (R13, R211). -/
def Warp.cohorts (w : Warp) (ls : List Nat) : List (Pos × LaneMask) :=
  ls.foldl (fun acc l =>
    let p := (w.thread l).pos
    if acc.any (fun c => c.1 == p) then acc.map fun c => if c.1 == p then (c.1, c.2 ||| maskOf [l]) else c
    else acc ++ [(p, maskOf [l])]) []

/-- The FP64 words whose second half may issue: in trap mode those of the trapped set (R22, R356). -/
def Warp.halves (w : Warp) : List F64Pend := w.f64.filter fun e => (lanesOf e.iss.lanes).all fun l => w.mayIssue (w.thread l)

/-- What the broadcast group runs, if it is ready: the second half of its FP64 word, or the next word of every thread at
the broadcast PC. Threads that stand there differently (one as at a header, one inside a clause, or with another REP
count) each issue their own word at the visit, lowest lane first (log entry 109). -/
def State.broadcastVisits (s : State) (wk : Nat) (w : Warp) : List Visit :=
  match w.halves.filter (fun e => !e.iss.buf) with
  | e :: r => (e :: r).map fun e => { word := .f64SecondHalf wk, iss := e.iss }
  | [] =>
    let ls := lanesWhere w fun i t =>
      w.mayIssue t && w.broadcast == some t.pos.pc && !w.owed.getLsbD i
    ((w.cohorts ls).map fun c => (s.visitOf wk w c.2 false c.1, c.1)).filterMap fun v =>
      if s.posReady wk w v.1 v.2 then some v.1 else none

/-- What the buffer group runs: each ready Loop thread its own next word (R12, R16). -/
def State.bufferVisits (s : State) (wk : Nat) (w : Warp) : List Visit :=
  (lanesWhere w fun _ t => w.mayIssue t && t.st == .loop).filterMap fun l =>
    match w.f64.find? (fun e => e.iss.buf && e.iss.lanes == maskOf [l]) with
    | some e => some { word := .f64SecondHalf wk, iss := e.iss }
    | none =>
      if w.owed.getLsbD l then none
      else
        let pos := (w.thread l).pos
        let v := s.visitOf wk w (maskOf [l]) true pos
        if s.posReady wk w v pos then some v else none

/-- Threads that subscribe to the broadcast (R13). -/
def Warp.subscribe (w : Warp) (m : LaneMask) : Warp := w.modLanes m fun _ t => { t with st := .sub }

/-- Has the warp's blocked word not begun: it only waits for an engine to take its command? -/
def Pend.unbegun (p : Pend) : Bool :=
  match p.why with
  | .engine _ => true
  | .owed _ => true
  | _ => false

/-- Does the warp take an MXRESET at its next visit: it owes one, and no word it has issued is still to complete, an FP64
word's second half among them (R22, R265)? -/
def Warp.takesReset (w : Warp) : Bool := w.mxreset.isSome && w.pend.all (·.unbegun) && w.f64.isEmpty

/-- The visit of a slot: the words it runs, in order, with the state after the choice; none when the visit stays empty. A
word with pieces or lanes left goes on within the visit that issued it; a core that is asked to stop, or a warp that owes
an MXRESET, only completes the words issued before (R361, R265). -/
def State.planVisit (s : State) (wk : Nat) : State × List Visit :=
  match s.warp wk with
  | none => (s, [])
  | some w =>
    if w.st != .run || !s.coreRuns wk then (s, [])
    else
      let seconds : List Visit := w.halves.map fun e => { word := .f64SecondHalf wk, iss := e.iss }
      match w.unfinished, s.coreIssues wk w, w.takesReset, w.pend with
      | some p, _, _, _ => (s, [{ word := p.word, iss := p.iss }])
      | none, false, _, _ => (s.atVisit wk, seconds)
      | none, true, true, _ =>
        let (pc, lanes) := w.mxreset.getD (0, 0)
        (s.atVisit wk, [{ word := .mxresetTake wk, iss := { wk, lanes, pc, hdr := pc } }])
      | none, true, false, some p => (s.atVisit wk, [{ word := p.word, iss := p.iss }])
      | none, true, false, none =>
        let s := s.atVisit wk
        let y := w.yielded
        let w := { w with yielded := none }
        if w.mxreset.isSome then (s, seconds)
        else if s.hasHeld wk w then (s.setWarp wk w, [])
        else
          let bc := if y = some false then [] else s.broadcastVisits wk w
          let bf := if y = some true then [] else s.bufferVisits wk w
          let buf := if w.lastBuf then bc.isEmpty && !bf.isEmpty else !bf.isEmpty
          let vs := if buf then bf else bc
          if vs.isEmpty then (s.setWarp wk w, [])
          else
            let w := { w with lastBuf := buf }
            let m := vs.foldl (fun m v => m ||| v.iss.lanes) 0
            (s.setWarp wk (if buf then w else w.subscribe m), vs)

/-- May the next word of a visit still run: the warp is the same, running, with nothing pending and its trap mode as it
was? -/
def State.goesOn (s : State) (wk uid : Nat) (trap : Bool) : Bool :=
  match s.warp wk with
  | some w => w.uid == uid && w.st == .run && w.pend.isNone && w.inTrap == trap
  | none => false

/-- REP and repeat 0 of its word T issue at one visit (R209): the word that follows at the same visit. -/
def State.repFollow (s : State) (v : Visit) : Option Visit :=
  match v.word, s.warp v.iss.wk with
  | .rep _, some w =>
    let pos := (w.thread v.iss.elected).pos
    if w.st == .run && pos.pc == v.iss.pc + 1 && pos.rep != 0 then
      some (s.visitOf v.iss.wk w v.iss.lanes v.iss.buf pos)
    else none
  | _, _ => none

/-! ### What a choice runs -/

/-- Steps that come about only at an issue visit. -/
def visitOnly (i : Instr) : Bool :=
  match i with
  | .f64SecondHalf _ => true
  | .mxresetTake _ => true
  | .illegalInstruction => true
  | .instructionFetchFault => true
  | _ => false

/-- Does a partition make progress: it is not swapped out, nor on its way out or in (R368)? -/
def Part.progress (p : Part) : Bool := p.swap == .resident || p.swap == .halting

/-- The next bytecode of a queue's program and its state, if the program runs and waits for nothing (R313, R314). -/
def State.nextBytecode (s : State) (part q : Nat) : Option Instr :=
  ((s.part part).bind fun p => if p.progress then KMap.get? p.queues q else none).bind fun x =>
    x.run.bind fun r =>
      if r.wait == .none then (x.prog[r.pc]?).bind decodeBytecode else none

/-- The choice to act on: the agenda's first, or else what the outside decides (log entry 3); and the state without it. -/
def State.nextChoice (s : State) : State × Choice :=
  match s.agenda with
  | c :: r => ({ s with agenda := r }, c)
  | [] => ({ s with ticks := s.ticks + 1 }, Config.choice s.ticks)

/-- Lets time pass. -/
def State.pass (s : State) (dt : Nat) : State := { s with ck := s.ck + dt, cur := .idle }

end Sys2Proof.Machine
end

