-- ==== Sys2Proof/Machine/Evaluate.lean ====
section
/-! DEFINITION. The launch evaluator: the walk of an image's roots and the residual code it emits (R42 to R49, R55, R304).
Each small step of the walk reaches a clause, takes one word, or takes up the next path or root. -/

namespace Sys2Proof.Machine

open Sys2Proof

/-! ### What the walk builds -/

/-- A residual copy: the original clause's PC, the register count of its root, and what was known where it begins (R42). Two
paths share a copy only where what the residual registers hold of the known ones, the loop depth, the open loops and the
unrolled round agree too: they are part of the state of a path here (log entry 113). -/
structure CopyKey where
  pc : Nat
  n : Nat
  k : Known
  deriving DecidableEq, Repr, Inhabited

/-- Where the offset of a residual word leads: nowhere new, to a copy, to the last word of a numbered loop, or to the clause
that this word stands alone in. -/
inductive RLink where
  | none
  | copy (k : CopyKey)
  | loopEnd (id : Nat)
  | loopTail (id : Nat)
  deriving DecidableEq, Repr, Inhabited

/-- A residual word with its back-map entry (R53), and the numbers of the emitted loops that end with it. -/
structure RWord where
  w : Word
  opc : Nat
  iter : Nat
  link : RLink := .none
  ends : List Nat := []
  deriving DecidableEq, Repr, Inhabited

/-- A residual clause (R46); its header's back-map entry is `opc`. -/
structure RClause where
  origin : Nat
  wait : Nat
  cls : Nat
  opc : Nat
  iter : Nat
  words : List RWord
  deriving DecidableEq, Repr, Inhabited

/-- The residual clause in the making: its materialising words, its own words, and the scalars and predicates that those
have read or written (R44, R46). `unlast`: its last word so far is one of class 3 that stands inside its original clause, so
that no clause may end with it. -/
structure Making where
  origin : Nat
  wait : Nat
  cls : Nat
  hpc : Nat
  last : Nat
  iter : Nat
  pre : List RWord := []
  body : List RWord := []
  used : List Nat := []
  pused : List Nat := []
  unlast : Bool := false
  deriving DecidableEq, Repr, Inhabited

/-- The evaluator at work on one launch. `shared` holds the last words of emitted loops that paths reach in several states,
`tails` the loops whose common last word stands. -/
structure Ev where
  img : Image
  args : List Byte
  out : List RClause := []
  copies : List (CopyKey × Nat) := []
  n : Nat := 0
  work : List (Nat × Known) := []
  callees : List Nat := []
  todo : List (Nat × Nat × Known) := []
  from_ : Nat := 0
  visited : Nat := 0
  static_ : Bool := false
  open_ : Bool := false
  led : Nat × Nat × Nat := (0, 0, 0)
  loopNo : Nat := 0
  shared : List Nat := []
  tails : List Nat := []
  loose : List Nat := []
  lasts : List Nat := []
  deriving DecidableEq, Repr, Inhabited

/-- What the walk does next. -/
inductive Mode where
  | reach (pc : Nat) (k : Known) (first : Bool)
  | word (m : Making) (k : Known) (i : Nat)
  | next
  | finished
  /-- the whole launch runs the original image -/
  | original
  deriving DecidableEq, Repr, Inhabited

/-- Words in the walk's clauses, headers included. -/
def clauseWords (l : List RClause) : Nat := (l.map fun c => c.words.length + 1).sum

/-- The least register count of the image's roles and spawn entries (R41). -/
def Image.minRegs (i : Image) : Nat :=
  ((i.roles.map (·.regs)) ++ (i.spawns.map (·.regs))).foldl min 255

/-! ### Emission (R44, R46) -/

/-- Lists cut into runs of at most 15. -/
def runsOf15 {α : Type} (fuel : Nat) (l : List α) : List (List α) :=
  match fuel with
  | 0 => []
  | f + 1 => if l.isEmpty then [] else l.take 15 :: runsOf15 f (l.drop 15)

/-- The NOP word (R284). -/
def nopWord : Word := 0xC700000000000000

/-- Lays the clause in the making out: its materialising words in class-0 clauses of the same origin, then its words, or a
NOP if it has none and its wait mask is not zero (R46). A NOP follows a word that must fault for its place (R41). -/
def Ev.flush (e : Ev) (m : Making) : Ev :=
  let pres := (runsOf15 64 m.pre).map fun ws =>
    ({ origin := m.origin, wait := 0, cls := 0, opc := m.hpc, iter := m.iter, words := ws } : RClause)
  let body :=
    if (m.body.isEmpty && m.wait != 0) || m.unlast then m.body ++ [{ w := nopWord, opc := m.hpc, iter := m.iter }] else m.body
  let own := if body.isEmpty then []
    else [({ origin := m.origin, wait := m.wait, cls := m.cls, opc := m.hpc, iter := m.iter, words := body } : RClause)]
  let new := pres ++ own
  { e with out := new.reverse ++ e.out, open_ := e.open_ || !new.isEmpty }

/-- Splits the copy before a word: the first part keeps the wait mask (R46). -/
def Ev.split (e : Ev) (m : Making) : Ev × Making :=
  (e.flush m, { m with wait := 0, pre := [], body := [], used := [], pused := [], unlast := false })

/-- MOVI, MOVI.hi and MOVI.x2 into a scalar. -/
def movWord (op r imm : Nat) : Word := BitVec.ofNat 64 (op * 2 ^ 56 + (0x100 + r) * 2 ^ 41 + imm % 2 ^ 32)

/-- The words that write a value to a scalar (R44, R304). -/
def matWords (r : Nat) (v : Word) : List Word :=
  let n := v.toNat
  if -(2 ^ 31) ≤ v.toInt ∧ v.toInt < 2 ^ 31 then [movWord 0x30 r n]
  else if n / 2 ^ 32 = n % 2 ^ 32 then [movWord 0x37 r n]
  else [movWord 0x30 r n, movWord 0x36 r (n / 2 ^ 32)]

/-- PLOP.mov or PLOP.not of p0 into a predicate (R44). -/
def matPredWord (p : Nat) (b : Bool) : Word :=
  BitVec.ofNat 64 (0x81 * 2 ^ 56 + p * 2 ^ 41 + (if b then 5 else 4))

/-- The entries of some keys that are known and that a residual register does not hold. -/
def unheld {α : Type} [DecidableEq α] (kn res : KMap α) (l : List Nat) : List (Nat × α) :=
  l.dedup.filterMap fun r => (KMap.get? kn r).bind fun v => if KMap.get? res r = some v then none else some (r, v)

/-- Materialises those of some scalars and predicates that the word at `i` needs and the residual registers do not hold, all
in the clause just before it, after a split where an earlier word of the copy used one of them (R44, R46, R304). Their
back-map entry is that of the word (log entry 27). -/
def Ev.materialise (e : Ev) (m : Making) (k : Known) (i : Nat) (rs ps : List Nat) : Ev × Making × Known :=
  let ss := unheld k.kn k.res rs
  let qs := unheld k.pk k.pres ps
  let (e, m) := if ss.any (fun x => m.used.contains x.1) || qs.any (fun x => m.pused.contains x.1) then e.split m else (e, m)
  let ws := (ss.flatMap fun x => matWords x.1 x.2) ++ qs.map fun x => matPredWord x.1 x.2
  (e, { m with pre := m.pre ++ ws.map fun w => { w, opc := i, iter := m.iter } },
   { k with res := ss.foldl (fun t x => KMap.set t x.1 x.2) k.res, pres := qs.foldl (fun t x => KMap.set t x.1 x.2) k.pres })

/-- Materialises everything known, before the word at `i`. -/
def Ev.matAll (e : Ev) (m : Making) (k : Known) (i : Nat) : Ev × Making × Known :=
  e.materialise m k i (KMap.keys k.kn) (KMap.keys k.pk)

/-- Records what emitted words read and wrote; what they write becomes unknown (R39). -/
def noteUse (m : Making) (k : Known) (u : Use) : Making × Known :=
  ({ m with used := m.used ++ u.rd.map (·.1) ++ u.wr, pused := m.pused ++ u.prd ++ u.pwr },
   { k with kn := u.wr.foldl KMap.erase k.kn, res := u.wr.foldl KMap.erase k.res,
            pk := u.pwr.foldl KMap.erase k.pk, pres := u.pwr.foldl KMap.erase k.pres })

/-- Puts a word in the clause in the making. -/
def Making.put (m : Making) (w : Word) (opc : Nat) (link : RLink := .none) : Making :=
  { m with body := m.body ++ [{ w, opc, iter := m.iter, link }], unlast := false }

/-- The last word put ends some numbered loops. -/
def Making.ending (m : Making) (ids : List Nat) : Making :=
  { m with body := modNth m.body (m.body.length - 1) fun x => { x with ends := x.ends ++ ids } }

/-- The word with its known scalars replaced by immediates where R44 allows it in every repeat, none of which reads what an
earlier one wrote; what is left to read. -/
def replaceReads (k : Known) (w : Word) (uses : List Use) (rd : List (Nat × Nat)) : Word × List (Nat × Nat) :=
  rd.foldl (fun (a : Word × List (Nat × Nat)) r =>
    match KMap.get? k.kn r.1 with
    | some v =>
      if KMap.get? k.res r.1 = some v then (a.1, a.2 ++ [r])
      else if uses.all (fun u => u.rd.contains r) && !uses.dropLast.any (fun u => u.wr.contains r.1) then
        match immReplace a.1 r.2 v with
        | some w' => (w', a.2)
        | none => (a.1, a.2 ++ [r])
      else (a.1, a.2 ++ [r])
    | none => (a.1, a.2 ++ [r])) (w, [])

/-- Prepares the word at `i` for emission: its known sources replaced or materialised, and its destinations materialised
where the guard may leave them unwritten (R44, R47). `uses` are those of its repeats; a word that is not judged legal stands
as it is (R41). -/
def Ev.prepare (e : Ev) (m : Making) (k : Known) (i : Nat) (w : Word) (sure legal : Bool) (uses : List Use) :
    Ev × Making × Known × Word :=
  let u := uses.foldl Use.join {}
  let (w', rest) := if legal then replaceReads k w uses u.rd.dedup else (w, u.rd.dedup)
  let (e, m, k) := e.materialise m k i (rest.map (·.1) ++ if sure then [] else u.wr) (u.prd ++ if sure then [] else u.pwr)
  let (m, k) := noteUse m k { u with rd := rest }
  (e, m, k, w')

/-! ### Loops -/

/-- The words of a loop body from `pc` to its last word, clause by clause; none where a header does not decode. -/
def bodyWords (code : List Word) (fuel pc le : Nat) : Option (List Nat) :=
  match fuel with
  | 0 => none
  | f + 1 =>
    if le < pc then some []
    else
      match (code[pc]?).bind decodeHeader with
      | some h =>
        let here := ((List.range h.nwords).map fun i => pc + 1 + i).filter (· ≤ le)
        (bodyWords code f (pc + h.nwords + 1) le).map (here ++ ·)
      | none => none

/-- The target of a branch word at a PC. -/
def branchTo (pc : Nat) (off : BitVec 26) : Int := (pc : Int) + off.toInt

/-- May a loop body stand unrolled: no LOOP, LOOPX, CALL, RET or BRX, and no branch out of it (R43)? -/
def bodyUnrolls (code : List Word) (start le : Nat) : Bool :=
  match bodyWords code (le + 1) start le with
  | some pcs => pcs.all fun pc =>
      match (code[pc]?).bind decodeWord with
      | some (.bra b) => (start : Int) ≤ branchTo pc b.off && branchTo pc b.off ≤ le
      | some (.brx _) => false
      | some (.call _) => false
      | some (.ret _) => false
      | some (.loop _) => false
      | some (.loopx _) => false
      | _ => true
  | none => false

/-- Does an emitted loop of the path end at the word (R282)? Inside an unrolled loop that ends there too, only in its last
round. -/
def Known.endsAt (k : Known) (i : Nat) : Bool :=
  match k.loops with
  | l :: _ =>
    l.2 == i && (match k.unroll with
      | some (_, le, left, _) => le != i || left ≤ 1
      | none => true)
  | [] => false

/-- The path after the last word of its emitted loops: they are closed, and nothing is known, since the body may have run or
been skipped. -/
def Known.closeLoops (k : Known) (i : Nat) : Known :=
  let open_ := k.loops.dropWhile fun l => l.2 == i
  { k.forget with loops := open_, depth := k.depth.map (· - (k.loops.length - open_.length)) }

/-! ### Steps of the walk -/

/-- One more word visited, or the budget is spent (R49). -/
def Ev.visit (e : Ev) : Ev := { e with visited := e.visited + 1 }

/-- Where a transfer leads, or the original image (R42). -/
def goTo (e : Ev) (m : Making) (k : Known) (i : Nat) (t : Int) : Ev × Mode :=
  if t < 0 then (e, .original)
  else ({ e.flush m with led := (i, m.iter, m.origin) }, .reach t.toNat k false)

/-- After word `i` the path goes on at `i + 1`: a round of an unrolled loop ends there, or the next word or clause follows. -/
def Ev.after (e : Ev) (m : Making) (k : Known) (i : Nat) : Ev × Mode :=
  let here := fun (k : Known) =>
    if i < m.last then (e, Mode.word m k (i + 1)) else goTo e m k i (i + 1)
  match k.unroll with
  | some (start, le, left, it) =>
    if le = i then
      if left > 1 then goTo e m { k with unroll := some (start, le, left - 1, it + 1) } i start
      else if i < m.last then (e, .word m { k with unroll := none } (i + 1))
      else goTo e m { k with unroll := none } i (i + 1)
    else here k
  | none => here k

/-- The numbers of the path's innermost loops that end at word `i`. -/
def Known.endingAt (k : Known) (i : Nat) : List Nat := (k.loops.takeWhile fun l => l.2 == i).map (·.1)

/-- An unguarded BRA that ends the current residual clause, or stands alone behind one that cannot take it (R42). A clause
that ends with an illegal REP takes no word, which might make it legal. -/
def Ev.joinTo (e : Ev) (link : RLink) : Ev :=
  let (pc, iter, origin) := e.led
  let bra : RWord := { w := 0xC000000000000000, opc := pc, iter, link }
  let alone := { e with out := { origin, wait := 0, cls := 3, opc := pc, iter, words := [bra] } :: e.out }
  match e.out with
  | c :: r =>
    let ends := match c.words.getLast? with
      | some x => opClass (x.w.toNat / 2 ^ 56) == some 3 || x.w.toNat / 2 ^ 56 == 0x98
      | none => true
    if e.open_ && !ends && c.words.length < 15 then { e with out := { c with words := c.words ++ [bra] } :: r } else alone
  | [] => alone

/-- The path after the last word `i` of its emitted loops: the rest of the clause, or the next one, with nothing known. -/
def Ev.beyond (e : Ev) (m : Making) (k : Known) (i : Nat) : Ev × Mode :=
  let k := { k.closeLoops i with unroll := none }
  if i < m.last then (e, .word m k (i + 1))
  else ({ e.flush m with open_ := false, led := (i, m.iter, m.origin) }, .reach (i + 1) k false)

/-- Word `i` is the last of the path's innermost loops (R43): it is noted on the word just put. Where paths reach it in
several states, every copy of the word goes on to one NOP that ends the loops instead (log entry 27). -/
def Ev.closeAt (e : Ev) (m : Making) (k : Known) (i : Nat) : Ev × Mode :=
  let ids := k.endingAt i
  if !e.shared.contains i then e.beyond (m.ending ids) k i
  else
    let id := ids.headD 0
    let (e, m) := e.split m
    let e := { e with led := (i, m.iter, m.origin) }
    if e.tails.contains id then (e.joinTo (.loopTail id), .next)
    else
      let nop : RWord := { w := nopWord, opc := i, iter := m.iter, ends := ids }
      let c : RClause := { origin := m.origin, wait := 0, cls := 3, opc := i, iter := m.iter, words := [nop] }
      { e with out := c :: e.out, tails := id :: e.tails, open_ := false }.beyond m k i

/-- Goes on after an emitted word. -/
def Ev.emitted (e : Ev) (m : Making) (k : Known) (i : Nat) : Ev × Mode :=
  if k.endsAt i then e.closeAt m k i
  else
    let e := if k.depth.isNone && k.loops.isEmpty then { e with loose := i :: e.loose } else e
    e.after m k i

/-- Goes on after a word that folded or was dropped; the last word of an emitted loop leaves a NOP behind. -/
def Ev.folded (e : Ev) (m : Making) (k : Known) (i : Nat) : Ev × Mode :=
  if k.endsAt i then
    let (e, m, k) := e.matAll m k i
    e.closeAt (if e.shared.contains i then m else m.put nopWord i) k i
  else e.after m k i

/-- The state of a callee root (R39). -/
def Known.callee : Known := {}

/-- A word that is no REP, as it stands in the residual: emitted with what follows its kind. `sure`: its guard is known
true; `legal`: it is judged legal. A LOOP that does not end its clause returns to a word that is no header, and the launch
runs the original image (R48, R281; log entry 27). -/
def Ev.emitWord (e : Ev) (m : Making) (k : Known) (i : Nat) (w : Word) (ins : Instr) (sure legal : Bool) : Ev × Mode :=
  let all := fun (_ : Unit) => e.matAll m k i
  let prep := fun (_ : Unit) =>
    let (e, m, k) := if k.endsAt i then all () else (e, m, k)
    e.prepare m k i w sure legal [wordUse w]
  match ins with
  | .bra b =>
    let (e, m, k) := all ()
    let t := branchTo i b.off
    if t < 0 then (e, .original)
    else
      let f := k.forget
      let e := { e with work := (t.toNat, f) :: e.work }
      e.emitted (m.put w i (.copy { pc := t.toNat, n := e.n, k := f })) f i
  | .loopx b =>
    let (e, m, k) := all ()
    let t := branchTo i b.off
    if t < 0 then (e, .original)
    else
      let f := k.forget
      let out := { f with loops := f.loops.drop 1, depth := f.depth.map (· - 1) }
      let e := { e with work := (t.toNat, out) :: e.work }
      e.emitted (m.put w i (.copy { pc := t.toNat, n := e.n, k := out })) f i
  | .brx _ => (e, .original)
  | .call b =>
    let (e, m, k) := all ()
    let t := branchTo i b.off
    if t < 0 then (e, .original)
    else
      let n := e.img.minRegs
      let e := if e.callees.contains t.toNat then e
        else { e with callees := e.callees ++ [t.toNat], todo := e.todo ++ [(t.toNat, n, Known.callee)] }
      e.emitted (m.put w i (.copy { pc := t.toNat, n, k := Known.callee })) { k.forget with depth := none } i
  | .ret _ =>
    let (e, m, k) := all ()
    let m := m.put w i
    if sure && !k.endsAt i then (e.flush m, .next) else e.emitted m k.forget i
  | .loop b =>
    let (e, m, k) := all ()
    let le := branchTo i b.off
    if i ≠ m.last then (e, .original)
    else
      let id := e.loopNo
      let e := { e with loopNo := id + 1, lasts := le.toNat :: e.lasts }
      let outer := if k.endsAt i then k.endingAt i else []
      let k := { k.forget with loops := (id, le.toNat) :: k.loops, depth := if sure then k.depth.map (· + 1) else none }
      e.after ((m.put w i (.loopEnd id)).ending outer) k i
  | .exit _ =>
    let (e, m, k, w) := prep ()
    let m := m.put w i
    if sure && !k.endsAt i then (e.flush m, .next) else e.emitted m k i
  | .tret _ =>
    let (e, m, k, w) := prep ()
    let m := m.put w i
    if sure && !k.endsAt i then (e.flush m, .next) else e.emitted m k i
  | .spawn b =>
    let (e, m, k, w) := prep ()
    match e.img.spawns.find? (fun x => (x.entry.toNat : Int) == branchTo i b.off) with
    | some x => e.emitted (m.put w i (.copy { pc := x.entry.toNat, n := x.regs, k := Known.entry })) k i
    | none =>
      -- no entry: the offset becomes 0, which names no entry either, and the word faults as the original's does
      e.emitted (m.put (w &&& ~~~(BitVec.ofNat 64 (0x3FFFFFF * 2 ^ 24))) i) k i
  | _ =>
    let (e, m, k, w) := prep ()
    e.emitted (m.put w i) k i

/-- A word whose mark and guard fold it: a known branch, an unrolled LOOP, or a word R40 folds. -/
def Ev.foldWord (e : Ev) (m : Making) (k : Known) (i : Nat) (w : Word) (ins : Instr) : Option (Ev × Mode) :=
  let val := fun (o : Opnd) =>
    match o with
    | .s r => KMap.get? k.kn r.toNat
    | .sp .zero => some (0 : Word)
    | .sp .ones => some (BitVec.allOnes 64)
    | .imm n => some (BitVec.signExtend 64 n)
    | _ => none
  match ins with
  | .bra b => some (goTo e m k i (branchTo i b.off))
  | .brx b => (val b.a).map fun v => goTo e m k i (branchTo i b.off + (BitVec.ofNat 32 v.toNat).toInt)
  | .loop b =>
    match val b.a with
    | some v =>
      let cnt := v.toNat % 2 ^ 32
      let le := (branchTo i b.off).toNat
      let deep := match k.depth with
        | some d => decide (d > 3)
        | none => true
      if i ≠ m.last || !bodyUnrolls e.img.code (i + 1) le || (cnt != 0 && deep) || k.endsAt i || k.unroll.isSome then none
      else if cnt = 0 then some (goTo e m k i (le + 1))
      else some (goTo e m { k with unroll := some (i + 1, le, cnt, 0) } i (i + 1))
    | none => none
  | ins => (k.fold e.img e.args w ins).map fun k => e.folded m k i

/-- What the mark of a word that is emitted asks for: 0b10 refuses the launch, and before 0b11 everything known is
materialised (R45, R51); so it is before the last word of an emitted loop. -/
def Ev.marked (e : Ev) (m : Making) (k : Known) (i : Nat) (mark : BitVec 2) : Ev × Making × Known :=
  let e := if mark = 2 then { e with static_ := true } else e
  if mark = 3 || k.endsAt i then e.matAll m k i else (e, m, k)

/-- A word that cannot be legal: emitted unchanged, to fault where the original would (R41, R48). It stays illegal: one of
class 3 inside its clause does not end the copy, and an illegal REP ends it. -/
def Ev.bad (e : Ev) (m : Making) (k : Known) (i : Nat) (w : Word) : Ev × Mode :=
  let mark := (Guard.ofWord w.toNat).mark
  let (e, m, k) := e.marked m k i mark
  let k := if mark = 3 then k.forget else k
  let op := w.toNat / 2 ^ 56
  let m := { m.put w i with unlast := opClass op == some 3 && i != m.last }
  if op = 0x98 && i < m.last && !k.endsAt i then
    let (e, m) := e.split m
    e.after m k i
  else e.emitted m k i

/-- A REP that is itself legal, with its target (R40, R41, R45, R209): dropped or folded with a legal target whose every
repeat is legal, and otherwise emitted, unchanged where a repeat or the target is not judged legal. -/
def Ev.repPair (e : Ev) (m : Making) (k : Known) (i : Nat) (w t : Word) (imm : BitVec 32) (place : Bool) : Ev × Mode :=
  let e := e.visit
  let tail := i + 1
  let g := Guard.ofWord t.toNat
  let reps := (List.range (repCount imm)).map fun j => stepWord t imm j
  let uses := reps.filterMap fun r => r.map fun x => wordUse (encode x)
  let legal := place && reps.all (·.isSome) && uses.all (·.vtop ≤ e.n)
  let try_ :=
    if !legal || g.mark = 3 then none
    else if k.guard g = some false then some k
    else if g.mark = 0 ∨ k.guard g ≠ some true then none
    else reps.foldl (fun (a : Option Known) r =>
      a.bind fun k => r.bind fun x => k.fold e.img e.args (encode x) x) (some k)
  match try_ with
  | some k => e.folded m k tail
  | none =>
    let sure := k.guard g == some true
    let (e, m, k) := e.marked m k tail g.mark
    let (e, m, k, t) := e.prepare m k i t sure (legal && g.mark ≠ 3) uses
    e.emitted ((m.put w i).put t tail) (if g.mark = 3 then k.forget else k) tail

/-- Takes word `i` of the clause in the making. -/
def Ev.word (e : Ev) (m : Making) (k : Known) (i : Nat) : Ev × Mode :=
  let e := e.visit
  let w := e.img.code.getD i 0
  let opAt := fun (j : Nat) => (e.img.code.getD j 0).toNat / 2 ^ 56
  match decodeWord w with
  | none => e.bad m k i w
  | some ins =>
    if !placeOk m.cls ins.opcode (i == m.last) (opAt (i + 1)) then e.bad m k i w
    else
      match ins with
      | .rep r =>
        let t := e.img.code.getD (i + 1) 0
        if repLegal t r.imm then
          e.repPair m k i w t r.imm
            ((decodeWord t).any fun x => placeOk m.cls x.opcode (i + 1 == m.last) (opAt (i + 2)))
        else e.bad m k i w
      | ins =>
        let g := Guard.ofWord w.toNat
        let gv := k.guard g
        let legal := (wordUse w).vtop ≤ e.n
        let f :=
          if !legal || g.mark = 3 then none
          else if gv = some false then some (e.folded m k i)
          else if g.mark = 0 ∨ gv ≠ some true then none
          else e.foldWord m k i w ins
        match f with
        | some r => r
        | none =>
          let (e, m, k) := e.marked m k i g.mark
          if g.mark = 3 then
            let (m, k) := noteUse m k (wordUse w)
            e.emitWord m k.forget i w ins (gv == some true) false
          else e.emitWord m k i w ins (gv == some true) legal

/-- The index of the clause whose header stands at a PC, counted from a clause at `at_` (R46). -/
def clauseIndex (code : List Word) (fuel at_ no pc : Nat) : Option Nat :=
  match fuel with
  | 0 => none
  | f + 1 =>
    if at_ = pc then some no
    else (code[at_]?.bind decodeHeader).bind fun h => clauseIndex code f (at_ + h.nwords + 1) (no + 1) pc

/-- Reaches a clause in a state: joins its copy if there is one, or begins one (R42, R48). -/
def Ev.reach (e : Ev) (pc : Nat) (k : Known) (first : Bool) : Ev × Mode :=
  let key : CopyKey := { pc, n := e.n, k }
  if e.copies.any fun c => c.1 == key then (if first then e else e.joinTo (.copy key), .next)
  else
    match (e.img.code[pc]?).bind decodeHeader with
    | some h =>
      if e.img.code.length ≤ pc + h.nwords then (e, .original)
      else
        let it := match k.unroll with
          | some u => u.2.2.2
          | none => 0
        let e := { e with copies := (key, e.out.length) :: e.copies, open_ := e.open_ && !first }
        let no := (clauseIndex e.img.code e.img.code.length 0 0 pc).getD h.origin
        (e, .word { origin := no % 2 ^ 24, wait := h.wait, cls := h.cls, hpc := pc, last := pc + h.nwords, iter := it } k (pc + 1))
    | none => (e, .original)

/-- The next path of the root, or the next root; a root's residual stays within its limit (R49, R55). -/
def Ev.next (e : Ev) : Ev × Mode :=
  match e.work with
  | (pc, k) :: r => ({ e with work := r, open_ := false }, .reach pc k true)
  | [] =>
    if clauseWords e.out > e.from_ + 8192 then (e, .original)
    else
      match e.todo with
      | (pc, n, k) :: r =>
        ({ e with todo := r, n, from_ := clauseWords e.out, open_ := false }, .reach pc k true)
      | [] => (e, .finished)

/-- One step of the walk. -/
def Ev.step (e : Ev) (m : Mode) : Ev × Mode :=
  if e.visited > 200000 then (e, .original)
  else
    match m with
    | .reach pc k first => e.reach pc k first
    | .word m k i => e.word m k i
    | .next => e.next
    | .finished => (e, .finished)
    | .original => (e, .original)

/-- The walk, for at most `fuel` steps. -/
def Ev.run (e : Ev) (m : Mode) (fuel : Nat) : Ev × Mode :=
  match fuel with
  | 0 => (e, .original)
  | f + 1 =>
    match m with
    | .finished => (e, .finished)
    | .original => (e, .original)
    | m =>
      let x := e.step m
      x.1.run x.2 f

/-! ### The residual code -/

/-- The PC of each clause. -/
def clausePcs (at_ : Nat) (l : List RClause) : List Nat :=
  match l with
  | [] => []
  | c :: r => at_ :: clausePcs (at_ + c.words.length + 1) r

/-- The PC of a copy. -/
def Ev.copyPc (e : Ev) (pcs : List Nat) (key : CopyKey) : Option Nat :=
  (e.copies.find? fun c => c.1 == key).bind fun c => pcs[c.2]?

/-- The PCs of the words that end a numbered loop. -/
def Ev.endPcs (e : Ev) (pcs : List Nat) (id : Nat) : List Nat :=
  (e.out.reverse.zip pcs).flatMap fun c =>
    (c.1.words.mapIdx fun i x => (i, x)).filterMap fun x => if x.2.ends.contains id then some (c.2 + 1 + x.1) else none

/-- The PC of the last word of a numbered loop, which has just one. -/
def Ev.endPc (e : Ev) (pcs : List Nat) (id : Nat) : Option Nat :=
  match e.endPcs pcs id with
  | [p] => some p
  | _ => none

/-- The original PCs of last words of emitted loops that stand in several copies. -/
def Ev.several (e : Ev) : List Nat :=
  let ws := (e.out.flatMap (·.words)).filter fun x => !x.ends.isEmpty
  ((ws.filter fun x => x.ends.any fun d => decide ((ws.filter fun y => y.ends.contains d).length > 1)).map (·.opc)).dedup

/-- The offset of a residual word replaced. -/
def setOff (w : Word) (off : Int) : Word :=
  (w &&& ~~~(BitVec.ofNat 64 (0x3FFFFFF * 2 ^ 24))) |||
    BitVec.ofNat 64 ((BitVec.ofInt 26 off).toNat * 2 ^ 24)

/-- A residual word at a PC with its link resolved. -/
def Ev.resolve (e : Ev) (pcs : List Nat) (pc : Nat) (x : RWord) : Option Word :=
  match x.link with
  | .none => some x.w
  | .copy key => (e.copyPc pcs key).map fun t => setOff x.w ((t : Int) - pc)
  | .loopEnd id =>
    (e.endPc pcs id).bind fun t => if pc + 2 ≤ t then some (setOff x.w ((t : Int) - pc)) else none
  | .loopTail id => (e.endPc pcs id).map fun t => setOff x.w ((t : Int) - 1 - pc)

/-- The words of a clause at a PC, with their back-map entries. -/
def Ev.layClause (e : Ev) (pcs : List Nat) (at_ : Nat) (c : RClause) : Option (List (Word × BackMap)) :=
  let h : Word := { origin := c.origin, wait := c.wait, cls := c.cls, nwords := c.words.length : Header }.encode
  let head : Word × BackMap := (h, { opc := BitVec.ofNat 32 c.opc, iter := c.iter })
  (c.words.mapIdx fun i x => (i, x)).foldl (fun (a : Option (List (Word × BackMap))) x =>
    a.bind fun l => (e.resolve pcs (at_ + 1 + x.1) x.2).map fun w =>
      l ++ [(w, { opc := BitVec.ofNat 32 x.2.opc, iter := x.2.iter })]) (some [head])

/-- The residual code of a finished walk; none where it cannot be laid out, or outgrows four times the original (R49). -/
def Ev.residual (e : Ev) (roots : List (Nat × Nat × Known)) : Option Residual :=
  let cs := e.out.reverse
  let pcs := clausePcs 0 cs
  if clauseWords cs > 4 * e.img.code.length || e.loose.any (fun x => e.lasts.contains x) then none
  else
    let laid := (cs.zip pcs).foldl (fun (a : Option (List (Word × BackMap))) x =>
      a.bind fun l => (e.layClause pcs x.2 x.1).map (l ++ ·)) (some [])
    let ents := (roots ++ e.callees.map fun c => (c, e.img.minRegs, Known.callee)).map fun r =>
      (e.copyPc pcs { pc := r.1, n := r.2.1, k := r.2.2 }).map fun p => (BitVec.ofNat 32 r.1, r.2.1, BitVec.ofNat 32 p)
    match laid with
    | some l =>
      if ents.all (·.isSome) then
        some { code := l.map (·.1), back := l.map (·.2), roots := ents.filterMap id }
      else none
    | none => none

/-- What the evaluator makes of a launch: nothing, or residual code, the words visited, and whether a word marked 0b10 did
not fold (R51). -/
inductive EvalResult where
  | original
  | residual (r : Residual) (visited : Nat) (refuse : Bool)
  deriving DecidableEq, Repr, Inhabited

/-- The walk of an image's roots. Where the last word of an emitted loop comes to stand in several copies, the walk is made
again with one common last word for them, since a LOOP names one. -/
def evalWalk (img : Image) (args : List Byte) (roots : List (Nat × Nat × Known)) (fuel : Nat) (shared : List Nat) : Ev × Mode :=
  match fuel with
  | 0 => ({ img, args }, .original)
  | f + 1 =>
    let x := ({ img, args, todo := roots, shared } : Ev).run .next 1000000
    let more := x.1.several.filter fun i => !shared.contains i
    if more.isEmpty then x else evalWalk img args roots f (shared ++ more)

/-- Evaluates an image with its captured arguments (R42, R49, R51, R55). -/
def evaluate (img : Image) (args : List Byte) : EvalResult :=
  let roots := (img.roles.map fun r => (r.entry.toNat, r.regs, Known.entry)) ++
    img.spawns.map fun x => (x.entry.toNat, x.regs, Known.entry)
  match evalWalk img args roots (img.code.length + 1) [] with
  | (e, .finished) =>
    match e.residual roots with
    | some r => .residual r e.visited e.static_
    | none => .original
  | _ => .original

end Sys2Proof.Machine
end

