-- ==== Sys2Proof/Machine/Launches.lean ====
section
/-! DEFINITION. Launches and graphs: the front end's own accesses, the descriptor and its checks, argument capture, the
specialisation cache, starting and completing a launch, and the nodes of a running graph (R36, R50 to R55, R151, R317 to
R323, R327, R402). -/

namespace Sys2Proof.Machine

open Sys2Proof

/-! ### Accesses of the front end -/

/-- The front end translates through the leader die's page table (log entry 25). -/
def State.feDie (s : State) : Nat := s.boot.leader

/-- Translates an address of the front end, in HBM or on the bus; an HBM home that cannot be reached is ABSENT. -/
def State.feTranslate (s : State) (part va acc : Nat) : State × Except TErr Attr :=
  let die := s.feDie
  match s.translate die part va 0 acc with
  | (s, .ok a) => (s, if s.reach die (dieOfPa a.pa) then .ok a else .error { cause := 6 })
  | (s, .error e) => if e.cause = 4 ∧ e.reason = 2 then s.translate die part va 5 acc else (s, .error e)

/-- Reads bytes of HBM lines at their homes. -/
def State.homeBytes (s : State) (part : Nat) (at_ : Attr) (n : Nat) : State × List Byte :=
  (rangeLines (n / 64 + 2) at_.pa n).foldl (fun (a : State × List Byte) l =>
    let (s, bs) := a.1.homeReadBytes part { at_ with pa := l.1 * 64 + l.2.1 } l.2.2
    (s, a.2 ++ bs)) (s, [])

/-- Writes bytes of HBM lines at their homes. -/
def State.homePut (s : State) (part : Nat) (at_ : Attr) (bs : List Byte) : State :=
  (splitLines (bs.length / 64 + 2) at_.pa bs).foldl (fun s l =>
    let (m, d) := atLine (l.1 * 64 + l.2.1) l.2.2
    s.homeWrite part (l.1 * 64) at_.cmp m d) s

/-- Free bytes (log entry 4). -/
def State.freeBytes (s : State) (n : Nat) : State × List Byte :=
  ({ s with free := s.free + n }, (List.range n).map fun i => BitVec.ofNat 8 (Config.freeBits (s.free + i)).toNat)

/-- Reads bytes for the front end; a page that cannot be reached gives free values (log entry 26). -/
def State.feRead (s : State) (part va n : Nat) : State × List Byte :=
  (pagePieces (n / 4096 + 2) va n).foldl (fun (a : State × List Byte) p =>
    match a.1.feTranslate part p.1 0 with
    | (s, .ok at_) =>
      if at_.mtype ≤ 1 then
        let (s, bs) := s.homeBytes part at_ p.2
        (s, a.2 ++ bs)
      else (s, a.2 ++ s.busRead at_ p.2)
    | (s, .error _) =>
      let (s, bs) := s.freeBytes p.2
      (s, a.2 ++ bs)) (s, [])

/-- Words read for the front end. -/
def State.feWords (s : State) (part va n : Nat) : State × List Word :=
  let (s, bs) := s.feRead part va (8 * n)
  (s, (List.range n).map fun i => leWord (bs.drop (8 * i)))

/-- Writes bytes for the front end: every page is translated first, and a failure leaves everything unwritten. `acc` is 0
for the argument pool, whose leaves have W clear (R402). -/
def State.feWrite (s : State) (part va acc : Nat) (bs : List Byte) : State × Option FaultRec :=
  let (s, pages, bad) := (pagePieces (bs.length / 4096 + 2) va bs.length).foldl
    (fun (a : State × List (Nat × Nat × Attr) × Option FaultRec) p =>
      match a.1.feTranslate part p.1 acc with
      | (s, .ok at_) => (s, a.2.1 ++ [(p.1, p.2, at_)], a.2.2)
      | (s, .error e) =>
        (s, a.2.1, a.2.2.or (some
          { cause := e.cause, reason := e.reason, addr := p.1, client := 9, acc := 1, hostpri := e.hostpri })))
    (s, [], none)
  match bad with
  | some r => (s, some r)
  | none =>
    (pages.foldl (fun s p =>
      let part_ := (bs.drop (p.1 - va)).take p.2.1
      if p.2.2.mtype ≤ 1 then s.homePut part p.2.2 part_ else (s.busAtomic p.2.2 p.2.1 fun _ => part_).1) s, none)

/-! ### Front-end writes that fault (R319) -/

/-- The tag of a queue's front-end writes. -/
def feTag (q : Nat) : Nat := 0xFFC0 + q

/-- Does an event of the queue's front-end writes wait? -/
def State.feWaits (s : State) (part q : Nat) : Bool := (KMap.get? (s.partD part).events (feTag q)).isSome

/-- Posts a front-end write's fault record. -/
def State.feFault (s : State) (part q : Nat) (w : FeWrite) (r : FaultRec) : State :=
  s.report s.feDie part (feTag q)
    { who := .front w, first := r, pris := r.hostpri.toList }
    [r.words (feTag q) 0 1 0 0 s.feDie 0 0 0]

/-! ### Descriptors (R317) -/

/-- A launch descriptor; `bad`: a reserved bit is set or a field is out of range. -/
structure Desc where
  image : Nat
  args : Nat
  clusg : Nat
  det : Bool
  prio : Nat
  arglen : Nat
  nblocks : Nat
  dieg : Nat
  stackg : Nat
  seed : Word
  done : Nat
  spill : Nat
  bad : Bool
  deriving DecidableEq, Repr, Inhabited

/-- The descriptor of eight words (Table 2). -/
def parseDesc (ws : List Word) : Desc :=
  let w := fun (i : Nat) => (ws.getD i 0).toNat
  let d : Desc :=
    { image := bits (w 0) 51 0, args := bits (w 1) 51 0, clusg := bits (w 2) 55 52, det := bits (w 2) 48 48 == 1,
      prio := bits (w 2) 47 45, arglen := bits (w 2) 44 32, nblocks := bits (w 2) 31 0, dieg := bits (w 3) 10 5,
      stackg := bits (w 3) 4 0, seed := ws.getD 4 0, done := bits (w 5) 51 0, spill := bits (w 6) 51 0, bad := false }
  let reserved :=
    [bits (w 0) 63 52, bits (w 1) 63 52, bits (w 2) 63 56, bits (w 2) 51 49, bits (w 3) 63 11, bits (w 5) 63 52,
     bits (w 6) 63 52, w 7].any (· != 0)
  let range :=
    d.clusg > 4 || d.arglen > 4096 || d.nblocks == 0 || d.dieg > 56 || d.stackg > 28 || d.done % 64 != 0 ||
    d.spill % 4096 != 0
  { d with bad := reserved || range }

/-! ### Checks (R318) -/

/-- The 6-byte entries of a rung table. -/
def rungEntries (fuel : Nat) (bs : List Byte) : List (List Byte) :=
  match fuel with
  | 0 => []
  | f + 1 => if bs.isEmpty then [] else bs.take 6 :: rungEntries f (bs.drop 6)

/-- Is a rung entry good (R107)? -/
def rungOk (e : List Byte) : Bool :=
  let b := fun (i : Nat) => (e.getD i 0).toNat
  let af := b 0 % 16
  let bf := b 0 / 16
  e.length == 6 && af ≤ 10 && bf ≤ 10 && b 1 / 16 == 0 && mxOk af (b 1 % 4) && mxOk bf (b 1 / 4 % 4) && b 5 / 16 == 0

/-- Is the rung table good: at most 6 entries, each good, numbered 0 upwards in order (R106, R107)? -/
def Image.rungsOk (i : Image) : Bool :=
  i.rungs.length ≤ 36 && (rungEntries 7 i.rungs).all rungOk && i.rungNos == List.range (i.rungs.length / 6)

/-- Bytes of the A-buffer the regions take. -/
def Image.aSize (i : Image) : Nat := (i.regions.map (·.size)).sum

/-- The register charge of the roles' warps, in registers of 256 bytes (R26, R28). -/
def Image.roleCharge (i : Image) : Nat := (i.roles.map fun r => r.warps * charge r.regs).sum

/-- The child reserve of R27, in registers. -/
def Image.reserve (i : Image) : Nat := 4 * (i.spawns.map fun x => charge x.regs).foldl max 0

/-- Does a block fit an empty core (R28, R57, R60, R69, R238)? The live file holds 2,048 registers of 256 bytes. -/
def Image.fits (i : Image) : Bool :=
  i.warps ≤ 32 && i.roleCharge + i.reserve ≤ 2048 && i.aSize + i.vpa ≤ 2 ^ 20 && i.wSize ≤ 2 ^ 19 &&
  i.cSize + i.vpc ≤ 2 ^ 19 && i.vpa ≤ 2 ^ 18 && i.vpc ≤ 2 ^ 18 && i.nbar ≤ 128

/-- Does the image hold a word of opcodes 0xE0 to 0xE5 (R327)? Clauses are read in order. -/
def holdsMatrix (fuel : Nat) (code : List Word) : Bool :=
  match fuel with
  | 0 => false
  | f + 1 =>
    match code with
    | [] => false
    | h :: r =>
      match decodeHeader h with
      | some h =>
        (r.take h.nwords).any (fun w => 0xE0 ≤ w.toNat / 2 ^ 56 && w.toNat / 2 ^ 56 ≤ 0xE5) ||
        holdsMatrix f (r.drop h.nwords)
      | none => holdsMatrix f r

/-- Does a block of the image need a power token? -/
def Image.needsToken (i : Image) : Bool := holdsMatrix i.code.length i.code

/-- The status of a launch that is refused before its walk, in the order of R318; 0 where none applies. -/
def launchStatus (d : Desc) (img : Option Image) (ptokcap : Nat) : Nat :=
  match img with
  | none => 6
  | some i =>
    if d.bad || d.arglen < i.argSize || i.roles.isEmpty then 6
    else if i.regions.any (fun r => r.span ≥ 6) then 9
    else if !i.rungsOk then 3
    else if i.spill != 0 && d.spill == 0 then 5
    else if i.warps > 26 && !i.spawns.isEmpty then 4
    else if !i.fits then 1
    else if i.needsToken && (if d.clusg = 0 then 1 else min d.clusg d.nblocks) > ptokcap then 8
    else 0

/-! ### Argument capture (R36, R402) -/

/-- The lowest free page of the partition's argument pool. -/
def State.freePage (s : State) (part : Nat) : Option Nat :=
  let p := s.partD part
  ((List.range p.regs.argPoolN.toNat).map fun i => p.regs.argPool.toNat / 4096 * 4096 + 4096 * i).find? fun a =>
    !p.pages.contains a

/-- The argument page of a launch refused before its arguments were captured: no address of a pool. -/
def noPage : Nat := 2 ^ 52

/-- Takes a page. -/
def State.takePage (s : State) (part page : Nat) : State :=
  s.modPart part fun p => { p with pages := p.pages ++ [page] }

/-- Frees a page. -/
def State.dropPage (s : State) (part page : Nat) : State :=
  s.modPart part fun p => { p with pages := p.pages.filter (· != page) }

/-- Copies an argument block into a page: its bytes, then zeros. -/
def State.capture (s : State) (part page args len : Nat) : State × Option FaultRec :=
  let (s, bs) := s.feRead part args (min len 4096)
  s.feWrite part page 0 (bs ++ List.replicate (4096 - bs.length) 0)

/-! ### The specialisation cache (R52 to R54) -/

/-- The key of a launch (R52, Table 3). -/
def specKey (i : Image) (args : List Byte) : BitVec 128 :=
  let st := i.staticBytes args
  let spawns := sortBy (fun a b => a ≤ b) (i.spawns.map fun x => x.entry.toNat)
  BitVec.ofNat 128 (leNat (shake256 16
    (i.identity ++ leBytes 2 st.length ++ st ++ leBytes 1 (i.rungs.length / 6) ++ i.rungs ++
     (i.roles.flatMap fun r => leBytes 1 r.warps ++ leBytes 1 r.regs ++ leBytes 4 r.entry.toNat) ++
     leBytes 2 spawns.length ++ spawns.flatMap (leBytes 4))))

/-- The present dies. -/
def State.presentDies (s : State) : List Nat := (List.range 4).filter fun d => s.boot.present.getLsbD d

/-- The bytes an entry occupies (R53). -/
def CacheEntry.bytes (e : CacheEntry) : Nat := 64 + 8 * e.res.roots.length + 16 * e.res.code.length

/-- Is an entry pinned: does a launch that has not completed use it (R54)? -/
def State.pinned (s : State) (e : CacheEntry) : Bool :=
  (KMap.vals s.launches).any fun l =>
    l.spec && l.key == e.key && ((s.image (imageKey l.part l.image)).map (·.identity)) == some e.identity

/-- Evicts entries that are not pinned, least recently used first, until `room` bytes are free of the die's 4 MiB; none if
that cannot be. -/
def State.evictFor (s : State) (room : Nat) (fuel : Nat) (l : List CacheEntry) : Option (List CacheEntry) :=
  match fuel with
  | 0 => none
  | f + 1 =>
    if (l.map (·.bytes)).sum + room ≤ 2 ^ 22 then some l
    else
      match l.find? fun e => !s.pinned e with
      | some e => s.evictFor room f (l.erase e)
      | none => none

/-- The entry of a key in a die's cache. -/
def Die.lookup (d : Die) (key : BitVec 128) (identity : List Byte) : Option CacheEntry :=
  d.cache.find? fun e => e.key == key && e.identity == identity

/-- Installs an entry on every present die as the most recently used; none if some die cannot free the room. -/
def State.install (s : State) (e : CacheEntry) : Option State :=
  s.presentDies.foldl (fun (a : Option State) d => a.bind fun s =>
    let l := (s.die d).cache.filter fun x => !(x.key == e.key && x.identity == e.identity)
    (s.evictFor e.bytes (l.length + 1) l).map fun l => s.modDie d fun x => { x with cache := l ++ [e] }) (some s)

/-- How a launch will run: the original image, or residual code, at once or after some ck of evaluation, unless its walk
refuses it. -/
inductive SpecResult where
  | original
  | residual (r : Residual) (wait : Nat) (refuse : Bool)
  deriving DecidableEq, Repr, Inhabited

/-- Specialises a launch: residual code at once after a hit on every present die, or after its evaluation (R50, R51, R53). -/
def State.specialise (s : State) (img : Image) (args : List Byte) (key : BitVec 128) : State × SpecResult :=
  if img.nospec then (s, .original)
  else
    let hits := s.presentDies.map fun d => (s.die d).lookup key img.identity
    match hits.all (·.isSome), hits with
    | true, some e :: _ => ((s.install e).getD s, .residual e.res 0 false)
    | _, _ =>
      match evaluate img args with
      | .original => (s, .original)
      | .residual r n refuse => (s, .residual r (max n 1) refuse)

/-! ### Starting a launch -/

/-- A launch made from its descriptor. -/
def descLaunch (d : Desc) (part q ctx page : Nat) (graph : Option (Nat × Nat)) (recNode : Bool) (seed : Word) : Launch :=
  { part, ctx, queue := q, image := d.image, argPage := page, nblocks := if recNode then 0 else d.nblocks,
    clusg := d.clusg, stackg := d.stackg, dieg := d.dieg, det := d.det, prio := d.prio, seed, doneVa := d.done,
    spillVa := d.spill, graph, recNode }

/-- The unplaced blocks of a launch. -/
def blocksFrom (n : Nat) : List Unplaced := (List.range n).map fun i => { idx := i }

/-- Adds a launch to the table and to its queue's outstanding ones. -/
def State.addLaunch (s : State) (l : Launch) : State × Nat :=
  let id := s.nextUid
  let s := (s.newUid.setLaunch id l)
  (if l.graph.isSome then s
   else s.modPart l.part fun p =>
     { p with queues := KMap.modify p.queues l.queue fun x => { x with pendingIds := x.pendingIds ++ [id] } }, id)

/-- Gives a launch its code and its starting memory: its key is taken, and it runs at once or after its evaluation. -/
def State.beginLaunch (s : State) (l : Launch) (img : Image) : State × Launch :=
  let (s, args) := s.feRead l.part l.argPage 4096
  let key := specKey img args
  let l := { l with key, detHbm := if l.det then s.hbm else [], detBus := if l.det then s.bus else [],
                    unplaced := blocksFrom l.nblocks }
  match s.specialise img args key with
  | (s, .original) => (s, l)
  | (s, .residual r n refuse) =>
    (s, { l with resid := some r, spec := n == 0, refuse, phase := if n = 0 then .running else .evaluating,
                 readyCk := s.ck + n })

/-! ### Records (R319, R320) -/

/-- A completion record's bytes. -/
def recordBytes (status aband top replays : Nat) (det spec : Bool) (seed w3 : Word) : List Byte :=
  leBytes 8 (status % 256 + (if spec then 256 else 0) + (if det then 512 else 0) + aband % 2 ^ 32 * 2 ^ 32) ++
  leBytes 8 (replays % 2 ^ 32 + top % 2 ^ 32 * 2 ^ 32) ++ wordBytes seed ++ wordBytes w3 ++ leBytes 32 0

/-- The record of a launch with its list of abandoned blocks, at most 1,008. -/
def Launch.record (l : Launch) : List Byte :=
  recordBytes l.status l.abandoned.length l.topTrips l.replays l.det l.spec l.seed 0 ++
  (l.abandoned.take 1008).flatMap (leBytes 4)

/-- A sum that saturates at 2^32 − 1. -/
def satAdd (a b : Nat) : Nat := min (a + b) (2 ^ 32 - 1)

/-- Every write of a launch's warps is written back, delivered and acknowledged (R151). -/
def State.releaseLaunch (s : State) (l : Launch) : State :=
  let cls := (l.wroteG.map fun e => e.1 / 2 ^ 34).dedup
  let s := cls.foldl (fun s cl => s.releaseSlice cl (l.mapWrote cl) .all) s
  s.releaseFabric l.wroteH .all

/-- Memory takes every merged delta in the order of R153 (R154). -/
def State.applyDeltas (s : State) (l : Launch) : State :=
  (l.merged.flatMap (·.2.2)).foldl (fun s b =>
    if b.host then { s with bus := Memory.write s.bus b.addr b.val }
    else s.homePut l.part { b.attr with pa := b.addr } [b.val]) s

/-! ### Graphs (R320 to R323) -/

/-- A graph at a place. -/
def State.graph (s : State) (part g : Nat) : Option Graph := KMap.get? (s.partD part).graphs g

/-- Changes a graph. -/
def State.modGraph (s : State) (part g : Nat) (f : Graph → Graph) : State :=
  s.modPart part fun p => { p with graphs := KMap.modify p.graphs g f }

/-- Changes a node's run. -/
def State.modRun (s : State) (part g n : Nat) (f : GRun → GRun) : State :=
  s.modGraph part g fun x => { x with runs := modNth x.runs n f }

/-- Has the launch a block on a core or still to place? -/
def State.blocksLeft (s : State) (id : Nat) (l : Launch) : Bool :=
  !l.unplaced.isEmpty || (KMap.vals s.blocks).any fun b => b.launch == id && !b.ended

/-- Decrements the counters of a node's successors, one at a time. -/
def State.decrement (s : State) (part g : Nat) (ns : List Nat) : State :=
  ns.foldl (fun s n => s.modRun part g n fun r => { r with counter := r.counter - 1 }) s

/-- A graph learns that a node's launch was refused or killed, so that no node starts any more (R321). -/
def State.noteBad (s : State) (l : Launch) : State :=
  match l.graph with
  | some (g, n) => if l.status = 0 then s else s.modGraph l.part g fun x => { x with bad := x.bad.or (some (l.status, n)) }
  | none => s

/-- A node's launch has completed: its figures join the graph's, and a launch that was not refused or killed decrements its
successors (R321). -/
def State.nodeDone (s : State) (part g n : Nat) (l : Launch) : State :=
  match s.graph part g with
  | some x =>
    let ok := l.status == 0
    let s := s.modGraph part g fun x =>
      { x with sumAband := satAdd x.sumAband l.abandoned.length, sumTop := satAdd x.sumTop l.topTrips,
               sumReplay := satAdd x.sumReplay l.replays }
    let s := s.modRun part g n fun r => { r with launch := none, done := ok }
    if ok then s.decrement part g ((x.nodes.getD n {}).succ) else s
  | none => s

/-- A launch whose record is written, or dropped, is over: its page is free, its queue and graph hear of it. -/
def State.endLaunch (s : State) (id : Nat) (l : Launch) : State :=
  let s := { s with launches := KMap.erase s.launches id, blocks := s.blocks.filter fun b => b.2.launch != id }
  let s := s.dropPage l.part l.argPage
  match l.graph with
  | some (g, n) => s.nodeDone l.part g n l
  | none =>
    s.modPart l.part fun p =>
      { p with queues := KMap.modify p.queues l.queue fun x => { x with pendingIds := x.pendingIds.filter (· != id) } }

/-- Writes a launch's record and ends it; a fault posts the event, and while one of the queue waits nothing is written. -/
def State.writeRecord (s : State) (id : Nat) : State :=
  match s.launch id with
  | some l =>
    if s.feWaits l.part l.queue then s.modLaunch id fun l => { l with phase := .finishing }
    else
      match s.feWrite l.part l.doneVa 1 l.record with
      | (s, none) => s.endLaunch id l
      | (s, some r) => (s.modLaunch id fun l => { l with phase := .finishing }).feFault l.part l.queue (.launchDone id) r
  | none => s

/-- A launch's own end: memory takes its deltas, its writes are released, and its record is written (R151, R154, R319). -/
def State.finishLaunch (s : State) (id : Nat) : State :=
  match s.launch id with
  | some l =>
    let s := (if l.det then s.applyDeltas l else s.releaseLaunch l).noteBad l
    (s.modLaunch id fun l => { l with phase := .finishing }).writeRecord id
  | none => s

/-- Starts a launch of a descriptor whose arguments are captured, or refuses it; the launch's number. -/
def State.startLaunch (s : State) (part q ctx page : Nat) (ws : List Word) (graph : Option (Nat × Nat)) (recNode : Bool) :
    State × Nat :=
  let d := parseDesc ws
  let img := s.image (imageKey part d.image)
  let seed := if d.seed = 0 then s.freeWord else d.seed
  let s := if d.seed = 0 then s.useFree else s
  let l := descLaunch d part q ctx page graph recNode seed
  let st := launchStatus d img s.ptokCap.toNat
  if st ≠ 0 then
    let l := { l with status := st, nblocks := 0, phase := .finishing }
    let (s, id) := s.addLaunch l
    ((s.noteBad l).writeRecord id, id)
  else
    let (s, l) := s.beginLaunch l (img.getD {})
    s.addLaunch l

/-- Refuses a launch whose walk left a word marked 0b10 unfolded: it completes with status STATIC (R51, R318). -/
def State.refuseStatic (s : State) (id : Nat) (l : Launch) : State :=
  let l := { l with status := 2, unplaced := [], resid := none, phase := .finishing }
  ((s.setLaunch id l).noteBad l).writeRecord id

/-- What a running graph can do next. -/
inductive GAct where
  | start (n : Nat)
  | block (n k : Nat)
  | close (n : Nat)
  deriving DecidableEq, Repr, Inhabited

/-- The launch of a node. -/
def State.nodeLaunch (s : State) (r : GRun) : Option (Nat × Launch) :=
  r.launch.bind fun id => (s.launch id).map fun l => (id, l)

/-- Has a node's launch no block left that runs or is still to run? -/
def State.nodeQuiet (s : State) (r : GRun) : Bool :=
  match s.nodeLaunch r with
  | some (id, l) => l.phase != .evaluating && !s.blocksLeft id l
  | none => true

/-- What a node can do next: a launch node at counter zero starts; a record node with COAL + 1 records, or at counter zero
with fewer, launches a block, and once it has none of either is complete (R321, R322). After a refusal or a kill no node
starts; the record nodes that have started go on, and end once no block of the graph is left to emit (`quiet`). -/
def State.nodeAct (s : State) (bad quiet : Bool) (n : Nat) (g : GNode) (r : GRun) : Option GAct :=
  if r.done || (bad && !r.started) then none
  else if !g.isRec then (if r.counter = 0 && !r.started then some (.start n) else none)
  else
    let spent := match s.nodeLaunch r with
      | some (_, l) => l.phase == .running && s.nodeQuiet r
      | none => !r.started
    if r.recs.length ≥ g.coal + 1 then some (.block n (g.coal + 1))
    else if r.counter ≠ 0 then (if bad && quiet && spent then some (.close n) else none)
    else if !r.recs.isEmpty then some (.block n r.recs.length)
    else if spent then some (.close n) else none

/-- The first action of a graph. -/
def State.graphAct (s : State) (part g : Nat) : Option GAct :=
  (s.graph part g).bind fun x =>
    if !x.running || x.writing || s.boot.mcload.isSome then none
    else
      let quiet := x.runs.all s.nodeQuiet
      ((x.nodes.zip x.runs).mapIdx fun n p => (n, p)).findSome? fun p => s.nodeAct x.bad.isSome quiet p.1 p.2.1 p.2.2

/-- Starts a node's launch. -/
def State.startNode (s : State) (part g n : Nat) : State :=
  match s.graph part g with
  | some x =>
    let r := x.runs.getD n {}
    let ctx := ((KMap.get? (s.partD part).queues x.queue).map (·.ctx)).getD 0
    let s := s.modRun part g n fun r => { r with started := true }
    let (s, id) := s.startLaunch part x.queue ctx (r.page.getD noPage) r.desc (some (g, n)) (x.nodes.getD n {}).isRec
    if (s.launch id).isSome then s.modRun part g n fun r => { r with launch := some id } else s
  | none => s

/-- What a node's run holds. -/
def State.nodeRun (s : State) (part g n : Nat) : GRun := ((s.graph part g).map fun x => x.runs.getD n {}).getD { started := true }

/-- A record node's launch, begun now if it never had a block; none once it is refused. -/
def State.openNode (s : State) (part g n : Nat) : State × Option Nat :=
  let s := if (s.nodeRun part g n).started then s else s.startNode part g n
  (s, (s.nodeLaunch (s.nodeRun part g n)).bind fun x => if x.2.phase = .finishing then none else some x.1)

/-- Launches one block of a record node with the first `k` records of its queue. -/
def State.recordBlock (s : State) (part g n k : Nat) : State :=
  match s.openNode part g n with
  | (s, some id) =>
    let recs := (s.nodeRun part g n).recs
    (s.modLaunch id fun l =>
      { l with unplaced := l.unplaced ++ [{ idx := l.nblocks, recs := (recs.take k).flatten }], nblocks := l.nblocks + 1 }).modRun
        part g n fun r => { r with recs := r.recs.drop k }
  | (s, none) => s

/-- Ends a record node. -/
def State.closeNode (s : State) (part g n : Nat) : State :=
  match s.openNode part g n with
  | (s, some id) => s.finishLaunch id
  | (s, none) => s

/-- Writes a graph's record: DONE or the status of the first node refused or killed (R320, R323). -/
def State.writeGraph (s : State) (part g : Nat) : State :=
  match s.graph part g with
  | some x =>
    let s := s.modGraph part g fun x => { x with writing := true }
    if s.feWaits part x.queue then s
    else
      let st := (x.bad.map (·.1)).getD 0
      let rec_ := recordBytes st x.sumAband x.sumTop x.sumReplay false false 0 (BitVec.ofNat 64 ((x.bad.map (·.2)).getD 0))
      match s.feWrite part x.doneVa 1 rec_ with
      | (s, none) =>
        (s.modGraph part g fun x => { x with running := false, writing := false, runs := [] }).modPart part fun p =>
          { p with queues := KMap.modify p.queues x.queue fun y => { y with pendingGraphs := y.pendingGraphs.filter (· != g) } }
      | (s, some r) => s.feFault part x.queue (.graphDone g) r
  | none => s

/-- Is a graph over: every node complete, or after a refusal or a kill no launch of it left? -/
def Graph.over (x : Graph) : Bool :=
  x.running && !x.writing && (if x.bad.isSome then x.runs.all (·.launch.isNone) else x.runs.all (·.done))

/-- Frees the argument pages of nodes that never launched. -/
def State.dropNodePages (s : State) (part g : Nat) : State :=
  match s.graph part g with
  | some x => x.runs.foldl (fun s r => if r.started then s else (r.page.map fun p => s.dropPage part p).getD s) s
  | none => s

/-- Lets a graph do all it can, and completes it. -/
def State.pumpGraph (s : State) (part g fuel : Nat) : State :=
  match fuel with
  | 0 => s
  | f + 1 =>
    match s.graphAct part g with
    | some (.start n) => (s.startNode part g n).pumpGraph part g f
    | some (.block n k) => (s.recordBlock part g n k).pumpGraph part g f
    | some (.close n) => (s.closeNode part g n).pumpGraph part g f
    | none =>
      if ((s.graph part g).map (·.over)).getD false then (s.dropNodePages part g).writeGraph part g else s

/-- Enough steps for a graph: each node starts and ends once, and each record enters one block. -/
def Graph.fuel (x : Graph) : Nat := 3 * x.nodes.length + (x.runs.map fun r => r.recs.length).sum + 3

/-- Lets a graph do all it can. -/
def State.pump (s : State) (part g : Nat) : State :=
  match s.graph part g with
  | some x => s.pumpGraph part g x.fuel
  | none => s

/-- Lets the graph of a launch do all it can, after something of the launch has changed. -/
def State.pumpFor (s : State) (l : Launch) : State :=
  match l.graph with
  | some (g, _) => s.pump l.part g
  | none => s

/-- Lets every graph of a partition do all it can. -/
def State.pumpPart (s : State) (part : Nat) : State :=
  (KMap.keys (s.partD part).graphs).foldl (fun s g => s.pump part g) s

/-- Attempts the front-end writes of a queue that wait, after an event has been answered (R319). -/
def State.feResume (s : State) (part q : Nat) : State :=
  let ids := (s.launches.filter fun l => l.2.part == part && l.2.queue == q && l.2.phase == .finishing).map (·.1)
  let s := ids.foldl (fun s id => if s.feWaits part q then s else s.writeRecord id) s
  let gs := ((s.partD part).graphs.filter fun g => g.2.queue == q && g.2.writing).map (·.1)
  let s := gs.foldl (fun s g => if s.feWaits part q then s else s.writeGraph part g) s
  s.pumpPart part

/-! ### Record queues (R292, R322) -/

/-- Room for `n` records in a node's queue. -/
def State.nodeRoom (s : State) (part g n k : Nat) : Bool :=
  match s.graph part g with
  | some x => (x.runs.getD n {}).recs.length + k ≤ (x.nodes.getD n {}).qcap + 1
  | none => true

/-- Records enter a node's queue as one run, and blocks are launched with them. -/
def State.enqueueRecs (s : State) (part g n : Nat) (recs : List (List Word)) : State :=
  (s.modRun part g n fun r => { r with recs := r.recs ++ recs }).pump part g

end Sys2Proof.Machine
end

