-- ==== Sys2Proof/Machine/Tx.lean ====
section
/-! DEFINITION. A block's transaction: opening, commit with its steps and the rung history, and the transaction words
(R106 to R128, R149, R268 to R270). -/

namespace Sys2Proof.Machine

open Sys2Proof

/-! ### Opening (R112, R122) -/

/-- The other blocks of a block's core with a transaction open. -/
def State.othersOpen (s : State) (b : Nat) (x : Block) : List Block :=
  ((s.blocks.filter fun y => y.1 != b && y.2.core == x.core && !y.2.ended && y.2.txOpen).map (·.2))

/-- May the block's transaction open: every own warp that has not exited has begun, and narrow mode allows it? -/
def State.canOpen (s : State) (b : Nat) : Bool :=
  match s.block b with
  | some x =>
    let own := s.ownLive b
    let others := s.othersOpen b x
    x.tx.phase == .idle && !x.tx.begun.isEmpty && !own.isEmpty && own.all (fun w => x.tx.begun.contains w.uid) &&
    (if x.narrow then
      (if s.isDet b then others.isEmpty else others.all fun y => y.tx.phase == .ordered)
     else others.all fun y => !y.narrow)
  | none => false

/-- Opens the block's transaction if it may open. -/
def State.tryOpen (s : State) (b : Nat) : State :=
  if s.canOpen b then s.modBlock b fun x => { x with tx := { x.tx with phase := .open } } else s

/-- The effect of TXBEGIN: the warp has begun, and waits until the transaction is open. -/
def txbeginBody (i : XIns) (s : State) (iss : Issue) (w : Warp) : Res :=
  let again := match w.pend with
    | some p => p.why == .txbegin
    | none => false
  if !again && !w.electedGuard iss i.g then .ok s
  else
    let x := (s.block w.blk).getD {}
    if !again && (w.child || s.rungsOf (s.launchOf w) == 0 || x.tx.phase != .idle) then illegal s
    else
      let s := if again then s
        else s.modBlock w.blk fun x => { x with tx := { x.tx with begun := x.tx.begun ++ [w.uid] } }
      let s := s.tryOpen w.blk
      if ((s.block w.blk).map (·.txOpen)).getD false then .ok s else .error (.block .txbegin s)

/-- TXBEGIN (R112, R268). -/
def execTxbegin (i : XIns) (s : State) : Host.Outcome State Fault Refusal := runWord s (.txbegin i) (txbeginBody i)

/-! ### The rung history (R125 to R127) -/

/-- The index and tag of a block of a launch in a rung history table. -/
def historyPlace (key : BitVec 128) (b : Nat) : Nat × Nat :=
  let k := key.toNat
  ((b % 2 ^ 13) ^^^ (k % 2 ^ 13) ^^^ (k / 2 ^ 13 % 2 ^ 13), (k / 2 ^ 26 % 2 ^ 20) ^^^ (b / 2 ^ 13 % 2 ^ 20))

/-- The starting rung of a block on a die (R126). -/
def State.historyLookup (s : State) (die : Nat) (key : BitVec 128) (b top : Nat) : Nat :=
  let (i, t) := historyPlace key b
  match KMap.get? (s.die die).history i with
  | some e => if e.tag = t then min e.rung top else 0
  | none => 0

/-- The entry after a commit at rung `f` (R127, Table 8). -/
def historyAfter (e : Option RungEntry) (tag f : Nat) (clean : Bool) : Option RungEntry :=
  let hit := e.filter fun x => x.tag == tag
  match hit with
  | none => if f = 0 then e else some { tag, rung := f, conf := 0 }
  | some x =>
    if f > x.rung then some { x with rung := f, conf := 0 }
    else if clean && x.conf < 3 then some { x with conf := x.conf + 1 }
    else if clean && x.rung > 0 then some { x with rung := x.rung - 1, conf := 0 }
    else some x

/-- Updates the die's table at a block's commit; a deterministic launch leaves it alone (R128). -/
def State.historyUpdate (s : State) (x : Block) : State :=
  let l := (s.launch x.launch).getD {}
  if l.det then s
  else
    let (i, t) := historyPlace l.key x.idx
    s.modDie (dieOfCore x.core) fun d =>
      match historyAfter (KMap.get? d.history i) t x.rung (!x.dirtyTx && !x.tx.topTrip) with
      | some e => { d with history := KMap.set d.history i e }
      | none => d

/-! ### Commit (R117 to R120, R149) -/

/-- The masked bytes of a line as runs: offset and bytes. -/
def maskRuns (mask : BitVec 64) (data : BitVec 512) : List (Nat × List Byte) :=
  (List.range 64).foldl (fun acc i =>
    if mask.getLsbD i then
      match acc.reverse with
      | (o, bs) :: r => if o + bs.length = i then r.reverse ++ [(o, bs ++ [lineByte data i])] else acc ++ [(i, [lineByte data i])]
      | [] => [(i, [lineByte data i])]
    else acc) []

/-- The speculative lines of a block replace the committed ones in one step (R117 step 3). -/
def Block.commitLines (x : Block) : Block :=
  let y := x.specA.foldl (fun (y : Block) e =>
    ({ y with aMem := Memory.writeN y.aMem (e.1 * 64) (lineBytes e.2) } : Block).markDirty (e.1 * 64) 64) { x with specA := [] }
  { y with cMem := x.specC.foldl (fun m e => Memory.writeN m (e.1 * 64) (lineBytes e.2)) y.cMem, specC := [], reservedA := 0 }

/-- The held lines of a block whose commit has not written them yet: the space each was stored through, its key, the line. -/
def Block.unsent (x : Block) : List (Nat × Nat × HeldLine) :=
  let f := fun (space : Nat) (t : KMap HeldLine) => (t.filter fun e => !e.2.sent).map fun e => (space, e.1, e.2)
  f 0 x.heldG ++ f 4 x.heldR ++ f 5 x.heldH

/-- Marks a held line as written; its entry stays until the transaction closes. -/
def Block.markSent (x : Block) (space key : Nat) : Block :=
  let mark := fun (t : KMap HeldLine) =>
    match KMap.get? t key with
    | some h => KMap.set t key { h with sent := true }
    | none => t
  if space = 0 then { x with heldG := mark x.heldG }
  else if space = 4 then { x with heldR := mark x.heldR }
  else { x with heldH := mark x.heldH }

/-- Applies a held cluster-remote line at its target. -/
def State.applyRemote (s : State) (key : Nat) (h : HeldLine) : State :=
  let line := key % 2 ^ 20
  (maskRuns h.mask h.data).foldl (fun s r => s.modBlock h.blk fun y => y.writeA (line * 64 + r.1) r.2) s

/-- Sends a held global line to its home, and writes its bytes into the cluster's copy if there is one (R149; log entry 24). -/
def State.sendHeld (s : State) (cl part line : Nat) (h : HeldLine) : State :=
  let s := (s.send cl { line, mask := h.mask, data := h.data, attr := h.attr, part, va := h.va }).countAccess
    (dieOfCluster cl) part h.va h.attr
  match s.sliceLine cl line with
  | some c =>
    s.setSlice cl line (some { c with valid := c.valid ||| h.mask, data := mergeLine h.mask h.data c.data })
  | none => s

/-- Appends a held host line to the fabric port, as one write of its held bytes. -/
def State.sendHost (s : State) (die part line : Nat) (h : HeldLine) : State :=
  let at_ := { h.attr with pa := line * 64 }
  let bytes := (List.range 64).map fun i => if h.mask.getLsbD i then some (lineByte h.data i) else none
  (s.fpPut at_ (h.va / 64 * 64) bytes).countAccess die part h.va at_

/-- Held global and host lines become part of a deterministic block's delta (R128). -/
def State.heldToDelta (s : State) (b : Nat) : State :=
  match s.block b with
  | some x =>
    let put := fun (host : Bool) (s : State) (e : Nat × HeldLine) =>
      (maskRuns e.2.mask e.2.data).foldl (fun s r =>
        s.addDelta b host (e.2.va / 64 * 64 + r.1) { e.2.attr with pa := e.1 * 64 + r.1 } r.2) s
    let s := x.heldH.foldl (put true) (x.heldG.foldl (put false) s)
    s.modBlock b fun x => { x with heldG := [], heldH := [] }
  | none => s

/-- Step 3 of R117, in one step: the speculative lines replace the committed ones, and the commit goes on to its releases. -/
def Block.replaceLines (x : Block) : Block :=
  let y := x.commitLines
  { y with tx := { y.tx with phase := .releasing } }

/-- Writes one held line of a block's commit to its memory (R117 step 4, R149). -/
def State.writeHeld (s : State) (b : Nat) (x : Block) (e : Nat × Nat × HeldLine) : State :=
  let part := ((s.launch x.launch).getD {}).part
  let s := s.modBlock b fun x => x.markSent e.1 e.2.1
  if e.1 = 0 then s.sendHeld (clusterOfCore x.core) part e.2.1 e.2.2
  else if e.1 = 4 then s.applyRemote e.2.1 e.2.2
  else s.sendHost (dieOfCore x.core) part e.2.1 e.2.2

/-- The held line that a commit writes next: the rule gives no order among lines, so a free value picks one. -/
def State.nextHeld (s : State) (x : Block) : Option (Nat × Nat × HeldLine) :=
  x.unsent[s.freeWord.toNat % x.unsent.length]?

/-- Every held global and host line of a commit is delivered at its memory (R149 step 5). -/
def State.deliverHeld (s : State) (x : Block) : State :=
  let s := x.heldG.foldl (fun s e =>
    s.deliverUpTo (clusterOfCore x.core) (stackOfPa (e.1 * 64)) fun m => m.line == e.1 && m.mask &&& e.2.mask != 0) s
  s.releaseFabric (x.heldH.map fun e => (e.1, e.2.mask)) .all

/-- Releases held records in emit order, each EMIT's as one run, while their nodes have room. -/
def State.releaseRecs (s : State) (b fuel : Nat) : State :=
  match fuel with
  | 0 => s
  | f + 1 =>
    match s.block b with
    | some x =>
      match x.heldRecs, ((s.launch x.launch).getD {}).graph with
      | (n, recs) :: r, some (g, _) =>
        let part := ((s.launch x.launch).getD {}).part
        if s.nodeRoom part g n recs.length then
          ((s.modBlock b fun x => { x with heldRecs := r }).enqueueRecs part g n recs).releaseRecs b f
        else s
      | _, _ => s
    | none => s

/-- The fields COUNT, NEXT, STRIDE and RSEQ of an object after a commit bound to it: COUNT and RSEQ rise by one, and NEXT by
STRIDE if the commit is ordered (R118, R149). -/
def commitObject (ord : Bool) (bs : List Byte) : List Byte :=
  let f := fun (k : Nat) => leNat ((bs.drop k).take 8)
  leBytes 8 (f 0 + 1) ++ leBytes 8 (if ord then f 8 + f 16 else f 8) ++ leBytes 8 (f 16) ++ leBytes 8 (f 24 + 1)

/-- Changes bytes of the object of a block's commit, and no others, at its home. -/
def State.updateObject (s : State) (b off n : Nat) (f : List Byte → List Byte) : State :=
  match s.block b with
  | some x =>
    match x.tx.obj with
    | some (true, a) => s.modBlock b fun y => y.writeA (a + off) (f (y.readA false (a + off) n))
    | some (false, a) =>
      (s.homeAtomic (clusterOfCore x.core) ((s.launch x.launch).getD {}).part (a + off)
        { x.tx.objAttr with pa := x.tx.objAttr.pa + off } n f).1
    | none => s
  | none => s

/-- A field of the object of a block's commit, at its home. -/
def State.objectField (s : State) (b off : Nat) : State × Nat :=
  match s.block b with
  | some x =>
    match x.tx.obj with
    | some (true, a) => (s, leNat (x.readA false (a + off) 8))
    | some (false, _) =>
      let (s, bs) := s.homeReadBytes ((s.launch x.launch).getD {}).part { x.tx.objAttr with pa := x.tx.objAttr.pa + off } 8
      (s, leNat bs)
    | none => (s, 0)
  | none => (s, 0)

/-- The name of a commit object for R120: space, address, and the block whose A-buffer it lies in. -/
def objectName (b : Nat) (o : Bool × Nat) : Bool × Nat × Nat := (o.1, o.2, if o.1 then b else 0)

/-- Sets ATOP in every own warp of a block, in a slot or a frame (R117 step 6). -/
def State.setAtop (s : State) (b : Nat) : State :=
  s.modWarps fun w => if w.blk == b && !w.child then w.flag atopBit else w

/-- Step 5 and 6 of R117, when every held line is delivered: the object takes its updates, the rung history learns of the
commit, and the transaction is closed. -/
def State.commitClose (s : State) (b : Nat) : State :=
  match s.block b with
  | some x =>
    let s := s.updateObject b 0 32 (commitObject x.tx.ord)
    let s := if x.tx.topTrip then s.setAtop b else s
    let s := s.historyUpdate x
    let s := s.modLaunch x.launch fun l =>
      { l with topTrips := if x.tx.topTrip then l.topTrips + 1 else l.topTrips,
               ordDone := match x.tx.obj, x.tx.ord with
                 | some o, true => l.ordDone ++ [(x.idx, objectName b o)]
                 | _, _ => l.ordDone }
    s.modBlock b fun x => { x with heldG := [], heldR := [], heldH := [], tx := { x.tx with phase := .closed } }
  | none => s

/-- A commit after its step 3, one step: a held line is written; once all are, they are delivered, the records enter their
nodes' queues as far as there is room (an EMIT's record follows its release, R150), and the commit closes. -/
def State.commitFinish (s : State) (b : Nat) : Res :=
  match s.block b with
  | none => .error (.gone s)
  | some x =>
    match s.nextHeld x with
    | some e => .error (.block .txcommit ({ s with free := s.free + 1 }.writeHeld b x e))
    | none =>
      let s := (s.deliverHeld x).releaseRecs b (x.heldRecs.length + 1)
      if ((s.block b).map fun x => x.heldRecs.isEmpty).getD true then .ok (s.commitClose b) else .error (.block .txcommit s)

/-- The commit of a block, one step: it waits for arrivals, children, its turn, its commands and its sync point in a
deterministic launch; then its speculative lines replace the committed ones; then what it held is released, step by step.
While an ordered commit waits, commands of the block can still retire (log entry 114). -/
def State.commitStep (s : State) (b : Nat) : Res :=
  let wait := fun (s : State) => (.error (.block .txcommit s) : Res)
  match s.block b with
  | none => .error (.gone s)
  | some x =>
    if x.reserved then .error (.gone s)
    else
      match x.tx.phase with
      | .closed => .ok s
      | .idle => .ok s
      | .releasing => s.commitFinish b
      | _ =>
        if (s.ownLive b).any (fun w => !x.tx.arrived.contains w.uid) || s.childrenLeft b then wait s
        else
          let (s, next) := s.objectField b 8
          if x.tx.ord && next != x.idx then
            wait (s.modBlock b fun x => { x with tx := { x.tx with phase := .ordered } })
          else
            let s := s.modBlock b fun x => { x with tx := { x.tx with phase := .open } }
            if s.commandsLeft b then wait s
            else
              let s := s.drainBlock b
              match s.block b with
              | none => .error (.gone s)
              | some x =>
                if x.reserved || x.ended || x.tx.phase == .closed then .error (.gone s)
                else
                  let s := if s.isDet b then s.heldToDelta b else s
                  (if x.tx.synced then .ok s else s.syncPoint b 0 : Res).bind fun s =>
                    let s := s.modBlock b fun x => { x with tx := { x.tx with synced := true } }
                    let s := s.modBlock b Block.replaceLines
                    if x.unsent.isEmpty && x.heldRecs.isEmpty then s.commitFinish b else wait s

/-- The commit carried on by a step of the device. A CONFLICT is left to the waiting word, which raises it. -/
def State.commitTry (s : State) (b : Nat) : State :=
  match s.block b with
  | some x =>
    if x.txOpen && !x.tx.begun.isEmpty && (x.tx.phase != .open || (s.ownLive b).all fun w => x.tx.arrived.contains w.uid) then
      match s.commitStep b with
      | .ok s => s
      | .error (.block _ s) => s
      | .error (.gone s) => s
      | .error (.more _ _ _) => s
      | .error (.trap _ _) => s
    else s
  | none => s

/-- Can a waiting TXCOMMIT go on: the commit is over, or in a deterministic launch its sync point is due? -/
def State.commitReady (s : State) (b : Nat) : Bool :=
  match s.block b with
  | some x =>
    x.tx.phase == .closed || x.tx.phase == .releasing ||
    (s.isDet b && (((s.launch x.launch).map fun l => l.lowerClosed x.idx x.round).getD false) &&
      (s.ownLive b).all (fun w => x.tx.arrived.contains w.uid) && !s.childrenLeft b && !s.commandsLeft b)
  | none => false

/-- The object TXCOMMIT names: none for `%zero`. -/
def State.commitOperand (s : State) (wk : Nat) (w : Warp) (i : XIns) : Option (Bool × Nat) :=
  if i.a = .sp .zero then none else some (i.fl.getLsbD 1, (s.uni wk w i.a).toNat)

/-- A warp whose TXCOMMIT is over leaves the arrivals of its closed transaction: it may name that transaction no more. -/
def Block.leaveTx (x : Block) (uid : Nat) : Block :=
  if x.tx.phase == .closed then { x with tx := { x.tx with arrived := x.tx.arrived.filter (· != uid) } } else x

/-- The commit step of a warp's TXCOMMIT. -/
def State.commitWord (s : State) (w : Warp) : Res := (s.commitStep w.blk).map fun s => s.modBlock w.blk (·.leaveTx w.uid)

/-- The effect of TXCOMMIT (R117, R268). -/
def txcommitBody (i : XIns) (s : State) (iss : Issue) (w : Warp) : Res :=
  let x := (s.block w.blk).getD {}
  if x.tx.arrived.contains w.uid then s.commitWord w
  else if !w.electedGuard iss i.g then .ok s
  else if w.child || x.tx.phase != .open then illegal s
  else
    let obj := s.commitOperand iss.wk w i
    let ord := i.fl.getLsbD 0
    if x.tx.named && (x.tx.obj != obj || x.tx.ord != ord) then illegal s
    else
      let reach : Except Stop (State × Attr) :=
        match obj with
        | none => .ok (s, {})
        | some (oab, a) => (s.objCheck iss.wk w iss.elected oab.toNat a 2 true).map fun r => (r.1, r.2.attr)
      reach.bind fun (s, attr) =>
        (s.modBlock w.blk fun x =>
          { x with tx := { x.tx with arrived := x.tx.arrived ++ [w.uid], named := true, obj, ord, objAttr := attr } }).commitWord w

/-- TXCOMMIT (R117, R268). -/
def execTxcommit (i : XIns) (s : State) : Host.Outcome State Fault Refusal := runWord s (.txcommit i) (txcommitBody i)

/-- The effect of TXABORT: the transaction is discarded, and its block goes a rung up or ends (R115, R116). -/
def txabortBody (i : XIns) (s : State) (iss : Issue) (w : Warp) : Res :=
  if !w.electedGuard iss i.g then .ok s
  else if !s.isMember iss.wk w then illegal s
  else .error (.gone (s.discard w.blk .abort))

/-- TXABORT (R268). -/
def execTxabort (i : XIns) (s : State) : Host.Outcome State Fault Refusal := runWord s (.txabort i) (txabortBody i)

/-- The value of TXSTAT (R269, Table 9). -/
def Block.txstat (x : Block) : Word :=
  BitVec.ofNat 64 (x.usedC % 65536 * 2 ^ 32 + x.usedA % 65536 * 65536 + x.tx.topTrip.toNat * 128 + x.narrow.toNat * 64 +
    x.txOpen.toNat * 32 + x.rung % 8)

/-- The effect of a word that reads a value of the block into a scalar, or into every lane whose guard holds (R248). -/
def blockRead (i : XIns) (legal : Bool) (f : Block → Word) (s : State) (iss : Issue) (w : Warp) : Res :=
  if !w.codesOk [(i.q, 1)] then illegal s
  else if !w.electedGuard iss i.g then .ok s
  else if !legal then illegal s
  else .ok (s.setWarp iss.wk (w.setAll i.q (w.partLanes iss i.g) (f ((s.block w.blk).getD {}))))

/-- TXSTAT (R269). -/
def execTxstat (i : XIns) (s : State) : Host.Outcome State Fault Refusal :=
  runWord s (.txstat i) fun s iss w => blockRead i true Block.txstat s iss w

/-- The effect of MONSET: thresholds and enables for the commands pushed after it (R270). -/
def monsetBody (i : XIns) (s : State) (iss : Issue) (w : Warp) : Res :=
  if !w.electedGuard iss i.g then .ok s
  else if !s.isMember iss.wk w then illegal s
  else
    let v := BitVec.ofNat 28 (s.uni iss.wk w i.a).toNat
    .ok (s.modBlock w.blk fun x => { x with tx := { x.tx with thr := some v } })

/-- MONSET (R270). -/
def execMonset (i : XIns) (s : State) : Host.Outcome State Fault Refusal := runWord s (.monset i) (monsetBody i)

/-- The value of MONRD (R270, Table 10). -/
def Block.monrd (x : Block) : Word :=
  BitVec.ofNat 64 (x.tx.tripped.toNat * 2 ^ 56 + min x.tx.monC 255 * 2 ^ 48 + min x.tx.monU (2 ^ 24 - 1) * 2 ^ 24 +
    min x.tx.monN (2 ^ 24 - 1))

/-- MONRD (R270). -/
def execMonrd (i : XIns) (s : State) : Host.Outcome State Fault Refusal :=
  runWord s (.monrd i) fun s iss w => blockRead i (s.isMember iss.wk w) Block.monrd s iss w

end Sys2Proof.Machine
end

