-- ==== Sys2Proof/Machine/Control.lean ====
section
/-! DEFINITION. The control words that act on threads: branches, calls, hardware loops, EXIT, NOP, YIELD and ELECT
(R278 to R284), and the end of trap mode (R298, R356, R357). -/

namespace Sys2Proof.Machine

open Sys2Proof

/-! ### Transfers (R279, R280, R282) -/

/-- The target of a branch offset (R162). -/
def branchTarget (iss : Issue) (off : BitVec 26) : Pc := iss.pc + off.signExtend 32

/-- The thread sent to a PC by a word of the visit. Left at the next PC it takes the loop-end step (R282). -/
def Thread.goTo (iss : Issue) (pc : Pc) (t : Thread) : Thread :=
  if pc = iss.pc + 1 then
    match loopEnd iss.pc t.loops with
    | (some ls, r) =>
      { t with pos := { pc := ls }, loops := r, bufLen := if r.length = t.loops.length then t.bufLen else 0 }
    | (none, r) => { t with pos := { pc }, loops := r, bufLen := if r.length = t.loops.length then t.bufLen else 0 }
  else t.jump pc

/-- Every active lane moved by its rule: a participating lane by `f`, any other to the next PC (R279). -/
def Warp.moveLanes (w : Warp) (iss : Issue) (part : LaneMask) (f : Nat → Thread → Thread) : Warp :=
  { w with pend := none }.modLanes iss.lanes fun l t => if part.getLsbD l then f l t else t.advance iss

/-- Ends a word that moved its lanes itself: the groups form again, and a warp without threads retires. -/
def State.settleWarp (s : State) (wk : Nat) : State :=
  match s.warp wk with
  | some w => s.setWarp wk (w.regroup (s.codeOf w.activeCode)).retireIfDone
  | none => s

/-- The effect of a transfer word whose participating lane `L` goes to `target L`. -/
def transfer (g : Guard) (target : State → Warp → Nat → Pc) (f : Thread → Thread) (s : State) (iss : Issue) (w : Warp) :
    Res :=
  .ok ((s.setWarp iss.wk (w.moveLanes iss (w.partLanes iss g) fun l t => (f t).goTo iss (target s w l))).settleWarp iss.wk)

/-- BRA (R280). -/
def execBra (i : BIns) (s : State) : Host.Outcome State Fault Refusal :=
  runRaw s (.bra i) fun s iss w => transfer i.g (fun _ _ _ => branchTarget iss i.off) id s iss w

/-- The low half of an operand of a lane. -/
def State.low32 (s : State) (wk : Nat) (w : Warp) (o : Opnd) (lane : Nat) : BitVec 32 :=
  (s.opnd wk w o lane).setWidth 32

/-- BRX (R280): each lane adds its own table entry. -/
def execBrx (i : BIns) (s : State) : Host.Outcome State Fault Refusal :=
  runRaw s (.brx i) fun s iss w =>
    if !w.codesOk [(i.a, 1)] then illegal s
    else transfer i.g (fun s w l => branchTarget iss i.off + s.low32 iss.wk w i.a l) id s iss w

/-- The effect of CALL: the link takes the next PC (R280). -/
def callBody (i : BIns) (s : State) (iss : Issue) (w : Warp) : Res :=
  if !w.codesOk [(i.a, 1)] then illegal s
  else
    let link := BitVec.ofNat 64 (iss.pc + 1).toNat
    transfer i.g (fun _ _ _ => branchTarget iss i.off) id s iss (w.setAll i.a (w.partLanes iss i.g) link)

/-- CALL (R280). -/
def execCall (i : BIns) (s : State) : Host.Outcome State Fault Refusal := runRaw s (.call i) (callBody i)

/-- RET (R280). -/
def execRet (i : BIns) (s : State) : Host.Outcome State Fault Refusal :=
  runRaw s (.ret i) fun s iss w =>
    if !w.codesOk [(i.a, 1)] then illegal s
    else transfer i.g (fun s w l => s.low32 iss.wk w i.a l) id s iss w

/-! ### Hardware loops (R281, R283) -/

/-- Words a thread's loop buffer holds (R14). -/
def bufWords : Nat := 48

/-- A thread at LOOP with a count and the loop's last word: the body is skipped, or a level opens and a body that fits is
loaded into the loop buffer (R14, R281). -/
def Thread.loopStart (iss : Issue) (last : Pc) (cnt : BitVec 32) (t : Thread) : Thread :=
  if cnt = 0 then t.jump (last + 1)
  else
    let start := iss.pc + 1
    let n := (last - iss.pc).toNat
    { t with loops := { lc := cnt, ls := start, le := last } :: t.loops, bufBase := start,
             bufLen := if n ≤ bufWords then n else 0,
             pos := { pc := start, hdr := if iss.last then none else some iss.hdr } }

/-- The effect of LOOP; a fifth level faults with nothing written. -/
def loopBody (i : BIns) (s : State) (iss : Issue) (w : Warp) : Res :=
  if !w.codesOk [(i.a, 1)] then illegal s
  else
    let part := w.partLanes iss i.g
    let cnt := fun (l : Nat) => s.low32 iss.wk w i.a l
    if (lanesOf part).any (fun l => cnt l != 0 && (w.thread l).loops.length ≥ 4) then faultOf 0x0B s
    else
      .ok ((s.setWarp iss.wk
        (w.moveLanes iss part fun l t => t.loopStart iss (branchTarget iss i.off) (cnt l))).settleWarp iss.wk)

/-- LOOP (R281). -/
def execLoop (i : BIns) (s : State) : Host.Outcome State Fault Refusal := runRaw s (.loop i) (loopBody i)

/-- Ends the innermost level of a thread that has one, and empties its buffer (R283, R14). -/
def Thread.leaveLoop (t : Thread) : Thread :=
  match t.loops with
  | [] => t
  | _ :: r => { t with loops := r, bufLen := 0 }

/-- LOOPX (R283). -/
def execLoopx (i : BIns) (s : State) : Host.Outcome State Fault Refusal :=
  runRaw s (.loopx i) fun s iss w => transfer i.g (fun _ _ _ => branchTarget iss i.off) Thread.leaveLoop s iss w

/-! ### The end of trap mode (R298, R356, R357) -/

/-- The visit that would issue the word at a position of a code: what its lanes need to go past it. -/
def issueAt (code : List Word) (wk : Nat) (p : Pos) : Issue :=
  match p.hdr with
  | some h =>
    let last := match (code[h.toNat]?).bind decodeHeader with
      | some d => p.pc.toNat == h.toNat + d.nwords
      | none => true
    { wk, lanes := 0, pc := p.pc, hdr := h, last }
  | none => { wk, lanes := 0, pc := p.pc, hdr := p.pc, last := true }

/-- A thread back from the handler: its saved position, loops and REP count, and with SKIP past the faulting word. -/
def Thread.leaveTrap (code : List Word) (wk : Nat) (skip : Bool) (t : Thread) : Thread :=
  match t.save with
  | some v =>
    let t := { t with pos := v.pos, loops := v.loops, trapped := false, tret := none, save := none, bufLen := 0 }
    if skip then { t with pos := { t.pos with rep := 0 } }.advance (issueAt code wk v.pos) else t
  | none => { t with trapped := false, tret := none }

/-- The causes for which SKIP goes past the faulting word (R357). -/
def skipsWord (cause : Nat) : Bool := !(cause == 0x10 || cause == 0x11 || cause == 0x07)

/-- Has every thread of the trapped set executed TRET or EXIT, and one at least TRET? -/
def Warp.trapOver (w : Warp) : Bool :=
  w.inTrap && w.threads.all fun t => !t.trapped || t.tret.isSome

/-- The threads of the trapped set leave trap mode together once all are there. For CONFLICT a SKIP merges the delta, and a
commit whose word it skipped goes on (R357). A warp that `was` in trap mode and is no more has its scalar REP count back (R211). -/
def State.endTrap (s : State) (wk : Nat) (was : Bool) : State :=
  match s.warp wk with
  | some w =>
    if w.trapOver then
      let code := s.codeOf w.code
      let cause := w.tregs.tcause.toNat
      let skips := w.threads.any fun t => t.trapped && t.tret == some true
      let at_ := (w.threads.find? fun t => t.trapped && t.tret == some true).bind (·.save)
      let w := { w with srep := w.srepSave, srepSave := 0, threads := w.threads.map fun (t : Thread) =>
        if t.trapped then t.leaveTrap code wk (skipsWord cause && t.tret == some true) else t }
      let s := s.setWarp wk (w.regroup code).retireIfDone
      if cause = 9 ∧ skips then
        let s := s.mergeDelta w.blk
        match (at_.bind fun v => code[v.pos.pc.toNat]?).bind decodeWord with
        | some (.txcommit _) =>
          (s.modBlock w.blk fun x => { x with tx := { x.tx with synced := true } }).commitTry w.blk
        | _ => s
      else s
    else if was && !w.inTrap then s.setWarp wk { w with srep := w.srepSave, srepSave := 0 }
    else s
  | none => s

/-! ### EXIT (R284, R112, R117, R150, R239) -/

/-- A thread after EXIT: Done, its loop levels and REP count dropped, out of trap mode. -/
def Thread.exit (t : Thread) : Thread :=
  { t with st := .done, loops := [], bufLen := 0, pos := { t.pos with rep := 0 }, trapped := false, save := none, tret := none }

/-- The scope of a child's release for a counter (R150). -/
def JoinCtr.scope (j : JoinCtr) : Nat := if j.glob then 6 else 3

/-- The lanes of a mask whose threads still owe a decrement, with their counters. -/
def Warp.owedJoins (w : Warp) (part : LaneMask) : List (Nat × JoinCtr) :=
  (lanesOf part).filterMap fun l => (w.thread l).join.map fun j => (l, j)

/-- The piece of a counter in an A-buffer: it lies at the core order point of the block. -/
def counterPiece (lane blk addr : Nat) : Piece := { lane, off := 0, n := 8, addr, blk }

/-- The effective place of each counter: an A-buffer one directly, a global one translated where the child runs. -/
def State.counterPieces (s : State) (iss : Issue) (w : Warp) (js : List (Nat × JoinCtr)) :
    Except Stop (State × List Piece) :=
  let g := js.filter fun j => j.2.glob
  let at_ : Except Stop (State × List Piece) :=
    if g.isEmpty then .ok (s, [])
    else s.checkAccess iss.wk w
      { space := 0, size := 8, acc := 2, aligned := true, home := true, lanes := g.map fun j => (j.1, j.2.addr) }
  at_.map fun (s, ps) =>
    (s, js.filterMap fun j =>
      if j.2.glob then (ps.find? fun p => p.lane == j.1).map fun p => { p with n := 8 }
      else some (counterPiece j.1 w.blk j.2.addr))

/-- Subtracts one from a counter's bytes. -/
def decBytes (bs : List Byte) : List Byte := leBytes 8 (leNat bs + (2 ^ 64 - 1))

/-- The next lane's decrement of its counter, in a step of its own (R150, R284). -/
def State.decrementNext (s : State) (iss : Issue) (w : Warp) (ps : List Piece) : Res :=
  match ps with
  | [] => .ok s
  | p :: r =>
    match (w.thread p.lane).join with
    | some j =>
      let (s, _, ok) := s.performAtomic iss.wk w (if j.glob then 0 else 1) j.scope p decBytes
      if !ok then .error (.gone s)
      else
        let s := s.modWarp iss.wk fun w => { w with threads := modNth w.threads p.lane fun t => { t with join := none } }
        if r.isEmpty then .ok s else .error (.more r [] s)
    | none => .ok s

/-- A child's release at the widest scope of its lanes' counters, then each lane's decrement, in lane order (R284). -/
def State.decrementJoins (s : State) (iss : Issue) (w : Warp) (part : LaneMask) : Res :=
  match w.unfinished with
  | some p => s.decrementNext iss w p.left
  | none =>
    match w.owedJoins part with
    | [] => .ok s
    | js =>
      (s.counterPieces iss w js).bind fun (s, ps) =>
        (stillHere (s.release iss.wk ((js.map fun j => j.2.scope).foldl max 0) .all) iss w).bind fun s =>
          s.decrementNext iss w ps

/-- Is a warp the last of its block to exit: no other warp of it, child or record left? -/
def State.lastOfBlock (s : State) (w : Warp) : Bool :=
  !(s.blockWarps w.blk).any (fun v => v.uid != w.uid && !v.exited) && !s.childrenLeft w.blk

/-- The end of a deterministic block, at the EXIT of its last warp: its transaction commits, its mapped lines are written
back, and its last delta is merged (R117, R152, R348). The warp's lanes count as Done. -/
def State.detEnd (s : State) (w : Warp) (waited : Bool) : Res :=
  let open_ := ((s.block w.blk).map (·.txOpen)).getD false
  let s := if open_ && !w.child then s.modBlock w.blk fun x =>
      { x with tx := { x.tx with arrived := if x.tx.arrived.contains w.uid then x.tx.arrived else x.tx.arrived ++ [w.uid] } }
    else s
  (if open_ then s.commitStep w.blk else .ok s : Res).bind fun s =>
    if s.commandsLeft w.blk then .error (.block .delta s)
    else
      let s := if waited then s else s.mapWriteBack w.blk
      if ((s.block w.blk).map fun x => x.mapFixup.isEmpty).getD true then s.syncPoint w.blk w.uid
      else .error (.block .mapFixup s)

/-- A stop with its state changed. -/
def Stop.mapState (f : State → State) (x : Stop) : Stop :=
  match x with
  | .block why s => .block why (f s)
  | .more left got s => .more left got (f s)
  | .trap fi s => .trap fi (f s)
  | .gone s => .gone s

/-- What the exit of a warp sets off in its block: barrier phases of CNT 0, a transaction that may now open or commit. -/
def State.afterExit (s : State) (wk : Nat) (w : Warp) : State :=
  match s.warp wk with
  | some v =>
    if v.exited then
      let s := if w.child then s else (s.settleBars w.blk).tryOpen w.blk
      s.commitTry w.blk
    else s
  | none => s

/-- The effect of EXIT. -/
def exitBody (i : BIns) (s : State) (iss : Issue) (w : Warp) : Res :=
  let part := w.partLanes iss i.g
  (s.decrementJoins iss w part).bind fun s =>
    match s.warp iss.wk with
    | none => .error (.gone s)
    | some w =>
      let gone := w.moveLanes iss part fun _ t => t.exit
      let t := s.setWarp iss.wk gone
      let r : Res := if gone.exited && s.isDet w.blk && t.lastOfBlock gone then
          match t.detEnd gone w.waitedMap with
          | .ok t => .ok t
          | .error e => .error (e.mapState fun t => t.modWarp iss.wk fun v => { v with threads := w.threads, pend := w.pend })
        else .ok t
      r.map fun t => ((t.settleWarp iss.wk).endTrap iss.wk w.inTrap).afterExit iss.wk w

/-- EXIT (R284). -/
def execExit (i : BIns) (s : State) : Host.Outcome State Fault Refusal := runRaw s (.exit i) (exitBody i)

/-! ### NOP, YIELD and ELECT (R284) -/

/-- NOP. -/
def execNop (i : BIns) (s : State) : Host.Outcome State Fault Refusal := runWord s (.nop i) fun s _ _ => .ok s

/-- YIELD: the issuing group stays away from the warp's next visit. -/
def execYield (i : BIns) (s : State) : Host.Outcome State Fault Refusal :=
  runWord s (.yield i) fun s iss w =>
    .ok (if w.partLanes iss i.g = 0 then s else s.setWarp iss.wk { w with yielded := some iss.buf })

/-- The effect of ELECT: the predicate is one in the lowest participating lane and zero in the other participating lanes. -/
def electBody (i : BIns) (s : State) (iss : Issue) (w : Warp) : Res :=
  match i.a with
  | .pred p =>
    let part := w.partLanes iss i.g
    let low := maskOf ((lanesOf part).take 1)
    .ok (s.setWarp iss.wk (w.setPred p.toNat ((w.pred p.toNat &&& ~~~part) ||| low)))
  | _ => .ok s

/-- ELECT (R284). -/
def execElect (i : BIns) (s : State) : Host.Outcome State Fault Refusal := runWord s (.elect i) (electBody i)

end Sys2Proof.Machine
end

