-- ==== Sys2Proof/Machine/Places.lean ====
section
/-! DEFINITION. Warp slots and the live register file of a core: what is free, for a block, a child, an arriving warp and a
restored one (R10, R23 to R28, R33, R35), and how a warp starts (R31). -/

namespace Sys2Proof.Machine

open Sys2Proof

/-! ### Slots (R23, R24) -/

/-- Registers of 256 bytes in the live file (R26). -/
def liveRegs : Nat := 2048
/-- The general slots. -/
def generalSlots : List Nat := List.range 26
/-- The child-reserve slots. -/
def reserveSlots : List Nat := [26, 27, 28, 29]
/-- The landing slots. -/
def landingSlots : List Nat := [30, 31]

/-- The slots of the kind of a slot (R25). -/
def slotsLike (slot : Nat) : List Nat :=
  if slot < 26 then generalSlots else if slot < 30 then reserveSlots else landingSlots

/-- The slots of a kind that hold no warp of a context. -/
def State.freeSlots (s : State) (core ctx : Nat) (kind : List Nat) : List Nat :=
  kind.filter fun n => (s.warp (wkOf core ctx n)).isNone

/-- The image of a block's launch. -/
def State.blockImage (s : State) (x : Block) : Image :=
  match s.launch x.launch with
  | some l => (s.image (imageKey l.part l.image)).getD {}
  | none => {}

/-- The context of a block's launch. -/
def State.blockCtx (s : State) (x : Block) : Nat := ((s.launch x.launch).map (·.ctx)).getD 0

/-- The blocks of a core whose slots and registers are held: placed or reserved, and not ended (R115). -/
def State.holders (s : State) (core : Nat) : List (Nat × Block) :=
  s.blocks.filter fun b => b.2.core == core && !b.2.ended

/-- Does a block of more than 26 warps own the core (R24)? -/
def State.ownedByBig (s : State) (core : Nat) : Bool := (s.holders core).any fun b => (s.blockImage b.2).warps > 26

/-- General slots kept for the replays of reserved blocks. -/
def State.keptSlots (s : State) (core ctx : Nat) (except_ : Option Nat) : Nat :=
  (((s.holders core).filter fun b => b.2.reserved && s.blockCtx b.2 == ctx && some b.1 != except_).map fun b =>
    (s.blockImage b.2).warps).sum

/-! ### The live file (R26 to R28) -/

/-- The launches that hold a block of a context on a core. -/
def State.coreLaunches (s : State) (core ctx : Nat) : List Nat :=
  (((s.holders core).filter fun b => s.blockCtx b.2 == ctx).map (·.2.launch)).dedup

/-- The child reserve held on a core (R27). -/
def State.heldReserve (s : State) (core ctx : Nat) : Nat :=
  ((s.coreLaunches core ctx).map fun l =>
    match s.launch l with
    | some x => ((s.image (imageKey x.part x.image)).getD {}).reserve
    | none => 0).sum

/-- Is a child warp in a slot covered by the reserve of its launch on that core? -/
def State.covered (s : State) (wk : Nat) (w : Warp) : Bool :=
  w.child && reserveSlots.contains (slotOfWk wk) && (s.coreLaunches (coreOfWk wk) (ctxOfWk wk)).contains w.launch

/-- Registers in use on a core for a context: warps in slots, reserves, reserved places, arrivals granted. -/
def State.usedRegs (s : State) (core ctx : Nat) (except_ : Option Nat) : Nat :=
  ((s.warps.filter fun w => coreOfWk w.1 == core && ctxOfWk w.1 == ctx && !s.covered w.1 w.2).map
    fun w => charge w.2.nregs).sum +
  s.heldReserve core ctx +
  (((s.holders core).filter fun b => b.2.reserved && s.blockCtx b.2 == ctx && some b.1 != except_).map fun b =>
    (s.blockImage b.2).roleCharge).sum +
  ((s.core core).landRes.map (·.2)).sum

/-- Has the live file room for a charge? -/
def State.regsFree (s : State) (core ctx n : Nat) : Bool := s.usedRegs core ctx none + n ≤ liveRegs

/-- May the core take a warp of a context now: its die runs, the context is in the live bank, no large block owns it? -/
def State.coreTakes (s : State) (core ctx : Nat) : Bool :=
  let c := s.core core
  (s.die (dieOfCore core)).boot == .running && c.ctxCur == ctx && c.exchange.isNone && !c.halted && !s.ownedByBig core

/-- A free general slot for a warp that comes from outside a block's own start, if the live file takes its charge. -/
def State.generalFor (s : State) (core ctx n : Nat) : Option Nat :=
  let free := s.freeSlots core ctx generalSlots
  if s.keptSlots core ctx none < free.length && s.regsFree core ctx n then free.head? else none

/-- A free child-reserve slot for a child of a launch: covered by the launch's reserve, or by free registers (R33). -/
def State.reserveFor (s : State) (core ctx launch n : Nat) : Option Nat :=
  if (s.coreLaunches core ctx).contains launch || s.regsFree core ctx n then (s.freeSlots core ctx reserveSlots).head? else none

/-- The slot for a child warp: its parent's core first, general then reserve; then the other cores of the cluster in order of
number, unless the block's transaction is open (R33, R113). -/
def State.childSlot (s : State) (core ctx launch n : Nat) (home : Bool) : Option (Nat × Nat) :=
  let on := fun (c : Nat) =>
    if s.coreTakes c ctx then (s.generalFor c ctx n).or (s.reserveFor c ctx launch n) else none
  match on core with
  | some slot => some (core, slot)
  | none =>
    if home then none
    else ((List.range 4).map fun p => core / 4 * 4 + p).findSome? fun c =>
      if c = core then none else (on c).map fun slot => (c, slot)

/-! ### Starting a warp (R31, R54) -/

/-- The code and entry PC at which a warp of a launch starts: the residual copy of its root, or the original. -/
def Launch.start (l : Launch) (id : Nat) (entry : Pc) (regs : Nat) : CodeRef × Pc :=
  match l.resid with
  | some r =>
    match r.roots.find? fun x => x.1 == entry && x.2.1 == regs with
    | some x => (.resid id, x.2.2)
    | none => (.orig (imageKey l.part l.image), entry)
  | none => (.orig (imageKey l.part l.image), entry)

/-- A warp that starts: registers zero, all threads at the entry, the lanes from `lanes` up Off. -/
def startWarp (uid launch blk warpid nregs lanes : Nat) (code : CodeRef) (pc : Pc) : Warp :=
  { uid, launch, blk, warpid, nregs, code,
    threads := (List.range 32).map fun l => if l < lanes then { st := .sub, pos := { pc } } else {} }

end Sys2Proof.Machine
end

