-- ==== Sys2Proof/Machine/Spawn.lean ====
section
/-! DEFINITION. Spawned work: SPAWN, SPAWNFL, JOIN and EMIT, the gatherer and the spill area, and where child warps go
(R31 to R33, R113, R150, R285 to R292). -/

namespace Sys2Proof.Machine

open Sys2Proof

/-! ### SPAWN (R285 to R287) -/

/-- The partition of a block. -/
def State.blockPart (s : State) (b : Nat) : Nat :=
  (((s.block b).bind fun x => s.launch x.launch).map (·.part)).getD 0

/-- Payload words of a SPAWN. -/
def spawnN (i : BIns) : Nat := (i.lo >>> 3).toNat

/-- CSP: the counter lies in global space. -/
def counterGlob (i : BIns) : Bool := i.lo.getLsbD 2

/-- The spawn entry a PC of the running code names; in residual code the PC is the residual copy's (R285, R55). -/
def State.spawnEntry (s : State) (w : Warp) (pc : Pc) : Option SpawnEntry :=
  let l := s.launchOf w
  let img := s.imageOf w
  match w.activeCode with
  | .orig k => if k = imageKey l.part l.image then img.spawns.find? (fun e => e.entry == pc) else none
  | .resid _ =>
    match l.resid with
    | some r => img.spawns.find? fun e => r.roots.any fun x => x.1 == e.entry && x.2.1 == e.regs && x.2.2 == pc
    | none => none

/-- Records the spawn queue holds (R287). -/
def spawnCap : Nat := 1024

/-- Records of a core's queue: those not yet gathered and those whose child warp has no slot yet. -/
def Core.queued (c : Core) : Nat := c.spawnQ.length + (c.gather.map fun g => g.recs.length).sum

/-- Is a record of a launch? -/
def State.recOf (s : State) (launch : Nat) (r : SpawnRec) : Bool := ((s.block r.blk).map fun b => b.launch == launch).getD false

/-- Bytes of a launch's spill area for one core. -/
def State.spillSize (s : State) (launch : Nat) : Nat :=
  ((s.launch launch).map fun l => ((s.image (imageKey l.part l.image)).map (·.spill)).getD 0).getD 0

/-- Have the spawn queue and the spill area of a core room for `n` records of a launch? The area is provided for the cores
that hold blocks of the launch (R287). -/
def State.spawnRoomOk (s : State) (core launch n : Nat) : Bool :=
  let c := s.core core
  let holds := s.blocks.any fun b => b.2.launch == launch && b.2.core == core && !b.2.ended
  let cap := if holds then s.spillSize launch / 64 else 0
  let free := if c.spillQ.isEmpty then spawnCap - c.queued else 0
  n ≤ free + (cap - (c.spillQ.filter (s.recOf launch)).length)

/-- Does a record come before another: by the ck of its SPAWN, then parent slot, then lane (R288)? -/
def SpawnRec.before (a b : SpawnRec) : Bool :=
  a.ck < b.ck || (a.ck == b.ck && (a.parentSlot < b.parentSlot || (a.parentSlot == b.parentSlot && a.lane < b.lane)))

/-- Puts a record in its place in a queue. -/
def insertRec (l : List SpawnRec) (r : SpawnRec) : List SpawnRec :=
  l.takeWhile (fun x => !r.before x) ++ r :: l.dropWhile (fun x => !r.before x)

/-- The 64 bytes of a record of the block with an index, as the spill area holds it (log entry 116): entry and block index; the
counter's address and space, and the depth; the payload. -/
def SpawnRec.bytes (r : SpawnRec) (idx : Nat) : List Byte :=
  leBytes 8 (r.entry.toNat + idx % 2 ^ 32 * 2 ^ 32) ++
  leBytes 8 (r.join.addr % 2 ^ 52 + r.depth % 256 * 2 ^ 52 + r.join.glob.toNat * 2 ^ 63) ++
  (List.range 6).flatMap fun i => wordBytes (r.payload.getD i 0)

/-- A record with what its 64 bytes give. -/
def SpawnRec.ofBytes (r : SpawnRec) (bs : List Byte) : SpawnRec :=
  let w := fun (i : Nat) => leNat ((bs.drop (8 * i)).take 8)
  { r with
    entry := BitVec.ofNat _ (w 0)
    depth := w 1 / 2 ^ 52 % 256
    join := { glob := w 1 / 2 ^ 63 == 1, addr := w 1 % 2 ^ 52 }
    payload := (List.range r.payload.length).map fun i => BitVec.ofNat 64 (w (i + 2)) }

/-- A record goes to its launch's spill area in HBM: to the lowest place of the core's part that holds none (log
entry 116). -/
def State.spillRec (s : State) (core launch : Nat) (r : SpawnRec) : State :=
  let l := (s.launch launch).getD {}
  let held := ((s.core core).spillQ.filter (s.recOf launch)).map (·.spillIx)
  let ix := ((List.range (held.length + 1)).find? fun i => !held.contains i).getD 0
  let put := fun (s : State) (at_ : Option Attr) =>
    s.modCore core fun c => { c with spillQ := insertRec c.spillQ { r with spillIx := ix, spillAt := at_ } }
  match s.translate (dieOfCore core) l.part (l.spillVa + core * s.spillSize launch + 64 * ix) 0 1 with
  | (s, .ok at_) => put (s.homePut l.part at_ (r.bytes (((s.block r.blk).map (·.idx)).getD 0))) (some at_)
  | (s, .error _) => put s none

/-- Enters a record: the queue while it has room and nothing waits in the spill area, the spill area otherwise (R287). -/
def State.enterRec (s : State) (core launch : Nat) (r : SpawnRec) : State :=
  let c := s.core core
  if c.spillQ.isEmpty && c.queued < spawnCap then
    s.modCore core fun c => { c with spawnQ := insertRec c.spawnQ { r with arr := s.ck } }
  else s.spillRec core launch r

/-- A record comes back from its place in the spill area into the queue. -/
def State.refillRec (s : State) (core : Nat) (r : SpawnRec) : State :=
  let (s, r) := match r.spillAt with
    | some at_ =>
      let (s, bs) := s.homeBytes (s.blockPart r.blk) at_ 64
      (s, r.ofBytes bs)
    | none => (s, r)
  s.modCore core fun c => { c with spawnQ := insertRec c.spawnQ { r with arr := s.ck, spillAt := none } }

/-- The checks of SPAWN on counter and entry that name no page, in order, and what it may go on with (R285, R113). -/
def State.spawnPerm (s : State) (iss : Issue) (w : Warp) (i : BIns) (addr : Nat) (entry : Option SpawnEntry) : Bool :=
  let size := ((s.block w.blk).map (·.aSize)).getD 0
  (!counterGlob i && (!s.atHome iss.wk w || size < addr + 8)) ||
  (match entry with
    | some e => e.regs < spawnN i
    | none => true) ||
  (s.isMember iss.wk w && counterGlob i)

/-- Is a stop the PERM of a page of the wrong type? -/
def Stop.wrongType (x : Stop) : Bool :=
  match x with
  | .trap fi _ => fi.cause == 4 && fi.recs.any (fun r => r.reason == 2)
  | _ => false

/-- The counter's place, checked as an atomic (R220, R285): SPAWNDEPTH comes after a wrong page type and before every other
translation fault. -/
def State.spawnCounter (s : State) (iss : Issue) (w : Warp) (i : BIns) (lane addr : Nat) :
    Except Stop (State × Piece) :=
  let r := s.checkAccess iss.wk w
    { space := if counterGlob i then 0 else 1, size := 8, acc := 2, aligned := true, home := true, lanes := [(lane, addr)],
      place := s.argPlace w (if counterGlob i then 0 else 1) 8 }
  let deep : Except Stop (State × Piece) := (faultOf 0x0A s).map fun s => (s, counterPiece lane w.blk addr)
  match r with
  | .error e => if e.wrongType || w.depth < 255 then .error e else deep
  | .ok (s, ps) =>
    if w.depth ≥ 255 then deep
    else .ok (s, match ps with
      | p :: _ => { p with n := 8 }
      | [] => counterPiece lane w.blk addr)

/-- Adds a number to a counter's bytes. -/
def addBytes (n : Nat) (bs : List Byte) : List Byte := leBytes 8 (leNat bs + n)

/-- The record of a lane. -/
def State.spawnRec (s : State) (iss : Issue) (w : Warp) (i : BIns) (entry : Pc) (j : JoinCtr) (lane : Nat) : SpawnRec :=
  { entry, blk := w.blk, depth := w.depth + 1, join := j, payload := s.group iss.wk w i.b lane (spawnN i), parent := w.uid,
    parentSlot := slotOfWk iss.wk, lane, ck := s.ck }

/-- The effect of SPAWN: room, the release, the counter, the records (R286). -/
def spawnBody (i : BIns) (s : State) (iss : Issue) (w : Warp) : Res :=
  if !w.codesOk [(i.a, 1), (if spawnN i = 0 then .none else i.b, spawnN i)] then illegal s
  else
    let lanes := lanesOf (w.partLanes iss i.g)
    let n := lanes.length
    if n = 0 then .ok s
    else
      let glob := counterGlob i
      let addr := (s.uni iss.wk w i.a).toNat
      let entry := s.spawnEntry w (branchTarget iss i.off)
      let low := lanes.headD 0
      if addr % 8 ≠ 0 then memFault 5 0 (maskOf [low]) addr 2 (if glob then 0 else 1) s
      else if s.spawnPerm iss w i addr entry then memFault 4 0 (maskOf [low]) addr 2 (if glob then 0 else 1) s
      else
        (s.spawnCounter iss w i low addr).bind fun (s, p) =>
          if !s.spawnRoomOk (coreOfWk iss.wk) w.launch n then .error (.block .spawnRoom s)
          else
            let j : JoinCtr := { glob, addr }
            (stillHere (s.release iss.wk j.scope .all) iss w).bind fun s =>
              match s.performAtomic iss.wk w (if glob then 0 else 1) j.scope p (addBytes n) with
              | (s, _, false) => .error (.gone s)
              | (s, _, true) =>
                .ok (lanes.foldl (fun s l =>
                  s.enterRec (coreOfWk iss.wk) w.launch (s.spawnRec iss w i ((entry.map (·.entry)).getD 0) j l)) s)

/-- SPAWN (R286). -/
def execSpawn (i : BIns) (s : State) : Host.Outcome State Fault Refusal := runWord s (.spawn i) (spawnBody i)

/-! ### The gatherer (R32, R288, R289) -/

/-- Adds a record to the partial child warp of its entry and block, or begins one (R32). -/
def gatherOne (l : List Gather) (r : SpawnRec) : List Gather :=
  match l with
  | [] => [{ entry := r.entry, blk := r.blk, recs := [r], firstCk := r.arr }]
  | g :: t =>
    if !g.launched && g.entry == r.entry && g.blk == r.blk then
      { g with recs := g.recs ++ [r], launched := g.recs.length + 1 == 32 } :: t
    else g :: gatherOne t r

/-- Gathers every record of the running context whose SPAWN lies before the present ck, in order. -/
def State.gather (s : State) (core : Nat) : State :=
  let c := s.core core
  let now := fun (r : SpawnRec) => r.ck < s.ck && ((s.block r.blk).map fun b => s.blockCtx b == c.ctxCur).getD false
  s.modCore core fun c =>
    { c with gather := (c.spawnQ.filter now).foldl gatherOne c.gather, spawnQ := c.spawnQ.filter fun r => !now r }

/-- Launches every partial child warp that holds a record of a warp, on whichever core its records were gathered. -/
def State.flushGather (s : State) (uid : Nat) : State :=
  (KMap.keys s.cores).foldl (fun s core =>
    let mine := fun (r : SpawnRec) => r.parent == uid
    if (s.core core).spawnQ.any mine || (s.core core).gather.any (fun g => g.recs.any mine) then
      (s.gather core).modCore core fun c =>
        { c with gather := c.gather.map fun (g : Gather) => { g with launched := g.launched || g.recs.any mine } }
    else s) s

/-- SPAWNFL (R289): under the guard of any participating lane; it never blocks. -/
def execSpawnfl (i : BIns) (s : State) : Host.Outcome State Fault Refusal :=
  runWord s (.spawnfl i) fun s iss w =>
    .ok (if w.partLanes iss i.g = 0 then s else s.flushGather w.uid)

/-- GATHER_TIMEOUT (R288): child warps whose first record came 256 ck ago are launched. -/
def execGatherTimeout (core : Nat) (s : State) : Host.Outcome State Fault Refusal :=
  let s := s.gather core
  .next (s.modCore core fun c =>
    { c with gather := c.gather.map fun (g : Gather) => { g with launched := g.launched || g.firstCk + 256 ≤ s.ck } })

/-- SPAWN_SPILL_REFILL (R287): the queue refills from the head of the spill area. -/
def execSpawnSpillRefill (core : Nat) (s : State) : Host.Outcome State Fault Refusal :=
  let s := s.gather core
  let n := spawnCap - (s.core core).queued
  let back := (s.core core).spillQ.take n
  .next (back.foldl (fun s r => s.refillRec core r) (s.modCore core fun c => { c with spillQ := c.spillQ.drop n }))

/-- The child warp of gathered records (R31): payloads, counters, depth, and the acquire its first issue owes. Where its
records carry different depths, its `%depth` is that of the first (log entry 117). -/
def State.childWarp (s : State) (g : Gather) (blk : Block) (slot : Nat) (e : SpawnEntry) : Warp :=
  let l := (s.launch blk.launch).getD {}
  let (code, pc) := l.start blk.launch e.entry e.regs
  let w := startWarp s.nextUid blk.launch g.blk (32 + slot) e.regs g.recs.length code pc
  let w := { w with child := true, depth := ((g.recs.head?).map (·.depth)).getD 1,
                    acqScope := (g.recs.map fun r => r.join.scope).foldl max 0 }
  (g.recs.mapIdx fun i r => (i, r)).foldl (fun w p =>
    let w := { w with threads := modNth w.threads p.1 fun (t : Thread) => { t with join := some p.2.join } }
    w.setGroup (.v 0) p.1 p.2.payload) w

/-- CHILD_WARP_PLACE (R33, R113, R288): a launched child warp takes a slot if one is free for it, on its block's own core while
the block's transaction is open. -/
def execChildWarpPlace (core i : Nat) (s : State) : Host.Outcome State Fault Refusal :=
  let s := s.gather core
  let place : Option State := do
    let g ← (s.core core).gather[i]?
    let b ← s.block g.blk
    let l ← s.launch b.launch
    let img ← s.image (imageKey l.part l.image)
    let e ← img.spawns.find? fun e => e.entry == g.entry
    if !g.launched || b.ended || (s.core core).ctxCur != l.ctx then none
    else
      let (c, slot) ← s.childSlot (if b.txOpen then b.core else core) l.ctx b.launch (charge e.regs) b.txOpen
      some (((s.setWarp (wkOf c l.ctx slot) (s.childWarp g b slot e)).newUid).modCore core fun c =>
        { c with gather := c.gather.eraseIdx i })
  .next (place.getD s)

/-! ### JOIN (R290) -/

/-- Reads a counter at its part. -/
def State.readCounter (s : State) (iss : Issue) (w : Warp) (glob : Bool) (p : Piece) : State × Nat :=
  if !glob then
    (s, leNat (((s.block p.blk).map fun b => b.readA (s.isMember iss.wk w) p.addr 8).getD []))
  else
    let (s, bs) := s.pollRead iss.wk w 0 p
    (s, leNat bs)

/-- Did the warp already wait at this JOIN? -/
def Warp.joins (w : Warp) : Bool :=
  match w.pend with
  | some p => p.why == .join
  | none => false

/-- One poll of JOIN: does the counter read zero at its part? -/
def joinPoll (i : BIns) (s : State) (iss : Issue) (w : Warp) : Except Stop (State × Bool) :=
  let glob := counterGlob i
  let addr := (s.uni iss.wk w i.a).toNat
  (s.checkAccess iss.wk w
    { space := if glob then 0 else 1, size := 8, acc := 0, aligned := true, home := true, lanes := [(iss.elected, addr)] }).map
    fun (s, ps) =>
      let p : Piece := match ps with
        | p :: _ => { p with n := 8 }
        | [] => counterPiece iss.elected w.blk addr
      let (s, n) := s.readCounter iss w glob p
      (s, n == 0)

/-- The effect of JOIN: the warp's partial child warps are launched, then it waits for its counter to read zero, and acquires
at the counter's scope. -/
def joinBody (i : BIns) (s : State) (iss : Issue) (w : Warp) : Res :=
  let done := fun (s : State) => s.acquire iss.wk (s.partOf w) (if counterGlob i then 6 else 3) .all
  if w.waitMet then .ok (done s)
  else if !w.joins && !w.electedGuard iss i.g then .ok s
  else
    (joinPoll i s iss w).bind fun (s, zero) =>
      let s := if w.joins then s else s.flushGather w.uid
      if zero then .ok (done s) else .error (.block .join s)

/-- JOIN (R290). -/
def execJoin (i : BIns) (s : State) : Host.Outcome State Fault Refusal := runWord s (.join i) (joinBody i)

/-- A poll of a blocked word by a step of the device. `read` gives the state after the read and whether the condition holds:
then the slot is at Run, and the word completes at its next visit without another poll (R25, R235, R290). -/
def pollBlocked (s : State) (wk : Nat) (why : WaitKind)
    (read : Instr → Option (State → Issue → Warp → Except Stop (State × Bool))) : Host.Outcome State Fault Refusal :=
  match s.warp wk with
  | some w =>
    match w.pend with
    | some p =>
      if w.st == .blocked && p.why == why && s.coreIssues wk w then
        match read p.word with
        | some f =>
          match f s p.iss w with
          | .ok (t, true) => .next (t.modWarp wk fun w => { w with st := .run, pend := some { p with met := true } })
          | .ok (t, false) => .next t
          | .error e => endWord p.iss p.word (.error (e.mapState fun t => t.modWarp wk fun w => { w with st := .run }))
        | none => .next s
      else .next s
    | none => .next s
  | none => .next s

/-- JOIN_POLL (R290): a poll of the counter. -/
def execJoinPoll (wk : Nat) (s : State) : Host.Outcome State Fault Refusal :=
  pollBlocked s wk .join fun i =>
    match i with
    | .join b => some (joinPoll b)
    | _ => none

/-! ### EMIT (R292) -/

/-- Words of a record. -/
def emitN (i : BIns) : Nat := (i.lo >>> 2).toNat + 1

/-- Does EMIT fault PERM: no graph, no such node, a launch node, a complete one, or another record size? -/
def State.emitPerm (s : State) (w : Warp) (node n : Nat) : Bool :=
  match (s.launchOf w).graph with
  | some (g, _) =>
    match s.graph (s.partOf w) g with
    | some x =>
      match x.nodes[node]?, x.runs[node]? with
      | some d, some r => !d.isRec || r.done || d.recw != n
      | _, _ => true
    | none => true
  | none => true

/-- The effect of EMIT: for a member the records are held, otherwise they enter the node's queue as one run. -/
def emitBody (i : BIns) (s : State) (iss : Issue) (w : Warp) : Res :=
  let n := emitN i
  if !w.codesOk [(i.a, 1), (i.b, n)] then illegal s
  else
    let lanes := lanesOf (w.partLanes iss i.g)
    if lanes.isEmpty then .ok s
    else
      let node := (s.uni iss.wk w i.a).toNat % 4096
      let part := s.partOf w
      let g := (((s.launchOf w).graph).map (·.1)).getD 0
      if s.emitPerm w node n then permFault lanes s
      else
        let recs := lanes.map fun l => s.group iss.wk w i.b l n
        let member := s.isMember iss.wk w
        if !member && !s.nodeRoom part g node recs.length then .error (.block .nodeRoom s)
        else
          (s.syncPoint w.blk w.uid).bind fun s =>
            (stillHere (s.release iss.wk 6 .all) iss w).bind fun s =>
              if member then
                match s.block w.blk with
                | some x =>
                  if s.freeA x < 2 * recs.length then .error (.gone (s.discard w.blk .pool))
                  else .ok (s.modBlock w.blk fun x => { x with heldRecs := x.heldRecs ++ [(node, recs)] })
                | none => .error (.gone s)
              else .ok (s.enqueueRecs part g node recs)

/-- EMIT (R292). -/
def execEmit (i : BIns) (s : State) : Host.Outcome State Fault Refusal := runWord s (.emit i) (emitBody i)

end Sys2Proof.Machine
end

