-- ==== Sys2Proof/Machine/Migrate.lean ====
section
/-! DEFINITION. Migration and links: MIGRATE with its landing protocol, and LWAKE (R35, R293, R294, R371, R376, R377). -/

namespace Sys2Proof.Machine

open Sys2Proof

/-! ### LWAKE (R294) -/

/-- The effect of LWAKE. -/
def lwakeBody (i : BIns) (s : State) (iss : Issue) (w : Warp) : Res :=
  if !w.electedGuard iss i.g then .ok s
  else
    let links := s.routeLinks (dieOfWk iss.wk) ((s.uni iss.wk w i.a).toNat % 4)
    .ok (links.foldl State.wakeLink (s.setWarp iss.wk { w with lwake := (w.lwake ++ links).dedup }))

/-- LWAKE (R294). -/
def execLwake (i : BIns) (s : State) : Host.Outcome State Fault Refusal := runWord s (.lwake i) (lwakeBody i)

/-! ### MIGRATE (R293) -/

/-- Is a request of the warp for a landing slot on its way, listed or granted? -/
def State.landingAsked (s : State) (w : Warp) : Bool :=
  w.landing.isSome || (KMap.vals s.dies).any fun d =>
    d.landReqs.any (fun r => r.uid == w.uid) || d.landNew.any (fun r => r.uid == w.uid)

/-- May the warp not migrate at all: a member, in trap mode, or a child whose counter lies in an A-buffer? -/
def State.migratePerm (s : State) (wk : Nat) (w : Warp) : Bool :=
  s.isMember wk w || w.inTrap ||
  w.threads.any fun t =>
    match t.join with
    | some j => !j.glob
    | none => false

/-- The conditions MX, TW, CO, SP and ST. -/
def migrateMask : Nat := 0x1F

/-- The effect of MIGRATE up to the request for a landing slot; the warp then waits for the shipment. -/
def migrateBody (i : BIns) (s : State) (iss : Issue) (w : Warp) : Res :=
  let again := match w.pend with
    | some p => p.why == .landing
    | none => false
  if !again && !w.electedGuard iss i.g then .ok s
  else if s.landingAsked w then .error (.block .landing s)
  else
    let addr := (s.uni iss.wk w i.a).toNat
    let lane := maskOf [iss.elected]
    if s.migratePerm iss.wk w then memFault 4 0 lane addr 0 0 s
    else
      let part := s.partOf w
      let die := dieOfWk iss.wk
      match s.translate die part addr 0 0 with
      | (s, .error e) =>
        .error (.trap
          { cause := e.cause, info := BitVec.ofNat 64 addr, recs := [{ cause := e.cause, reason := e.reason, lanes := lane, addr, hostpri := e.hostpri }] } s)
      | (s, .ok at_) =>
        let target := dieOfPa at_.pa
        if target = die then .ok s
        else if !s.reach die target then memFault 6 0 lane addr 0 0 s
        else if !s.waitOk w migrateMask then .error (.block .landing s)
        else if !(w.q1.isEmpty && w.q3.isEmpty && w.q5.isEmpty) then memFault 4 0 lane addr 0 0 s
        else
          (stillHere (s.release iss.wk 6 .all) iss w).bind fun s =>
            let r : LandReq := { uid := w.uid, wk := iss.wk, domain := stackOfPa at_.pa, charge := charge w.nregs }
            .error (.block .landing (s.modDie target fun d => { d with landNew := d.landNew ++ [r] }))

/-- MIGRATE (R293). -/
def execMigrate (i : BIns) (s : State) : Host.Outcome State Fault Refusal := runWord s (.migrate i) (migrateBody i)

/-! ### The landing protocol (R377) -/

/-- The cores of a stack domain, in order of number (R325). -/
def domainCores (d : Nat) : List Nat := (List.range 28).map fun i => d / 2 * 56 + d % 2 * 28 + i

/-- The lowest core of the domain that qualifies for a request: of the partition, with a free landing slot and room for the
charge. -/
def State.landingCore (s : State) (r : LandReq) : Option Nat :=
  match s.warp r.wk with
  | some w =>
    let ctx := ctxOfWk r.wk
    let mine := (s.partD (s.partOf w)).clusters
    (domainCores r.domain).find? fun c =>
      mine.contains (clusterOfCore c) && s.coreTakes c ctx &&
      (s.core c).landRes.length < (s.freeSlots c ctx landingSlots).length && s.regsFree c ctx r.charge
  | none => none

/-- Grants a request if some core qualifies: its slot and charge are reserved there. -/
def State.grantLanding (s : State) (r : LandReq) : Option State :=
  (s.landingCore r).map fun c =>
    (s.modCore c fun k => { k with landRes := k.landRes ++ [(r.uid, r.charge)] }).modWarp r.wk fun w =>
      { w with landing := some c }

/-- Is a request still the wish of a waiting warp? -/
def State.landingLive (s : State) (r : LandReq) : Bool :=
  match s.warp r.wk with
  | some w => w.uid == r.uid && w.st == .blocked && w.landing.isNone
  | none => false

/-- LANDING_REQUEST (R377): the oldest request on its way arrives; it is granted if no earlier one is listed and a core
qualifies, and listed otherwise. -/
def execLandingRequest (die : Nat) (s : State) : Host.Outcome State Fault Refusal :=
  match (s.die die).landNew with
  | r :: rest =>
    let s := s.modDie die fun d => { d with landNew := rest }
    if !s.landingLive r then .next s
    else
      let listed := s.modDie die fun d => { d with landReqs := d.landReqs ++ [r] }
      if !((s.die die).landReqs.filter s.landingLive).isEmpty then .next listed
      else .next ((s.grantLanding r).getD listed)
  | [] => .next s

/-- LANDING_GRANT (R377): the first request of the list is granted if a core can take it; grants follow the order in which the
requests came to the die. -/
def execLandingGrant (die : Nat) (s : State) : Host.Outcome State Fault Refusal :=
  let s := s.modDie die fun d => { d with landReqs := d.landReqs.filter s.landingLive }
  match (s.die die).landReqs with
  | r :: rest => .next (((s.grantLanding r).map fun t => t.modDie die fun d => { d with landReqs := rest }).getD s)
  | [] => .next s

/-- LANDING_SHIP (R377): the warp's state arrives at the granted core. -/
def execLandingShip (wk : Nat) (s : State) : Host.Outcome State Fault Refusal :=
  .next (s.modWarp wk fun w => if w.landing.isSome then { w with shipped := true } else w)

/-- The warp in its landing slot: at the word after MIGRATE, owing an acquire at device scope (R293). -/
def State.land (s : State) (wk : Nat) (w : Warp) (core : Nat) (iss : Issue) : State :=
  let ctx := ctxOfWk wk
  match (s.freeSlots core ctx landingSlots).head? with
  | some slot =>
    let s := s.modCore core fun k => { k with landRes := k.landRes.filter fun r => r.1 != w.uid }
    let v := w.finish iss (s.codeOf w.activeCode)
    (s.dropWarp wk).setWarp (wkOf core ctx slot)
      { v with st := if v.exited then .retire else .start, landing := none, shipped := false, acqScope := 6, away := true }
  | none => s

/-- LANDING_ACK (R377): the whole context is acknowledged over a route that is up; the source slot is freed and the warp issues
on the target. -/
def execLandingAck (wk : Nat) (s : State) : Host.Outcome State Fault Refusal :=
  match s.warp wk with
  | some w =>
    match w.landing, w.pend, w.shipped with
    | some core, some p, true => .next (if s.reach (dieOfCore core) (dieOfWk wk) then s.land wk w core p.iss else s)
    | _, _, _ => .next s
  | none => .next s

/-- A warp that waits to land on a die that has become unreachable: MIGRATE faults ABSENT, with nothing moved (R377). -/
def State.landingLost (s : State) (wk : Nat) : State :=
  match s.warp wk with
  | some w =>
    match w.pend with
    | some p =>
      let addr := match p.word with
        | .migrate i => (s.uni wk w i.a).toNat
        | _ => 0
      (s.cancelLanding [w.uid]).takeFault p.iss
        { cause := 6, info := BitVec.ofNat 64 addr, recs := [{ cause := 6, lanes := maskOf [p.iss.elected], addr }] }
    | none => s
  | none => s

/-- The die a waiting warp's request names. -/
def State.landingDie (s : State) (w : Warp) : Option Nat :=
  match w.landing with
  | some c => some (dieOfCore c)
  | none => (s.dies.find? fun d =>
      d.2.landReqs.any (fun r => r.uid == w.uid) || d.2.landNew.any (fun r => r.uid == w.uid)).map (·.1)

/-- Every warp that waits to land on a die it can no longer reach faults. -/
def State.landingCheck (s : State) : State :=
  let lost := (s.warps.filter fun e =>
    match s.landingDie e.2 with
    | some d => !s.reach (dieOfWk e.1) d
    | none => false).map (·.1)
  lost.foldl State.landingLost s

end Sys2Proof.Machine
end

