-- ==== Sys2Proof/Machine/System.lean ====
section
/-! DEFINITION. The system words: TFENCE, TRAP, TRET, RDSR, WRSR, CLOCK and SLEEP (R78, R295 to R302, R370, R394). -/

namespace Sys2Proof.Machine

open Sys2Proof

/-! ### TFENCE and TRAP (R296, R297) -/

/-- Has the warp matrix commands outstanding? -/
def State.matrixLeft (s : State) (w : Warp) : Bool := (KMap.vals s.cores).any fun c => c.q0.any (·.uid == w.uid)

/-- The effect of TFENCE: it waits for the warp's matrix commands, then raises ARITH if an enabled flag is set; in trap mode
it only waits. -/
def tfenceBody (i : IIns) (s : State) (iss : Issue) (w : Warp) : Res :=
  let part := w.partLanes iss i.g
  if part = 0 then .ok s
  else if s.matrixLeft w then .error (.block .matrix s)
  else if w.inTrap || w.armed = 0 then .ok s
  else .error (.gone (s.takeTrapWord iss part 0x11 (BitVec.ofNat 64 w.armed)))

/-- TFENCE (R296). -/
def execTfence (i : IIns) (s : State) : Host.Outcome State Fault Refusal := runWord s (.tfence i) (tfenceBody i)

/-- The trap number of TRAP. -/
def trapNumber (i : IIns) : Nat := i.imm.toNat % 65536

/-- The effect of TRAP. -/
def trapBody (i : IIns) (s : State) (iss : Issue) (w : Warp) : Res :=
  let part := w.partLanes iss i.g
  if part = 0 then .ok s
  else .error (.gone (s.takeTrapWord iss part 0x10 (BitVec.ofNat 64 (trapNumber i))))

/-- TRAP (R297). -/
def execTrap (i : IIns) (s : State) : Host.Outcome State Fault Refusal := runWord s (.trap i) (trapBody i)

/-! ### TRET (R298) -/

/-- The effect of TRET: the active lanes wait, and leave trap mode once every thread of the trapped set is there. -/
def tretBody (i : IIns) (s : State) (iss : Issue) (w : Warp) : Res :=
  if !w.electedGuard iss i.g then .ok (s.finish iss)
  else if !w.inTrap then illegal s
  else
    let skip := i.imm.getLsbD 0
    let w := { w with pend := none }.modLanes iss.lanes fun _ t => { t with st := .wait, tret := some skip }
    .ok (((s.setWarp iss.wk w).settleWarp iss.wk).endTrap iss.wk true)

/-- TRET (R298). -/
def execTret (i : IIns) (s : State) : Host.Outcome State Fault Refusal := runRaw s (.tret i) (tretBody i)

/-! ### System registers (R299) -/

/-- CAPS: the atomic sizes and the present dies (R78, R394). -/
def State.caps (s : State) : Word := BitVec.ofNat 64 (s.boot.present.toNat * 4096 + 0x356)

/-- ORIENT of a die (R370). -/
def orient (die : Nat) : Word :=
  match die with
  | 0 => 0x0024 | 1 => 0x088D | 2 => 0x1873 | _ => 0x10DA

/-- The value of a kernel-visible register; none where the read faults PERM. -/
def State.readSr (s : State) (wk : Nat) (w : Warp) (reg : Nat) : Option Word :=
  let trap := fun (x : Word) => if w.inTrap then some x else none
  match reg with
  | 0x000 => some w.fcsr
  | 0x001 => some s.caps
  | 0x002 => some (orient (dieOfWk wk))
  | 0x003 => some (s.launchOf w).seed
  | 0x010 => trap w.tregs.tcause
  | 0x011 => trap w.tregs.tpc
  | 0x012 => trap w.tregs.topc
  | 0x013 => trap w.tregs.titer
  | 0x014 => trap w.tregs.tmask
  | 0x015 => trap w.tregs.tinfo
  | _ => none

/-- The register number of RDSR and WRSR. -/
def srNumber (i : IIns) : Nat := i.imm.toNat % 4096

/-- The effect of RDSR. -/
def rdsrBody (i : IIns) (s : State) (iss : Issue) (w : Warp) : Res :=
  if !w.codesOk [(i.d, 1)] then illegal s
  else if !w.electedGuard iss i.g then .ok s
  else
    match s.readSr iss.wk w (srNumber i) with
    | some x => .ok (s.setWarp iss.wk (w.setAll i.d (w.partLanes iss i.g) x))
    | none => permFault [iss.elected] s

/-- RDSR (R299). -/
def execRdsr (i : IIns) (s : State) : Host.Outcome State Fault Refusal := runWord s (.rdsr i) (rdsrBody i)

/-- The effect of WRSR: FCSR is the one register a kernel writes. -/
def wrsrBody (i : IIns) (s : State) (iss : Issue) (w : Warp) : Res :=
  if !w.electedGuard iss i.g then .ok s
  else if srNumber i = 0 then .ok (s.setWarp iss.wk { w with fcsr := fcsrWrite (s.uni iss.wk w i.a) })
  else permFault [iss.elected] s

/-- WRSR (R299). -/
def execWrsr (i : IIns) (s : State) : Host.Outcome State Fault Refusal := runWord s (.wrsr i) (wrsrBody i)

/-! ### CLOCK and SLEEP (R301, R302) -/

/-- The effect of CLOCK. -/
def clockBody (i : IIns) (s : State) (iss : Issue) (w : Warp) : Res :=
  if !w.codesOk [(i.d, 1)] then illegal s
  else if !w.electedGuard iss i.g then .ok s
  else .ok (s.setWarp iss.wk (w.setAll i.d (w.partLanes iss i.g) (BitVec.ofNat 64 (s.dieCk (dieOfWk iss.wk)))))

/-- CLOCK (R301). -/
def execClock (i : IIns) (s : State) : Host.Outcome State Fault Refusal := runWord s (.clock i) (clockBody i)

/-- Was the warp's SLEEP over before this visit: its count was reached, or a stop request ended it? -/
def Warp.slept (w : Warp) : Bool :=
  match w.pend with
  | some p =>
    match p.why with
    | .sleep _ => true
    | _ => false
  | none => false

/-- The effect of SLEEP: the warp is Blocked until the count; the visit after that completes it. -/
def sleepBody (i : IIns) (s : State) (iss : Issue) (w : Warp) : Res :=
  if w.slept || !w.electedGuard iss i.g then .ok s
  else
    let d := i.imm.toNat + (s.uni iss.wk w i.a).toNat % 2 ^ 32
    if d = 0 then .ok s else .error (.block (.sleep (s.ck + d)) s)

/-- SLEEP (R302). -/
def execSleep (i : IIns) (s : State) : Host.Outcome State Fault Refusal := runWord s (.sleep i) (sleepBody i)

/-- A stop request ends a SLEEP: the warp goes on at the next word when its context returns (R302). -/
def State.wake (s : State) (wk : Nat) : State :=
  match s.warp wk with
  | some w =>
    match w.pend with
    | some p => if w.slept then (s.setWarp wk { w with st := .run }).finish p.iss else s
    | none => s
  | none => s

/-- SLEEP_EXPIRE (R302): the count is reached, and the slot is at Run again; its SLEEP completes at its next visit (R25). -/
def execSleepExpire (wk : Nat) (s : State) : Host.Outcome State Fault Refusal :=
  match s.warp wk with
  | some w =>
    match w.pend with
    | some p =>
      match p.why with
      | .sleep ck => .next (if ck ≤ s.ck && s.coreIssues wk w then s.setWarp wk { w with st := .run } else s)
      | _ => .next s
    | none => .next s
  | none => .next s

end Sys2Proof.Machine
end

