-- ==== Sys2Proof/Machine/Matrix.lean ====
section
/-! DEFINITION. Tensor handles, and the words of the matrix engine: pushes with their checks, MRD and MWR, HMAKE and HSET
(R64, R65, R108, R247 to R267). -/

namespace Sys2Proof.Machine

open Sys2Proof

/-! ### Handles (R252, R253) -/

/-- The fields of a handle. -/
structure Handle where
  reserved : Bool
  zpe : Bool
  scl : Nat
  space : Nat
  base : Nat
  pitch : Nat
  rowBytes : Nat
  sPitch : Nat
  sOff : Nat
  rows : Nat
  gRows : Nat
  xOff : Nat
  zOff : Nat
  deriving DecidableEq, Repr, Inhabited

/-- Reads a handle (Table 3). -/
def handleOf (h : BitVec 256) : Handle :=
  let w := fun (i : Nat) => h.toNat / 2 ^ (64 * i) % 2 ^ 64
  { reserved := bits (w 0) 63 59 != 0 || bits (w 0) 55 55 != 0, zpe := (w 0).testBit 58, scl := bits (w 0) 57 56,
    space := bits (w 0) 54 52, base := bits (w 0) 51 0, pitch := bits (w 1) 63 24, rowBytes := bits (w 1) 23 0,
    sPitch := bits (w 2) 63 48, sOff := bits (w 2) 47 24, rows := bits (w 2) 23 0, gRows := bits (w 3) 63 48,
    xOff := bits (w 3) 47 24, zOff := bits (w 3) 23 0 }

/-- The handle register an operand names. -/
def Warp.handle (w : Warp) (o : Opnd) : BitVec 256 :=
  match o with
  | .h n => w.h n.toNat
  | _ => 0

/-- The number of the handle register a field names. -/
def handleNo (o : Opnd) : Nat :=
  match o with
  | .h n => n.toNat
  | _ => 0

/-- The number of the scalar register a field names. -/
def scalarNo (o : Opnd) : Nat :=
  match o with
  | .s n => n.toNat
  | _ => 0

/-- HMAKE (R253): four scalars become the words of a handle. -/
def execHmake (i : XIns) (s : State) : Host.Outcome State Fault Refusal :=
  runWord s (.hmake i) fun s iss w =>
    if !w.electedGuard iss i.g then .ok s
    else
      let n := ((List.range 4).map fun k => (w.s (scalarNo i.a + k)).toNat * 2 ^ (64 * k)).sum
      .ok (s.setWarp iss.wk (w.setH (handleNo i.q) (BitVec.ofNat 256 n)))

/-- A handle with one word replaced. -/
def setHandleWord (h : BitVec 256) (n : Nat) (x : Word) : BitVec 256 :=
  (h &&& ~~~(BitVec.ofNat 256 ((2 ^ 64 - 1) * 2 ^ (64 * n)))) ||| BitVec.ofNat 256 (x.toNat * 2 ^ (64 * n))

/-- HSET (R253): one word of a handle. -/
def execHset (i : XIns) (s : State) : Host.Outcome State Fault Refusal :=
  runWord s (.hset i) fun s iss w =>
    if !w.electedGuard iss i.g then .ok s
    else
      let n := handleNo i.q
      .ok (s.setWarp iss.wk (w.setH n (setHandleWord (w.h n) (i.fl.toNat % 4) (s.uni iss.wk w i.a))))

/-! ### Rungs, arrays and latches (R64, R107, R108, R255) -/

/-- Byte `k` of a rung's entry. -/
def State.rungByte (s : State) (w : Warp) (k : Nat) : Nat :=
  let rung := ((s.block w.blk).map (·.rung)).getD 0
  ((s.imageOf w).rungs.getD (6 * rung + k) 0).toNat

/-- A format, scaling and B format, scaling of the current rung. -/
def State.rungFmt (s : State) (w : Warp) : (Nat × Nat) × (Nat × Nat) :=
  let a := s.rungByte w 0
  let b := s.rungByte w 1
  ((a % 16, b % 4), (a / 16, b / 4 % 4))

/-- The rung's monitor values in the layout of Table 10. -/
def State.rungThr (s : State) (w : Warp) : BitVec 28 :=
  BitVec.ofNat 28 (s.rungByte w 5 % 16 * 2 ^ 24 + s.rungByte w 4 * 2 ^ 16 + s.rungByte w 3 * 2 ^ 8 + s.rungByte w 2)

/-- The arrays a word names: 0 west, 1 east (R247). -/
def arraysOf (arr : Nat) : List Nat := if arr = 1 then [0] else if arr = 2 then [1] else [0, 1]

/-- The place of an array's set in a group: both arrays take two sets, a single one the first (R256). -/
def arraySlot (arr a : Nat) : Nat := if arr = 0 then a else 0

/-- The columns of an operation (R261). -/
def columnsOf (arr : Nat) : List Nat :=
  if arr = 1 then List.range 64 else if arr = 2 then (List.range 64).map (· + 64) else List.range 128

/-- A core's latch of an array. -/
def Core.latch (c : Core) (a : Nat) : Latch := if a = 0 then c.west else c.east
/-- Sets a core's latch of an array. -/
def Core.setLatch (c : Core) (a : Nat) (l : Latch) : Core := if a = 0 then { c with west := l } else { c with east := l }

/-- The latch state, without its bytes, that a command leaves in the arrays it names; none where it loads none. -/
def MCmd.leaves (c : MCmd) : Option Latch :=
  if c.op = .mldw ∨ (c.hB.isSome ∧ c.op ≠ .mzero) then
    some { valid := true, owner := c.blk, fmt := c.fb, scl := c.scb, spr := c.spr,
           cover := mElems c.fb * (if c.spr then 2 else 1) }
  else none

/-- The latch of an array as the commands in q0 will leave it (R263). -/
def Core.latchAfter (c : Core) (a : Nat) : Latch :=
  c.q0.foldl (fun l k => if (arraysOf k.arr).contains a then k.leaves.getD l else l) (c.latch a)

/-! ### Byte ranges of a command's operands (R256 to R260) -/

/-- The places of one set of a group from a handle: its bytes, its scales if it has MX scaling, its metadata if sparse, up to
the last nibble of its last column; as (offset, length) of the handle's space. -/
def setRanges (h : Handle) (g slot scl cover : Nat) (spr : Bool) : List (Nat × Nat) :=
  [(h.base + g * h.pitch + 16384 * slot, 16384)] ++
  (if scl = 1 then [(h.base + h.sOff + g * h.sPitch + 1024 * slot, 1008 + (cover + 31) / 32)] else []) ++
  (if spr then [(h.base + h.zOff + 16384 * g + 8192 * slot, 8064 + cover / 8)] else [])

/-- The ranges of every set of a handle's groups for the arrays named. -/
def groupRanges (h : Handle) (groups arr scl cover : Nat) (spr : Bool) : List (Nat × Nat) :=
  (List.range groups).flatMap fun g => (arraysOf arr).flatMap fun a => setRanges h g (arraySlot arr a) scl cover spr

/-- The ranges of the A-buffer a matrix operation reads: rows, scales and zero points of the source rows named. -/
def aRanges (h : Handle) (srcs : List Nat) (scl k : Nat) : List (Nat × Nat) :=
  srcs.flatMap fun i =>
    [(h.base + i * h.pitch, h.rowBytes)] ++
    (if scl = 1 then [(h.base + h.sOff + i * h.sPitch, k / 32)] else []) ++
    (if h.zpe then [(h.base + h.zOff + i, 1)] else [])

/-- Does every range end at or below a size? -/
def rangesFit (l : List (Nat × Nat)) (size : Nat) : Bool := l.all fun r => r.1 + r.2 ≤ size

/-! ### Pushes (R249, R251) -/

/-- Records that a warp's commands of the matrix engine owe it. -/
def State.owedMatrix (s : State) (w : Warp) : Nat :=
  ((KMap.vals s.cores).map fun c => (c.q0.filter fun k => k.uid == w.uid && k.recd).length).sum

/-- Has q0 of a core room: fewer than 16 commands, and the engine not in reset (R249, R365)? -/
def Core.matrixRoom (c : Core) : Bool := c.q0.length < 16 && c.mxReset.isNone

/-- Pushes a command that has passed its checks. -/
def State.pushMatrix (s : State) (iss : Issue) (w : Warp) (c : MCmd) : Res :=
  let core := coreOfWk iss.wk
  if !(s.core core).matrixRoom then .error (.block (.engine .matrix) s)
  else if c.recd && w.q1.length + s.owedMatrix w ≥ 64 then .error (.block (.owed 1) s)
  else
    .ok (s.modCore core fun k => { k with q0 := k.q0 ++ [c], mxSince := if k.q0.isEmpty then s.ck else k.mxSince })

/-- A fault of a push at a handle's address: one record of the elected lane. -/
def handleFault (cause : Nat) (iss : Issue) (h : Handle) (s : State) : Res :=
  memFault cause 0 (maskOf [iss.elected]) h.base 0 h.space s

/-- A fault of a push at a C-buffer tile. -/
def tileFault (iss : Issue) (tile : Nat) (s : State) : Res := memFault 4 0 (maskOf [iss.elected]) (1024 * tile) 0 3 s

/-- The command a word makes, its fields that every operation has. -/
def State.newCmd (s : State) (iss : Issue) (w : Warp) (i : XIns) (op : MOp) : MCmd :=
  { uid := w.uid, blk := w.blk, pc := iss.pc, hdr := iss.hdr, op, arr := i.fl.toNat % 4, lanes := iss.lanes, tile := i.t.toNat,
    recd := op != .mldw && i.fl.getLsbD 2, mon := i.mon, member := s.isMember iss.wk w }

/-- Is a scaling mode wrong for a format (R92)? -/
def scaleBad (f scl : Nat) : Bool := !mxOk f scl

/-! ### MLDW and MZERO (R256, R257, R266) -/

/-- The effect of MLDW: the weights of group 0 will be latched. RF outside an open transaction is ILLEGAL whatever the guard
(R173, R174). -/
def mldwBody (i : XIns) (s : State) (iss : Issue) (w : Warp) : Res :=
  if i.rf && !s.isMember iss.wk w then illegal s
  else if !w.electedGuard iss i.g then .ok s
  else
    let hv := w.handle i.b
    let h := handleOf hv
    let (fb, scb) := if i.rf then (s.rungFmt w).2 else (i.fb.toNat, h.scl)
    let spr := i.fl.getLsbD 2
    let cover := mElems fb * (if spr then 2 else 1)
    let arr := i.fl.toNat % 4
    let wSize := ((s.block w.blk).map (·.wSize)).getD 0
    if h.reserved || h.space != 2 || scaleBad fb scb then illegal s
    else if h.base % 16384 ≠ 0 ∨ h.pitch % 16384 ≠ 0 then handleFault 5 iss h s
    else if !s.atHome iss.wk w || !rangesFit (groupRanges h 1 arr scb cover spr) wSize then handleFault 4 iss h s
    else s.pushMatrix iss w { s.newCmd iss w i .mldw with fb, scb, spr, hB := some hv }

/-- MLDW (R256). -/
def execMldw (i : XIns) (s : State) : Host.Outcome State Fault Refusal := runWord s (.mldw i) (mldwBody i)

/-- Rows of MZERO. -/
def mzeroRows (i : XIns) : Nat := 16 * 2 ^ (i.a.immNat.getD 0)

/-- The effect of MZERO. -/
def mzeroBody (i : XIns) (s : State) (iss : Issue) (w : Warp) : Res :=
  if !w.electedGuard iss i.g then .ok s
  else
    let m := mzeroRows i
    let cSize := ((s.block w.blk).map (·.cSize)).getD 0
    if !s.atHome iss.wk w || cSize < 1024 * i.t.toNat + 512 * m then tileFault iss i.t.toNat s
    else s.pushMatrix iss w { s.newCmd iss w i .mzero with rows := List.range m }

/-- MZERO (R266). -/
def execMzero (i : XIns) (s : State) : Host.Outcome State Fault Refusal := runWord s (.mzero i) (mzeroBody i)

/-! ### MMA, MMAS and MMAG (R258 to R263) -/

/-- What an operation takes as its B operand: format, scaling, and K elements covered; none from an invalid latch. -/
structure BSide where
  fmt : Nat
  scl : Nat
  cover : Nat
  deriving DecidableEq, Repr, Inhabited

/-- The B side of a word: its handle's, or that of the lowest array's latch as q0 will leave it. -/
def State.bSide (s : State) (iss : Issue) (w : Warp) (i : XIns) (sparse : Bool) : Option BSide :=
  let two := if sparse then 2 else 1
  if i.b = .sp .zero then
    let l := (s.core (coreOfWk iss.wk)).latchAfter ((arraysOf (i.fl.toNat % 4)).headD 0)
    if l.valid then some { fmt := l.fmt, scl := l.scl, cover := l.cover } else none
  else
    let h := handleOf (w.handle i.b)
    let (f, c) := if i.rf then (s.rungFmt w).2 else (i.fb.toNat, h.scl)
    some { fmt := f, scl := c, cover := h.rows * mElems f * two }

/-- Does a word from the latch fault NOWEIGHTS (R262, R263)? -/
def State.noWeights (s : State) (iss : Issue) (w : Warp) (i : XIns) (sparse : Bool) : Bool :=
  let ls := (arraysOf (i.fl.toNat % 4)).map (s.core (coreOfWk iss.wk)).latchAfter
  let r := (s.rungFmt w).2
  ls.any (fun l => !l.valid || l.owner != w.blk || l.spr != sparse || (i.rf && (l.fmt != r.1 || l.scl != r.2))) ||
  match ls with
  | [x, y] => x.fmt != y.fmt || x.scl != y.scl || x.spr != y.spr
  | _ => false

/-- The steps of an operation (R259): the step K, the bytes of A a step takes, and K. -/
def stepShape (fa fb rowBytes : Nat) (sparse : Bool) : Nat × Nat × Nat :=
  let two := if sparse then 2 else 1
  let ks := min (mElems fa * two) (mElems fb * two)
  let ba := ks * mBits fa / 8
  (ks, ba, rowBytes / ba * ks)

/-- The row indices of an operation: the list of MMAG, or the rows in order; with the state after the list's lines are
filled, or the fault of a fill. -/
def State.gatherRows (s : State) (iss : Issue) (w : Warp) (h : Handle) (gather : Bool) (m : Nat) :
    Except Stop (State × List Nat) :=
  if !gather then .ok (s, List.range m)
  else
    s.readIndices iss w (h.base + h.xOff) m 2

/-- Do the A rows lie in a region that carries a map (R265)? -/
def Block.mapsRange (x : Block) (l : List (Nat × Nat)) : Bool :=
  x.regions.any fun r => r.map.isSome && l.any fun a => rangesMeet r.off r.size a.1 a.2

/-- The ILLEGAL checks of a matrix operation on its handles, formats and shape. -/
def mmaIllegal (hA : Handle) (hB : Option Handle) (fa sca : Nat) (b : Option BSide) (m : Nat)
    (sparse : Bool) : Bool :=
  hA.reserved || hA.space != 1 || !([16, 32, 64, 128, 256].contains m) ||
  (hA.zpe && !(fa == 7 || fa == 8)) || scaleBad fa sca ||
  (match hB with
    | some h => h.reserved || !(h.space == 0 || h.space == 2)
    | none => false) ||
  (match b with
    | some x =>
      let (_, ba, k) := stepShape fa x.fmt hA.rowBytes sparse
      scaleBad x.fmt x.scl || (fa == 10) != (x.fmt == 10) || hA.rowBytes == 0 || hA.rowBytes % ba != 0 ||
      4096 < hA.rowBytes / ba || x.cover != k
    | none => false)

/-- The ALIGN checks: the handle whose address or pitch is not aligned. -/
def mmaMisaligned (hA : Handle) (hB : Option Handle) : Option Handle :=
  if hA.base % 16 ≠ 0 ∨ hA.pitch % 16 ≠ 0 then some hA
  else
    match hB with
    | some h =>
      let n := if h.space = 2 then 16384 else 64
      if h.base % n ≠ 0 ∨ h.pitch % n ≠ 0 then some h else none
    | none => none

/-- Where an operation whose source rows are `rows` faults at the push, after its ALIGN checks (R249, R258 to R263): the rows,
its other operands and its tile in their allocations, then the latch. -/
def State.mmaFault (s : State) (iss : Issue) (w : Warp) (i : XIns) (hA : Handle) (hB : Option Handle) (side : BSide)
    (sca k m : Nat) (sparse gather : Bool) (rows : List Nat) : Option Res :=
  let x := (s.block w.blk).getD {}
  let per := mElems side.fmt * (if sparse then 2 else 1)
  let outB := fun (h : Handle) =>
    !rangesFit (groupRanges h h.rows (i.fl.toNat % 4) side.scl per sparse) (if h.space = 2 then x.wSize else 2 ^ 52)
  if (gather && rows.any (fun r => hA.rows ≤ r)) || !rangesFit (aRanges hA rows sca k) x.aSize then
    some (handleFault 4 iss hA s)
  else
    match hB.filter outB with
    | some h => some (memFault 4 (if h.space = 0 then 5 else 0) (maskOf [iss.elected]) h.base 0 h.space s)
    | none =>
      if x.cSize < 1024 * i.t.toNat + 512 * m then some (tileFault iss i.t.toNat s)
      else if hB.isNone && s.noWeights iss w i sparse then some (faultOf 0x08 s)
      else none

/-- The effect of MMA, MMAS and MMAG: every check, then the push. RF or MON outside an open transaction is ILLEGAL whatever the
guard (R173, R174). A line of the index list that cannot be filled faults only where no other check fails (R249). -/
def mmaBody (op : MOp) (i : XIns) (s : State) (iss : Issue) (w : Warp) : Res :=
  if (i.rf || i.mon) && !s.isMember iss.wk w then illegal s
  else if !w.electedGuard iss i.g then .ok s
  else
    let sparse := op == .mmas
    let gather := op == .mmag
    let hvA := w.handle i.a
    let hvB := if i.b = .sp .zero then none else some (w.handle i.b)
    let hA := handleOf hvA
    let hB := hvB.map handleOf
    let m := if gather then hA.gRows else hA.rows
    let (fa, sca) := if i.rf then (s.rungFmt w).1 else (i.fa.toNat, hA.scl)
    let b := s.bSide iss w i sparse
    let x := (s.block w.blk).getD {}
    if mmaIllegal hA hB fa sca b m sparse then illegal s
    else
      match mmaMisaligned hA hB with
      | some h => handleFault 5 iss h s
      | none =>
        if !s.atHome iss.wk w then handleFault 4 iss hA s
        else if gather && x.aSize < hA.base + hA.xOff + 2 * m then handleFault 4 iss hA s
        else
          let side := b.getD { fmt := fa, scl := 0, cover := 0 }
          let (_, _, k) := stepShape fa side.fmt hA.rowBytes sparse
          let fault := fun (s : State) => s.mmaFault iss w i hA hB side sca k m sparse gather
          match s.gatherRows iss w hA gather m with
          | .error e => (fault s []).getD (.error e)
          | .ok (s, rows) =>
            match fault s rows with
            | some r => r
            | none =>
              let held := (hB.map fun (h : Handle) => h.space == 0).getD false || x.mapsRange (aRanges hA rows sca k)
              let thr := if i.mon then x.tx.thr.getD (s.rungThr w) else 0
              s.pushMatrix iss w
                { s.newCmd iss w i op with fa, sca, fb := side.fmt, scb := side.scl, spr := sparse, hA := hvA, hB := hvB,
                                           rows, k, thr, held, before := if held then w.threads else [] }

/-- MMA (R258). -/
def execMma (i : XIns) (s : State) : Host.Outcome State Fault Refusal := runWord s (.mma i) (mmaBody .mma i)
/-- MMAS (R258). -/
def execMmas (i : XIns) (s : State) : Host.Outcome State Fault Refusal := runWord s (.mmas i) (mmaBody .mmas i)
/-- MMAG (R258). -/
def execMmag (i : XIns) (s : State) : Host.Outcome State Fault Refusal := runWord s (.mmag i) (mmaBody .mmag i)

/-! ### MRD and MWR (R267) -/

/-- HALF. -/
def halfRow (i : XIns) : Bool := i.fl.getLsbD 1

/-- Registers of a lane's part of a row. -/
def rowRegs (i : XIns) : Nat := if halfRow i then 1 else 2

/-- The offset of the row in the C-buffer. -/
def State.rowOff (s : State) (wk : Nat) (w : Warp) (i : XIns) : Nat :=
  1024 * i.t.toNat + 512 * ((s.uni wk w i.a).toNat % 256)

/-- What MRD and MWR check: their registers at every issue, the row when a lane participates. -/
def rowCheck (i : XIns) (s : State) (iss : Issue) (w : Warp) : Option Res :=
  if !w.codesOk [(i.q, rowRegs i)] then some (illegal s)
  else if w.partLanes iss i.g = 0 then some (.ok s)
  else
    let off := s.rowOff iss.wk w i
    let cSize := ((s.block w.blk).map (·.cSize)).getD 0
    if !s.atHome iss.wk w || cSize < off + 512 then some (memFault 4 0 (maskOf [iss.elected]) off 0 3 s) else none

/-- The effect of MRD. -/
def mrdBody (i : XIns) (s : State) (iss : Issue) (w : Warp) : Res :=
  match rowCheck i s iss w with
  | some r => r
  | none =>
    let n := 8 * rowRegs i
    let bs := ((s.block w.blk).map fun x => x.readC (s.isMember iss.wk w) (s.rowOff iss.wk w i) 512).getD []
    .ok (s.setWarp iss.wk ((lanesOf (w.partLanes iss i.g)).foldl
      (fun w l => w.setGroup i.q l (bytesWords 2 ((bs.drop (n * l)).take n))) w))

/-- MRD (R267). -/
def execMrd (i : XIns) (s : State) : Host.Outcome State Fault Refusal := runWord s (.mrd i) (mrdBody i)

/-- The effect of MWR. -/
def mwrBody (i : XIns) (s : State) (iss : Issue) (w : Warp) : Res :=
  match rowCheck i s iss w with
  | some r => r
  | none =>
    let n := 8 * rowRegs i
    let off := s.rowOff iss.wk w i
    let r := (lanesOf (w.partLanes iss i.g)).foldl (fun (a : State × Bool) l =>
      if a.2 then
        a.1.putC w.blk (off + n * l) (groupBytes (s.group iss.wk w i.q l (rowRegs i)) n) (s.isMember iss.wk w)
      else a) (s, true)
    if r.2 then .ok r.1 else .error (.gone r.1)

/-- MWR (R267). -/
def execMwr (i : XIns) (s : State) : Host.Outcome State Fault Refusal := runWord s (.mwr i) (mwrBody i)

end Sys2Proof.Machine
end

