-- ==== Sys2Proof/Machine/MatrixEvents.lean ====
section
/-! DEFINITION. What the matrix engine does with its commands: retirement with the arithmetic and the monitors, operand
faults of held commands, the watchdog and the engine reset, and MXRESET (R110, R111, R123, R124, R255 to R266, R365). -/

namespace Sys2Proof.Machine

open Sys2Proof

/-! ### Weight sets -/

/-- Changes a warp by its name, in a slot or in a frame. -/
def State.modUid (s : State) (uid : Nat) (f : Warp → Warp) : State :=
  s.modWarps fun w => if w.uid == uid then f w else w

/-- Bytes as a memory that starts at an address. -/
def memOf (base : Nat) (bs : List Byte) : Memory := (bs.mapIdx fun i b => (base + i, b)).filter fun c => c.2 != 0

/-- The set of a group for an array, read from its handle's space: weights at 0, scales at 16384, metadata at 32768 (R256,
R257). -/
def MCmd.loadSet (c : MCmd) (src : Nat → Byte) (h : Handle) (g a : Nat) : Latch :=
  let slot := arraySlot c.arr a
  let cover := mElems c.fb * (if c.spr then 2 else 1)
  let rd := fun (at_ n : Nat) => (List.range n).map fun i => src (at_ + i)
  let wt := memOf 0 (rd (h.base + g * h.pitch + 16384 * slot) 16384)
  let sc := if c.scb = 1 then
      memOf 16384 (rd (h.base + h.sOff + g * h.sPitch + 1024 * slot) (1008 + (cover + 31) / 32)) else []
  let md := if c.spr then memOf 32768 (rd (h.base + h.zOff + 16384 * g + 8192 * slot) (8064 + cover / 8)) else []
  { valid := true, owner := c.blk, fmt := c.fb, scl := c.scb, spr := c.spr, cover, wt := wt ++ sc ++ md }

/-- Column `k` of a set: its elements in runs of 32. -/
def Latch.column (l : Latch) (k : Nat) : List (List Elem) :=
  columnElems l.fmt l.cover l.spr (fun i => Memory.read l.wt (256 * k + i)) (fun i => Memory.read l.wt (32768 + 128 * k + i))
    (fun b => if l.scl = 1 then some (Memory.read l.wt (16384 + 16 * k + b)).toNat else none)

/-! ### Operand bytes (R250) -/

/-- An A-buffer byte as the engine reads it. -/
def Block.opA (x : Block) (c : MCmd) (a : Nat) : Byte :=
  (KMap.get? c.frozenA a).getD ((x.readA c.member a 1).headD 0)

/-- A C-buffer byte as the engine reads it. -/
def Block.opC (x : Block) (c : MCmd) (a : Nat) : Byte :=
  (KMap.get? c.frozenC a).getD ((x.readC c.member a 1).headD 0)

/-- A W-buffer byte as the engine reads it. -/
def Block.opW (x : Block) (c : MCmd) (a : Nat) : Byte := (KMap.get? c.frozenW a).getD (Memory.read x.wMem a)

/-- The A ranges of a command. -/
def MCmd.readsA (c : MCmd) : List (Nat × Nat) :=
  if c.op = .mldw ∨ c.op = .mzero then [] else aRanges (handleOf c.hA) c.rows c.sca c.k

/-- The ranges of a command's B handle. -/
def MCmd.readsB (c : MCmd) : List (Nat × Nat) :=
  match c.hB with
  | some h =>
    groupRanges (handleOf h) (if c.op = .mldw then 1 else (handleOf h).rows) c.arr c.scb
      (mElems c.fb * (if c.spr then 2 else 1)) c.spr
  | none => []

/-- Does a command fetch its weights from global space? -/
def MCmd.globalB (c : MCmd) : Bool := (c.hB.map fun h => (handleOf h).space == 0).getD false

/-- The pieces of a range that lie within one line. -/
def linePieces (a n : Nat) : List (Nat × Nat) :=
  (linesOf a n).map fun l => (max a (64 * l), min (a + n) (64 * l + 64) - max a (64 * l))

/-- The die's translation of an engine's read, or the record of its fault. -/
def State.engineRead (s : State) (core part lane va n : Nat) : State × Except FaultRec Attr :=
  let r : FaultRec := { laneRec 6 0 0 0 lane va with client := 2 }
  match s.translate (dieOfCore core) part va 0 0 with
  | (s, .ok at_) => if s.linkErr (wkOf core 0 0) at_ n 0 false then (s, .error r) else (s, .ok at_)
  | (s, .error e) => (s, .error { r with cause := e.cause, reason := e.reason, hostpri := e.hostpri })

/-- Fills the mapped A lines of a held command and translates its global pages: the records of what fails, one for each
page (R220, R265). -/
def State.fetchFaults (s : State) (core : Nat) (c : MCmd) : State × List FaultRec :=
  let lane := (lanesOf c.lanes).headD 0
  let part := s.blockPart c.blk
  let a := c.readsA.foldl (fun (a : State × List FaultRec) r =>
    let (s, bad) := a.1.mapFillRange c.blk r.1 r.2
    (s, bad.foldl (fun rs e => addPage rs (mapRec lane e)) a.2)) (s, [])
  if !c.globalB then a
  else
    (c.readsB.flatMap fun r => pagePieces (r.2 / 4096 + 2) r.1 r.2).foldl (fun (a : State × List FaultRec) p =>
      match a.1.engineRead core part lane p.1 p.2 with
      | (s, .ok _) => (s, a.2)
      | (s, .error r) => (s, addPage a.2 r)) a

/-- Fetches the global weights of a command, line by line, through its cluster's slice or its block's image. -/
def State.fetchB (s : State) (core : Nat) (c : MCmd) : State × KMap Byte :=
  let part := s.blockPart c.blk
  (c.readsB.flatMap fun r => linePieces r.1 r.2).foldl (fun (a : State × KMap Byte) p =>
    match a.1.engineRead core part 0 p.1 p.2 with
    | (s, .ok at_) =>
      let (s, bs) := if s.isDet c.blk then s.imageRead c.blk false at_ p.2
        else s.sliceRead (clusterOfCore core) part p.1 p.2 0 at_
      (s, (bs.mapIdx fun i v => (p.1 + i, v)).foldl (fun m v => KMap.set m v.1 v.2) a.2)
    | (s, .error _) => (s, a.2)) (s, [])

/-! ### The arithmetic of an operation (R261) -/

/-- The rows an operation writes, and what its monitors saw. `sets` gives each array's sets in ascending K. -/
def MCmd.compute (c : MCmd) (x : Block) (sets : Nat → List Latch) : List (List Nat) × Seen :=
  let h := handleOf c.hA
  let cols := (columnsOf c.arr).map fun j => (j, (sets (j / 64)).flatMap fun l => l.column (j % 64))
  let row := fun (src : Nat) =>
    rowElems c.fa c.k (fun i => x.opA c (h.base + src * h.pitch + i))
      (if h.zpe then intOf true 8 (x.opA c (h.base + h.zOff + src)).toNat else 0)
      (fun b => if c.sca = 1 then some (x.opA c (h.base + h.sOff + src * h.sPitch + b)).toNat else none)
  let acc := fun (i j : Nat) =>
    leNat ((List.range 4).map fun n => x.opC c (1024 * c.tile + 512 * i + 4 * j + n))
  c.rows.zipIdx.foldl (fun (a : List (List Nat) × Seen) r =>
    let es := row r.1
    let (out, seen) := cols.foldl (fun (b : List Nat × Seen) p =>
      let (v, w) := accumulate c.fa c.fb c.thr.toNat (acc r.2 p.1) b.2 es p.2
      (b.1 ++ [v], w)) ([], a.2)
    (a.1 ++ [out], seen)) ([], {})

/-- Writes an operation's version over its tile; false when the pool ran out. -/
def State.writeTile (s : State) (c : MCmd) (rows : List (List Nat)) : State × Bool :=
  let j0 := (columnsOf c.arr).headD 0
  rows.zipIdx.foldl (fun (a : State × Bool) r =>
    if a.2 then a.1.putC c.blk (1024 * c.tile + 512 * r.2 + 4 * j0) (r.1.flatMap (leBytes 4)) c.member else a) (s, true)

/-! ### Retirement (R123) -/

/-- What a retiring command does to the engine and its warp: it leaves q0, the flags are set, and its record is pushed. -/
def State.retireHead (s : State) (core : Nat) (c : MCmd) (flags : Nat) (top : Bool) : State :=
  let op := match c.op with | .mldw => 0 | .mma => 1 | .mmas => 2 | .mmag => 3 | .mzero => 4
  let rec_ : Word := BitVec.ofNat 64 (c.pc.toNat * 2 ^ 32 + top.toNat * 2 ^ 13 + op * 2 ^ 9 + c.tile % 512)
  let s := s.modCore core fun k => { k with q0 := k.q0.drop 1, mxSince := s.ck }
  let s := s.modUid c.uid fun w =>
    let w := w.flag flags
    if c.recd then { w with q1 := w.q1 ++ [rec_] } else w
  (s.commitTry c.blk).endBlock c.blk

/-- Loads the last sets of a command into the arrays it names. -/
def State.loadLatches (s : State) (core : Nat) (c : MCmd) (sets : Nat → List Latch) : State :=
  (arraysOf c.arr).foldl (fun s a =>
    match (sets a).getLast? with
    | some l => s.modCore core fun k => k.setLatch a l
    | none => s) s

/-- Counts what a monitored operation has seen in the block's transaction. -/
def Block.noteSeen (x : Block) (c : MCmd) (w : Seen) : Block :=
  { x with tx := { x.tx with monU := x.tx.monU + w.u, monN := x.tx.monN + w.n, monC := max x.tx.monC w.cmax,
                             tripped := x.tx.tripped ||| BitVec.ofNat 4 (tripBits c.thr.toNat w) } }

/-- Retires an MMA, MMAS or MMAG whose operands can all be read. A trip discards the transaction even while an ordered commit
of it waits (log entry 114). -/
def State.retireMma (s : State) (core : Nat) (c : MCmd) (x : Block) (src : Nat → Byte) : State :=
  let k := s.core core
  let sets := fun (a : Nat) =>
    match c.hB with
    | some h => (List.range (handleOf h).rows).map fun g => c.loadSet src (handleOf h) g a
    | none => [k.latch a]
  let (rows, seen) := c.compute x sets
  let flags := (if seen.iv then 1 else 0) + (if seen.of_ then 4 else 0)
  let s := if c.mon then s.modBlock c.blk fun x => x.noteSeen c seen else s
  let trips := c.mon && tripBits c.thr.toNat seen != 0
  let top := x.rung == s.topRung x
  if trips && !top then s.discard c.blk .trip
  else
    let s := if trips then s.modBlock c.blk fun x => { x with tx := { x.tx with topTrip := true } } else s
    match s.writeTile c rows with
    | (s, false) => s
    | (s, true) => (if c.hB.isSome then s.loadLatches core c sets else s).retireHead core c flags trips

/-- MATRIX_RETIRE (R123, R256, R261, R266): the oldest command of a core retires if its operands can be read. -/
def execMatrixRetire (core : Nat) (s : State) : Host.Outcome State Fault Refusal :=
  match (s.core core).q0 with
  | [] => .next s
  | c :: _ =>
    let (t, bad) := if c.held then s.fetchFaults core c else (s, [])
    if !bad.isEmpty then .next s
    else
      match t.block c.blk with
      | none => .next s
      | some x =>
        match c.op with
        | .mldw =>
          let h := handleOf (c.hB.getD 0)
          .next ((t.loadLatches core c fun a => [c.loadSet (x.opW c) h 0 a]).retireHead core c 0 false)
        | .mzero =>
          match t.writeTile c (c.rows.map fun _ => (columnsOf c.arr).map fun _ => 0) with
          | (t, true) => .next (t.retireHead core c 0 false)
          | (t, false) => .next t
        | _ =>
          if c.globalB then
            let (t, m) := t.fetchB core c
            .next (t.retireMma core c x fun a => (KMap.get? c.frozenG a).getD (KMap.getD m a 0))
          else .next (t.retireMma core c x (x.opW c))

/-! ### Operand faults (R265) -/

/-- Makes the latches of some arrays of a core invalid. -/
def State.dropLatches (s : State) (core : Nat) (l : List Nat) : State :=
  s.modCore core fun k => l.foldl (fun k a => k.setLatch a {}) k

/-- MATRIX_OPERAND_FAULT (R265): the oldest command is held and a page of it does not translate; it is dropped, its latches
become invalid, and its warp, back at the word, takes the fault. -/
def execMatrixOperandFault (core : Nat) (s : State) : Host.Outcome State Fault Refusal :=
  match (s.core core).q0 with
  | [] => .next s
  | c :: r =>
    match s.fetchFaults core c, s.findUid c.uid with
    | (t, f :: recs), some (wk, w) =>
      if !c.held then .next s
      else
        let t := (t.modCore core fun k => { k with q0 := r, mxSince := s.ck }).dropLatches core (arraysOf c.arr)
        let iss : Issue := { wk, lanes := c.lanes, pc := c.pc, hdr := c.hdr }
        .next ((t.setWarp wk { w with threads := c.before }).takeFault iss
          { cause := f.cause, info := BitVec.ofNat 64 f.addr, recs := f :: recs })
    | _, _ => .next s

/-! ### The watchdog (R124, R265, R365) -/

/-- The first command of each warp in a list. -/
def firstOfWarp (l : List MCmd) : List MCmd :=
  l.foldl (fun acc c => if acc.any fun a => a.uid == c.uid then acc else acc ++ [c]) []

/-- May a step of the command at the head of a queue have been completed unseen: is it an operation of several steps? -/
def Core.steps (k : Core) : Bool :=
  match k.q0 with
  | c :: _ => c.op != .mldw && c.op != .mzero
  | [] => false

/-- MATRIX_WATCHDOG (R365): after 2^24 ck with a command and no progress the engine drops every command. Open transactions
with a command are discarded, other warps owe an MXRESET, the latches are invalid, and firmware is told. A free value says
whether a step of the running operation has cleared the count meanwhile, and when (log entry 54). A command pushed in the
block's prologue is none of the transaction's (log entry 122). -/
def execMatrixWatchdog (core : Nat) (s : State) : Host.Outcome State Fault Refusal :=
  let k := s.core core
  if k.q0.isEmpty || s.ck < k.mxSince + 2 ^ 24 then .next s
  else if k.steps && s.freeWord.getLsbD 63 then
    .next (s.useFree.modCore core fun k => { k with mxSince := s.ck - s.freeWord.toNat % 2 ^ 24 })
  else
    let s := if k.steps then s.useFree else s
    let s := (s.modCore core fun k => { k with q0 := [], mxReset := some s.ck, mxSince := s.ck }).dropLatches core [0, 1]
    let s := s.modDie (dieOfCore core) fun d => { d with mxRst := d.mxRst + 1 }
    let s := { s with mailbox := s.mailbox ++ [.engineReset core] }
    let s := (firstOfWarp (k.q0.filter fun c => !c.member)).foldl (fun s c =>
      s.modUid c.uid fun w => { w with mxreset := w.mxreset.or (some (c.pc, c.lanes)) }) s
    let s := (((k.q0.filter (·.member)).map (·.blk)).dedup).foldl (fun s b => s.discard b .mxreset) s
    .next ((((k.q0.filter fun c => !c.member).map (·.blk)).dedup).foldl (fun s b => (s.commitTry b).endBlock b) s)

/-- MATRIX_RESET_DONE (R365): 512 ck after the reset began, pushes to q0 resume. -/
def execMatrixResetDone (core : Nat) (s : State) : Host.Outcome State Fault Refusal :=
  match (s.core core).mxReset with
  | some k => .next (if k + 512 ≤ s.ck then s.modCore core fun c => { c with mxReset := none } else s)
  | none => .next s

/-- MXRESET_TAKE (R265, R355, R357, R358): at its visit the warp takes the fault its dropped command owes; the lanes that
issued the command enter the handler, to return where each stands. In trap mode it is a double fault. -/
def execMxresetTake (wk : Nat) (s : State) : Host.Outcome State Fault Refusal :=
  match s.warp wk with
  | some w =>
    match w.mxreset with
    | some (pc, lanes) =>
      let t := s.setWarp wk { w with mxreset := none, pend := none }
      if w.inTrap then
        let (opc, _) := s.backOf w.activeCode pc
        .next (t.doubleFault wk 0x0C 7 (BitVec.ofNat 64 pc.toNat) (BitVec.ofNat 64 opc.toNat))
      else .next (t.trapEnter wk pc lanes 7 0 fun t => t.pos)
    | none => .next s
  | none => .next s

/-! ### Bytes read before a later write (R250) -/

/-- Bytes that have changed and were not yet read: of each the engine may have read the old value, a free choice (log entry
4); they join the table of bytes read. -/
def freezeBytes (free : Nat) (t : KMap Byte) (keys : List Nat) (old new : Nat → Option Byte) : Nat × KMap Byte :=
  keys.foldl (fun (a : Nat × KMap Byte) k =>
    match old k with
    | some v =>
      if new k == some v || (KMap.get? a.2 k).isSome then a
      else (a.1 + 1, if (Config.freeBits a.1).getLsbD 0 then KMap.set a.2 k v else a.2)
    | none => a) (free, t)

/-- Every byte of ranges. -/
def rangeBytes (l : List (Nat × Nat)) : List Nat := l.flatMap fun r => (List.range r.2).map (r.1 + ·)

/-- A committed or speculative A-buffer byte the engine could have read: not one of an unfilled mapped line. -/
def State.seenA (s : State) (c : MCmd) (a : Nat) : Option Byte :=
  (s.block c.blk).bind fun x =>
    if (x.mapAt a).isSome && (KMap.get? x.filled (a / 64)).isNone then none else (x.readA c.member a 1).head?

/-- A global byte the engine could have read from the slice of a core's cluster. -/
def State.seenG (s : State) (core : Nat) (c : MCmd) (va : Nat) : Option Byte :=
  match (s.translate (dieOfCore core) (s.blockPart c.blk) va 0 0).2 with
  | .ok at_ =>
    (s.sliceLine (clusterOfCore core) (at_.pa / 64)).bind fun l =>
      if l.valid.getLsbD (at_.pa % 64) then some (lineByte l.data (at_.pa % 64)) else none
  | .error _ => none

/-- A command after a step from `old` to `new`; `retire` says that the step was a retirement of the same queue, whose tile
a later command reads as it was left. -/
def State.freezeCmd (new old : State) (retire : Bool) (core : Nat) (c : MCmd) : State × MCmd :=
  let (n, fa) := freezeBytes new.free c.frozenA (rangeBytes c.readsA) (old.seenA c) (new.seenA c)
  let wr := rangeBytes c.readsB
  let seenW := fun (s : State) (a : Nat) => (s.block c.blk).map fun x => Memory.read x.wMem a
  let det := new.isDet c.blk
  let (n, fw) := freezeBytes n c.frozenW (if c.globalB then [] else wr) (seenW old) (seenW new)
  let (n, fg) := freezeBytes n c.frozenG (if c.globalB && !det then wr else []) (old.seenG core c) (new.seenG core c)
  let tile := if retire || c.op = .mldw || c.op = .mzero then []
    else (List.range c.rows.length).flatMap fun i => (columnsOf c.arr).flatMap fun j =>
      (List.range 4).map fun b => 1024 * c.tile + 512 * i + 4 * j + b
  let seenC := fun (s : State) (a : Nat) => (s.block c.blk).bind fun x => (x.readC c.member a 1).head?
  let (n, fc) := freezeBytes n c.frozenC tile (seenC old) (seenC new)
  ({ new with free := n }, { c with frozenA := fa, frozenW := fw, frozenG := fg, frozenC := fc })

/-- The commands of every matrix queue after a step from `old` to `new`. -/
def State.freezeMatrix (new old : State) (retire : Bool) : State :=
  (KMap.keys new.cores).foldl (fun s core =>
    let was := (old.core core).q0
    (s.core core).q0.zipIdx.foldl (fun s p =>
      if was.contains p.1 then
        let (s, c) := s.freezeCmd old retire core p.1
        s.modCore core fun k => { k with q0 := k.q0.set p.2 c }
      else s) s) new

end Sys2Proof.Machine
end

