-- ==== Sys2Proof/Machine/Copy.lean ====
section
/-! DEFINITION. CPY and COLL: the checks of a push, and the commands they make (R74 to R76, R113, R146 to R148, R152, R248 to
R251, R254, R271 to R277, R382, R385). -/

namespace Sys2Proof.Machine

open Sys2Proof

/-! ### Commands of the tile-walk engine (R271 to R274) -/

/-- Does the copy write global or host space? -/
def TwCmd.out (c : TwCmd) : Bool := c.kind == 1
/-- The handle of the global or host side. -/
def TwCmd.glob (c : TwCmd) : Handle := handleOf (if c.out then c.hD else c.hS)
/-- The handle of the scratch side. -/
def TwCmd.scr (c : TwCmd) : Handle := handleOf (if c.out then c.hS else c.hD)
/-- Bytes of a row. -/
def TwCmd.rowBytes (c : TwCmd) : Nat := c.scr.rowBytes
/-- The virtual address of row `k`: of the source row it takes, where the source is global. -/
def TwCmd.gAddr (c : TwCmd) (k : Nat) : Nat := c.glob.base + c.rows.getD k 0 * c.glob.pitch
/-- The address of row `k` on the scratch side: also of a gather, whose rows are packed where PITCH is ROWBYTES (R75, R273; log
entry 119). -/
def TwCmd.sAddr (c : TwCmd) (k : Nat) : Nat := c.scr.base + k * c.scr.pitch
/-- The offset of row `k` in its allocation; in cluster-remote space bits [21:20] of its address name the core (R72). -/
def TwCmd.sOff (c : TwCmd) (k : Nat) : Nat := if c.scr.space = 4 then c.sAddr k % 2 ^ 20 else c.sAddr k

/-- CWE. -/
def TwCmd.cwe (c : TwCmd) : Bool := c.ctl.getLsbD 22
/-- REC. -/
def TwCmd.recd (c : TwCmd) : Bool := c.ctl.getLsbD 23
/-- CWOFF. -/
def TwCmd.cwOff (c : TwCmd) : Nat := c.ctl.field 19 0
/-- CWPOS. -/
def TwCmd.cwPos (c : TwCmd) : Nat := c.ctl.field 21 20
/-- The positions of MCAST. -/
def TwCmd.mcast (c : TwCmd) : List Nat := (List.range 4).filter fun p => c.ctl.getLsbD (28 + p)

/-- The member of a block's cluster group on a position; a block without a group has only itself. -/
def State.memberAt (s : State) (b pos : Nat) : Option Nat :=
  (s.block b).bind fun x =>
    if x.group.isSome then ((s.groupOf x).find? fun m => posOfCore m.2.core == pos).map (·.1)
    else if posOfCore x.core = pos then some b else none

/-- The blocks whose allocation row `k` of the scratch side names. -/
def State.twTargets (s : State) (c : TwCmd) (k : Nat) : List Nat :=
  if c.kind = 3 then c.mcast.filterMap (s.memberAt c.blk)
  else if c.scr.space = 4 then (s.memberAt c.blk (c.sAddr k / 2 ^ 20 % 4)).toList
  else [c.blk]

/-- The blocks whose allocation takes a completion word (R76). -/
def State.cwTargets (s : State) (c : TwCmd) : List Nat :=
  if !c.cwe then [] else if c.kind = 3 then s.twTargets c 0 else (s.memberAt c.blk c.cwPos).toList

/-- The size of a block's allocation in a space. -/
def Block.sizeIn (x : Block) (space : Nat) : Nat := if space = 2 then x.wSize else if space = 3 then x.cSize else x.aSize

/-! ### The checks of CPY (R254, R272 to R274) -/

/-- The spaces a kind accepts (Table 11). -/
def cpySpaces (kind : Nat) : List Nat × List Nat :=
  match kind with
  | 1 => ([1, 3], [0, 5])
  | 3 => ([0, 5], [1, 2])
  | _ => ([0, 5], [1, 2, 4])

/-- ILLEGAL: reserved bits, spaces and shapes. -/
def cpyIllegal (kind : Nat) (hS hD : Handle) : Bool :=
  kind > 3 || hS.reserved || hD.reserved || !(cpySpaces kind).1.contains hS.space ||
  !(cpySpaces kind).2.contains hD.space || hS.rowBytes != hD.rowBytes || (kind != 2 && hS.rows != hD.rows)

/-- Is a handle's BASE, PITCH or ROWBYTES not a multiple of `n`? -/
def Handle.misaligned (h : Handle) (n : Nat) : Bool := h.base % n != 0 || h.pitch % n != 0 || h.rowBytes % n != 0

/-- A fault of a push with one record of the elected lane. -/
def pushFault (cause : Nat) (iss : Issue) (addr acc space : Nat) : State → Res :=
  memFault cause 0 (maskOf [iss.elected]) addr acc space

/-- Does row `k` of the scratch side lie in every allocation it names, all of which exist and may be named? -/
def State.rowOk (s : State) (c : TwCmd) (k : Nat) : Bool :=
  let ts := s.twTargets c k
  (c.kind = 3 || c.scr.space != 4 || (c.sAddr k < 2 ^ 22 && ts.length == 1)) &&
  (ts.all fun t => ((s.block t).map fun x => decide (c.sOff k + c.rowBytes ≤ x.sizeIn c.scr.space)).getD false) &&
  (!c.member || c.out || ts.all (· == c.blk))

/-- Do the rows of the scratch side lie in the allocations named? A warp on another core than its block's has none of its own,
but may name a group's members, its parent's core among them, through cluster-remote space or MCAST (R33, R72). -/
def State.scratchOk (s : State) (wk : Nat) (w : Warp) (c : TwCmd) : Bool :=
  let grouped := ((s.block c.blk).map fun x => x.group.isSome).getD false
  (if c.kind = 3 then grouped && (s.twTargets c 0).length == c.mcast.length
    else if c.scr.space = 4 then grouped else s.atHome wk w) &&
  (List.range c.rows.length).all (s.rowOk c)

/-- Does the completion word lie in the allocations it names (R76, R113, R273)? -/
def State.cwOk (s : State) (c : TwCmd) : Bool :=
  let ts := s.cwTargets c
  !c.cwe || ((s.memberAt c.blk c.cwPos).isSome && !(ts.isEmpty && c.kind != 3) &&
    ts.all fun t => (!c.member || t == c.blk) && (s.block t).any fun x => c.cwOff + 8 ≤ x.aSize)

/-- Do the rows of the global side stay below 2^52? -/
def TwCmd.globFits (c : TwCmd) : Bool :=
  c.rowBytes == 0 || (List.range c.rows.length).all fun k => c.gAddr k + c.rowBytes ≤ 2 ^ 52

/-- The index list of a gather, read at the push (R75). -/
def State.gatherList (s : State) (iss : Issue) (w : Warp) (off n : Nat) : Except Stop (State × List Nat) :=
  let size := ((s.block w.blk).map (·.aSize)).getD 0
  if !s.atHome iss.wk w || size < off + 4 * n then (pushFault 4 iss off 0 1 s).map fun s => (s, [])
  else
    s.readIndices iss w off n 4

/-- Records that a warp's copies owe it. -/
def State.owedCopies (s : State) (w : Warp) : Nat :=
  ((KMap.vals s.clusters).map fun c => (c.q2.filter fun k => k.uid == w.uid && k.recd).length).sum

/-- The lines of a member's own A-buffer that its fill will write and that have no version (R71). -/
def State.fillLines (s : State) (c : TwCmd) : List Nat :=
  if !c.member || c.out || c.scr.space == 2 then []
  else
    let spec := ((s.block c.blk).map (·.specA)).getD []
    (((List.range c.rows.length).flatMap fun k => if (s.twTargets c k).contains c.blk then linesOf (c.sOff k) c.rowBytes
      else []).dedup).filter fun l =>
      (KMap.get? spec l).isNone

/-- Accepts a copy: its number is drawn, a member's fill reserves its entries, and it enters q2. -/
def State.acceptCopy (s : State) (iss : Issue) (w : Warp) (c : TwCmd) : Res :=
  let cl := clusterOfWk iss.wk
  if (s.cluster cl).q2.length ≥ 32 then .error (.block (.engine .tilewalk) s)
  else if c.recd && w.q3.length + s.owedCopies w ≥ 64 then .error (.block (.owed 3) s)
  else
    let res := s.fillLines c
    let free := ((s.block c.blk).map s.freeA).getD 0
    if free < res.length then .error (.gone (s.discard c.blk .pool))
    else
      let s := s.modBlock c.blk fun x => { x with reservedA := x.reservedA + res.length }
      let (s, id) := s.newCmdNo (s.partOf w)
      .ok (s.modCluster cl fun k => { k with q2 := k.q2 ++ [{ c with id, res }] })

/-- The command of a word, before its rows are known. -/
def State.newCopy (s : State) (iss : Issue) (w : Warp) (i : XIns) : TwCmd :=
  let r := fun (k : Nat) => w.s (i.t.toNat + k)
  let ctl := r 0
  let scope := ctl.field 26 24
  let (opc, iter) := s.backOf w.activeCode iss.pc
  { uid := w.uid, blk := w.blk, core := coreOfWk iss.wk, pc := iss.pc, kind := i.fl.toNat, hS := w.handle i.a,
    hD := w.handle i.b, ctl, cval := r 1, acq := if scope = 0 then none else some (ctl.getLsbD 27, (r 2).toNat, scope),
    member := s.isMember iss.wk w, slot := slotOfWk iss.wk, opc := opc.toNat, iter }

/-- The acquired object's checks: as for ACQ, within its reach (R137, R230, R274). -/
def State.copyObject (s : State) (iss : Issue) (w : Warp) (c : TwCmd) : Res :=
  match c.acq with
  | none => .ok s
  | some (oab, a, scope) =>
    if oab && scope > 3 then pushFault 4 iss a 0 1 s
    else (s.objCheck iss.wk w iss.elected oab.toNat a 0 (scope ≥ 4)).map (·.1)

/-- The effect of CPY: every check, then the push. -/
def cpyBody (i : XIns) (s : State) (iss : Issue) (w : Warp) : Res :=
  if !w.electedGuard iss i.g then .ok s
  else
    let c := s.newCopy iss w i
    let hS := handleOf c.hS
    let hD := handleOf c.hD
    let obj := match c.acq with
      | some (_, a, _) => a
      | none => 0
    if i.t.toNat > 60 || cpyIllegal c.kind hS hD then illegal s
    else if hS.misaligned 16 then pushFault 5 iss hS.base 0 hS.space s
    else if hD.misaligned 16 then pushFault 5 iss hD.base 1 hD.space s
    else if c.cwe && c.cwOff % 8 ≠ 0 then pushFault 5 iss c.cwOff 1 1 s
    else if obj % 64 ≠ 0 then pushFault 5 iss obj 0 (c.ctl.getLsbD 27).toNat s
    else
      let list := (w.s (i.t.toNat + 3)).toNat
      let idx : Except Stop (State × List Nat) :=
        if c.kind = 2 then s.gatherList iss w list hD.rows else .ok (s, List.range hS.rows)
      idx.bind fun (s, rows) =>
        let c := { c with rows }
        if c.kind = 2 ∧ rows.any (fun r => hS.rows ≤ r) then pushFault 4 iss list 0 1 s
        else if !s.scratchOk iss.wk w c then pushFault 4 iss c.scr.base (!c.out).toNat c.scr.space s
        else if !c.globFits then memFault 4 5 (maskOf [iss.elected]) c.glob.base c.out.toNat c.glob.space s
        else if !s.cwOk c then pushFault 4 iss c.cwOff 1 1 s
        else (s.copyObject iss w c).bind fun s => s.acceptCopy iss w c

/-- CPY (R271). -/
def execCpy (i : XIns) (s : State) : Host.Outcome State Fault Refusal := runWord s (.cpy i) (cpyBody i)

/-! ### COLL (R275 to R277, R382, R385) -/

/-- COMM. -/
def CollCmd.comm (c : CollCmd) : Nat := c.ctl.field 23 8
/-- TYPE. -/
def CollCmd.ty (c : CollCmd) : Nat := c.ctl.field 7 4
/-- OP. -/
def CollCmd.op (c : CollCmd) : Nat := c.ctl.field 3 0
/-- ROOT. -/
def CollCmd.root (c : CollCmd) : Nat := c.ctl.field 31 24
/-- STEP. -/
def CollCmd.step (c : CollCmd) : Nat := c.ctl.field 47 32

/-- The participants and the own rank of a communicator; none when it has not been set up (R382). -/
def State.communicator (s : State) (part comm : Nat) : Option (Nat × Nat) :=
  let g := (s.partD part).regs
  let w := s.physWord (g.commBase.toNat + 64 * comm)
  if comm < g.commCnt.toNat && w.getLsbD 35 then some (w.field 15 8 + 1, w.field 7 0) else none

/-- Is a kind's shape wrong for `g` participants (Table 14)? -/
def collShapeBad (kind g : Nat) (hS hD : Handle) : Bool :=
  hS.rowBytes != hD.rowBytes ||
  match kind with
  | 1 => g != 0 && hS.rows != g * hD.rows
  | 2 => g != 0 && hD.rows != g * hS.rows
  | 4 => hS.rows != hD.rows || (g != 0 && hS.rows % g != 0)
  | _ => hS.rows != hD.rows

/-- Does a row of a handle pass 2^52? -/
def Handle.passes (h : Handle) : Bool :=
  h.rowBytes != 0 && (List.range h.rows).any fun k => 2 ^ 52 < h.base + k * h.pitch + h.rowBytes

/-- The PERM checks of a push on the control word (R276, R385). -/
def State.collPerm (s : State) (c : CollCmd) (comm : Option (Nat × Nat)) : Bool :=
  match comm with
  | none => true
  | some (g, _) =>
    !([4, 5, 8, 9, 10].contains c.ty) || (c.kind ≤ 1 && c.op > 2) || g ≤ c.root ||
    (c.step != 0xFFFF && (s.partD c.part).regs.stepCnt.toNat ≤ c.step)

/-- The ranges of a handle's rows in global space. -/
def Handle.ranges (h : Handle) : List (Nat × Nat) := (List.range h.rows).map fun k => (h.base + k * h.pitch, h.rowBytes)

/-- Commands of a warp outstanding in any q4. -/
def State.owedColl (s : State) (w : Warp) : Nat :=
  ((KMap.vals s.dies).map fun d => (d.q4.filter fun k => k.uid == w.uid).length).sum

/-- The command of a word. -/
def State.newColl (s : State) (iss : Issue) (w : Warp) (i : XIns) : CollCmd :=
  let (opc, iter) := s.backOf w.activeCode iss.pc
  { uid := w.uid, blk := w.blk, core := coreOfWk iss.wk, part := s.partOf w, pc := iss.pc, kind := i.fl.toNat,
    hS := w.handle i.a, hD := w.handle i.b, ctl := w.s i.t.toNat, tag := w.s (i.t.toNat + 1), slot := slotOfWk iss.wk,
    opc := opc.toNat, iter }

/-- Accepts a collective: room, the sync point of a deterministic block, the release of its buffers at fabric scope, then it
enters q4. -/
def State.acceptColl (s : State) (iss : Issue) (w : Warp) (c : CollCmd) : Res :=
  let die := dieOfWk iss.wk
  if (s.die die).q4.length ≥ 64 then .error (.block (.engine .collective) s)
  else if w.q5.length + s.owedColl w ≥ 64 then .error (.block (.owed 5) s)
  else
    (s.syncPoint w.blk w.uid).bind fun s =>
      let bufs := ((handleOf c.hS).ranges ++ (handleOf c.hD).ranges).map fun r => (0, r.1, r.2)
      (stillHere (s.release iss.wk 7 (s.byteSet die c.part bufs)) iss w).map fun s =>
        let (s, id) := s.newCmdNo c.part
        { s.modDie die fun d => { d with q4 := d.q4 ++ [{ c with id, seq := s.nextTicket }] } with
          nextTicket := s.nextTicket + 1 }

/-- The effect of COLL: every check, then the push. -/
def collBody (i : XIns) (s : State) (iss : Issue) (w : Warp) : Res :=
  if !w.electedGuard iss i.g then .ok s
  else
    let c := s.newColl iss w i
    let hS := handleOf c.hS
    let hD := handleOf c.hD
    let comm := s.communicator c.part c.comm
    let g := (comm.map (·.1)).getD 0
    if i.t.toNat > 62 || c.kind > 4 || hS.reserved || hD.reserved || collShapeBad c.kind g hS hD then illegal s
    else if hS.misaligned 64 then pushFault 5 iss hS.base 0 hS.space s
    else if hD.misaligned 64 then pushFault 5 iss hD.base 1 hD.space s
    else if hS.space ≠ 0 then pushFault 4 iss hS.base 0 hS.space s
    else if hD.space ≠ 0 then pushFault 4 iss hD.base 1 hD.space s
    else if hS.passes then memFault 4 5 (maskOf [iss.elected]) hS.base 0 0 s
    else if hD.passes then memFault 4 5 (maskOf [iss.elected]) hD.base 1 0 s
    else if s.isMember iss.wk w || s.collPerm c comm then permFault [iss.elected] s
    else s.acceptColl iss w { c with g, rank := (comm.map (·.2)).getD 0 }

/-- COLL (R275). -/
def execColl (i : XIns) (s : State) : Host.Outcome State Fault Refusal := runWord s (.coll i) (collBody i)

end Sys2Proof.Machine
end

