-- ==== Sys2Proof/Machine/CopyEvents.lean ====
section
/-! DEFINITION. What the tile-walk and collective engines do with their commands: bytes moved as permits return, completion,
segments that fault and their replay, the folds of a collective and its step, and source bytes read before a later write
(R68, R70, R74 to R77, R146 to R148, R152, R250, R251, R274, R276, R277, R329, R344, R347, R382 to R386). -/

namespace Sys2Proof.Machine

open Sys2Proof

/-! ### Tile-walk commands -/

/-- A command of a cluster's tile-walk engine. -/
def State.twCmd (s : State) (cl id : Nat) : Option TwCmd := (s.cluster cl).q2.find? fun c => c.id == id

/-- Changes a command. -/
def State.modTw (s : State) (cl id : Nat) (f : TwCmd → TwCmd) : State :=
  s.modCluster cl fun k => { k with q2 := k.q2.map fun c => if c.id == id then f c else c }

/-- Does a command run: it is the oldest of its core (R329)? -/
def State.twRuns (s : State) (cl : Nat) (c : TwCmd) : Bool :=
  (((s.cluster cl).q2.find? fun k => k.core == c.core).map (·.id)) == some c.id

/-- The parts of intervals outside one. -/
def cutRange (l : List (Nat × Nat)) (o n : Nat) : List (Nat × Nat) :=
  l.flatMap fun r =>
    if rangesMeet r.1 r.2 o n then
      (if r.1 < o then [(r.1, o - r.1)] else []) ++
      (if o + n < r.1 + r.2 then [(o + n, r.1 + r.2 - (o + n))] else [])
    else [r]

/-- The bytes of row `k` not yet moved, as (offset, length). -/
def TwCmd.unmoved (c : TwCmd) (k : Nat) : List (Nat × Nat) :=
  (c.moved.filter fun m => m.1 == k).foldl (fun l m => cutRange l m.2.1 m.2.2)
    (if c.rowBytes = 0 then [] else [(0, c.rowBytes)])

/-- Those that stand in no listed segment. -/
def TwCmd.toMove (c : TwCmd) (k : Nat) : List (Nat × Nat) :=
  (c.fixup.filter fun f => f.row == k).foldl (fun l f => cutRange l f.off f.len) (c.unmoved k)

/-- The position of a source byte. -/
def twPos (k off : Nat) : Nat := k * 2 ^ 24 + off

/-- Performs a command's acquire, before it reads any source byte (R147). -/
def State.twAcquire (s : State) (cl : Nat) (c : TwCmd) : State :=
  match c.acq with
  | none => s
  | some (oab, a, scope) =>
    let part := s.blockPart c.blk
    let s :=
      if oab || scope > 3 then s
      else
        match s.translate (dieOfCluster cl) part a 0 0 with
        | (s, .ok at_) => (s.sliceRead cl part (a + 24) 8 0 { at_ with pa := at_.pa + 24 }).1
        | (s, .error _) => s
    let src := (List.range c.rows.length).map fun k => (0, c.gAddr k, c.rowBytes)
    let s := if scope ≥ 4 && !c.out && c.glob.space == 0 then
        s.dropClean cl part (s.byteSet (dieOfCluster cl) part src) else s
    s.modTw cl c.id fun c => { c with acq := none }

/-- The pages of a piece of a row translate and its mapped lines are filled, or the record of what fails (R344, R347). -/
def State.twReach (s : State) (cl : Nat) (c : TwCmd) (k off len : Nat) : State × Option FaultRec :=
  let part := s.blockPart c.blk
  let acc := c.out.toNat
  let va := c.gAddr k + off
  let r : FaultRec := { cause := 6, addr := va, client := 3, acc, space := c.glob.space }
  let (s, bad) := (pagePieces (len / 4096 + 2) va len).foldl (fun (a : State × Option FaultRec) p =>
    match a.2 with
    | some _ => a
    | none =>
      match a.1.translate (dieOfCluster cl) part p.1 c.glob.space acc with
      | (s, .ok at_) => (s, if s.linkErr (wkOf (cl * 4) 0 0) at_ p.2 acc false then some { r with addr := p.1 } else none)
      | (s, .error e) => (s, some { r with cause := e.cause, reason := e.reason, addr := p.1, hostpri := e.hostpri })) (s, none)
  if bad.isSome then (s, bad)
  else if c.scr.space ≠ 1 ∧ c.scr.space ≠ 4 then (s, none)
  else
    let o := c.sOff k + off
    let lines := fun (t : Nat) => (linesOf o len).filterMap fun l =>
      if !c.out && o ≤ 64 * l && 64 * l + 64 ≤ o + len then none else some (t, l)
    ((s.twTargets c k).flatMap lines).foldl (fun (a : State × Option FaultRec) x =>
      match a.2 with
      | some _ => a
      | none =>
        match a.1.mapFill x.1 x.2 with
        | (s, some (g, e)) =>
          (s, some { cause := e.cause, reason := e.reason, addr := g, client := 6, hostpri := e.hostpri })
        | (s, none) => (s, none)) (s, none)

/-- The engine writes bytes of a block's scratch: speculative for a member's own block, an outside write otherwise; false
when the pool ran out (R66, R68, R71). -/
def State.twPut (s : State) (cl : Nat) (c : TwCmd) (t space off : Nat) (bs : List Byte) : State × Bool :=
  if space = 2 then (s.modBlock t fun x => { x with wMem := Memory.writeN x.wMem off bs }, true)
  else
    if !(c.member && t == c.blk) then (s.modBlock t fun x => x.writeA off bs, true)
    else
      (splitLines (bs.length / 64 + 2) off bs).foldl (fun (a : State × Bool) p =>
        if !a.2 then a
        else
          let had := ((a.1.block t).map fun x => (KMap.get? x.specA p.1).isSome).getD true
          let res := !had && ((a.1.twCmd cl c.id).map fun k => k.res.contains p.1).getD false
          let s := if res then a.1.modTw cl c.id fun k => { k with res := k.res.erase p.1 } else a.1
          s.specWriteA t (p.1 * 64 + p.2.1) p.2.2 res) (s, true)

/-- Reads source bytes of a line piece in global or host space. -/
def State.twGet (s : State) (cl : Nat) (c : TwCmd) (va n : Nat) (at_ : Attr) : State × List Byte :=
  let host := c.glob.space == 5
  if s.isDet c.blk then s.imageRead c.blk host at_ n
  else if host then (s.countAccess (dieOfCluster cl) (s.blockPart c.blk) va at_, s.busRead at_ n)
  else s.sliceRead cl (s.blockPart c.blk) va n 0 at_

/-- Writes bytes of a line piece to global or host space: held for a member, in the delta of a deterministic block, through
the cluster's slice or to the fabric port otherwise; false when the pool ran out (R70, R152, R274). -/
def State.twSend (s : State) (cl : Nat) (c : TwCmd) (va : Nat) (at_ : Attr) (bs : List Byte) : State × Bool :=
  let host := c.glob.space == 5
  let line := at_.pa / 64
  let (m, d) := atLine at_.pa bs
  if c.member then
    s.holdWrite c.blk c.glob.space line { mask := 0, data := 0, attr := at_, va } (at_.pa % 64) bs
  else if s.isDet c.blk then (s.addDelta c.blk host va at_ bs, true)
  else if host then
    let l := ((s.block c.blk).map (·.launch)).getD 0
    (((s.fpSend at_ va bs).countAccess (dieOfCluster cl) (s.blockPart c.blk) va at_).modLaunch l fun l => { l with wroteH := addMask l.wroteH line m }, true)
  else
    ((s.sliceWrite cl (s.blockPart c.blk) va 0 at_ m d).modTw cl c.id fun c => { c with wrote := addMask c.wrote line m }, true)

/-- Source bytes with those read earlier in their place. -/
def TwCmd.asRead (c : TwCmd) (k off : Nat) (bs : List Byte) : List Byte :=
  bs.mapIdx fun i b => (KMap.get? c.frozen (twPos k (off + i))).getD b

/-- Moves one piece of a row that lies in one line of the global side. -/
def State.twPiece (s : State) (cl : Nat) (c : TwCmd) (k va n : Nat) : State × Bool :=
  match s.translate (dieOfCluster cl) (s.blockPart c.blk) va c.glob.space c.out.toNat with
  | (s, .ok at_) =>
    let off := va - c.gAddr k
    if c.out then
      let o := c.sOff k + off
      let bs := ((s.block c.blk).map fun x => if c.scr.space = 3 then x.readC c.member o n else x.readA c.member o n).getD []
      s.twSend cl c va at_ (c.asRead k off bs)
    else
      let (s, bs) := s.twGet cl c va n at_
      (s.twTargets c k).foldl (fun (a : State × Bool) t =>
        if a.2 then a.1.twPut cl c t (if c.scr.space = 2 then 2 else 1) (c.sOff k + off) (c.asRead k off bs) else a) (s, true)
  | (s, .error _) => (s, true)

/-- Marks the mapped lines of a row that a write of the engine covers whole as filled (R347). -/
def State.twFilled (s : State) (c : TwCmd) (k off len : Nat) : State :=
  if c.out || c.scr.space == 2 then s
  else
    let o := c.sOff k + off
    let full := (linesOf o len).filter fun l => o ≤ 64 * l && 64 * l + 64 ≤ o + len
    (s.twTargets c k).foldl (fun s t => s.modBlock t fun x =>
      { x with filled := full.foldl (fun f l => if (x.mapAt (64 * l)).isSome then KMap.set f l () else f) x.filled }) s

/-- Moves bytes of a row, all of which can be reached; false when the block's transaction was discarded. -/
def State.twMove (s : State) (cl : Nat) (c : TwCmd) (k off len : Nat) : State × Bool :=
  let s := s.twFilled c k off len
  let (s, ok) := (linePieces (c.gAddr k + off) len).foldl (fun (a : State × Bool) p =>
    if a.2 then a.1.twPiece cl c k p.1 p.2 else a) (s, true)
  if ok then (s.modTw cl c.id fun c => { c with moved := c.moved ++ [(k, off, len)] }, true) else (s, false)

/-- PERMIT_RETURN (R329, R77): bytes of a row move, if they are still to move and can be reached. -/
def execPermitReturn (cl id row off len : Nat) (s : State) : Host.Outcome State Fault Refusal :=
  match s.twCmd cl id with
  | some c =>
    if s.twRuns cl c && c.fixup.length < 256 && row < c.rows.length && 0 < len &&
        (c.toMove row).any (fun r => r.1 ≤ off && off + len ≤ r.1 + r.2) then
      match (s.twAcquire cl c).twReach cl c row off len with
      | (t, none) => .next (t.twMove cl c row off len).1
      | (_, some _) => .next s
    else .next s
  | none => .next s

/-! ### Completion (R76, R274) -/

/-- Writes the completion words; none when a mapped line of one cannot be filled, and false when the pool ran out. -/
def State.twWords (s : State) (c : TwCmd) : Option (State × Bool) :=
  (s.cwTargets c).foldl (fun (a : Option (State × Bool)) t =>
    match a with
    | some (s, true) =>
      match s.mapFill t (c.cwOff / 64) with
      | (s, none) =>
        if c.member && t == c.blk then some (s.specWriteA t c.cwOff (wordBytes c.cval) false)
        else some (s.modBlock t fun x => x.writeA c.cwOff (wordBytes c.cval), true)
      | (_, some _) => none
    | a => a) (some (s, true))

/-- The command leaves q2: entries it still reserves are free again, and its record is pushed. -/
def State.twEnd (s : State) (cl : Nat) (c : TwCmd) : State :=
  let left := ((s.twCmd cl c.id).map (·.res.length)).getD 0
  let s := s.modBlock c.blk fun x => { x with reservedA := x.reservedA - left }
  let s := s.modCluster cl fun k => { k with q2 := k.q2.filter fun x => x.id != c.id }
  let s := if c.recd then s.modUid c.uid fun w => { w with q3 := w.q3 ++ [c.cval] } else s
  (s.commitTry c.blk).endBlock c.blk

/-- Moves every byte left, row by row; none when one cannot be reached, and false when the transaction was discarded. -/
def State.twRest (s : State) (cl : Nat) (c : TwCmd) : Option (State × Bool) :=
  ((List.range c.rows.length).flatMap fun k => (c.unmoved k).map fun r => (k, r)).foldl
    (fun (a : Option (State × Bool)) x =>
      match a with
      | some (s, true) =>
        match s.twReach cl c x.1 x.2.1 x.2.2 with
        | (s, none) => some (s.twMove cl c x.1 x.2.1 x.2.2)
        | (_, some _) => none
      | a => a) (some (s, true))

/-- TILEWALK_COMPLETE (R76, R147, R274): what is left moves, the bytes bound for global are delivered, the completion words
are written, and the record is pushed. -/
def execTilewalkComplete (cl id : Nat) (s : State) : Host.Outcome State Fault Refusal :=
  match s.twCmd cl id with
  | some c =>
    if !s.twRuns cl c || !c.fixup.isEmpty then .next s
    else
      match (s.twAcquire cl c).twRest cl c with
      | some (t, true) =>
        let t := t.releaseSlice cl (((t.twCmd cl id).map (·.wrote)).getD []) .all
        match t.twWords c with
        | some (t, true) => .next (t.twEnd cl c)
        | some (t, false) => .next t
        | none => .next s
      | some (t, false) => .next t
      | none => .next s
  | none => .next s

/-! ### Segments that fault (R344) -/

/-- The bytes of a segment: the piece of one row, within one page, that holds an offset. -/
def segmentAt (base rowBytes off : Nat) : Nat × Nat :=
  let lo := max base ((base + off) / 4096 * 4096)
  (lo - base, min (base + rowBytes) ((base + off) / 4096 * 4096 + 4096) - lo)

/-- Reports records of a tile-walk command. -/
def State.twReport (s : State) (cl : Nat) (c : TwCmd) (recs : List FaultRec) : State :=
  if recs.isEmpty then s
  else
    s.reportEngine (dieOfCluster cl) (s.blockPart c.blk) (engineTag c.id) (.tilewalk cl c.id) c.core c.slot c.opc c.pc.toNat
      c.iter (onePerPage recs)

/-- Does a segment of a command fault now? Row `rows.length` stands for the completion word. -/
def State.twSegFault (s : State) (cl : Nat) (c : TwCmd) (g : Segment) : State × Option FaultRec :=
  if g.row < c.rows.length then s.twReach cl c g.row g.off g.len
  else
    (s.cwTargets c).foldl (fun (a : State × Option FaultRec) t =>
      match a.2 with
      | some _ => a
      | none =>
        match a.1.mapFill t (c.cwOff / 64) with
        | (s, some (va, e)) =>
          (s, some { cause := e.cause, reason := e.reason, addr := va, client := 6, acc := 1, hostpri := e.hostpri })
        | (s, none) => (s, none)) (s, none)

/-- The lowest address that ranges have in a page, if any meets it (R344). -/
def lowInPage (l : List (Nat × Nat)) (page : Nat) : Option Nat :=
  ((l.filter fun r => rangesMeet r.1 r.2 (page * 4096) 4096).map fun r => max r.1 (page * 4096)).min?

/-- A record with the lowest address that ranges have in its page. -/
def FaultRec.lowest (r : FaultRec) (l : List (Nat × Nat)) : FaultRec := { r with addr := (lowInPage l (r.addr / 4096)).getD r.addr }

/-- A tile-walk segment that faults is listed, and its page reported if no record of the list's segments names it. -/
def State.twList (s : State) (cl id row off : Nat) (dst : Bool) : State :=
  match s.twCmd cl id with
  | some c =>
    let (o, n) := if row < c.rows.length then segmentAt (c.gAddr row) c.rowBytes off else (0, 8)
    let g : Segment := { row, off := o, len := n, dst }
    let ends := row = c.rows.length ∧ c.cwe ∧ (List.range row).all (fun k => (c.unmoved k).isEmpty)
    let open_ := row < c.rows.length ∧ dst = c.out ∧ (c.toMove row).any (fun r => rangesMeet r.1 r.2 o n)
    if s.twRuns cl c && c.fixup.length < 256 && !c.fixup.contains g && decide (ends ∨ open_) then
      match (s.twAcquire cl c).twSegFault cl c g with
      | (t, some r) =>
        let page := (r.client, r.addr / 4096)
        let t := t.modTw cl id fun c => { c with fixup := c.fixup ++ [g], posted := (c.posted ++ [page]).dedup }
        let rows := (List.range c.rows.length).map fun k => (c.gAddr k, c.rowBytes)
        if c.posted.contains page then t else t.twReport cl c [if r.client = 3 then r.lowest rows else r]
      | (_, none) => s
    else s
  | none => s

/-- FIXUP_REPLAY: the listed segments in their order, each translated afresh; those that fault again are listed and reported
again. -/
def State.twReplay (s : State) (cl id : Nat) : State :=
  match s.twCmd cl id with
  | some c =>
    let s := s.modTw cl id fun c => { c with fixup := [], posted := [] }
    let (s, recs) := c.fixup.foldl (fun (a : State × List FaultRec) g =>
      match a.1.twCmd cl id with
      | none => a
      | some k =>
        match a.1.twSegFault cl k g with
        | (s, some r) =>
          (s.modTw cl id fun c =>
            { c with fixup := c.fixup ++ [g], posted := (c.posted ++ [(r.client, r.addr / 4096)]).dedup }, a.2 ++ [r])
        | (s, none) =>
          let left := if g.row ≥ k.rows.length then []
            else (cutRange [(0, k.rowBytes)] g.off g.len).foldl (fun l r => cutRange l r.1 r.2) (k.unmoved g.row)
          (left.foldl (fun s r => if (s.twCmd cl id).isSome then (s.twMove cl k g.row r.1 r.2).1 else s) s, a.2)) (s, [])
    if (s.twCmd cl id).isSome then s.twReport cl c recs else s
  | none => s

/-! ### Collectives (R146, R148, R276, R277) -/

/-- A command of a die's collective engine. -/
def State.collCmd (s : State) (die id : Nat) : Option CollCmd := (s.die die).q4.find? fun c => c.id == id

/-- Changes a command. -/
def State.modColl (s : State) (die id : Nat) (f : CollCmd → CollCmd) : State :=
  s.modDie die fun d => { d with q4 := d.q4.map fun c => if c.id == id then f c else c }

/-- Is a command the first of its communicator on the package (R383)? -/
def State.collFirst (s : State) (c : CollCmd) : Bool :=
  !(KMap.vals s.dies).any fun d => d.q4.any fun k => k.part == c.part && k.comm == c.comm && k.seq < c.seq

/-- The client of a collective's access: its engine, or the scale-out engine where other packages take part, as a free value
says (R339, R381; log entry 120). -/
def State.collClient (s : State) (c : CollCmd) : State × Nat :=
  if c.g = 1 then (s, 4) else (s.useFree, if s.freeWord.getLsbD 0 then 5 else 4)

/-- Translates a range of a collective; the record of its first page that fails. -/
def State.collReach (s : State) (die : Nat) (c : CollCmd) (acc va n : Nat) : State × Option FaultRec :=
  (pagePieces (n / 4096 + 2) va n).foldl (fun (a : State × Option FaultRec) p =>
    match a.2 with
    | some _ => a
    | none =>
      let bad := fun (s : State) (e : TErr) =>
        let (s, client) := s.collClient c
        (s, some ({ cause := e.cause, reason := e.reason, addr := p.1, client, acc, hostpri := e.hostpri } : FaultRec))
      match a.1.translate die c.part p.1 0 acc with
      | (s, .ok at_) => if s.reach die (dieOfPa at_.pa) then (s, none) else bad s { cause := 6 }
      | (s, .error e) => bad s e) (s, none)

/-- Can every row of both buffers be reached? -/
def State.collReady (s : State) (die : Nat) (c : CollCmd) : State × Bool :=
  let rows := ((handleOf c.hS).ranges.map fun r => (0, r)) ++ ((handleOf c.hD).ranges.map fun r => (1, r))
  rows.foldl (fun (a : State × Bool) r =>
    if a.2 then
      match a.1.collReach die c r.1 r.2.1 r.2.2 with
      | (s, none) => (s, true)
      | (s, some _) => (s, false)
    else a) (s, true)

/-- Reads a range at the homes, or from the image of a deterministic block. -/
def State.collRead (s : State) (die : Nat) (c : CollCmd) (va n : Nat) : State × List Byte :=
  (linePieces va n).foldl (fun (a : State × List Byte) p =>
    match a.1.translate die c.part p.1 0 0 with
    | (s, .ok at_) =>
      let (s, bs) := if s.isDet c.blk then s.imageRead c.blk false at_ p.2
        else (s.countAccess die c.part p.1 at_).homeReadBytes c.part at_ p.2
      (s, a.2 ++ bs.mapIdx fun i b => (KMap.get? c.frozen (p.1 + i)).getD b)
    | (s, .error _) => (s, a.2 ++ leBytes p.2 0)) (s, [])

/-- Writes a range of results, but for bytes written after the engine's (R250): delivered at the homes, and for a deterministic
block in its delta too (R148, R152, R386; log entry 121). -/
def State.collWrite (s : State) (die : Nat) (c : CollCmd) (va : Nat) (bs : List Byte) : State :=
  (linePieces va bs.length).foldl (fun s p =>
    match s.translate die c.part p.1 0 1 with
    | (s, .ok at_) =>
      let cells := (List.range p.2).filter fun i => (KMap.get? c.kept (p.1 + i)).isNone
      let s := if s.isDet c.blk then
          cells.foldl (fun s i =>
            s.addDelta c.blk false (p.1 + i) { at_ with pa := at_.pa + i } [bs.getD (p.1 + i - va) 0]) s
        else s
      let m := cells.foldl (fun m i => m ||| byteMask (at_.pa % 64 + i) 1) (0 : BitVec 64)
      let d := linePlace (at_.pa % 64) ((bs.drop (p.1 - va)).take p.2)
      let s := (s.send (56 + die) { line := at_.pa / 64, mask := m, data := d, attr := at_, part := c.part, va := p.1 }).countAccess
        die c.part p.1 at_
      s.deliverAll (56 + die) (stackOfPa at_.pa)
    | (s, .error _) => s) s

/-- Bytes of an element of a TYPE. -/
def collSize (ty : Nat) : Nat := if ty = 8 ∨ ty = 9 then 2 else 4

/-- The fold of two elements (R277). -/
def foldElem (ty op a b : Nat) : Nat :=
  let f : Fmt := if ty = 8 then .f16 else if ty = 9 then .bf16 else .f32
  let isInt := ty = 4 ∨ ty = 5
  let key := fun (x : Nat) => if ty = 4 then (x : Int) else if ty = 5 then intOf true 32 x else f.key x
  match op with
  | 0 => if isInt then (a + b) % 2 ^ 32 else (fAdd f .rne 0 false a b).1
  | 1 => if key b < key a then b else a
  | _ => if key a < key b then b else a

/-- The fold of two sources, element by element. -/
def foldBytes (ty op fuel : Nat) (a b : List Byte) : List Byte :=
  match fuel with
  | 0 => []
  | f + 1 =>
    let n := collSize ty
    if a.isEmpty then []
    else leBytes n (foldElem ty op (leNat (a.take n)) (leNat (b.take n))) ++ foldBytes ty op f (a.drop n) (b.drop n)

/-- What a participant of rank `rank` receives, from every rank's source (Table 14). -/
def collResult (c : CollCmd) (srcs : List (List Byte)) : List Byte :=
  let n := (srcs.headD []).length
  let fold := fun (_ : Unit) =>
    match srcs with
    | [] => []
    | x :: r => r.foldl (fun a b => foldBytes c.ty c.op (n + 1) a b) x
  let part := fun (x : List Byte) => (x.drop (c.rank * (n / c.g))).take (n / c.g)
  match c.kind with
  | 0 => fold ()
  | 1 => part (fold ())
  | 2 => srcs.flatten
  | 3 => srcs.getD c.root []
  | _ => srcs.flatMap part

/-- One decrement of a step: dropped and counted when the graph does not run or the counter is zero (R386). -/
def State.stepDecrement (s : State) (part g n : Nat) : State :=
  let live := ((s.graph part g).map fun x => x.running && ((x.runs[n]?).map fun r => r.counter != 0).getD false).getD false
  if live then s.decrement part g [n] else s.modRegs part fun r => { r with stepMiss := r.stepMiss + 1 }

/-- STEP_COUNT (R385): the entry's count, and at NEED the decrements it lists. -/
def State.countStep (s : State) (part e : Nat) : State :=
  if e = 0xFFFF then s
  else
    let base := (s.partD part).regs.stepBase.toNat + 32 * e
    let w0 := s.physWord base
    let n := KMap.getD (s.partD part).stepCounts e 0 + 1
    if n ≠ w0.field 15 0 then s.modPart part fun p => { p with stepCounts := KMap.set p.stepCounts e n }
    else
      let g := w0.field 19 16
      let nodes := ((List.range 12).map fun i => leNat (s.physRead (base + 8 + 2 * i) 2)).filter (· != 0xFFFF)
      let s := s.modPart part fun p => { p with stepCounts := KMap.erase p.stepCounts e }
      (nodes.foldl (fun s n => s.stepDecrement part g n) s).pump part g

/-- COLLECTIVE_COMPLETE (R148): the first command of its communicator, every segment reached and every participant's bytes
at hand: the result is delivered, the record is pushed, and its step is counted. -/
def execCollectiveComplete (die id : Nat) (peers : List (List Byte)) (s : State) : Host.Outcome State Fault Refusal :=
  match s.collCmd die id with
  | some c =>
    match s.collReady die c with
    | (t, true) =>
      let hS := handleOf c.hS
      let hD := handleOf c.hD
      let (t, own) := hS.ranges.foldl (fun (a : State × List Byte) r =>
        let (s, bs) := a.1.collRead die c r.1 r.2
        (s, a.2 ++ bs)) (t, [])
      let srcs := (List.range c.g).map fun r => if r = c.rank then own else peers.getD r []
      if !c.fixup.isEmpty || !s.collFirst c || !(s.partD c.part).progress || srcs.any (fun x => x.length != own.length) then .next s
      else
        let res := collResult c srcs
        let t := hD.ranges.zipIdx.foldl (fun s r =>
          s.collWrite die c r.1.1 ((res.drop (r.2 * hD.rowBytes)).take hD.rowBytes)) t
        let span := fun (h : Handle) => if h.rows = 0 then 0 else (h.rows - 1) * h.pitch + h.rowBytes
        let t := t.modDie die fun d => { d with q4 := d.q4.filter fun k => k.id != id }
        let t := t.modUid c.uid fun w => { w with q5 := w.q5 ++ [(c.tag, hS.base, span hS, hD.base, span hD)] }
        .next (t.countStep c.part c.step)
    | (_, false) => .next s
  | none => .next s

/-- Reports records of a collective. -/
def State.collReport (s : State) (die : Nat) (c : CollCmd) (recs : List FaultRec) : State :=
  if recs.isEmpty then s
  else
    s.reportEngine die c.part (engineTag c.id) (.collective die c.id) c.core c.slot c.opc c.pc.toNat c.iter (onePerPage recs)

/-- The handle of a segment's side. -/
def CollCmd.side (c : CollCmd) (dst : Bool) : Handle := handleOf (if dst then c.hD else c.hS)

/-- The address of a segment. -/
def CollCmd.segAddr (c : CollCmd) (g : Segment) : Nat := (c.side g.dst).base + g.row * (c.side g.dst).pitch + g.off

/-- A collective's segment that faults is listed, and its page reported if no listed segment shares it. -/
def State.collList (s : State) (die id row off : Nat) (dst : Bool) : State :=
  match s.collCmd die id with
  | some c =>
    let h := c.side dst
    let (o, n) := segmentAt (h.base + row * h.pitch) h.rowBytes off
    let g : Segment := { row, off := o, len := n, dst }
    if row < h.rows && off < h.rowBytes && c.fixup.length < 256 && !c.fixup.contains g then
      match s.collReach die c dst.toNat (c.segAddr g) n with
      | (t, some r) =>
        let known := c.fixup.any fun x => c.segAddr x / 4096 == r.addr / 4096
        let t := t.modColl die id fun c => { c with fixup := c.fixup ++ [g] }
        if known then t else t.collReport die c [r.lowest ((handleOf c.hS).ranges ++ (handleOf c.hD).ranges)]
      | (_, none) => s
    else s
  | none => s

/-- FIXUP_REPLAY of a collective: segments that can be reached leave the list, the others are reported again. -/
def State.collReplay (s : State) (die id : Nat) : State :=
  match s.collCmd die id with
  | some c =>
    let (s, keep, recs) := c.fixup.foldl (fun (a : State × List Segment × List FaultRec) g =>
      match a.1.collReach die c g.dst.toNat (c.segAddr g) g.len with
      | (s, some r) => (s, a.2.1 ++ [g], a.2.2 ++ [r])
      | (s, none) => (s, a.2.1, a.2.2)) (s, [], [])
    (s.modColl die id fun c => { c with fixup := keep }).collReport die c recs
  | none => s

/-- ENGINE_SEGMENT_FAULT (R344): a segment of a copy or a collective is listed. Matrix operand fetch never takes this
path. -/
def execEngineSegmentFault (eng : Engine) (place id row off : Nat) (dst : Bool) (s : State) :
    Host.Outcome State Fault Refusal :=
  .next (match eng with
    | .matrix => s
    | .tilewalk => s.twList place id row off dst
    | .collective => s.collList place id row off dst)

/-! ### Bytes read before a later write (R250) -/

/-- A global byte at its home, through a die's translation. -/
def State.homeByte (s : State) (die part va : Nat) : Option Byte :=
  match s.translate die part va 0 0 with
  | (s, .ok at_) => (s.homeReadBytes part at_ 1).2.head?
  | (_, .error _) => none

/-- A source byte of a copy as the engine could have read it. -/
def State.seenTw (s : State) (cl : Nat) (c : TwCmd) (p : Nat) : Option Byte :=
  let k := p / 2 ^ 24
  let off := p % 2 ^ 24
  if c.out then
    let o := c.sOff k + off
    (s.block c.blk).bind fun x =>
      if c.scr.space = 3 then (x.readC c.member o 1).head?
      else if (x.mapAt o).isSome && (KMap.get? x.filled (o / 64)).isNone then none
      else (x.readA c.member o 1).head?
  else if c.glob.space = 5 then
    match (s.translate (dieOfCluster cl) (s.blockPart c.blk) (c.gAddr k + off) 5 0).2 with
    | .ok at_ => (s.busRead at_ 1).head?
    | .error _ => none
  else
    match (s.translate (dieOfCluster cl) (s.blockPart c.blk) (c.gAddr k + off) 0 0).2 with
    | .ok at_ =>
      (s.sliceLine cl (at_.pa / 64)).bind fun l =>
        if l.valid.getLsbD (at_.pa % 64) then some (lineByte l.data (at_.pa % 64)) else none
    | .error _ => none

/-- The copies of every cluster after a step from `old` to `new`. -/
def State.freezeCopies (new old : State) : State :=
  (KMap.keys new.clusters).foldl (fun s cl =>
    ((s.cluster cl).q2.filter fun c => (old.cluster cl).q2.contains c && c.acq.isNone).foldl (fun s c =>
      if !c.out && s.isDet c.blk then s
      else
        let keys := (List.range c.rows.length).flatMap fun k =>
          (rangeBytes (c.unmoved k)).map fun off => twPos k off
        let (n, t) := freezeBytes s.free c.frozen keys (old.seenTw cl c) (new.seenTw cl c)
        ({ s with free := n }).modTw cl c.id fun c => { c with frozen := t }) s) new

/-- The collectives of every die after a step from `old` to `new`: source bytes, and destination bytes that a write may have
reached after the result. A page that becomes present is no write. -/
def State.freezeColls (new old : State) : State :=
  (KMap.keys new.dies).foldl (fun s die =>
    ((s.die die).q4.filter fun c => (old.die die).q4.contains c).foldl (fun s c =>
      if s.isDet c.blk then s
      else
        let (n, t) := freezeBytes s.free c.frozen (rangeBytes (handleOf c.hS).ranges) (old.homeByte die c.part)
          (new.homeByte die c.part)
        let wrote := (rangeBytes (handleOf c.hD).ranges).filter fun a =>
          let was := old.homeByte die c.part a
          let now := new.homeByte die c.part a
          was.isSome && now.isSome && was != now
        let (n, k) := wrote.foldl (fun (a : Nat × KMap Unit) va =>
          (a.1 + 1, if (Config.freeBits a.1).getLsbD 0 then KMap.set a.2 va () else KMap.erase a.2 va)) (n, c.kept)
        ({ s with free := n }).modColl die c.id fun c => { c with frozen := t, kept := k }) s) new

/-- Operand bytes of every outstanding engine command that a step has changed: the engine may have read them before
(R250). -/
def State.freezeOperands (new old : State) (retire : Bool) : State :=
  ((new.freezeMatrix old retire).freezeCopies old).freezeColls old

end Sys2Proof.Machine
end

