-- ==== Sys2Proof/Machine/Bringup.lean ====
section
/-! DEFINITION. What a step adds around its act, and the placing of one instruction where the next step takes it: a word as
the code of a warp about to issue, a bytecode as the program of a queue at work (log entry 6). -/

namespace Sys2Proof.Machine

open Sys2Proof

/-- After an act from `old`: operand bytes of engine commands that it changed may have been read before (R250). -/
def State.settle (new old : State) (a : Act) : State :=
  let retire := match a with
    | .event (.matrixRetire _) => true
    | _ => false
  new.freezeOperands old retire

/-- The clause class in which a word may stand alone. -/
def aloneClass (w : Nat) : Nat := (opClass (w / 2 ^ 56)).getD 0

/-- The clause of one word: its header and the word; after REP, a MOV that it may repeat. -/
def aloneClause (w : Nat) : List Word :=
  if w / 2 ^ 56 = 0x98 then
    [Header.encode { origin := 0, wait := 0, cls := 0, nwords := 2 }, BitVec.ofNat 64 w, encode (.mov default)]
  else [Header.encode { origin := 0, wait := 0, cls := aloneClass w, nwords := 1 }, BitVec.ofNat 64 w]

/-- A word as the residual code of launch 0, whose one warp issues next in slot 0 of core 0. -/
def State.placeWord (s : State) (w : Nat) : State :=
  let threads := (List.range 32).map fun _ => ({ st := .sub } : Thread)
  { s with
    agenda := [{ dt := 0, act := .issue 0 }]
    dies := KMap.set s.dies 0 { s.die 0 with boot := .running }
    cores := KMap.set s.cores 0 {}
    parts := KMap.set s.parts 0 { s.partD 0 with clusters := [0], swap := .resident }
    launches := KMap.set s.launches 0 { nblocks := 1, resid := some { code := aloneClause w } }
    blocks := KMap.set s.blocks 0 {}
    warps := KMap.set s.warps 0 { uid := s.nextUid, st := .run, nregs := 255, code := .resid 0, threads }
    nextUid := s.nextUid + 1 }

/-- A bytecode as the program of queue 0 of partition 0, at work on a packet of zeros. -/
def State.placeBytecode (s : State) (w : Nat) : State :=
  let q : Queue := { prog := [BitVec.ofNat 32 w], run := some { packet := List.replicate 8 0 } }
  let p := s.partD 0
  { s with
    agenda := [{ dt := 0, act := .bytecode 0 0 }]
    parts := KMap.set s.parts 0 { p with swap := .resident, queues := KMap.set p.queues 0 q } }

/-- An instruction of `nbits` bits where the next step takes it. -/
def State.placeFetch (s : State) (nbits w : Nat) : State := if nbits ≤ 32 then s.placeBytecode w else s.placeWord w

end Sys2Proof.Machine
end

