-- ==== Sys2Proof/Machine/FrontEnd.lean ====
section
/-! DEFINITION. Command queues and their programs: the bytecodes, loading and checking a program, packets, doorbells, waits,
and resident graph tables (R313 to R317, R320, R321, R380, R402). -/

namespace Sys2Proof.Machine

open Sys2Proof

/-! ### Running a bytecode (R313, R314) -/

/-- A queue of a partition. -/
def State.queue (s : State) (part q : Nat) : Option Queue := KMap.get? (s.partD part).queues q

/-- Changes a queue that exists. -/
def State.modQueue (s : State) (part q : Nat) (f : Queue → Queue) : State :=
  s.modPart part fun p => { p with queues := KMap.modify p.queues q f }

/-- Changes the running program of a queue. -/
def State.modRunOf (s : State) (part q : Nat) (f : QRun → QRun) : State :=
  s.modQueue part q fun x => { x with run := x.run.map f }

/-- The program at another bytecode; at the end of a REPT body the body runs again while repeats are left. -/
def QRun.goto (r : QRun) (pc : Nat) : QRun :=
  match r.rept with
  | some (start, len, left) =>
    if pc = start + len then
      if left > 1 then { r with pc := start, rept := some (start, len, left - 1) } else { r with pc, rept := none }
    else { r with pc }
  | none => { r with pc }

/-- A register. -/
def QRun.k (r : QRun) (n : BitVec 4) : Word := KMap.getD r.regs n.toNat 0

/-- Writes a register. -/
def QRun.setK (r : QRun) (n : BitVec 4) (v : Word) : QRun := { r with regs := KMap.set r.regs n.toNat v }

/-- Goes on at the next bytecode. -/
def State.qNext (s : State) (part q : Nat) : State := s.modRunOf part q fun r => r.goto (r.pc + 1)

/-- The bytecode waits, to be run again. -/
def State.qWait (s : State) (part q : Nat) (w : QWait) : State := s.modRunOf part q fun r => { r with wait := w }

/-- Runs a bytecode's effect for the queue that executes. -/
def runBytecode (s : State) (f : Nat → Nat → Queue → QRun → State) : Host.Outcome State Fault Refusal :=
  match s.cur with
  | .queue part q =>
    match s.queue part q with
    | some x =>
      match x.run with
      | some r => .next (f part q x r)
      | none => .fault .noIssuer
    | none => .fault .noIssuer
  | _ => .fault .noIssuer

/-- A bytecode that writes one register from the others. -/
def regBytecode (s : State) (d : BitVec 4) (f : QRun → Word) : Host.Outcome State Fault Refusal :=
  runBytecode s fun part q _ _ => s.modRunOf part q fun r => (r.setK d (f r)).goto (r.pc + 1)

/-- Register B. -/
def QIns.b (i : QIns) : BitVec 4 := i.imm.extractLsb' 0 4

/-- PKW. -/
def execQpPkw (i : QIns) (s : State) : Host.Outcome State Fault Refusal :=
  regBytecode s i.d fun r => r.packet.getD (i.imm.toNat % 8) 0
/-- LDI. -/
def execQpLdi (i : QIns) (s : State) : Host.Outcome State Fault Refusal :=
  regBytecode s i.d fun _ => BitVec.ofNat 64 i.imm.toNat
/-- SHLI. -/
def execQpShli (i : QIns) (s : State) : Host.Outcome State Fault Refusal :=
  regBytecode s i.d fun r => r.k i.a <<< (i.imm.toNat % 64)
/-- ADD. -/
def execQpAdd (i : QIns) (s : State) : Host.Outcome State Fault Refusal :=
  regBytecode s i.d fun r => r.k i.a + r.k (QIns.b i)
/-- AND. -/
def execQpAnd (i : QIns) (s : State) : Host.Outcome State Fault Refusal :=
  regBytecode s i.d fun r => r.k i.a &&& r.k (QIns.b i)
/-- OR. -/
def execQpOr (i : QIns) (s : State) : Host.Outcome State Fault Refusal :=
  regBytecode s i.d fun r => r.k i.a ||| r.k (QIns.b i)

/-- The address in a window of the place a register names, in units of `n` bytes, modulo the window's size. -/
def windowAt (x : Queue) (w n : Nat) (k : Word) : Nat :=
  let v := x.wins.getD w { base := 0, size := 1, writable := false }
  v.base + n * k.toNat % v.size

/-- RDW. -/
def execQpRdw (i : QIns) (s : State) : Host.Outcome State Fault Refusal :=
  runBytecode s fun part q x r =>
    let (s, ws) := s.feWords part (windowAt x (i.imm.toNat % 8) 8 (r.k i.a)) 1
    s.modRunOf part q fun r => (r.setK i.d (ws.headD 0)).goto (r.pc + 1)

/-- WRW: a write that faults is reported, and the bytecode waits (R319). -/
def execQpWrw (i : QIns) (s : State) : Host.Outcome State Fault Refusal :=
  runBytecode s fun part q x r =>
    let va := windowAt x (i.imm.toNat % 8) 8 (r.k i.a)
    if s.feWaits part q then s.qWait part q .write
    else
      match s.feWrite part va 1 (wordBytes (r.k i.d)) with
      | (s, none) => s.qNext part q
      | (s, some f) => (s.feFault part q (.word q va (r.k i.d)) f).qWait part q .write

/-- JZ. -/
def execQpJz (i : QIns) (s : State) : Host.Outcome State Fault Refusal :=
  runBytecode s fun part q _ _ =>
    s.modRunOf part q fun r => r.goto (if r.k i.a = 0 then r.pc + 1 + i.imm.toNat else r.pc + 1)

/-- REPT. -/
def execQpRept (i : QIns) (s : State) : Host.Outcome State Fault Refusal :=
  runBytecode s fun part q _ _ =>
    s.modRunOf part q fun r =>
      { r with pc := r.pc + 1, rept := some (r.pc + 1, i.imm.toNat % 256, i.imm.toNat / 256) }

/-! ### LAUNCH, GRAPH, ORDER and END (R316, R317, R320, R321, R402) -/

/-- May the queue's next LAUNCH or GRAPH start: nothing stands before it under an ORDER, and no load of microcode is asked
for (R316, R395)? -/
def State.mayStart (s : State) (x : Queue) : Bool :=
  s.boot.mcload.isNone && (!x.ordered || (x.pendingIds.isEmpty && x.pendingGraphs.isEmpty))

/-- A LAUNCH or GRAPH has started. -/
def State.qStarted (s : State) (part q : Nat) : State := (s.modQueue part q fun x => { x with ordered := false }).qNext part q

/-- LAUNCH (R317): refused at once, or its arguments are captured in a free page and it starts; without a page it waits. -/
def execQpLaunch (i : QIns) (s : State) : Host.Outcome State Fault Refusal :=
  runBytecode s fun part q x r =>
    if !s.mayStart x then s.qWait part q .order
    else
      let (s, ws) := s.feWords part (windowAt x (i.imm.toNat % 8) 64 (r.k i.a)) 8
      let d := parseDesc ws
      if launchStatus d (s.image (imageKey part d.image)) s.ptokCap.toNat ≠ 0 then
        (s.startLaunch part q x.ctx noPage ws none false).1.qStarted part q
      else
        match s.freePage part with
        | none => s.qWait part q .argPage
        | some page =>
          if s.feWaits part q then s.qWait part q .write
          else
            match s.capture part page d.args d.arglen with
            | (s, some f) => (s.feFault part q (.capture q) f).qWait part q .write
            | (s, none) => ((s.takePage part page).startLaunch part q x.ctx page ws none false).1.qStarted part q

/-- Captures every node's arguments, each in a page of its own: the runs, or the fault of a write (R321). -/
def State.captureNodes (s : State) (part : Nat) (nodes : List GNode) : State × Except FaultRec (List GRun) :=
  nodes.foldl (fun (a : State × Except FaultRec (List GRun)) n =>
    match a.2 with
    | .error _ => a
    | .ok rs =>
      let (s, ws) := a.1.feWords part n.desc 8
      let d := parseDesc ws
      match s.freePage part with
      | none => (s, .ok (rs ++ [{ counter := n.pred, desc := ws }]))
      | some page =>
        match s.capture part page d.args d.arglen with
        | (s, some f) => (s, .error f)
        | (s, none) => (s.takePage part page, .ok (rs ++ [{ counter := n.pred, desc := ws, page := some page }]))) (s, .ok [])

/-- The free pages of a partition's argument pool. -/
def State.freePages (s : State) (part : Nat) : Nat :=
  let p := s.partD part
  p.regs.argPoolN.toNat - p.pages.length

/-- GRAPH (R320, R321): the table's counters are set, its arguments captured, and its nodes at zero start. An absent table
has no effect, and a running one is waited for. -/
def execQpGraph (i : QIns) (s : State) : Host.Outcome State Fault Refusal :=
  runBytecode s fun part q x r =>
    let g := (r.k i.a).toNat % 16
    match s.graph part g with
    | none => s.qNext part q
    | some t =>
      if t.running || !s.mayStart x then s.qWait part q .order
      else if s.freePages part < t.nodes.length then s.qWait part q .argPage
      else if s.feWaits part q then s.qWait part q .write
      else
        let old := (s.partD part).pages
        match s.captureNodes part t.nodes with
        | (u, .error f) =>
          ((u.modPart part fun p => { p with pages := old }).feFault part q (.capture q) f).qWait part q .write
        | (u, .ok runs) =>
          let u := u.modGraph part g fun t =>
            { t with running := true, queue := q, runs, bad := none, sumAband := 0, sumTop := 0, sumReplay := 0,
                     writing := false }
          let u := u.modQueue part q fun x => { x with pendingGraphs := x.pendingGraphs ++ [g] }
          (u.qStarted part q).pump part g

/-- ORDER. -/
def execQpOrder (_i : QIns) (s : State) : Host.Outcome State Fault Refusal :=
  runBytecode s fun part q _ _ => (s.modQueue part q fun x => { x with ordered := true }).qNext part q

/-- END: the packet is consumed. -/
def execQpEnd (_i : QIns) (s : State) : Host.Outcome State Fault Refusal :=
  runBytecode s fun part q _ _ => s.modQueue part q fun x => { x with run := none, head := x.head + 1 }

/-! ### Loading a program (R314, R315) -/

/-- Is the window one a program may have? -/
def QWindow.ok (w : QWindow) : Bool := 64 ≤ w.size && w.size ≤ 2 ^ 30 && w.size == 2 ^ Nat.log2 w.size

/-- The longer of two paths, where there is one. -/
def longer (a b : Option Nat) : Option Nat :=
  match a, b with
  | some x, some y => some (max x y)
  | some x, none => some x
  | none, y => y

/-- The longest paths of one run of a REPT body, for each of its suffixes: to the end of the body, and to an END in it; none where it meets
a REPT or a JZ that leaves the body. -/
def bodyPaths (l : List Instr) : List (Option (Option Nat × Option Nat)) :=
  match l with
  | [] => [some (some 0, none)]
  | i :: r =>
    let t := bodyPaths r
    let c : Option (Option Nat × Option Nat) :=
      match i with
      | .qpEnd _ => some (none, some 1)
      | .qpRept _ => none
      | .qpJz x =>
        if x.imm = 0 then none
        else do
          let a ← (t[0]?).join
          let b ← (t[x.imm.toNat]?).join
          some ((longer a.1 b.1).map (1 + ·), (longer a.2 b.2).map (1 + ·))
      | _ => ((t[0]?).join).map fun a => (a.1.map (1 + ·), a.2.map (1 + ·))
    c :: t

/-- The longest path through a REPT of `n` runs of a body: every run goes to the body's end and the path on from there, or the
last run meets an END, where the body has a path to it. -/
def reptCost (n : Nat) (body : Option Nat × Option Nat) (rest : Option Nat) : Option Nat :=
  let ends := body.2.map fun e => 1 + (n - 1) * body.1.getD 0 + e
  match body.1 with
  | some out => rest.map fun b => max (1 + n * out + b) (ends.getD 0)
  | none => ends

/-- The longest path from each bytecode of a program, REPT bodies counted as often as they run; none where some path does
not end at END. -/
def pathCosts (l : List Instr) : List (Option Nat) :=
  match l with
  | [] => [none]
  | i :: r =>
    let t := pathCosts r
    let c : Option Nat :=
      match i with
      | .qpEnd _ => some 1
      | .qpRept x =>
        let n := x.imm.toNat / 256
        let m := x.imm.toNat % 256
        if n = 0 ∨ m = 0 ∨ r.length < m then none
        else ((bodyPaths (r.take m))[0]?).join.bind fun b => reptCost n b (t[m]?).join
      | .qpJz x =>
        if x.imm = 0 then none
        else do
          let a ← (t[0]?).join
          let b ← (t[x.imm.toNat]?).join
          some (1 + max a b)
      | _ => ((t[0]?).join).map (1 + ·)
    c :: t

/-- Does every JZ stay inside, and every REPT have a body without REPT that no JZ leaves? -/
def jumpsOk (l : List Instr) : Bool :=
  match l with
  | [] => true
  | i :: r =>
    (match i with
      | .qpJz x => x.imm != 0 && x.imm.toNat < r.length
      | .qpRept x =>
        let m := x.imm.toNat % 256
        x.imm.toNat / 256 != 0 && m != 0 && m ≤ r.length && (bodyPaths (r.take m)).all (·.isSome)
      | _ => true) && jumpsOk r

/-- Do the windows a program names exist, and are those it writes writable? -/
def windowsOk (l : List Instr) (wins : List QWindow) : Bool :=
  l.all fun i =>
    match i with
    | .qpRdw x => x.imm.toNat % 8 < wins.length
    | .qpLaunch x => x.imm.toNat % 8 < wins.length
    | .qpWrw x => ((wins[x.imm.toNat % 8]?).map (·.writable)).getD false
    | _ => true

/-- The program of some words, if the front end accepts it. -/
def programOk (prog : List (BitVec 32)) (wins : List QWindow) : Bool :=
  let l := prog.filterMap decodeBytecode
  prog.length ≤ 1024 && l.length == prog.length && wins.length ≤ 8 && wins.all QWindow.ok && jumpsOk l && windowsOk l wins &&
  (((pathCosts l)[0]?).join).any fun n => decide (n ≤ 256)

/-- Do all pages of the windows lie in the partition's memory? -/
def State.windowsMapped (s : State) (part : Nat) (wins : List QWindow) : State × Bool :=
  (wins.flatMap fun w => (pagePieces (w.size / 4096 + 2) w.base w.size).map fun p => (p.1, w.writable)).foldl
    (fun (a : State × Bool) p =>
      if !a.2 then a
      else
        match a.1.feTranslate part p.1 p.2.toNat with
        | (s, .ok _) => (s, true)
        | (s, .error _) => (s, false)) (s, true)

/-- QUEUE_PROGRAM_LOAD (R315): a program is checked and loaded with its windows and ring for a queue of a context, or
refused, which FESTAT shows (R328). A queue whose program is at work takes no load. -/
def execQueueProgramLoad (part q ctx : Nat) (prog : List (BitVec 32)) (wins : List QWindow) (ringBase ringLen : Nat)
    (s : State) : Host.Outcome State Fault Refusal :=
  match s.part part with
  | none => .next s
  | some p =>
    if q ≥ 64 || ((KMap.get? p.queues q).bind (·.run)).isSome then .next s
    else
      let (t, mapped) := s.windowsMapped part wins
      if mapped && programOk prog wins then
        let old := (KMap.get? p.queues q).getD {}
        .next (t.modPart part fun p =>
          { p with queues := KMap.set p.queues q { old with prog, wins, ringBase, ringLen, head := 0, bell := 0, ctx } })
      else .next (t.modRegs part fun r => { r with feRefused := BitVec.ofNat 6 q, feLoadBad := true })

/-! ### Packets (R313, R380) -/

/-- DOORBELL (R380): the host tells of one more packet; refused unless the function's TDI is in RUN. -/
def execDoorbell (part q : Nat) (s : State) : Host.Outcome State Fault Refusal :=
  .next (if (s.partD part).tdi = 2 then s.modQueue part q fun x => { x with bell := x.bell + 1 } else s)

/-- COMMAND_PACKET (R313): the next packet of the ring is read and the program begins, every register zero. -/
def execCommandPacket (part q : Nat) (s : State) : Host.Outcome State Fault Refusal :=
  match s.queue part q with
  | some x =>
    if !(s.partD part).progress || x.run.isSome || x.bell ≤ x.head || x.ringLen == 0 || x.prog.isEmpty then .next s
    else
      let (t, packet) := s.feWords part (x.ringBase + 64 * (x.head % x.ringLen)) 8
      .next (t.modQueue part q fun x => { x with run := some { packet } })
  | none => .next s

/-- QUEUE_RESUME (R402): a waiting bytecode is tried again, a page being free, or no front-end write of its queue waiting. -/
def execQueueResume (part q : Nat) (s : State) : Host.Outcome State Fault Refusal :=
  match (s.queue part q).bind (·.run) with
  | some r =>
    let go := match r.wait with
      | .none => false
      | .argPage => (s.freePage part).isSome
      | .order => true
      | .write => !s.feWaits part q
    .next (if go && (s.partD part).progress then s.qWait part q .none else s)
  | none => .next s

/-! ### Graph tables (R320) -/

/-- The node of an entry, without its successors, and whether a field is out of range. -/
def parseNode (ws : List Word) : GNode × Nat × Nat × Bool :=
  let w := fun (i : Nat) => (ws.getD i 0).toNat
  ({ desc := bits (w 0) 51 0, qcap := bits (w 2) 49 34, coal := bits (w 2) 33 29, recw := bits (w 2) 28 25 + 1,
     isRec := (w 2).testBit 24, pred := bits (w 2) 11 0 },
   bits (w 1) 51 0, bits (w 2) 23 12,
   [bits (w 0) 63 52, bits (w 1) 63 52, bits (w 2) 63 50, w 3, w 4, w 5, w 6, w 7].any (· != 0))

/-- Reads a node and its successors from memory; none where a field is out of range. -/
def State.readNode (s : State) (part at_ nnodes : Nat) : State × Option GNode :=
  let (s, ws) := s.feWords part at_ 8
  let (n, succ, nsucc, bad) := parseNode ws
  let (s, bs) := s.feRead part succ (2 * nsucc)
  let l := (List.range nsucc).map fun i => leNat ((bs.drop (2 * i)).take 2)
  (s, if bad || l.any (nnodes ≤ ·) then none else some { n with succ := l })

/-- GRAPH_TABLE_LOAD (R320): a table in device memory is read into an empty place, unless it is malformed or the 4,096 nodes
are used up. -/
def execGraphTableLoad (part place base : Nat) (s : State) : Host.Outcome State Fault Refusal :=
  match s.part part with
  | none => .next s
  | some p =>
    if place ≥ 16 || (KMap.get? p.graphs place).isSome then .next s
    else
      let (t, hd) := s.feWords part base 8
      let w := fun (i : Nat) => (hd.getD i 0).toNat
      let n := bits (w 1) 12 0
      let bad := bits (w 0) 63 52 != 0 || w 0 % 64 != 0 || w 1 / 2 ^ 13 != 0 || (hd.drop 2).any (· != 0) || n == 0 || n > 4096 ||
        ((KMap.vals p.graphs).map fun g => g.nodes.length).sum + n > 4096
      if bad then .next t
      else
        let (t, nodes) := (List.range n).foldl (fun (a : State × List (Option GNode)) i =>
          let (s, x) := a.1.readNode part (base + 64 + 64 * i) n
          (s, a.2 ++ [x])) (t, [])
        if nodes.any (·.isNone) then .next t
        else
          .next (t.modPart part fun p =>
            { p with graphs := KMap.set p.graphs place { base, doneVa := bits (w 0) 51 0, nodes := nodes.filterMap id } })

/-- GRAPH_TABLE_UNLOAD (R320): a table whose graph does not run leaves its place. -/
def execGraphTableUnload (part place : Nat) (s : State) : Host.Outcome State Fault Refusal :=
  .next (match s.graph part place with
    | some g => if g.running then s else s.modPart part fun p => { p with graphs := KMap.erase p.graphs place }
    | none => s)

end Sys2Proof.Machine
end

