-- ==== Sys2Proof/Machine/Placement.lean ====
section
/-! DEFINITION. The dispatcher and the ends of launches: BLOCK_PLACE, EVALUATION_COMPLETE, LAUNCH_COMPLETE and LAUNCH_KILL
(R6, R9, R23 to R28, R31, R34, R50, R53, R69, R115, R126, R153, R305, R318, R319, R324 to R327, R346, R358). -/

namespace Sys2Proof.Machine

open Sys2Proof

/-! ### The list and the scan (R324 to R326) -/

/-- What the dispatcher places together: one block, or the whole of a cluster group. -/
structure PlaceUnit where
  launch : Nat
  prio : Nat
  replay : Bool
  members : List Unplaced
  deriving DecidableEq, Repr, Inhabited

/-- The members of a block's cluster group still to place, in index order. -/
def Launch.gang (l : Launch) (u : Unplaced) : List Unplaced :=
  if u.replay || l.clusg = 0 then [u]
  else l.unplaced.filter fun x => !x.replay && x.idx / l.clusg == u.idx / l.clusg

/-- Does the block lead its unit: it is a replay, or the lowest of its group? -/
def Launch.leads (l : Launch) (u : Unplaced) : Bool := ((l.gang u).map (·.idx)).all fun i => u.idx ≤ i

/-- May a unit of a deterministic launch be placed: no block of a lower index waits that was never placed (R153)? -/
def Launch.inTurn (l : Launch) (u : Unplaced) : Bool :=
  !l.det || l.unplaced.all fun x => x.replay || u.idx ≤ x.idx

/-- The units of a launch. -/
def Launch.units (l : Launch) (id : Nat) : List PlaceUnit :=
  (l.unplaced.filter fun u => l.leads u && l.inTurn u).map fun u =>
    { launch := id, prio := l.prio, replay := u.replay, members := l.gang u }

/-- The index of a unit's first block. -/
def PlaceUnit.idx (u : PlaceUnit) : Nat := (u.members.headD { idx := 0 }).idx

/-- Does a unit stand before another on the list (R324)? -/
def PlaceUnit.before (a b : PlaceUnit) : Bool :=
  if a.replay != b.replay then a.replay
  else if a.prio != b.prio then b.prio < a.prio
  else if a.launch != b.launch then a.launch < b.launch
  else a.idx ≤ b.idx

/-- The units of a partition's running launches, in the order of R324. -/
def State.placeList (s : State) (part : Nat) : List PlaceUnit :=
  sortBy PlaceUnit.before
    ((s.launches.filter fun l => l.2.part == part && l.2.phase == .running).flatMap fun l => l.2.units l.1)

/-- The core of a sequence number. -/
def seqCore (v : Nat) : Nat := v % 4 * 56 + 4 * (v / 4 % 14) + v / 56

/-- The sequence number of a core. -/
def coreSeq (c : Nat) : Nat := c % 4 * 56 + 4 * (c % 56 / 4) + c / 56

/-- Where a scan starts: the place after the partition's last, or in a deterministic launch the draw of R326. -/
def State.scanStart (s : State) (part : Nat) (l : Launch) (u : Unplaced) : Nat :=
  if l.det then philox (l.seed ^^^ ((1 : Word) <<< 63)) u.idx u.txseq 0 0 % 224 else (s.partD part).lastSeq + 1

/-- The cores of a scan in order. -/
def scanCores (start : Nat) : List Nat := (List.range 224).map fun i => seqCore ((start + i) % 224)

/-! ### Where a block fits (R23 to R28, R60, R69, R115, R238) -/

/-- Bytes of a buffer that the blocks on a core hold, those of an ended member of a cluster group too (R9). -/
def State.coreSum (s : State) (core : Nat) (except_ : Option Nat) (f : Block → Nat) : Nat :=
  ((s.blocks.filter fun b => b.2.core == core && some b.1 != except_).map fun b => f b.2).sum

/-- Does the scratch of a core take a block of an image: its allocations, pool shares and barriers? -/
def State.scratchFits (s : State) (core : Nat) (img : Image) (except_ : Option Nat) : Bool :=
  let sum := s.coreSum core except_
  sum (fun b => b.aSize + 64 * b.poolA) + img.aSize + img.vpa ≤ 2 ^ 20 && sum (·.wSize) + img.wSize ≤ 2 ^ 19 &&
  sum (fun b => b.cSize + 64 * b.poolC) + img.cSize + img.vpc ≤ 2 ^ 19 && sum (fun b => 64 * b.poolA) + img.vpa ≤ 2 ^ 18 &&
  sum (fun b => 64 * b.poolC) + img.vpc ≤ 2 ^ 18 && sum (·.nbar) + img.nbar ≤ 128

/-- The slots a block of an image takes on a core, in `%warpid` order: the lowest free general ones; a block of more than 26
warps takes every kind of slot of an empty core (R23, R24). -/
def State.slotsFor (s : State) (core ctx : Nat) (img : Image) (except_ : Option Nat) : Option (List Nat) :=
  let n := img.warps
  if n > 26 then
    let empty := (s.holders core).all (fun b => some b.1 == except_) && (s.core core).landRes.isEmpty &&
      !s.warps.any fun w => coreOfWk w.1 == core && ctxOfWk w.1 == ctx
    if empty && n ≤ 32 then some (List.range n) else none
  else
    let free := s.freeSlots core ctx generalSlots
    if n + s.keptSlots core ctx except_ ≤ free.length then some (free.take n) else none

/-- Does the live file of a core take a block of a launch (R28)? -/
def State.liveFits (s : State) (core : Nat) (id : Nat) (l : Launch) (img : Image) (except_ : Option Nat) : Bool :=
  let more := if (s.coreLaunches core l.ctx).contains id then 0 else img.reserve
  s.usedRegs core l.ctx except_ + img.roleCharge + more ≤ liveRegs

/-- Does the core run the launch's context for its partition, with no large block of another owning it? -/
def State.coreOpen (s : State) (core : Nat) (l : Launch) (except_ : Option Nat) : Bool :=
  let c := s.core core
  (s.die (dieOfCore core)).boot == .running && (s.partD l.part).clusters.contains (clusterOfCore core) && c.ctxCur == l.ctx &&
  c.exchange.isNone && !c.halted &&
  !(s.holders core).any fun b => some b.1 != except_ && (s.blockImage b.2).warps > 26

/-- The domain of a stack group and of a die group, once fixed, takes the core (R325). -/
def Launch.domainOk (l : Launch) (idx core : Nat) : Bool :=
  let ok := fun (key size at_ : Nat) => size == 0 || (KMap.get? l.domains key).all (· == at_)
  ok (2 * (idx / l.stackg)) l.stackg (stackOfCore core) && ok (2 * (idx / l.dieg) + 1) l.dieg (dieOfCore core)

/-- The slots a block takes on a core, if it fits there. -/
def State.fitsOn (s : State) (core id : Nat) (l : Launch) (img : Image) (u : Unplaced) : Option (List Nat) :=
  let ex := u.place
  if s.coreOpen core l ex && l.domainOk u.idx core && s.scratchFits core img ex && s.liveFits core id l img ex then
    s.slotsFor core l.ctx img ex
  else none

/-- The warps of a partition that is swapped out, or on its way back in (R367). -/
def Part.outWarps (p : Part) : List Warp := if p.swap == .out || p.swap == .restoring then KMap.vals p.saved.warps else []

/-- The blocks of such a partition. -/
def Part.outBlocks (p : Part) : List Block := if p.swap == .out || p.swap == .restoring then KMap.vals p.saved.blocks else []

/-- Power tokens held (R327), those of swapped-out blocks too. -/
def State.tokensUsed (s : State) : Nat :=
  ((KMap.vals s.blocks ++ (KMap.vals s.parts).flatMap Part.outBlocks).filter (·.token)).length

/-- Power tokens that the blocks of a partition hold, of its share (R366). -/
def State.tokensOf (s : State) (part : Nat) : Nat :=
  ((KMap.vals s.blocks ++ (s.partD part).outBlocks).filter fun b =>
    b.token && ((s.launch b.launch).map (·.part)).getD 0 == part).length

/-- Tokens a unit needs; a replay keeps the one it holds. -/
def PlaceUnit.tokens (u : PlaceUnit) (img : Image) : Nat := if u.replay || !img.needsToken then 0 else u.members.length

/-- The members of a unit with the core and the slots each goes to, if the unit can be placed: its tokens within PTOKCAP and the
partition's share (R327, R366); a replay of a group's member only in its own place, a group at the first cluster that takes it whole, any other block on the first core of the scan. -/
def State.placeOf (s : State) (part : Nat) (x : PlaceUnit) : Option (List (Unplaced × Nat × List Nat)) := do
  let l ← s.launch x.launch
  let img ← s.image (imageKey l.part l.image)
  let u ← x.members.head?
  let cores := scanCores (s.scanStart part l u)
  let toks := x.tokens img
  if (s.ptokCap.toNat < s.tokensUsed + toks || (s.partD part).tokShare < s.tokensOf part + toks) && toks != 0 then none
  else if x.replay then
    let old ← u.place.bind s.block
    let go := if old.group.isSome then [old.core] else cores
    go.findSome? fun c => (s.fitsOn c x.launch l img u).map fun sl => [(u, c, sl)]
  else if l.clusg = 0 then
    cores.findSome? fun c => (s.fitsOn c x.launch l img u).map fun sl => [(u, c, sl)]
  else
    (cores.map clusterOfCore).findSome? fun cl =>
      let at_ := x.members.mapIdx fun k u => (s.fitsOn (4 * cl + k) x.launch l img u).map fun sl => (u, 4 * cl + k, sl)
      if at_.all (·.isSome) && x.members.length ≤ 4 then some (at_.filterMap id) else none

/-! ### Placing (R23, R31, R34, R36, R126, R305, R346) -/

/-- The register count and entry of each warp of a block, in `%warpid` order. -/
def Image.warpList (i : Image) : List (Nat × Pc) := i.roles.flatMap fun r => List.replicate r.warps (r.regs, r.entry)

/-- The regions of a block, with the addresses its maps stand for (R346). -/
def State.mapRegions (s : State) (l : Launch) (img : Image) : State × List Region :=
  img.regions.zipIdx.foldl (fun (a : State × List Region) r =>
    match img.maps.find? (fun m => m.region == r.2) with
    | some m =>
      let (s, ws) := a.1.feWords l.part (l.argPage + m.arg) 1
      (s, a.2 ++ [{ r.1 with map := some ((ws.headD 0).toNat % 2 ^ 52, m.wb) }])
    | none => (a.1, a.2 ++ [r.1])) (s, [])

/-- The block as it is placed: zero in every byte of its allocations, but for a replay of a group's member, which keeps its
memory. `old` is the place kept for a replay. -/
def State.freshBlock (s : State) (id : Nat) (l : Launch) (img : Image) (u : Unplaced) (core : Nat) (group : Option Nat)
    (regions : List Region) (old : Option Block) : Block :=
  let look := s.historyLookup (dieOfCore core) l.key u.idx (s.rungsOf l - 1)
  let first := if l.det then 0 else look
  let b : Block :=
    { launch := id, idx := u.idx, core, rung := if u.replay then u.rung else first,
      startRung := if u.replay then u.startRung else first, txseq := u.txseq, narrow := u.narrow, dirtyTx := u.dirtyTx,
      payload := u.recs, q7 := u.recs, aSize := img.aSize, wSize := img.wSize, cSize := img.cSize, regions,
      poolA := img.vpa / 64, poolC := img.vpc / 64, nbar := img.nbar, group, token := img.needsToken,
      round := (old.map (·.round)).getD 0, delta := (old.map (·.delta)).getD [] }
  match old with
  | some o =>
    if o.group.isSome then
      { b with aMem := o.aMem, wMem := o.wMem, cMem := o.cMem, filled := o.filled, dirty := o.dirty, regions := o.regions }
    else b
  | none => b

/-- Starts the warps of a block in their slots. -/
def State.startWarps (s : State) (id : Nat) (l : Launch) (img : Image) (b core : Nat) (slots : List Nat) : State :=
  (img.warpList.zip slots).zipIdx.foldl (fun s w =>
    let (code, pc) := l.start id w.1.1.2 w.1.1.1
    let v := startWarp s.nextUid id b w.2 w.1.1.1 32 code pc
    (s.setWarp (wkOf core l.ctx w.1.2) { v with acqScope := 6 }).newUid) s

/-- Fixes the domains of a block's groups. -/
def Launch.fixDomains (l : Launch) (idx core : Nat) : Launch :=
  let put := fun (m : KMap Nat) (key size at_ : Nat) => if size = 0 || (KMap.get? m key).isSome then m else KMap.set m key at_
  let d := put l.domains (2 * (idx / l.stackg)) l.stackg (stackOfCore core)
  { l with domains := put d (2 * (idx / l.dieg) + 1) l.dieg (dieOfCore core) }

/-- Places one block on a core. -/
def State.placeBlock (s : State) (id : Nat) (l : Launch) (img : Image) (u : Unplaced) (core : Nat) (slots : List Nat)
    (group : Option Nat) : State :=
  let (s, regions) := s.mapRegions l img
  let old := u.place.bind s.block
  let key := u.place.getD s.nextUid
  let s := if u.place.isSome then s else s.newUid
  let s := s.setBlock key (s.freshBlock id l img u core (match old with | some o => o.group | none => group) regions old)
  let s := s.modLaunch id fun l => ({ l with unplaced := l.unplaced.erase u }).fixDomains u.idx core
  let s := s.modPart l.part fun p => { p with lastSeq := coreSeq core }
  s.startWarps id l img key core slots

/-- Places the members of a unit. -/
def State.placeUnit (s : State) (x : PlaceUnit) (at_ : List (Unplaced × Nat × List Nat)) : State :=
  match s.launch x.launch with
  | some l =>
    let img := (s.image (imageKey l.part l.image)).getD {}
    let group := if l.clusg = 0 then none else some s.nextUid
    let s := if l.clusg = 0 then s else s.newUid
    at_.foldl (fun s p => s.placeBlock x.launch l img p.1 p.2.1 p.2.2 group) s
  | none => s

/-- BLOCK_PLACE (R324): the dispatcher takes the first unit on the list that it can place. -/
def execBlockPlace (part : Nat) (s : State) : Host.Outcome State Fault Refusal :=
  if !(s.partD part).progress then .next s
  else
    .next (((s.placeList part).findSome? fun x => (s.placeOf part x).map fun at_ => s.placeUnit x at_).getD s)

/-- Does a block of the partition wait because its unit needs more tokens than PTOKCAP (R327, FESTAT[9])? -/
def State.tokenStarved (s : State) (part : Nat) : Bool :=
  (s.launches.filter fun l => l.2.part == part && l.2.phase == .running).any fun l =>
    let img := (s.image (imageKey l.2.part l.2.image)).getD {}
    l.2.unplaced.any fun u =>
      let x : PlaceUnit := { launch := l.1, prio := 0, replay := u.replay, members := l.2.gang u }
      s.ptokCap.toNat < x.tokens img

/-! ### Evaluation (R50, R51, R53) -/

/-- EVALUATION_COMPLETE: the residual code is installed on every present die, unless a word marked 0b10 did not fold, which
refuses the launch; or, if some die has no room, the launch runs the original image, which no mark refuses. -/
def execEvaluationComplete (launch : Nat) (s : State) : Host.Outcome State Fault Refusal :=
  match s.launch launch with
  | some l =>
    if l.phase != .evaluating || s.ck < l.readyCk || !(s.partD l.part).progress then .next s
    else
      let e : CacheEntry :=
        { key := l.key, identity := (s.image (imageKey l.part l.image)).elim [] (·.identity), res := l.resid.getD {} }
      match s.install e with
      | some t =>
        .next (if l.refuse then (s.refuseStatic launch l).pumpFor l
          else (t.modLaunch launch fun l => { l with phase := .running, spec := true }).pumpFor l)
      | none => .next ((s.modLaunch launch fun l => { l with phase := .running, resid := none }).pumpFor l)
  | none => .next s

/-! ### The end of a launch (R319, R318, R358) -/

/-- LAUNCH_COMPLETE (R319): once its last block has ended, the launch's writes are released and its record is written; a
record that waited is written once no front-end write of its queue waits. The launch of a record node ends with its node
(R322). -/
def execLaunchComplete (launch : Nat) (s : State) : Host.Outcome State Fault Refusal :=
  match s.launch launch with
  | some l =>
    if !(s.partD l.part).progress then .next s
    else if l.phase == .running && !l.recNode && !s.blocksLeft launch l then .next ((s.finishLaunch launch).pumpFor l)
    else if l.phase == .running && l.recNode then .next (s.pumpFor l)
    else if l.phase == .finishing && !s.feWaits l.part l.queue then .next ((s.writeRecord launch).pumpFor l)
    else .next s
  | none => .next s

/-- Ends a launch with status KILLED: every block is discarded without replay, its slots are freed, and it completes. -/
def State.killLaunch (s : State) (id : Nat) : State :=
  match s.launch id with
  | some l =>
    let bs := s.blocks.filter fun b => b.2.launch == id
    let s := bs.foldl (fun s b => s.clearBlock b.1 b.2) s
    let s := { s with blocks := s.blocks.filter fun b => b.2.launch != id }
    let s := s.modPart l.part fun p =>
      { p with saved := { p.saved with blocks := p.saved.blocks.filter (fun b => b.2.launch != id),
                                       warps := p.saved.warps.filter fun w => w.2.launch != id } }
    ((s.modLaunch id fun l => { l with unplaced := [], status := 7, phase := .running }).finishLaunch id).pumpFor l
  | none => s

/-- Is a warp of the launch Frozen? -/
def State.hasFrozen (s : State) (id : Nat) : Bool :=
  (KMap.vals s.warps ++ (KMap.vals s.parts).flatMap fun p =>
    p.outWarps ++ (KMap.vals p.frames).map (·.w)).any fun w => w.launch == id && w.st == .frozen

/-- LAUNCH_KILL (R358): firmware ends a launch that holds a Frozen warp. -/
def execLaunchKill (launch : Nat) (s : State) : Host.Outcome State Fault Refusal :=
  match s.launch launch with
  | some l => .next (if s.hasFrozen launch || l.phase == .faulted then s.killLaunch launch else s)
  | none => .next s

end Sys2Proof.Machine
end

