-- ==== Sys2Proof/Machine/Transitions.lean ====
section
/-! DEFINITION. The transitions of the abstract machine as steps of their own: STORE_DRAIN, SLICE_FILL, SLICE_WRITE_BACK,
SLICE_EVICT, CROSSBAR_DELIVER and HOST_ACKNOWLEDGE (R82, R130 to R133, R371 to R375). -/

namespace Sys2Proof.Machine

open Sys2Proof

/-- Does the partition of a warp make progress, and its die run? -/
def State.warpLives (s : State) (wk : Nat) (w : Warp) : Bool :=
  (s.die (dieOfWk wk)).boot == .running && (s.partD (s.partOf w)).progress

/-- Drains an entry of a warp in a frame if its partition and its die are at work. -/
def State.frameDrain (s : State) (part frame i : Nat) : State :=
  match KMap.get? (s.partD part).frames frame with
  | some f =>
    if (s.die (dieOfCore f.core)).boot == .running && (s.partD part).progress then s.drainFramed part frame i else s
  | none => s

/-- STORE_DRAIN (R132, R133): an entry that no earlier entry of its queue overlaps leaves, and is applied at its first
part. The queue is that of the warp with a key; keys from 2^21 up, of no slot, name the frames of partition
(key - 2^21) ÷ 32,768 (log entry 83). -/
def execStoreDrain (wk i : Nat) (s : State) : Host.Outcome State Fault Refusal :=
  match s.warp wk with
  | some w =>
    match w.sq[i]? with
    | some e =>
      if !s.warpLives wk w || (w.sq.take i).any (·.overlaps e) then .next s
      else
        let s := s.setWarp wk { w with sq := w.sq.eraseIdx i }
        .next (s.applyEntry wk w e).1
    | none => .next s
  | none => .next (s.frameDrain ((wk - 2 ^ 21) / 32768) ((wk - 2 ^ 21) % 32768) i)

/-- Does a cluster belong to a partition at work? -/
def State.clusterOf (s : State) (cl part : Nat) : Bool :=
  match s.part part with
  | some p => p.clusters.contains cl && p.progress && (s.die (dieOfCluster cl)).boot == .running
  | none => false

/-- SLICE_FILL (R132): a slice of the partition takes the line of a global address from its home. -/
def execSliceFill (cl part va : Nat) (s : State) : Host.Outcome State Fault Refusal :=
  if !s.clusterOf cl part then .next s
  else
    let die := dieOfCluster cl
    match s.translate die part (va / 64 * 64) 0 0 with
    | (t, .ok at_) => .next (if t.reach die (dieOfPa at_.pa) then t.fill cl part (va / 64 * 64) 0 at_ else t)
    | (_, .error _) => .next s

/-- SLICE_WRITE_BACK (R132): the dirty bytes of a copy go toward the home. -/
def execSliceWriteBack (cl line : Nat) (s : State) : Host.Outcome State Fault Refusal := .next (s.writeBack cl line)

/-- Where a line stands among those to evict: stream and bypass lines first, then normal ones, then those kept (R82). -/
def SliceLine.rank (x : SliceLine) : Nat := if x.hint = 2 then 2 else if x.hint = 0 then 1 else 0

/-- May a clean copy be evicted: no line of a lower rank is held, nor, where it is a normal one, a normal line used less
recently (R82)? -/
def Cluster.mayEvict (c : Cluster) (x : SliceLine) : Bool :=
  x.dirty == 0 && c.lines.all fun e => x.rank < e.2.rank || (x.rank == e.2.rank && (x.rank != 1 || x.used ≤ e.2.used))

/-- SLICE_EVICT (R132): a clean copy is dropped. -/
def execSliceEvict (cl line : Nat) (s : State) : Host.Outcome State Fault Refusal :=
  match s.sliceLine cl line with
  | some x => .next (if (s.cluster cl).mayEvict x then s.setSlice cl line none else s)
  | none => .next s

/-- CROSSBAR_DELIVER (R132): the message at the head of a path is applied at its home, unless a failed link has returned it
(R373), no route is up, or a link of the route sleeps, whose wake it begins (R376). A home from 8 up names the fabric port's
FIFO of a destination. -/
def execCrossbarDeliver (src home : Nat) (s : State) : Host.Outcome State Fault Refusal :=
  if home ≥ 8 then .next (s.fpDeliver1 (home - 8))
  else
    match s.path src home with
    | m :: _ =>
      let die := s.srcDie src
      let target := dieOfPa (m.line * 64)
      .next (if m.nak || !s.reach die target then s
        else if (s.routeLinks die target).all s.linkAwake then s.deliver1 src home else s.useRoute die target)
    | [] => .next s

/-- HOST_ACKNOWLEDGE (R132): the destination confirms the writes it has been given. -/
def execHostAcknowledge (dest : Nat) (s : State) : Host.Outcome State Fault Refusal := .next (s.fpAck dest)

end Sys2Proof.Machine
end

