-- ==== Sys2Proof/Machine/WarpEvents.lean ====
section
/-! DEFINITION. The life of a warp slot: starting, unblocking, retiring, parking and restoring, the poll of WAITADDR, and
the device's part in commits and merges (R9, R25, R31, R117 to R120, R150 to R154, R235, R244, R249, R291, R342). -/

namespace Sys2Proof.Machine

open Sys2Proof

/-! ### Starting (R25) -/

/-- WARP_START: a started slot runs, after the acquire its start owes (R150, R151, R293). The members of a cluster group are
placed together, so that each finds the others' scratch (R9). -/
def execWarpStart (wk : Nat) (s : State) : Host.Outcome State Fault Refusal :=
  match s.warp wk with
  | some w =>
    if w.st != .start || !s.coreIssues wk w then .next s
    else
      let s := if w.acqScope = 0 then s else s.acquire wk (s.partOf w) w.acqScope .all
      .next (s.setWarp wk { w with st := .run, acqScope := 0 })
  | none => .next s

/-! ### Unblocking (R25) -/

/-- May a word that waits for its sync point go on: its delta has just been merged, or every lower block's is closed? -/
def State.deltaDue (s : State) (w : Warp) : Bool :=
  match s.block w.blk with
  | some x => x.presynced.contains w.uid || (((s.launch x.launch).map fun l => l.lowerClosed x.idx x.round).getD true)
  | none => true

/-- Does the condition hold that a blocked word waits for? -/
def State.unblocks (s : State) (wk : Nat) (w : Warp) (p : Pend) : Bool :=
  match p.why with
  | .fifo pop push n => s.fifoOk wk w pop push n
  | .records q n => n ≤ (if q = 5 then w.q5.length else if q = 3 then w.q3.length else w.q1.length)
  | .engine .matrix => (s.core (coreOfWk wk)).matrixRoom
  | .engine .tilewalk => (s.cluster (clusterOfWk wk)).q2.length < 32
  | .engine .collective => (s.die (dieOfWk wk)).q4.length < 64
  | .owed q =>
    (if q = 1 then w.q1.length + s.owedMatrix w else if q = 3 then w.q3.length + s.owedCopies w
     else w.q5.length + s.owedColl w) < 64
  | .barrier id phase => phase < (((s.block w.blk).getD {}).bar id).phase
  | .waitaddr => false
  | .join => false
  | .sleep _ => false
  | .spawnRoom =>
    match p.word with
    | .spawn i => s.spawnRoomOk (coreOfWk wk) w.launch (lanesOf (w.partLanes p.iss i.g)).length
    | _ => true
  | .nodeRoom =>
    match p.word with
    | .emit i =>
      s.nodeRoom (s.partOf w) ((((s.launchOf w).graph).map (·.1)).getD 0) ((s.uni wk w i.a).toNat % 4096)
        (lanesOf (w.partLanes p.iss i.g)).length
    | _ => true
  | .txbegin => ((s.block w.blk).map (·.txOpen)).getD true || s.canOpen w.blk
  | .txcommit =>
    s.commitReady w.blk ||
    (match p.word with
      | .exit _ => s.isDet w.blk && s.deltaDue w
      | _ => false)
  | .landing => !s.landingAsked w && s.waitOk w migrateMask
  | .matrix => !s.matrixLeft w
  | .delta => s.deltaDue w
  | .frame => true
  | .more => true
  | .mapFixup => ((s.block w.blk).map fun x => x.mapFixup.isEmpty).getD true

/-- WARP_UNBLOCK: the blocked instruction completes at the next visit. -/
def execWarpUnblock (wk : Nat) (s : State) : Host.Outcome State Fault Refusal :=
  match s.warp wk with
  | some w =>
    match w.pend with
    | some p =>
      .next (if w.st == .blocked && w.fault.isNone && s.coreIssues wk w && s.unblocks wk w p then
        s.setWarp wk { w with st := .run } else s)
    | none => .next s
  | none => .next s

/-- WAITADDR_POLL (R235): a poll of the word. -/
def execWaitaddrPoll (wk : Nat) (s : State) : Host.Outcome State Fault Refusal :=
  pollBlocked s wk .waitaddr fun i =>
    match i with
    | .waitaddr m => some (waitaddrPoll m)
    | _ => none

/-! ### Retiring (R25, R9) -/

/-- Lets the graph of a block's launch go on. -/
def State.pumpLaunch (s : State) (id : Nat) : State :=
  match s.launch id with
  | some l => s.pumpFor l
  | none => s

/-- WARP_RETIRE: the finished warp's stores drain, its slot and registers are freed, and its block may end. -/
def execWarpRetire (wk : Nat) (s : State) : Host.Outcome State Fault Refusal :=
  match s.warp wk with
  | some w =>
    if w.st != .retire || !s.warpLives wk w then .next s
    else
      let s := s.drainWhere wk fun _ => true
      match s.warp wk with
      | some w =>
        let s := s.modLaunch w.launch fun l => l.addWrites (clusterOfWk wk) w
        let s := ((s.dropWarp wk).commitTry w.blk).endBlock w.blk
        .next (s.pumpLaunch w.launch)
      | none => .next s
  | none => .next s

/-! ### Parking (R25, R291) -/

/-- Are all warps in slots of a kind of a core Blocked, and is no such slot free? -/
def State.allBlocked (s : State) (core ctx : Nat) (slots : List Nat) : Bool :=
  slots.all fun n => (s.warp (wkOf core ctx n)).any fun w => w.st == .blocked

/-- Is a warp blocked in SPAWN or JOIN to be parked? -/
def State.parks (s : State) (wk : Nat) (w : Warp) : Bool :=
  w.st == .blocked && w.fault.isNone && (w.pend.any fun p => p.why == .join || p.why == .spawnRoom) &&
  s.allBlocked (coreOfWk wk) (ctxOfWk wk)
    (if slotOfWk wk < 26 then generalSlots else if slotOfWk wk < 30 then generalSlots ++ reserveSlots else generalSlots)

/-- WARP_PARK: the warp is saved to a frame and its slot freed, with no record posted. -/
def execWarpPark (wk : Nat) (s : State) : Host.Outcome State Fault Refusal :=
  match s.warp wk with
  | some w =>
    if !s.parks wk w || !s.coreIssues wk w then .next s
    else
      match (s.partD (s.partOf w)).freeFrame with
      | some n => .next (s.saveFrame wk w (s.partOf w) n true)
      | none => .next s
  | none => .next s

/-- A free slot of the kind a warp left, on the same core, with room for its registers. -/
def State.restoreSlot (s : State) (f : Frame) : Option Nat :=
  let n := charge f.w.nregs
  let big := (s.block f.w.blk).any fun x => decide ((s.blockImage x).warps > 26)
  let free := s.freeSlots f.core f.ctx (slotsLike f.slot)
  if !s.coreRuns (wkOf f.core f.ctx f.slot) then none
  else if big then free.head?
  else if s.ownedByBig f.core then none
  else if f.slot < 26 then s.generalFor f.core f.ctx n
  else if f.slot < 30 then s.reserveFor f.core f.ctx f.w.launch n
  else if (s.core f.core).landRes.length < free.length && s.regsFree f.core f.ctx n then free.head? else none

/-- Is a parked warp's condition clear: would its word no longer block? -/
def State.parkOver (s : State) (f : Frame) (slot : Nat) : Bool :=
  let wk := wkOf f.core f.ctx slot
  match f.w.pend with
  | some p =>
    let w := { f.w with st := .run }
    let iss := { p.iss with wk }
    let r : Option Res := match p.word with
      | .join i => some (joinBody i (s.setWarp wk w) iss w)
      | .spawn i => some (spawnBody i (s.setWarp wk w) iss w)
      | _ => none
    match r with
    | some (.error (.block _ _)) => false
    | _ => true
  | none => true

/-- A pending word moved to another slot of its core. -/
def Pend.moveTo (p : Pend) (wk : Nat) : Pend := { p with iss := { p.iss with wk } }

/-- Puts a warp of a frame back into a slot, as the frame in memory holds it (R359), and frees the frame. -/
def State.unframe (s : State) (part frame slot : Nat) (f : Frame) : State :=
  let wk := wkOf f.core f.ctx slot
  let held := s.readFrame ((s.partD part).regs.frameBase.toNat + 73728 * frame) f.w
  let w := { held with
    st := .start, fault := none, pend := f.w.pend.map (·.moveTo wk), f64 := f.w.f64.map fun e => { e with iss := { e.iss with wk } } }
  (s.setWarp wk w).modPart part fun p => { p with frames := KMap.erase p.frames frame }

/-- Restores the warp of an answered fault frame: it issues the faulting word again, or enters its handler (R341, R353,
R355). The frame and its tag are free again. A Frozen warp stays in its frame. -/
def State.restoreFaulted (s : State) (part frame : Nat) : State :=
  match KMap.get? (s.partD part).frames frame with
  | some f =>
    match if f.w.st == .frozen then none else s.restoreSlot f with
    | some slot =>
      let wk := wkOf f.core f.ctx slot
      let s := s.unframe part frame slot f
      match f.deliver, f.w.fault with
      | some fi, some wf =>
        (s.trapEnter wk wf.iss.pc wf.iss.lanes fi.cause fi.info (fun t => t.atWord wf.iss)).modWarp wk fun w =>
          if w.st == .run then { w with st := .start } else w
      | _, _ => s
    | none => s
  | none => s

/-- WARP_UNPARK (R291): a parked warp is restored when its condition clears; a warp whose fault was answered while no slot
was free, once one is. -/
def execWarpUnpark (part frame : Nat) (s : State) : Host.Outcome State Fault Refusal :=
  match KMap.get? (s.partD part).frames frame with
  | some f =>
    if !(s.partD part).progress then .next s
    else if f.parked then
      match if f.w.st == .frozen then none else s.restoreSlot f with
      | some slot => .next (if s.parkOver f slot then s.unframe part frame slot f else s)
      | none => .next s
    else .next (if f.ready then s.restoreFaulted part frame else s)
  | none => .next s

/-- FRAME_SAVE (R342): a faulted warp that waits in its slot saves and posts once a frame is free. -/
def execFrameSave (wk : Nat) (s : State) : Host.Outcome State Fault Refusal := .next (s.tryFrame wk)

/-! ### Commits carried on by the device (R117, R119, R120) -/

/-- Carries a commit on, and ends the block if that was all it waited for. -/
def State.commitOn (s : State) (b : Nat) : State :=
  let id := ((s.block b).map (·.launch)).getD 0
  ((s.commitTry b).endBlock b).pumpLaunch id

/-- ORDERED_COMMIT_PROCEED (R119): NEXT equals the block's index. -/
def execOrderedCommitProceed (blk : Nat) (s : State) : Host.Outcome State Fault Refusal :=
  match s.block blk with
  | some x =>
    if x.tx.phase != .ordered then .next s
    else
      let (t, next) := s.objectField blk 8
      .next (if next = x.idx then t.commitOn blk else s)
  | none => .next s

/-- May the block of an index be skipped for the object a block waits on: of its launch, below `%nblocks` (0 in the launch of a
record node, R322), ended, with no ordered commit to it? -/
def State.maySkip (s : State) (blk : Nat) (x : Block) (j : Nat) : Bool :=
  match s.launch x.launch, x.tx.obj with
  | some l, some o =>
    (!l.recNode && j < l.nblocks) && l.endedIdx.contains j && !l.ordDone.any fun e => e.1 == j && e.2 == objectName blk o
  | _, _ => false

/-- NEXT plus STRIDE. -/
def skipNext (stride : Nat) (next : List Byte) : List Byte := leBytes 8 (leNat next + stride)

/-- ORDERED_COMMIT_SKIP (R120): NEXT names a block that has ended without an ordered commit, and STRIDE is added. -/
def execOrderedCommitSkip (blk : Nat) (s : State) : Host.Outcome State Fault Refusal :=
  match s.block blk with
  | some x =>
    if x.tx.phase != .ordered then .next s
    else
      let (t, next) := s.objectField blk 8
      if s.maySkip blk x next then
        let (t, stride) := t.objectField blk 16
        .next (t.updateObject blk 8 8 (skipNext stride))
      else .next s
  | none => .next s

/-- COMMIT_RECORD_RELEASE (R117 step 4): held records enter their nodes' queues as room comes, and the commit ends. -/
def execCommitRecordRelease (blk : Nat) (s : State) : Host.Outcome State Fault Refusal :=
  match s.block blk with
  | some x => .next (if x.tx.phase == .releasing then s.commitOn blk else s)
  | none => .next s

/-! ### Merges (R153, R154) -/

/-- Does the merge of a delta wait for the word itself: an EMIT's records enter their node's queue with it (R322)? -/
def mergesItself (i : Instr) : Bool :=
  match i with
  | .emit _ => true
  | _ => false

/-- A warp of a block that waits at a sync point for which no delta has been merged yet, with its word. -/
def State.deltaWaiter (s : State) (b : Nat) : Option (Nat × Warp × Pend) :=
  let done := ((s.block b).map (·.presynced)).getD []
  s.warps.findSome? fun e =>
    match e.2.pend with
    | some p =>
      if e.2.blk == b && p.why == .delta && e.2.st == .blocked && !done.contains e.2.uid && !mergesItself p.word then
        some (e.1, e.2, p)
      else none
    | none => none

/-- A delta has been merged for a waiting word: of a commit that is not yet past its sync point, or of the warp's own word. -/
def Block.merged (x : Block) (uid : Nat) (word : Instr) : Block :=
  let commits := match word with
    | .txcommit _ => true
    | .exit _ => x.txOpen && !x.tx.synced
    | _ => false
  if commits then { x with tx := { x.tx with synced := true } } else { x with presynced := x.presynced ++ [uid] }

/-- Does an EXIT at its block's end still wait for commands or map write-backs? -/
def State.exitWaits (s : State) (b : Nat) (p : Pend) : Bool :=
  match p.word with
  | .exit _ => s.commandsLeft b || ((s.block b).map fun x => !x.mapFixup.isEmpty).getD false
  | _ => false

/-- DELTA_MERGE (R153): the delta of a block that waits at a sync point is merged once every lower block has closed its own;
a conflicting byte raises CONFLICT at the word that waits (R154). The last delta of a block that a discard has ended closes
with its end. -/
def execDeltaMerge (blk : Nat) (s : State) : Host.Outcome State Fault Refusal :=
  match s.block blk, s.deltaWaiter blk with
  | some x, none => .next (if x.endDue then (s.endBlock blk).pumpLaunch x.launch else s)
  | some x, some (wk, w, p) =>
    let l := (s.launch x.launch).getD {}
    if !l.det || !l.lowerClosed x.idx x.round || s.exitWaits blk p || !s.coreIssues wk w then .next s
    else
      let s := s.drainBlock blk
      match l.conflict ((s.block blk).getD {}) with
      | some va => .next ((s.setWarp wk { w with st := .run }).takeFault p.iss { cause := 9, info := BitVec.ofNat 64 va })
      | none => .next ((s.mergeDelta blk).modBlock blk (·.merged w.uid p.word))
  | _, _ => .next s

end Sys2Proof.Machine
end

