-- ==== Sys2Proof/Machine/FaultEvents.lean ====
section
/-! DEFINITION. Faults after they are raised: posting, software's answers, host page requests, invalidation, and the faults of
words that cannot be fetched or decoded (R156, R173, R176, R319, R338 to R345, R368). -/

namespace Sys2Proof.Machine

open Sys2Proof

/-! ### Posting (R340) -/

/-- FAULT_EVENT_POST: the first event of the partition that waits on a die is written to the ring if it has room. -/
def execFaultEventPost (die part : Nat) (s : State) : Host.Outcome State Fault Refusal := .next (s.postFirst die part)

/-! ### Answers (R341) -/

/-- Takes an event out of the partition's table. -/
def State.takeEvent (s : State) (part tag : Nat) : State :=
  s.modPart part fun p => { p with events := KMap.erase p.events tag }

/-- The launch of a delivered engine fault: its warp, in its slot or its frame, is Frozen, and firmware is to end the launch. -/
def State.freezeEngine (s : State) (uid blk : Nat) : State :=
  let s := s.modWarps fun w => if w.uid == uid then { w with st := .frozen, pend := none } else w
  match s.block blk with
  | some x => s.modLaunch x.launch fun l => if l.phase == .running then { l with phase := .faulted } else l
  | none => s

/-- Goes past a bytecode whose write or capture was dropped. -/
def State.skipBytecode (s : State) (part q : Nat) : State := (s.qWait part q .none).qNext part q

/-- A front-end write answered with a delivery: the record is dropped, FESTAT[10] says so, and its launch or graph is
complete without it. -/
def State.dropFront (s : State) (part : Nat) (w : FeWrite) : State :=
  let s := s.modRegs part fun r => { r with feDropped := true }
  match w with
  | .launchDone id =>
    match s.launch id with
    | some l => (s.endLaunch id l).pumpFor l
    | none => s
  | .graphDone g =>
    match s.graph part g with
    | some x =>
      (s.modGraph part g fun x => { x with running := false, writing := false, runs := [] }).modQueue part x.queue fun y =>
        { y with pendingGraphs := y.pendingGraphs.filter (· != g) }
    | none => s
  | .capture q => s.skipBytecode part q
  | .word q _ _ => s.skipBytecode part q

/-- The map unit takes its fix-up list again, and the block may end. -/
def State.mapReplay (s : State) (b : Nat) : State :=
  match s.block b with
  | some x => (((s.mapLinesBack b x.mapFixup).endBlock b)).pumpLaunch x.launch
  | none => s

/-- Answers an event: a retry, or a delivery. -/
def State.resolve (s : State) (part tag : Nat) (ev : Event) (deliver : Bool) : State :=
  let s := s.takeEvent part tag
  match ev.who with
  | .warp =>
    let give := fun (f : Frame) =>
      if deliver then (f.w.fault).map fun wf => { wf.info with cause := ev.first.cause } else none
    (s.modPart part fun p =>
      { p with frames := KMap.modify p.frames tag fun f => { f with ready := true, deliver := give f } }).restoreFaulted part tag
  | .tilewalk cl id =>
    if deliver then
      match s.twCmd cl id with
      | some c => s.freezeEngine c.uid c.blk
      | none => s
    else s.twReplay cl id
  | .collective die id =>
    if deliver then
      match s.collCmd die id with
      | some c => s.freezeEngine c.uid c.blk
      | none => s
    else s.collReplay die id
  | .map b => if deliver then s.freezeEngine 0 b else s.mapReplay b
  | .front w =>
    let s := if deliver then s.dropFront part w else s
    s.feResume part (tag - 0xFFC0)

/-- A write of FRESOLVE: ignored where no event of the tag has been posted; kept for the swap-in of a partition that is
swapped out (R341, R368). -/
def State.fresolve (s : State) (part tag : Nat) (deliver : Bool) : State :=
  match KMap.get? (s.partD part).events tag with
  | some ev =>
    if !ev.posted then s
    else if (s.partD part).progress then s.resolve part tag ev deliver
    else s.modPart part fun p => { p with resolved := p.resolved ++ [(tag, deliver)] }
  | none => s

/-- FRESOLVE_RETRY (R341). -/
def execFresolveRetry (part tag : Nat) (s : State) : Host.Outcome State Fault Refusal := .next (s.fresolve part tag false)

/-- FRESOLVE_DELIVER (R341). -/
def execFresolveDeliver (part tag : Nat) (s : State) : Host.Outcome State Fault Refusal := .next (s.fresolve part tag true)

/-- The answers kept while the partition was swapped out take effect. -/
def State.applyResolved (s : State) (part : Nat) : State :=
  let l := (s.partD part).resolved
  let s := s.modPart part fun p => { p with resolved := [] }
  l.foldl (fun s r =>
    match KMap.get? (s.partD part).events r.1 with
    | some ev => s.resolve part r.1 ev r.2
    | none => s) s

/-! ### Host pages (R345) -/

/-- The client of an event, for a record: die, core, slot, original PC, residual PC and iteration. -/
def State.clientOf (s : State) (part tag : Nat) (ev : Event) : Nat × Nat × Nat × Nat × Nat × Nat :=
  match ev.who with
  | .warp =>
    match KMap.get? (s.partD part).frames tag with
    | some f =>
      match f.w.fault with
      | some wf => (dieOfCore f.core, f.core % 56, f.slot, wf.opc.toNat, wf.rpc.toNat, wf.iter)
      | none => (dieOfCore f.core, f.core % 56, f.slot, 0, 0, 0)
    | none => (0, 0, 0, 0, 0, 0)
  | .tilewalk cl id =>
    match s.twCmd cl id with
    | some c => (dieOfCluster cl, c.core % 56, c.slot, c.opc, c.pc.toNat, c.iter)
    | none => (dieOfCluster cl, 0, 0, 0, 0, 0)
  | .collective die id =>
    match s.collCmd die id with
    | some c => (die, c.core % 56, c.slot, c.opc, c.pc.toNat, c.iter)
    | none => (die, 0, 0, 0, 0, 0)
  | .map b => (dieOfCore (((s.block b).map (·.core)).getD 0), (((s.block b).map (·.core)).getD 0) % 56, 0, 0, 0, 0)
  | .front _ => (s.feDie, 0, 0, 0, 0, 0)

/-- The record that waits for a page: of a warp's frame the one that names it, else the event's first. -/
def State.priRec (s : State) (part tag page : Nat) (ev : Event) : FaultRec :=
  let recs := (((KMap.get? (s.partD part).frames tag).bind fun f => f.w.fault).map fun wf => wf.info.recs).getD []
  match ev.who with
  | .warp => (recs.find? fun r => r.hostpri == some page).getD ev.first
  | _ => ev.first

/-- Does an event wait for the response to a page request? One that has had another response waits for FRESOLVE (R345). -/
def Event.awaits (e : Event) (page : Nat) : Bool := e.pris.contains page && !e.failed

/-- Any other response: a PERM record with reason 7, and the event waits for FRESOLVE. -/
def State.priFailed (s : State) (part tag page : Nat) (ev : Event) : State :=
  let r := { s.priRec part tag page ev with cause := 4, reason := 7 }
  let (die, core, slot, opc, rpc, iter) := s.clientOf part tag ev
  s.report die part tag { ev with first := r, posted := false, failed := true } [r.words tag 0 1 opc rpc die core slot iter]

/-- Success: the client goes on without FRESOLVE; a record of it still to be written is for information only. -/
def State.priGranted (s : State) (part tag : Nat) (ev : Event) : State :=
  let s := { s with dies := s.dies.mapVals fun (d : Die) =>
    { d with waitEv := d.waitEv.map fun (e : WaitEvent) => if e.part == part && e.tag == tag then { e with quiet := true } else e } }
  if (s.partD part).progress then s.resolve part tag ev false
  else s.modPart part fun p => { p with resolved := p.resolved ++ [(tag, false)] }

/-- A faulted warp that waits in its slot for a frame, when the host answers a page it needs: it issues its word again, or its
record of the page becomes PERM with reason 7. -/
def Warp.priAnswer (w : Warp) (page : Nat) (success : Bool) : Warp :=
  match w.fault with
  | some f =>
    if !f.info.recs.any (·.hostpri == some page) then w
    else if success then { w with st := .start, fault := none }
    else
      let recs := f.info.recs.map fun r =>
        if r.hostpri == some page then { r with cause := 4, reason := 7, hostpri := none } else r
      { w with fault := some { f with info := { f.info with cause := (recs.headD { cause := 4 }).cause, recs } } }
  | none => w

/-- Orders a translation that ATS grants may have: 4 KiB to 1 GiB (R379). -/
def atsOrders : Nat := 18

/-- PRI_RESPONSE (R345, R379): the host answers one of the 512 page requests that may be outstanding, Success with a
translation of 2^order pages, or not, and every client that waits for the page goes on or fails. -/
def execPriResponse (part page : Nat) (success : Option Nat) (s : State) : Host.Outcome State Fault Refusal :=
  if !((s.partD part).priOut.take 512).contains page || success.any (atsOrders < ·) then .next s
  else
    let s := s.modPart part fun p =>
      { p with priOut := p.priOut.erase page, atc := p.atc ++ success.toList.map (page, ·) }
    let tags := ((s.partD part).events.filter fun e => e.2.awaits page).map (·.1)
    let s := { s with warps := s.warps.mapVals fun (w : Warp) => if s.partOf w == part then w.priAnswer page success.isSome else w }
    .next (tags.foldl (fun s tag =>
      match KMap.get? (s.partD part).events tag with
      | some ev => if success.isSome then s.priGranted part tag ev else s.priFailed part tag page ev
      | none => s) s)

/-! ### Invalidation (R338, R345) -/

/-- Does a cached entry cover part of a range of virtual space? -/
def TlbEntry.inRange (e : TlbEntry) (base len : Nat) : Bool :=
  let n := if e.cont then 2 ^ 16 else 2 ^ levelShift e.level
  let a := if e.cont then e.prefix_ / 16 * 2 ^ 16 else e.prefix_ * 2 ^ levelShift e.level
  len == 0 || rangesMeet a n base len

/-- Does an address lie in a range, of which length 0 is the whole space? -/
def inSpan (base len a : Nat) : Bool := len == 0 || (base ≤ a && a < base + len)

/-- Do a warp's stores still to drain meet a range? -/
def Warp.storesMeet (w : Warp) (space : Nat) (at_ : SqEntry → Nat) (base len : Nat) : Bool :=
  w.sq.any fun e => e.space == space && (len == 0 || rangesMeet (at_ e) e.bytes.length base len)

/-- Has a warp's word pieces left to perform that meet a range? -/
def Warp.piecesMeet (w : Warp) (at_ : Piece → Nat) (base len : Nat) : Bool :=
  w.pend.any fun p => p.left.any fun q => len == 0 || rangesMeet (at_ q) q.n base len

/-- Does a commit still keep the translation of an object in a range for its updates? -/
def Tx.objectIn (t : Tx) (base len : Nat) : Bool :=
  t.phase != .idle && t.phase != .closed && t.obj.any fun o => !o.1 && (len == 0 || rangesMeet o.2 64 base len)

/-- Has a partition an access in flight that was translated within a range: a store, a piece of a word, a held or dirty line, a
commit's object, a message or a delta that has not reached its home or the fabric port? -/
def State.inFlight (s : State) (part base len : Nat) : Bool :=
  let mine := fun (l : Nat) => ((s.launch l).map fun x => x.part == part).getD false
  let line := fun (va : Nat) => len == 0 || rangesMeet (va / 64 * 64) 64 base len
  let delta := fun (d : List DeltaByte) => d.any fun b => inSpan base len b.va
  let p := s.partD part
  let stores := fun (w : Warp) =>
    w.storesMeet 0 (·.addr) base len || w.storesMeet 5 (·.addr) base len || w.piecesMeet (·.addr) base len
  s.warps.any (fun e => s.partOf e.2 == part && stores e.2) || (KMap.vals p.frames).any (fun f => stores f.w) ||
  (KMap.vals s.blocks ++ p.outBlocks).any (fun b => mine b.launch &&
    (b.heldG.any (fun e => line e.2.va) || b.heldH.any (fun e => line e.2.va) || delta b.delta ||
      b.tx.objectIn base len)) ||
  (KMap.vals s.clusters).any (fun c => c.lines.any fun e => e.2.part == part && e.2.dirty != 0 && line e.2.va) ||
  (KMap.vals s.dx).any (fun l => l.any fun m => m.part == part && line m.va) ||
  (KMap.vals s.launches).any fun l => l.part == part && l.merged.any fun m => delta m.2.2

/-- INVGO (R338, R352): an invalidation of the range that INVBASE and INVLEN now give starts, unless one is running. -/
def execInvgo (part : Nat) (s : State) : Host.Outcome State Fault Refusal :=
  .next (s.modRegs part fun r =>
    if r.invDone then { r with invDone := false, invRange := (r.invBase.toNat, r.invLen.toNat) } else r)

/-- INVALIDATION_COMPLETE (R338): once no access that used one is in flight, every cached entry of the range is dropped and
INVSTAT reads 1. -/
def execInvalidationComplete (part : Nat) (s : State) : Host.Outcome State Fault Refusal :=
  match s.part part with
  | some p =>
    let (base, len) := p.regs.invRange
    if p.regs.invDone || s.inFlight part base len then .next s
    else
      let s := { s with dies := s.dies.mapVals fun (d : Die) =>
        { d with tlb := d.tlb.filter fun e => !(e.part == part && e.inRange base len) } }
      .next (s.modRegs part fun r => { r with invDone := true })
  | none => .next s

/-- Has a partition a store in flight that ATS gave a bus address of a range? -/
def State.atsInFlight (s : State) (part base len : Nat) : Bool :=
  let mine := fun (l : Nat) => ((s.launch l).map fun x => x.part == part).getD false
  let p := s.partD part
  let stores := fun (w : Warp) => w.storesMeet 5 (·.attr.pa) base len || w.piecesMeet (·.attr.pa) base len
  let delta := fun (d : List DeltaByte) => d.any fun b => b.host && inSpan base len b.addr
  s.warps.any (fun e => s.partOf e.2 == part && stores e.2) || (KMap.vals p.frames).any (fun f => stores f.w) ||
  (KMap.vals s.blocks ++ p.outBlocks).any (fun b => mine b.launch &&
    (b.heldH.any (fun e => len == 0 || rangesMeet (e.1 * 64) 64 base len) || delta b.delta)) ||
  (KMap.vals s.launches).any fun l => l.part == part && l.merged.any fun m => delta m.2.2

/-- ATS_INVALIDATE (R345): cached translations of a range of bus addresses are dropped, once no store that used one is still
to reach the fabric port. -/
def execAtsInvalidate (part base len : Nat) (s : State) : Host.Outcome State Fault Refusal :=
  if s.atsInFlight part base len then .next s
  else .next (s.modPart part fun p => { p with atc := p.atc.filter fun g =>
      !(len == 0 || rangesMeet (g.1 / 2 ^ g.2 * 2 ^ g.2 * 4096) (2 ^ g.2 * 4096) base len) })

/-! ### Words that cannot run (R156, R173, R174, R176) -/

/-- ILLEGAL_INSTRUCTION (R176): the visit raises ILLEGAL. -/
def execIllegalInstruction (s : State) : Host.Outcome State Fault Refusal := runRaw s .illegalInstruction fun s _ _ => illegal s

/-- INSTRUCTION_FETCH_FAULT (R173): the visit takes the fault of its fetch, with one record for the lanes that issue. -/
def execInstructionFetchFault (s : State) : Host.Outcome State Fault Refusal :=
  runRaw s .instructionFetchFault fun s iss w =>
    match s.fetchErr iss.wk w iss.lanes iss.pc with
    | (s, some fi) => .error (.trap fi s)
    | (s, none) => .ok s

end Sys2Proof.Machine
end

