-- ==== Sys2Proof/Machine/CtxEvents.lean ====
section
/-! DEFINITION. Contexts and partitions: the switch of a core, the swap of a partition, and their creation (R302, R352, R360 to
R368, R377, R380, R398). -/

namespace Sys2Proof.Machine

open Sys2Proof

/-! ### The switch of a core (R361 to R364) -/

/-- The partition at work that holds a core's cluster. -/
def State.partOfCore (s : State) (core : Nat) : Option (Nat × Part) :=
  s.parts.find? fun p => p.2.progress && p.2.clusters.contains (clusterOfCore core)

/-- The slots of a core's running context, with their warps. -/
def State.running (s : State) (core : Nat) : List (Nat × Warp) :=
  s.warps.filter fun w => coreOfWk w.1 == core && ctxOfWk w.1 == (s.core core).ctxCur

/-- CTXNEXT (R363): names the context that the shadow bank is to hold. -/
def execCtxnext (core ctx : Nat) (s : State) : Host.Outcome State Fault Refusal :=
  match s.partOfCore core with
  | some (_, p) =>
    .next (if (KMap.get? p.ctxs ctx).isSome then s.modCore core fun c => { c with ctxNext := some ctx, preloaded := false } else s)
  | none => .next s

/-- The exchange of the banks begins if the core has drained and the shadow bank holds the next context. -/
def Core.startExchange (c : Core) (ck : Nat) : Core :=
  match c.ctxNext with
  | some n =>
    if c.drained && c.preloaded && c.exchange.isNone then
      { c with exchange := some (ck + 64), incoming := n, ctxNext := none, preloaded := false }
    else c
  | none => c

/-- Reads the images of a context's warps on a core into the bank (R362, R363). -/
def State.readImages (s : State) (core ctx : Nat) : State :=
  (s.warps.filter fun w => coreOfWk w.1 == core && ctxOfWk w.1 == ctx).foldl (fun s w =>
    match KMap.get? s.imgs w.1 with
    | some x => if x.uid = w.2.uid then s.setWarp w.1 (x.warp w.2) else s
    | none => s) s

/-- PRELOAD_DONE (R363): the shadow bank, the outgoing context's spill over, holds the next context as its image does. -/
def execPreloadDone (core : Nat) (s : State) : Host.Outcome State Fault Refusal :=
  let c := s.core core
  match c.ctxNext with
  | some n =>
    .next (if !c.preloaded && c.spillDone && c.exchange.isNone then
      (s.readImages core n).modCore core fun c => { c with preloaded := true }.startExchange s.ck
    else s)
  | none => .next s

/-- The stop of a core: it issues no new word, sleeps end, and requests for landing slots not yet granted are taken back
(R302, R361, R377). -/
def State.stopCore (s : State) (core : Nat) : State :=
  let ws := s.running core
  let s := s.cancelLanding ((ws.filter fun w => w.2.landing.isNone).map (·.2.uid))
  let s := ws.foldl (fun s w => s.wake w.1) s
  s.modCore core fun c => { c with draining := true, drained := false }

/-- CTXSTOP (R361). -/
def execCtxstop (core : Nat) (s : State) : Host.Outcome State Fault Refusal :=
  match s.partOfCore core with
  | some _ => .next (if (s.core core).draining then s else s.stopCore core)
  | none => .next s

/-- Has a core drained (R361): every word issued has completed or will issue again, its engine commands are done and its
store queues empty? -/
def State.isDrained (s : State) (core : Nat) : Bool :=
  let c := s.core core
  c.q0.isEmpty &&
  (s.running core).all (fun w =>
    w.2.sq.isEmpty && w.2.unfinished.isNone && w.2.landing.isNone && (w.2.f64.isEmpty || w.2.st != .run)) &&
  (KMap.vals s.parts).all (fun p => (KMap.vals p.frames).all fun (f : Frame) =>
    f.core != core || f.ctx != c.ctxCur || f.w.sq.isEmpty) &&
  (s.cluster (clusterOfCore core)).q2.all fun k =>
    k.core != core || ((s.block k.blk).map fun b => s.blockCtx b != c.ctxCur).getD true

/-- The ck at which a core's slice ends (R364). -/
def State.sliceEnd (s : State) (core : Nat) (p : Part) : Nat :=
  let c := s.core core
  let x := KMap.getD p.ctxs c.ctxCur {}
  c.sliceStart + max 1 (x.slice - KMap.getD c.cut c.ctxCur 0)

/-- DRAIN_DONE (R361, R364): the drain ends; a late one is charged to OVERRUN and to the context's next slice. -/
def execDrainDone (core : Nat) (s : State) : Host.Outcome State Fault Refusal :=
  match s.partOfCore core with
  | some (_, p) =>
    let c := s.core core
    if !c.draining || c.drained || p.swap != .resident || !s.isDrained core then .next s
    else
      let late := s.ck - s.sliceEnd core p
      .next (s.modCore core fun c =>
        { c with drained := true, overrun := KMap.set c.overrun c.ctxCur ((KMap.getD c.overrun c.ctxCur 0 + late) % 2 ^ 32),
                 cut := KMap.set c.cut c.ctxCur late }.startExchange s.ck)
  | none => .next s

/-- BANK_EXCHANGE_DONE (R363): after 64 ck the incoming context issues, and the outgoing one is spilled. -/
def execBankExchangeDone (core : Nat) (s : State) : Host.Outcome State Fault Refusal :=
  match (s.core core).exchange with
  | some t =>
    .next (if t ≤ s.ck then
      s.modCore core fun c =>
        { c with ctxCur := c.incoming, exchange := none, draining := false, drained := false, sliceStart := s.ck,
                 spilling := some c.ctxCur, spillDone := false }
    else s)
  | none => .next s

/-- The image of a context on a core with what was written since it was last restored: a register segment or slot area that
was not written still holds what the image does, so only those that differ are dirty (R363; log entry 85). -/
def State.writeImages (s : State) (core ctx : Nat) : State :=
  let mine := fun (wk : Nat) => coreOfWk wk == core && ctxOfWk wk == ctx
  let now := s.warps.filter fun w => mine w.1
  let s := { s with imgs := s.imgs.filter fun e => !mine e.1 || now.any fun w => w.1 == e.1 && w.2.uid == e.2.uid }
  now.foldl (fun s w =>
    let x := s.imageOfWarp w.1 w.2
    if KMap.get? s.imgs w.1 = some x then s else { s with imgs := KMap.set s.imgs w.1 x }) s

/-- SPILL_DONE (R363): the outgoing context's image is written. -/
def execSpillDone (core : Nat) (s : State) : Host.Outcome State Fault Refusal :=
  match (s.core core).spilling with
  | some ctx => .next ((s.writeImages core ctx).modCore core fun c => { c with spilling := none, spillDone := true })
  | none => .next s

/-! ### The swap of a partition (R366 to R368) -/

/-- The cores of a partition. -/
def Part.cores (p : Part) : List Nat := p.clusters.flatMap fun cl => (List.range 4).map fun k => 4 * cl + k

/-- PSWAP_OUT (R367): every core of the partition stops and drains, and its shadow bank drops what it has preloaded. -/
def execPswapOut (part : Nat) (s : State) : Host.Outcome State Fault Refusal :=
  match s.part part with
  | some p =>
    if p.swap != .resident then .next s
    else
      let s := p.cores.foldl (fun s c => (s.stopCore c).modCore c fun k => { k with preloaded := false, ctxNext := none }) s
      .next (s.modPart part fun p => { p with swap := .halting, swapDone := false })
  | none => .next s

/-- The slices of a partition write back their dirty lines and give up their room. -/
def State.carveSlice (s : State) (cl : Nat) : State :=
  let s := (KMap.keys (s.cluster cl).lines).foldl (fun s line => s.writeBack cl line) s
  s.modCluster cl fun c => { c with lines := [] }

/-- SWAP_HALT_DONE (R367): every core has drained with no exchange or spill left, the dirty lines are written back, and the
copy into the carve starts, which only what has changed since a carve still held was copied needs (R368; log entry 86). -/
def execSwapHaltDone (part : Nat) (s : State) : Host.Outcome State Fault Refusal :=
  match s.part part with
  | some p =>
    let still := fun (c : Nat) => s.isDrained c && (s.core c).exchange.isNone && (s.core c).spilling.isNone
    if p.swap != .halting || !p.cores.all still then .next s
    else
      let s := p.clusters.foldl State.carveSlice s
      let s := p.cores.foldl (fun s c => s.modCore c fun k => { k with halted := true }) s
      .next (s.modPart part fun p => { p with swap := .copying, carve := true })
  | none => .next s

/-- Moves what a partition's cores hold into its carve. -/
def State.moveOut (s : State) (part : Nat) (p : Part) : State :=
  let mine := fun (core : Nat) => p.clusters.contains (clusterOfCore core)
  let held : Carve :=
    { warps := s.warps.filter fun w => mine (coreOfWk w.1), blocks := s.blocks.filter fun b => mine b.2.core,
      cores := s.cores.filter fun c => mine c.1 }
  let s := { s with warps := s.warps.filter fun w => !mine (coreOfWk w.1), blocks := s.blocks.filter fun b => !mine b.2.core,
                    cores := s.cores.filter fun c => !mine c.1 }
  s.modPart part fun p => { p with saved := held, swap := .out, swapDone := true }

/-- Moves a partition's carve back onto its cores, which issue again. The carve stays held (R368). -/
def State.moveIn (s : State) (part : Nat) (p : Part) : State :=
  let s := { s with warps := p.saved.warps.foldl (fun m (e : Nat × Warp) => KMap.set m e.1 e.2) s.warps,
                    blocks := p.saved.blocks.foldl (fun m (e : Nat × Block) => KMap.set m e.1 e.2) s.blocks,
                    cores := p.saved.cores.foldl (fun m (e : Nat × Core) => KMap.set m e.1 e.2) s.cores }
  let s := p.cores.foldl (fun s c => s.modCore c fun k =>
    { k with halted := false, draining := false, drained := false, sliceStart := s.ck }) s
  (s.modPart part fun p => { p with swap := .resident, swapDone := true }).applyResolved part

/-- SWAP_COPY_DONE (R367): the copy out or in is done, and PSWSTAT says so. -/
def execSwapCopyDone (part : Nat) (s : State) : Host.Outcome State Fault Refusal :=
  match s.part part with
  | some p =>
    .next (match p.swap with
      | .copying => s.moveOut part p
      | .restoring => s.moveIn part p
      | _ => s)
  | none => .next s

/-- Do other partitions leave some clusters alone: none that is in place holds one (R366, R367)? -/
def State.clustersFree (s : State) (part : Nat) (cls : List Nat) : Bool :=
  s.parts.all fun q => q.1 == part || q.2.swap == .out || q.2.clusters.all fun c => !cls.contains c

/-- Clusters go to a partition: firmware has moved the carve that another one holds in their slices to HBM, which releases it
(R368; log entry 86). -/
def State.freeCarves (s : State) (part : Nat) (cls : List Nat) : State :=
  { s with parts := s.parts.map fun q =>
      if q.1 != part && q.2.clusters.any cls.contains then (q.1, { q.2 with carve := false }) else q }

/-- PSWAP_IN (R367): a swapped-out partition comes back to its own clusters, once nobody else holds them; its carve is in their
slices again. -/
def execPswapIn (part : Nat) (s : State) : Host.Outcome State Fault Refusal :=
  match s.part part with
  | some p =>
    .next (if p.swap == .out && s.clustersFree part p.clusters then
      (s.freeCarves part p.clusters).modPart part fun p => { p with swap := .restoring, swapDone := false, carve := true } else s)
  | none => .next s

/-! ### Creation (R352, R360, R366, R398) -/

/-- CONTEXT_CREATE (R360): a context of a partition with its DRAIN value and slice length, its registers zero. -/
def execContextCreate (part ctx drain slice : Nat) (s : State) : Host.Outcome State Fault Refusal :=
  match s.part part with
  | some p =>
    .next (if ctx < 256 && (KMap.get? p.ctxs ctx).isNone then
      s.modPart part fun p => { p with ctxs := KMap.set p.ctxs ctx { drain, slice } } else s)
  | none => .next s

/-- PARTITION_CREATE (R366): whole clusters of present dies that no partition in place holds are given to a new partition and
its virtual function; its registers take their reset values (R352), its memory key is drawn (R398), and its token share is
what firmware gives it (R366; log entry 123). -/
def execPartitionCreate (part vf : Nat) (given : Allotment) (s : State) : Host.Outcome State Fault Refusal :=
  let clusters := given.clusters
  let there := fun (cl : Nat) => cl < 56 && s.boot.present.getLsbD (dieOfCluster cl)
  let fresh := (s.part part).isNone && part < 56 && vf < 56 && (KMap.vals s.parts).all fun p => p.vf != vf
  if !s.boot.up || !fresh || clusters.isEmpty || !clusters.all there || clusters.dedup != clusters ||
      !s.clustersFree part clusters then .next s
  else
    let p : Part := { vf, clusters, keyId := s.nextUid, tokShare := given.tokens, ats := Config.atsEnabled vf }
    let s := s.freeCarves part clusters
    .next { s.newUid with parts := KMap.set s.parts part p }

end Sys2Proof.Machine
end

