-- ==== Sys2Proof/Machine/LinkEvents.lean ====
section
/-! DEFINITION. The links between dies: failure, the probe's answer, power states and retraining (R370 to R378, R392). -/

namespace Sys2Proof.Machine

open Sys2Proof

/-! ### Ends of a link -/

/-- The ring position from which the link on a die's port leads clockwise: port 0 leads to the next die of the ring, port 1 to
the one before (R370). -/
def linkOf (die port : Nat) : Nat := if port = 0 then ringPos die else (ringPos die + 3) % 4

/-- The states of the two ends. -/
def State.linkEnds (s : State) (p : Nat) : Port × Port := ((s.die (ringDie p)).port0, (s.die (ringDie (p + 1))).port1)

/-- Do both ends of a link stand in a state? -/
def State.linkIn (s : State) (p : Nat) (st : LinkSt) : Bool := (s.linkEnds p).1.st == st && (s.linkEnds p).2.st == st

/-- Does a message of a path of the crossbar cross a link on its present route? -/
def State.crosses (s : State) (key p : Nat) (m : Msg) : Bool :=
  (s.routeLinks (s.srcDie (key / 8)) (dieOfPa (m.line * 64))).contains (p % 4)

/-! ### Failure (R373 to R375) -/

/-- Marks the messages that cross a link as returned to their sources. -/
def State.nakPaths (s : State) (p : Nat) : State :=
  { s with dx := s.dx.map fun e => (e.1, e.2.map fun m => if s.crosses e.1 p m then { m with nak := true } else m) }

/-- The messages that a route reaches again go on from their sources, in their order (R374). -/
def State.resend (s : State) : State :=
  { s with dx := s.dx.map fun e => (e.1, e.2.map fun m =>
      if s.reach (s.srcDie (e.1 / 8)) (dieOfPa (m.line * 64)) then { m with nak := false } else m) }

/-- Both links of a die are down. -/
def State.cutOff (s : State) (die : Nat) : Bool := (s.die die).port0.st == .down && (s.die die).port1.st == .down

/-- Tells firmware of a die that has just lost its last link. -/
def State.tellCutOff (s : State) (old : State) (die : Nat) : State :=
  if s.cutOff die && !old.cutOff die then { s with mailbox := s.mailbox ++ [.linksDown die] } else s

/-- A link goes down at both ends and is counted there, the packets that wait for it are returned, firmware hears of a die
with no link left, and a MIGRATE whose target can no longer be reached faults. -/
def State.failLink (s : State) (p : Nat) : State :=
  let t := (s.nakPaths p).modLink p fun x => { x with st := .down, waking := none, since := s.ck }
  let t := [ringDie p, ringDie (p + 1)].foldl (fun t d =>
    (t.modDie d fun x => { x with lnkDown := x.lnkDown + 1 }).tellCutOff s d) t
  t.landingCheck

/-- LINK_FAILURE (R373, R375). -/
def execLinkFailure (die port : Nat) (s : State) : Host.Outcome State Fault Refusal :=
  let p := linkOf die port
  .next (if die ≥ 4 || port ≥ 2 || !s.linkUp p then s else s.failLink p)

/-- LINK_PROBE_REPLY (R374): by the other route the far end says what it has accepted; the rest is sent again in order, and
its paths go on. -/
def execLinkProbeReply (die port : Nat) (s : State) : Host.Outcome State Fault Refusal :=
  let p := linkOf die port
  if die ≥ 4 || port ≥ 2 || s.linkUp p || !s.reach (ringDie p) (ringDie (p + 1)) then .next s
  else .next s.resend

/-! ### Power states (R376) -/

/-- The ck since which a link has been in its state. -/
def State.linkSince (s : State) (p : Nat) : Nat := max (s.linkEnds p).1.since (s.linkEnds p).2.since

/-- The last ck at which a packet needed a link. -/
def State.linkUsed (s : State) (p : Nat) : Nat := max (s.linkEnds p).1.used (s.linkEnds p).2.used

/-- LINK_NARROW (R376): a full link, lightly used for its delay, is narrowed. -/
def execLinkNarrow (die port : Nat) (s : State) : Host.Outcome State Fault Refusal :=
  let p := linkOf die port
  let n := (s.die die).lnkIdle.toNat % 65536
  .next (if die < 4 && port < 2 && n != 0 && s.linkIn p .full && s.linkSince p + 16 * n ≤ s.ck then
    s.modLink p fun x => { x with st := .narrow, since := s.ck } else s)

/-- LINK_SLEEP (R376): a link that is awake, with nothing queued for it through its delay, sleeps. A queue that has emptied
since then has left the ck of its last packet. -/
def execLinkSleep (die port : Nat) (s : State) : Host.Outcome State Fault Refusal :=
  let p := linkOf die port
  let n := (s.die die).lnkIdle.toNat / 65536
  let awake := s.linkIn p .full || s.linkIn p .narrow
  let queued := s.dx.any fun e => e.2.any (s.crosses e.1 p)
  .next (if die < 4 && port < 2 && n != 0 && awake && !queued && max (s.linkSince p) (s.linkUsed p) + 16 * n ≤ s.ck then
    s.modLink p fun x => { x with st := .sleep, since := s.ck, waking := none } else s)

/-- The ck within which a link reaches full: 175 from narrow, 1,400 from sleep. -/
def Port.wakeBound (x : Port) : Nat := if x.st = .narrow then 175 else 1400

/-- Has a link that wakes missed its deadline? -/
def State.wakeLate (s : State) (p : Nat) : Bool :=
  [(s.linkEnds p).1, (s.linkEnds p).2].any fun x => x.waking.any fun t => decide (t + x.wakeBound < s.ck)

/-- LINK_FULL (R376): a narrow or sleeping link reaches full, on demand or after LWAKE; one that has missed its deadline is
down. -/
def execLinkFull (die port : Nat) (s : State) : Host.Outcome State Fault Refusal :=
  let p := linkOf die port
  .next (if die < 4 && port < 2 && s.linkUp p && !s.linkIn p .full then
    if s.wakeLate p then s.failLink p else s.modLink p fun x => { x with st := .full, since := s.ck, waking := none }
  else s)

/-- LNKRETRAIN (R374, R378): the down links of the ports named come up again, unless authentication holds one down (R392) or
its other die does not run; what had been returned for want of a route goes on. -/
def execLnkretrain (die : Nat) (ports : BitVec 2) (s : State) : Host.Outcome State Fault Refusal :=
  let up := fun (s : State) (port : Nat) =>
    let p := linkOf die port
    let e := s.linkEnds p
    let runs := fun (d : Nat) => (s.die d).boot == .running
    if ports.getLsbD port && !s.linkUp p && !e.1.held && !e.2.held && runs (ringDie p) && runs (ringDie (p + 1)) then
      (s.modLink p fun x => { x with st := .full, since := s.ck, waking := none }).resend
    else s
  .next (if die < 4 then up (up s 0) 1 else s)

end Sys2Proof.Machine
end

