-- ==== Sys2Proof/Machine/BootEvents.lean ====
section
/-! DEFINITION. Bring-up, identity and attestation: DIE_RESET with its boot sequence, microcode loads, reports and the key
exchange (R54, R126, R358, R388 to R397). -/

namespace Sys2Proof.Machine

open Sys2Proof

/-! ### Signed objects (R388, R389) -/

/-- Bytes 0 to 47 + LEN of a signed object: what its signature covers. -/
def objHead (o : SignedObj) : List Byte :=
  leBytes 4 o.kind ++ leBytes 4 o.version.toNat ++ leBytes 4 o.body.length ++ leBytes 4 0 ++ o.signer ++ o.body

/-- The digest of a whole signed object. -/
def objDigest (o : SignedObj) : List Byte := digest (objHead o ++ o.sig)

/-- FLOOR of a configuration record. -/
def cfgFloor (o : SignedObj) : Nat := leNat (o.body.take 4)

/-- The root public key in a configuration record. -/
def cfgRoot (o : SignedObj) : List Byte := (o.body.drop 4).take 1793

/-- The section of a die: helper data, identity public key and its certificate. -/
def cfgSection (o : SignedObj) (d : Nat) : List Byte := (o.body.drop (1797 + 4097 * d)).take 4097

/-- The identity public key of a die's section. -/
def cfgKey (o : SignedObj) (d : Nat) : List Byte := ((cfgSection o d).drop 1024).take 1793

/-- The certificate of a die's section. -/
def cfgCert (o : SignedObj) (d : Nat) : List Byte := (cfgSection o d).drop 2817

/-- Does an object have a signature of its 1,280 bytes that verifies under a key that it names? -/
def signedBy (o : SignedObj) (key : List Byte) : Bool :=
  o.sig.length == 1280 && o.signer == digest key && Config.falconVerify key (objHead o) o.sig

/-- Is a configuration record accepted: signed by the root key whose digest mask ROM holds, its VERSION at or above its own
FLOOR? -/
def cfgOk (o : SignedObj) : Bool :=
  o.kind == 2 && o.body.length == 18185 && digest (cfgRoot o) == Config.romDigest && signedBy o (cfgRoot o) &&
  decide (cfgFloor o ≤ o.version.toNat)

/-- The root key and the keys that it certifies in a record. -/
def trustedKeys (cfg : SignedObj) : List (List Byte) :=
  cfgRoot cfg :: ((List.range 4).filter fun d => Config.falconVerify (cfgRoot cfg) (cfgKey cfg d) (cfgCert cfg d)).map (cfgKey cfg)

/-- Is an object of a kind valid under an accepted record (R388)? -/
def objOk (cfg : SignedObj) (kind : Nat) (o : SignedObj) : Bool :=
  o.kind == kind && decide (cfgFloor cfg ≤ o.version.toNat) && (trustedKeys cfg).any (signedBy o)

/-- Extends a measurement (R395). -/
def extend (m d : List Byte) : List Byte := digest (m ++ d)

/-! ### Reset (R391 step 1) -/

/-- A launch has lost a warp or a block: firmware is to end it. -/
def Launch.lost (l : Launch) : Launch := if l.phase == .running then { l with phase := .faulted } else l

/-- Clears everything a die holds: its cores, slices, messages, caches and registers, its seed and private key (R390), and the
memory of its stacks. Its links fail (R373, R375). The blocks and warps on it are lost, and firmware is to end their launches. -/
def State.clearDie (s : State) (die : Nat) : State :=
  let s := [linkOf die 0, linkOf die 1].foldl (fun s p => if s.linkUp p then s.failLink p else s) s
  let gone := s.blocks.filter fun b => dieOfCore b.2.core == die
  let s := gone.foldl (fun s b => (s.clearBlock b.1 b.2).modLaunch b.2.launch Launch.lost) s
  let away := s.warps.filter fun w => dieOfWk w.1 == die
  let s := s.cancelLanding (away.map (·.2.uid))
  let s := away.foldl (fun s w => s.modLaunch w.2.launch Launch.lost) s
  let s := { s with
    blocks := s.blocks.filter fun b => dieOfCore b.2.core != die
    warps := s.warps.filter fun w => dieOfWk w.1 != die
    imgs := s.imgs.filter fun w => dieOfWk w.1 != die
    cores := s.cores.filter fun c => dieOfCore c.1 != die
    clusters := s.clusters.filter fun c => dieOfCluster c.1 != die
    dx := s.dx.filter fun e => s.srcDie (e.1 / 8) != die
    hbm := s.hbm.filter fun c => dieOfPa c.1 != die
    boot := if die = s.boot.leader then { s.boot with reports := [], mcload := none } else s.boot
    dies := KMap.set s.dies die { clk0 := s.ck } }
  let s := s.modLink (linkOf die 0) fun x => { x with st := .down, passed := false, held := false, waking := none }
  s.modLink (linkOf die 1) fun x => { x with st := .down, passed := false, held := false, waking := none }

/-! ### Links (R392) -/

/-- Has a die booted through step 5? -/
def State.booted (s : State) (d : Nat) : Bool := (s.die d).boot == .running || (s.die d).boot == .excluded

/-- Thirty-two random bytes. -/
def State.random32 (s : State) : State × List Byte :=
  ({ s with free := s.free + 4 }, (List.range 4).flatMap fun i => wordBytes (Config.freeBits (s.free + i)))

/-- Does a die's check of its neighbour's answer pass: a signature under the neighbour's private key over the message, that
verifies under the key in the neighbour's section of the checking die's record? -/
def State.answers (s : State) (by_ at_ : Nat) (msg : List Byte) : Bool :=
  match (s.die by_).privKey, (s.die at_).cfg with
  | some k, some cfg => Config.falconVerify (cfgKey cfg by_) msg (Config.falconSign k msg)
  | _, _ => false

/-- Two dies authenticate their link: each signs both challenges and its measurement, each checks the other's signature under
the key of its section, and the measurements must be equal. -/
def State.authLink (s : State) (p : Nat) : State :=
  let a := ringDie p
  let b := ringDie (p + 1)
  let (s, ca) := s.random32
  let (s, cb) := s.random32
  let msg := fun (d : Nat) => ca ++ cb ++ (s.die d).measBoot
  if s.answers a b (msg a) && s.answers b a (msg b) && (s.die a).measBoot == (s.die b).measBoot then
    (s.modLink p fun x => { x with st := .full, passed := true, held := false, since := s.ck }).resend
  else
    let s := s.modLink p fun x => { x with st := .down, passed := false, held := true }
    [a, b].foldl (fun s d => s.modDie d fun x => { x with lnkDown := x.lnkDown + 1 }) s

/-- Authenticates a die's link on a port, if it trained and the other die has booted. -/
def State.joinLink (s : State) (die port : Nat) (trained : BitVec 2) : State :=
  let p := linkOf die port
  let other := if port = 0 then ringDie (p + 1) else ringDie p
  if trained.getLsbD port && s.booted other then s.authLink p else s

/-! ### The leader and the present set (R393, R394) -/

/-- Did the link from a ring position to the next pass? -/
def State.linkPassed (s : State) (p : Nat) : Bool := (s.linkEnds p).1.passed && (s.linkEnds p).2.passed

/-- Has a die a link that passed? -/
def State.hasPassed (s : State) (d : Nat) : Bool := s.linkPassed (linkOf d 0) || s.linkPassed (linkOf d 1)

/-- The leader. -/
def State.electLeader (s : State) : Option Nat :=
  match (List.range 4).find? fun d => s.booted d && s.hasPassed d with
  | some d => some d
  | none => if s.booted 0 then some 0 else none

/-- The dies of a set and those that passing links join to them. -/
def State.spread (s : State) (l : List Nat) : List Nat :=
  (List.range 4).filter fun d =>
    l.contains d ||
    (s.linkPassed (linkOf d 0) && l.contains (ringDie (linkOf d 0 + 1))) ||
    (s.linkPassed (linkOf d 1) && l.contains (ringDie (linkOf d 1)))

/-- A link that passed is held down while one of its dies is excluded, and comes up again when both are in the set. -/
def State.holdLink (s : State) (set : List Nat) (p : Nat) : State :=
  if !s.linkPassed p then s
  else if set.contains (ringDie p) && set.contains (ringDie (p + 1)) then
    s.modLink p fun x => if x.held then { x with st := .full, held := false, since := s.ck } else x
  else s.modLink p fun x => { x with st := .down, held := true, waking := none }

/-- Booted dies are in the present set, or held in reset with their links down. -/
def State.holdDies (s : State) (set : List Nat) : State :=
  let s := (List.range 4).foldl (fun s d =>
    if !s.booted d then s
    else s.modDie d fun x => { x with boot := if set.contains d then .running else .excluded }) s
  (List.range 4).foldl (fun s p => s.holdLink set p) s

/-- Step 8 (R391): the leader's ownership table names firmware for every granule, and its own keys and the device's are drawn
(R398; log entry 125). -/
def State.buildTables (s : State) : State :=
  let own := s.boot.ownBase.toNat
  { s with
    hbm := s.hbm.filter fun c => c.1 < own || own + 196608 ≤ c.1
    nextUid := s.nextUid + 2
    boot := { s.boot with fwKey := s.nextUid, devKey := s.nextUid + 1 } }

/-- The leader is chosen and the present set built; every other die is excluded, a booted one held in reset with its links
down, PTOKCAP takes the number of present cores, and the leader's record is the device's. With no leader no die takes part. -/
def State.elect (s : State) : State :=
  match s.electLeader with
  | some l =>
    let set := s.spread (s.spread (s.spread [l]))
    let mask := set.foldl (fun m d => m ||| ((1 : BitVec 4) <<< d)) 0
    let cfg := (s.die l).cfg
    let s := { s with boot := { s.boot with
                        leader := l, present := mask, excluded := ~~~mask, up := true, cfg,
                        cfgVersion := (cfg.map SignedObj.version).getD 0, cfgFloor := BitVec.ofNat 32 ((cfg.map cfgFloor).getD 0) },
                      ptokCap := BitVec.ofNat 8 (56 * set.length) }
    (s.holdDies set).buildTables
  | none => { s with boot := { s.boot with up := false, present := 0 } }

/-! ### DIE_RESET (R391) -/

/-- What a die's identity key pair is generated from (R390). -/
def keySeed (seed : List Byte) : List Byte := shake256 64 (seed ++ [1])

/-- Steps 2 to 4 and 7: is every object of the image valid, and does the identity key agree with the die's section? -/
def bootOk (die : Nat) (img : BootImage) : Bool :=
  cfgOk img.cfg &&
  (match img.puf with
    | some seed => seed.length == 32 && Config.falconPublic (keySeed seed) == cfgKey img.cfg die
    | none => false) &&
  objOk img.cfg 1 img.firmware && objOk img.cfg 3 img.microcode

/-- What a die holds once it has booted through step 7. -/
def Die.boots (d : Die) (die : Nat) (img : BootImage) : Die :=
  let m := extend (extend (List.replicate 32 0) (objDigest img.cfg)) (objDigest img.firmware)
  { d with boot := .running, measBoot := m, meas := extend m (objDigest img.microcode), cfg := some img.cfg,
           seed := img.puf, privKey := img.puf.map fun x => Config.falconPrivate (keySeed x), pubKey := cfgKey img.cfg die }

/-- The present set after a die's boot: built again while no partition exists; later it stays as it is, and a die outside it is
held in reset (R393, R394). -/
def State.joinSet (s : State) : State := if s.parts.isEmpty then s.elect else s.holdDies s.presentDies

/-- DIE_RESET: a die starts from its reset state and boots; a die that fails a step halts with its links down. -/
def execDieReset (die : Nat) (img : BootImage) (s : State) : Host.Outcome State Fault Refusal :=
  if die ≥ 4 then .next s
  else
    let s := s.clearDie die
    if !bootOk die img then .next (s.modDie die fun d => { d with boot := .halted }).joinSet
    else
      let s := s.modDie die fun d => d.boots die img
      .next ((s.joinLink die 0 img.trained).joinLink die 1 img.trained).joinSet

/-! ### Microcode (R395) -/

/-- Does the leader die take part: the device has booted, and the leader runs? -/
def State.leaderRuns (s : State) : Bool := s.boot.up && (s.die s.boot.leader).boot == .running

/-- The signed object at a physical address (R388, Table 1): none where bytes 12 to 15 are not zero, or where it does not lie in
stacks that the leader reaches (log entry 124). -/
def State.objectAt (s : State) (pa : Nat) : Option SignedObj :=
  let word := fun (k : Nat) => leNat (s.physRead (pa + k) 4)
  let len := word 8
  let there := fun (a : Nat) => a < 2 ^ 39 && !s.stackExcluded a && s.reach s.boot.leader (dieOfPa a)
  if word 12 = 0 && there pa && there (pa + 1327 + len) then
    some { kind := word 0, version := BitVec.ofNat 32 (word 4), signer := s.physRead (pa + 16) 32,
           body := s.physRead (pa + 48) len, sig := s.physRead (pa + 48 + len) 1280 }
  else none

/-- MCLOAD: asks for a load of the signed microcode at an address; an object that is not valid under the leader's record is
never loaded. -/
def execMcload (addr : Nat) (s : State) : Host.Outcome State Fault Refusal :=
  match s.boot.cfg, s.objectAt addr with
  | some cfg, some obj =>
    .next (if s.leaderRuns && s.boot.mcload.isNone && objOk cfg 3 obj then { s with boot := { s.boot with mcload := some obj } } else s)
  | _, _ => .next s

/-- Is no cache entry pinned on any present die? -/
def State.nonePinned (s : State) : Bool := s.presentDies.all fun d => (s.die d).cache.all fun e => !s.pinned e

/-- MICROCODE_LOAD: once no entry is pinned, every present die that runs extends its measurement and empties its cache; launches
may start again. -/
def execMicrocodeLoad (s : State) : Host.Outcome State Fault Refusal :=
  match s.boot.mcload with
  | some obj =>
    if !s.nonePinned then .next s
    else
      let s := (s.presentDies.filter fun d => (s.die d).boot == .running).foldl (fun s d => s.modDie d fun x =>
        { x with meas := extend x.meas (objDigest obj), cache := [] }) s
      let s := { s with boot := { s.boot with mcload := none } }
      .next ((KMap.keys s.parts).foldl (fun s p => if (s.partD p).progress then s.pumpPart p else s) s)
  | none => .next s

/-! ### Reports (R396, R397) -/

/-- A list of exactly `n` bytes. -/
def fixLen (n : Nat) (l : List Byte) : List Byte := (l ++ List.replicate n 0).take n

/-- The cluster mask of a report: bit 8 + 14d + c for cluster c of die d, over the partition's number. -/
def partWord (part : Nat) (clusters : List Nat) : Nat := part % 256 + (clusters.map fun cl => 2 ^ (8 + cl)).sum

/-- Bytes 0 to 1,791 of the report of a partition with the n-th key pair. -/
def State.reportBody (s : State) (part n : Nat) (nonce : List Byte) : List Byte :=
  let p := s.partD part
  let b := s.boot
  leBytes 4 1 ++ leBytes 4 b.cfgVersion.toNat ++ leBytes 4 b.cfgFloor.toNat ++
  leBytes 4 (b.present.toNat + b.excluded.toNat * 16 + b.leader * 256) ++ nonce ++ fixLen 32 (s.die b.leader).meas ++
  ((List.range 4).flatMap fun d => if b.present.getLsbD d then digest (s.die d).pubKey else List.replicate 32 0) ++
  leBytes 8 (partWord part p.clusters) ++ leBytes 4 p.tdi ++ leBytes 4 0 ++ fixLen 1568 (Config.kemPublic n)

/-- ATTESTATION_REQUEST: the leader builds the report for a partition, with a fresh key pair, and signs it under its private
key, which it holds while it runs. -/
def execAttestationRequest (part : Nat) (nonce : List Byte) (s : State) : Host.Outcome State Fault Refusal :=
  match (s.die s.boot.leader).privKey with
  | some key =>
    if !s.leaderRuns || (s.part part).isNone || nonce.length ≠ 32 then .next s
    else
      let n := s.nextUid
      let body := s.reportBody part n nonce
      let bytes := body ++ fixLen 1280 (Config.falconSign key body)
      .next { s.newUid with boot := { s.boot with reports := s.boot.reports ++ [{ part, key := n, bytes }] } }
  | none => .next s

/-- KEY_ENCAPSULATION: the host's ciphertext for a report, named by its key pair, gives the IDE key and the wrapping key; a
report serves one exchange. -/
def execKeyEncapsulation (part : Nat) (ct : Encapsulation) (s : State) : Host.Outcome State Fault Refusal :=
  match s.boot.reports.find? fun r => r.part == part && r.key == ct.key with
  | some r =>
    if ct.text.length ≠ 1568 then .next s
    else
      let k := shake256 64 (Config.kemShared r.key ct.text ++ digest r.bytes)
      .next ({ s with boot := { s.boot with reports := s.boot.reports.filter fun x => x.key != r.key } }.modPart part fun p =>
        { p with sessionKey := k.take 32, wrapKey := k.drop 32 })
  | none => .next s

end Sys2Proof.Machine
end

