-- ==== Sys2Proof/Machine/CrossLane.lean ====
section
/-! DEFINITION. Cross-lane words and REP (R209 to R216). -/

namespace Sys2Proof.Machine

open Sys2Proof

/-! ### Elements of a warp (R212, R213) -/

/-- What each participating lane's sources hold, in ascending lane order. -/
abbrev LaneArgs := List (Nat × VArgs)

/-- The index that srcB gives at sub-element k: its low 8 bits, an immediate's own integer value (R212). -/
def crossIndex (i : VIns) (k : Nat) (b : Word) : Nat :=
  match i.b with
  | .imm n => wrapInt 8 (immInt n)
  | _ => elem i.sh.width k b % 256

/-- Sub-elements in a lane. -/
def subCount (i : VIns) : Nat := 64 / i.sh.width

/-- The lane and sub-element that an index names. -/
def crossElem (n e : Nat) : Nat × Nat := (e % (32 * n) / n, e % n)

/-- A sub-element as a result holds it: bits [7:6] of a T6 are zero (R87). -/
def resultElem (t : VTy) (x : Nat) : Nat := if t = .t6 then x % 64 else x

/-- A read of element (j, k) for a lane: the nearest participating lane at or below j, else the reader's identity. -/
def crossRead (t : VTy) (w : Nat) (l : LaneArgs) (e : Nat × Nat) (me : VArgs) : Nat :=
  resultElem t (match l.reverse.find? fun x => x.1 ≤ e.1 with
    | some x => elem w e.2 x.2.a
    | none => elem w e.2 me.c)

/-- A word whose sub-elements are given by their number. -/
def crossWord (w : Nat) (f : Nat → Nat) : Word := ofElems w ((List.range (64 / w)).map f)

/-- A cross-lane result with no flag and no draw. -/
def plain (l : Nat) (x : Word) : Nat × Word × Nat × Nat := (l, x, 0, 0)

/-- The body of a cross-lane word: sources read in every participating lane, then results written. With an s destination
the lowest participating lane's result is written; when no lane participates nothing is (R190, R214). -/
def crossBody (i : VIns) (f : State → Warp → LaneArgs → List (Nat × Word × Nat × Nat)) (s : State) (iss : Issue)
    (w : Warp) : Res :=
  if !w.codesOk (needs i) then illegal s
  else
    let part := lanesOf (w.partLanes iss i.g)
    (s.takeFifo iss w (popQueue i) (queueOf i.d) part).bind fun (s, els) =>
      let sp : VSpec := { need := [], ty := i.ty, fn := fun _ _ => (0, 0, 0) }
      let args := part.mapIdx fun k l =>
        let old := match i.d with
          | .v r => w.v r.toNat l
          | _ => Config.freeBits (s.free + k)
        (l, s.vArgs iss.wk w i sp l (els.getD k 0) old)
      let rs := f s w args
      let s := if i.d.isQ then { s with free := s.free + part.length } else s
      let w := w.putResults i.d rs
      let w := match i.d, rs with
        | .s r, x :: _ => w.setS r.toNat x.2.1
        | _, _ => w
      .ok (((s.setWarp iss.wk w).pushResults w.blk i.d (rs.map valueOf)).finish iss)

/-- XPULL: sub-element k reads the element that b.k names. -/
def xpullRes (i : VIns) (l : LaneArgs) : List (Nat × Word × Nat × Nat) :=
  l.map fun x => plain x.1 (crossWord i.sh.width fun k =>
    crossRead i.ty i.sh.width l (crossElem (subCount i) (crossIndex i k x.2.b)) x.2)

/-- XPULL (R214). -/
def execXpull (i : VIns) (s : State) : Host.Outcome State Fault Refusal :=
  runRaw s (.xpull i) (crossBody i fun _ _ l => xpullRes i l)

/-- What XPUSH puts in element (j, k): the push of the highest source lane, and within one lane the highest sub-element
(R215). -/
def pushedTo (i : VIns) (l : LaneArgs) (e : Nat × Nat) : Option Nat :=
  l.reverse.findSome? fun x =>
    ((List.range (subCount i)).reverse.find? fun k => crossElem (subCount i) (crossIndex i k x.2.b) == e).map fun k =>
      resultElem i.ty (elem i.sh.width k x.2.a)

/-- XPUSH: elements that no push names keep their values. -/
def xpushRes (i : VIns) (l : LaneArgs) : List (Nat × Word × Nat × Nat) :=
  l.map fun x => plain x.1 (crossWord i.sh.width fun k =>
    (pushedTo i l (x.1, k)).getD (elem i.sh.width k x.2.old))

/-- XPUSH (R214, R215). -/
def execXpush (i : VIns) (s : State) : Host.Outcome State Fault Refusal :=
  runRaw s (.xpush i) (crossBody i fun _ _ l => xpushRes i l)

/-- XSHUF: sub-element k reads element (L × n + k) XOR b. -/
def xshufRes (i : VIns) (l : LaneArgs) : List (Nat × Word × Nat × Nat) :=
  l.map fun x => plain x.1 (crossWord i.sh.width fun k =>
    crossRead i.ty i.sh.width l (crossElem (subCount i) ((x.1 * (subCount i) + k) ^^^ crossIndex i 0 x.2.b)) x.2)

/-- XSHUF (R214). -/
def execXshuf (i : VIns) (s : State) : Host.Outcome State Fault Refusal :=
  runRaw s (.xshuf i) (crossBody i fun _ _ l => xshufRes i l)

/-- XBCAST: every sub-element reads the element that b names. -/
def xbcastRes (i : VIns) (l : LaneArgs) : List (Nat × Word × Nat × Nat) :=
  l.map fun x => plain x.1 (crossWord i.sh.width fun _ =>
    crossRead i.ty i.sh.width l (crossElem (subCount i) (crossIndex i 0 x.2.b)) x.2)

/-- XBCAST (R214). -/
def execXbcast (i : VIns) (s : State) : Host.Outcome State Fault Refusal :=
  runRaw s (.xbcast i) (crossBody i fun _ _ l => xbcastRes i l)

/-! ### Folds (R216) -/

/-- One step of a fold: result and flags. -/
def foldStep (t : VTy) (op : Nat) (mode : Rnd) (sat : Bool) (u acc x : Nat) : Nat × Flags :=
  let w := t.width
  match op % 8 with
  | 0 =>
    if t.isInt then (intResult t sat (tyInt t acc + tyInt t x), {}) else fAdd (fmtOf t) mode u sat acc x
  | 1 => (if t.isInt then wrapInt w (min (tyInt t acc) (tyInt t x)) else (fmtOf t).pick false acc x, {})
  | 2 => (if t.isInt then wrapInt w (max (tyInt t acc) (tyInt t x)) else (fmtOf t).pick true acc x, {})
  | 3 => (acc &&& x, {})
  | 4 => (acc ||| x, {})
  | _ => (acc ^^^ x, {})

/-- The accumulator before and after each lane of a fold of sub-element k, with the step's flags. -/
def foldLanes (t : VTy) (op : Nat) (mode : Rnd) (sat : Bool) (u : Nat → Nat → Nat) (k acc : Nat) (l : LaneArgs) :
    List (Nat × Nat × Flags) :=
  match l with
  | [] => []
  | x :: r =>
    let (a, fl) := foldStep t op mode sat (if mode == .sr then u x.1 k else 0) acc (elem t.width k x.2.a)
    (acc, a, fl) :: foldLanes t op mode sat u k a r

/-- The draw of a lane for its k-th sub-element, counted from where its counter stands. -/
def State.laneDraw (s : State) (w : Warp) (lane k : Nat) : Nat := s.draw w lane ((w.thread lane).draw.toNat + k)

/-- Does a fold draw: a stochastic float add (R216)? -/
def foldDraws (i : VIns) (mode : Rnd) : Bool := mode == .sr && !i.ty.isInt && i.sub.toNat % 8 == 0

/-- The folds of every sub-element: for each, the list over lanes. -/
def folds (i : VIns) (s : State) (w : Warp) (l : LaneArgs) : List (List (Nat × Nat × Flags)) :=
  let id := (l.headD (0, { a := 0, b := 0, c := 0 })).2.c
  (List.range (subCount i)).map fun k =>
    foldLanes i.ty i.sub.toNat (modeI w i) i.sat (s.laneDraw w) k (elem i.sh.width k id) l

/-- The flags of a lane's steps over the sub-elements. -/
def foldFlags (fs : List (List (Nat × Nat × Flags))) (j : Nat) : Nat :=
  fs.foldl (fun m f => orBits m (f.getD j (0, 0, {})).2.2.bits) 0

/-- XRED: every lane receives the whole fold. -/
def xredRes (i : VIns) (s : State) (w : Warp) (l : LaneArgs) : List (Nat × Word × Nat × Nat) :=
  let fs := folds i s w l
  let all := ofElems i.sh.width (fs.map fun f => ((f.getLast?).getD (0, 0, {})).2.1)
  l.mapIdx fun j x => (x.1, all, foldFlags fs j, if foldDraws i (modeI w i) then (subCount i) else 0)

/-- XRED (R214, R216). -/
def execXred (i : VIns) (s : State) : Host.Outcome State Fault Refusal := runRaw s (.xred i) (crossBody i (xredRes i))

/-- XSCAN: each lane receives the fold up to it, or below it under `.ex`. -/
def xscanRes (i : VIns) (s : State) (w : Warp) (l : LaneArgs) : List (Nat × Word × Nat × Nat) :=
  let fs := folds i s w l
  let pick := fun (j : Nat) (f : List (Nat × Nat × Flags)) =>
    let e := f.getD j (0, 0, {})
    resultElem i.ty (if i.sub.toNat ≥ 8 then e.1 else e.2.1)
  l.mapIdx fun j x =>
    (x.1, ofElems i.sh.width (fs.map (pick j)), foldFlags fs j, if foldDraws i (modeI w i) then (subCount i) else 0)

/-- XSCAN (R214, R216). -/
def execXscan (i : VIns) (s : State) : Host.Outcome State Fault Refusal := runRaw s (.xscan i) (crossBody i (xscanRes i))

/-! ### Votes -/

/-- The participating lanes that meet a condition, as a word. -/
def laneBits (l : LaneArgs) (f : VArgs → Bool) : Word :=
  BitVec.ofNat 64 (maskOf ((l.filter fun x => f x.2).map Prod.fst)).toNat

/-- XBALLOT (R214). -/
def execXballot (i : VIns) (s : State) : Host.Outcome State Fault Refusal :=
  runRaw s (.xballot i) (crossBody i fun _ _ l => l.map fun x => plain x.1 (laneBits l fun y => y.a != 0))

/-- XMATCH (R214). -/
def execXmatch (i : VIns) (s : State) : Host.Outcome State Fault Refusal :=
  runRaw s (.xmatch i) (crossBody i fun _ _ l => l.map fun x => plain x.1 (laneBits l fun y => y.a == x.2.a))

/-- What XVOTE decides: `.all`, `.any` or `.uni`, over the participating lanes. -/
def voteHolds (op : Nat) (lanes m : LaneMask) : Bool :=
  match op with
  | 0 => lanes &&& ~~~m == 0
  | 1 => lanes &&& m != 0
  | _ => lanes &&& ~~~m == 0 || lanes &&& m == 0

/-- The effect of XVOTE. -/
def xvoteBody (i : VIns) (s : State) (iss : Issue) (w : Warp) : Res :=
  let lanes := w.partLanes iss i.g
  let m := if voteHolds i.sub.toNat lanes (w.predOf i.a) then BitVec.allOnes 32 else 0
  .ok ((s.setWarp iss.wk (w.putPred i.d lanes m)).finish iss)

/-- XVOTE (R214). -/
def execXvote (i : VIns) (s : State) : Host.Outcome State Fault Refusal := runRaw s (.xvote i) (xvoteBody i)

/-! ### REP (R209 to R211) -/

/-- The effect of REP: the active lanes stand at the next word with all its repeats to come. Its guard does not act: the
repeats are T's, under T's guard. -/
def repBody (i : IIns) (s : State) (iss : Issue) (w : Warp) : Res :=
  let t := (s.codeOf w.activeCode).getD (iss.pc.toNat + 1) 0
  if iss.last || !repLegal t i.imm then illegal s
  else
    let pos : Pos := { pc := iss.pc + 1, hdr := some iss.hdr, rep := repCount i.imm, repImm := i.imm }
    let w := ({ w with pend := none }.modLanes iss.lanes fun _ t => { t with pos })
    .ok (s.setWarp iss.wk w)

/-- REP (R209). -/
def execRep (i : IIns) (s : State) : Host.Outcome State Fault Refusal := runRaw s (.rep i) (repBody i)

end Sys2Proof.Machine
end

