-- ==== Sys2Proof/Machine/HostEvents.lean ====
section
/-! DEFINITION. The host and privileged software: BAR 2 accesses, the TDI of a function, and the privileged registers (R5,
R328, R352, R369, R378, R380, R387, R400, R401, R403). -/

namespace Sys2Proof.Machine

open Sys2Proof

/-! ### BAR 2 (R380) -/

/-- Translates every page of a host access on the leader die; none where a page fails a check or cannot be reached. -/
def State.barPages (s : State) (part acc va n : Nat) : State × Option (List (Nat × Nat × Attr)) :=
  (pagePieces (n / 4096 + 2) va n).foldl (fun (a : State × Option (List (Nat × Nat × Attr))) p =>
    match a.2 with
    | none => a
    | some l =>
      match a.1.translate a.1.boot.leader part p.1 0 acc with
      | (s, .ok at_) => (s, if s.reach s.boot.leader (dieOfPa at_.pa) then some (l ++ [(p.1, p.2, at_)]) else none)
      | (s, .error _) => (s, none)) (s, some [])

/-- The bytes a host read returns: served at the homes behind the path's earlier messages. -/
def State.barRead (s : State) (part : Nat) (l : List (Nat × Nat × Attr)) : State × List Byte :=
  l.foldl (fun (a : State × List Byte) p =>
    let s := a.1.deliverAll 60 (stackOfPa p.2.2.pa)
    let (s, bs) := s.homeBytes part p.2.2 p.2.1
    (s, a.2 ++ bs)) (s, [])

/-- The messages of a host write: they take the port's one path, in order (R130). -/
def State.barWrite (s : State) (part addr : Nat) (data : List Byte) (l : List (Nat × Nat × Attr)) : State :=
  l.foldl (fun t p => t.sendBytes 60 part p.1 p.2.2 ((data.drop (p.1 - addr)).take p.2.1)) s

/-- What an AtomicOp leaves of an operand's old bytes: the sum, the new bytes, or, where the old ones equal the first operand
of CAS, its second (log entry 126). -/
def barResult (op : BarOp) (data old : List Byte) : List Byte :=
  match op with
  | .read => old
  | .write => data
  | .fetchAdd => leBytes old.length (leNat old + leNat data)
  | .swap => data
  | .cas => if data.take old.length = old then data.drop old.length else old

/-- An AtomicOp is performed at the home, behind the path's earlier messages. -/
def State.barAtomic (s : State) (part n : Nat) (f : List Byte → List Byte) (l : List (Nat × Nat × Attr)) : State :=
  l.foldl (fun s p =>
    let s := s.deliverAll 60 (stackOfPa p.2.2.pa)
    let (s, old) := s.homeReadBytes part p.2.2 n
    let (m, d) := atLine p.2.2.pa (f old)
    s.homeWrite part p.2.2.pa p.2.2.cmp m d) s

/-- The bytes that a host access covers: of a CAS half of its operands. -/
def barSize (op : BarOp) (len : Nat) (data : List Byte) : Nat :=
  match op with
  | .read => len
  | .cas => data.length / 2
  | _ => data.length

/-- Is a request one that the port takes: an AtomicOp has operands of 4 or 8 bytes on their own boundary (R379)? -/
def barTaken (op : BarOp) (addr : Nat) (data : List Byte) : Bool :=
  match op with
  | .read => true
  | .write => true
  | .cas => (data.length == 8 || data.length == 16) && addr % (data.length / 2) == 0
  | _ => (data.length == 4 || data.length == 8) && addr % data.length == 0

/-- BAR2_ACCESS (R379, R380): refused unless the TDI is in RUN; an access that fails a check only counts in BARERR; writes and
AtomicOps need W. -/
def execBar2Access (part : Nat) (op : BarOp) (addr len : Nat) (data : List Byte) (s : State) :
    Host.Outcome State Fault Refusal :=
  if (s.partD part).tdi ≠ 2 || !barTaken op addr data then .next s
  else
    let n := barSize op len data
    match s.barPages part (if op = .read then 0 else 1) addr n with
    | (t, none) => .next (t.modRegs part fun r => { r with barErr := r.barErr + 1 })
    | (t, some l) =>
      .next (match op with
        | .read => (t.barRead part l).1
        | .write => t.barWrite part addr data l
        | _ => t.barAtomic part n (barResult op data) l)

/-! ### The TDI (R379, R380) -/

/-- The TDI enters ERROR, and its partition's launches end KILLED. -/
def State.tdiError (s : State) (part : Nat) : State :=
  let s := s.modPart part fun p => { p with tdi := 3 }
  ((s.launches.filter fun l => l.2.part == part).map (·.1)).foldl (fun s id => s.killLaunch id) s

/-- TDI_CONFIG_CHANGE: a change of the function's configuration in CONFIG_LOCKED or RUN. -/
def execTdiConfigChange (part : Nat) (s : State) : Host.Outcome State Fault Refusal :=
  let t := (s.partD part).tdi
  .next (if t = 1 ∨ t = 2 then s.tdiError part else s)

/-- IDE_INTEGRITY_FAIL: an IDE stream fails its integrity check. -/
def execIdeIntegrityFail (part : Nat) (s : State) : Host.Outcome State Fault Refusal :=
  .next (if (s.part part).isSome then s.tdiError part else s)

/-- IDE_KEY_CHANGE: the function's IDE keys are changed. -/
def execIdeKeyChange (part : Nat) (s : State) : Host.Outcome State Fault Refusal :=
  .next (if (s.part part).isSome then s.tdiError part else s)

/-- TDI_STATE_REQUEST: lock, start, or stop. -/
def execTdiStateRequest (part st : Nat) (s : State) : Host.Outcome State Fault Refusal :=
  let t := (s.partD part).tdi
  .next (if (st = 1 ∧ t = 0) ∨ (st = 2 ∧ t = 1) ∨ st = 0 then s.modPart part fun p => { p with tdi := st } else s)

/-! ### Privileged registers -/

/-- A value with the bits below `lo` and from `hi + 1` up cleared: reserved bits read zero (R5). -/
def regField (v : Word) (hi lo : Nat) : Nat := bits v.toNat hi lo * 2 ^ lo

/-- Bits [51:lo] of a value. -/
def addrField (v : Word) (lo : Nat) : BitVec 52 := BitVec.ofNat 52 (regField v 51 lo)

/-- A partition's registers after a write; one that is read only, or of a number with a step of its own, is unchanged
(R401). -/
def PartRegs.write (r : PartRegs) (reg : Nat) (v : Word) : PartRegs :=
  let n16 : BitVec 16 := BitVec.ofNat 16 v.toNat
  let n17 : BitVec 17 := BitVec.ofNat 17 v.toNat
  let n32 : BitVec 32 := BitVec.ofNat 32 v.toNat
  match reg with
  | 0x803 => { r with argPool := addrField v 12 }
  | 0x804 => { r with argPoolN := n16 }
  | 0x810 => { r with ptRoot := KMap.set r.ptRoot 0 (addrField v 12) }
  | 0x811 => { r with ptRoot := KMap.set r.ptRoot 1 (addrField v 12) }
  | 0x812 => { r with ptRoot := KMap.set r.ptRoot 2 (addrField v 12) }
  | 0x813 => { r with ptRoot := KMap.set r.ptRoot 3 (addrField v 12) }
  | 0x814 => { r with fqBase := addrField v 12 }
  | 0x815 => { r with fqSize := n17 }
  | 0x816 => { r with fqHead := n16 }
  | 0x819 => { r with invBase := addrField v 12 }
  | 0x81A => { r with invLen := v }
  | 0x81D => { r with frameBase := addrField v 0 }
  | 0x81E => { r with frameCnt := n16 }
  | 0x828 => { r with acThresh := n16 }
  | 0x829 => { r with hqBase := addrField v 0 }
  | 0x82A => { r with hqSize := n17 }
  | 0x82B => { r with hqHead := n16 }
  | 0x82D => { r with hqDrop := n32 }
  | 0x860 => { r with commBase := addrField v 6 }
  | 0x861 => { r with commCnt := n17 }
  | 0x862 => { r with stepBase := addrField v 5 }
  | 0x863 => { r with stepCnt := n16 }
  | 0x864 => { r with stepMiss := n32 }
  | 0x866 => { r with barErr := n32 }
  | _ => if 0x820 ≤ reg ∧ reg ≤ 0x827 then { r with mdBase := KMap.set r.mdBase (reg - 0x820) (addrField v 0) } else r

/-- A context's registers after a write. -/
def Ctx.write (c : Ctx) (reg : Nat) (v : Word) : Ctx :=
  match reg with
  | 0x830 => { c with tvbase := addrField v 9 }
  | 0x831 => { c with thimg := addrField v 0 }
  | _ => c

/-- Registers that firmware alone writes. -/
def firmwareOnly (reg : Nat) : Bool := reg == 0x800 || reg == 0x872

/-- REGISTER_WRITE (R401): writes the copy of a register that the selector names: the device's, a die's, a core's, a context's
or a partition's. A table named by STEPBASE or STEPCNT is loaded with its counts zero (R385). -/
def execRegisterWrite (sel : RegSel) (reg : Nat) (val : Word) (s : State) : Host.Outcome State Fault Refusal :=
  .next (if firmwareOnly reg && !sel.firmware then s
    else
      match reg with
      | 0x800 => { s with ptokCap := BitVec.ofNat 8 (min (val.toNat % 256) 224) }
      | 0x830 => s.modPart sel.part fun p => { p with ctxs := KMap.modify p.ctxs sel.ctx fun c => c.write reg val }
      | 0x831 => s.modPart sel.part fun p => { p with ctxs := KMap.modify p.ctxs sel.ctx fun c => c.write reg val }
      | 0x83C => s.modCore sel.core fun c => { c with overrun := KMap.set c.overrun c.ctxCur (val.toNat % 2 ^ 32) }
      | 0x851 => s.modDie sel.die fun d => { d with lnkIdle := BitVec.ofNat 32 val.toNat }
      | 0x872 => { s with boot := { s.boot with ownBase := addrField val 12 } }
      | _ =>
        let s := s.modRegs sel.part fun r => r.write reg val
        if reg = 0x862 ∨ reg = 0x863 then s.modPart sel.part fun p => { p with stepCounts := [] } else s)

/-- The code of a link state in LNKSTAT. -/
def LinkSt.code (l : LinkSt) : Nat :=
  match l with
  | .full => 0 | .narrow => 1 | .sleep => 2 | .down => 3

/-- FESTAT of a partition (R328). -/
def State.festat (s : State) (part : Nat) : Nat :=
  let r := (s.partD part).regs
  r.feRefused.toNat + r.feLoadBad.toNat * 2 ^ 8 + (s.tokenStarved part).toNat * 2 ^ 9 + r.feDropped.toNat * 2 ^ 10

/-- A partition's registers, read; write-only ones read zero (R401). -/
def PartRegs.read (r : PartRegs) (reg : Nat) : Nat :=
  match reg with
  | 0x803 => r.argPool.toNat
  | 0x804 => r.argPoolN.toNat
  | 0x810 => (KMap.getD r.ptRoot 0 (0 : BitVec 52)).toNat
  | 0x811 => (KMap.getD r.ptRoot 1 (0 : BitVec 52)).toNat
  | 0x812 => (KMap.getD r.ptRoot 2 (0 : BitVec 52)).toNat
  | 0x813 => (KMap.getD r.ptRoot 3 (0 : BitVec 52)).toNat
  | 0x814 => r.fqBase.toNat
  | 0x815 => r.fqSize.toNat
  | 0x816 => r.fqHead.toNat
  | 0x817 => r.fqTail.toNat
  | 0x81C => r.invDone.toNat
  | 0x81D => r.frameBase.toNat
  | 0x81E => r.frameCnt.toNat
  | 0x828 => r.acThresh.toNat
  | 0x829 => r.hqBase.toNat
  | 0x82A => r.hqSize.toNat
  | 0x82B => r.hqHead.toNat
  | 0x82C => r.hqTail.toNat
  | 0x82D => r.hqDrop.toNat
  | 0x860 => r.commBase.toNat
  | 0x861 => r.commCnt.toNat
  | 0x862 => r.stepBase.toNat
  | 0x863 => r.stepCnt.toNat
  | 0x864 => r.stepMiss.toNat
  | 0x866 => r.barErr.toNat
  | _ => if 0x820 ≤ reg ∧ reg ≤ 0x827 then (KMap.getD r.mdBase (reg - 0x820) (0 : BitVec 52)).toNat else 0

/-- What a privileged read of a register returns (R328, R352, R369, R378, R387, R400, R401). -/
def State.readPriv (s : State) (sel : RegSel) (reg : Nat) : Word :=
  let c := s.core sel.core
  let d := s.die sel.die
  let p := s.partD sel.part
  let x := KMap.getD p.ctxs sel.ctx {}
  BitVec.ofNat 64 (match reg with
    | 0x800 => s.ptokCap.toNat
    | 0x801 => s.tokensUsed
    | 0x802 => s.festat sel.part
    | 0x830 => x.tvbase.toNat
    | 0x831 => x.thimg.toNat
    | 0x838 => c.ctxCur
    | 0x83B => (c.draining && !c.drained).toNat + c.preloaded.toNat * 2 + c.spillDone.toNat * 4
    | 0x83C => KMap.getD c.overrun c.ctxCur 0
    | 0x83D => d.mxRst % 65536
    | 0x841 => p.swapDone.toNat + (p.swap == .halting).toNat * 2 + p.carve.toNat * 4
    | 0x850 => d.port0.st.code + d.port1.st.code * 4
    | 0x851 => d.lnkIdle.toNat
    | 0x852 => d.lnkDown % 65536
    | 0x865 => p.tdi
    | 0x870 =>
      s.boot.present.toNat + s.boot.excluded.toNat * 16 + s.boot.leader * 256 + (s.boot.excluded != 0).toNat * 1024
    | 0x871 => s.boot.cfgVersion.toNat + s.boot.cfgFloor.toNat * 2 ^ 32
    | 0x872 => s.boot.ownBase.toNat
    | _ => p.regs.read reg)

end Sys2Proof.Machine
end

