-- ==== Sys2Proof/Machine/Dispatch.lean ====
section
/-! DEFINITION. One arm for each constructor of Instr: a direct call of its meaning. -/

namespace Sys2Proof.Machine

open Sys2Proof

def exec (i : Instr) (s : State) : Host.Outcome State Fault Refusal :=
  match i with
  | .iadd x => Sys2Proof.Machine.execIadd x s
  | .isub x => Sys2Proof.Machine.execIsub x s
  | .imul x => Sys2Proof.Machine.execImul x s
  | .imulh x => Sys2Proof.Machine.execImulh x s
  | .imad x => Sys2Proof.Machine.execImad x s
  | .imin x => Sys2Proof.Machine.execImin x s
  | .imax x => Sys2Proof.Machine.execImax x s
  | .iabs x => Sys2Proof.Machine.execIabs x s
  | .isad x => Sys2Proof.Machine.execIsad x s
  | .icmp x => Sys2Proof.Machine.execIcmp x s
  | .dot4i x => Sys2Proof.Machine.execDot4i x s
  | .iand x => Sys2Proof.Machine.execIand x s
  | .ior x => Sys2Proof.Machine.execIor x s
  | .ixor x => Sys2Proof.Machine.execIxor x s
  | .iandn x => Sys2Proof.Machine.execIandn x s
  | .inot x => Sys2Proof.Machine.execInot x s
  | .shl x => Sys2Proof.Machine.execShl x s
  | .shr x => Sys2Proof.Machine.execShr x s
  | .sar x => Sys2Proof.Machine.execSar x s
  | .rot x => Sys2Proof.Machine.execRot x s
  | .bfe x => Sys2Proof.Machine.execBfe x s
  | .bfi x => Sys2Proof.Machine.execBfi x s
  | .popc x => Sys2Proof.Machine.execPopc x s
  | .clz x => Sys2Proof.Machine.execClz x s
  | .ctz x => Sys2Proof.Machine.execCtz x s
  | .brev x => Sys2Proof.Machine.execBrev x s
  | .permb x => Sys2Proof.Machine.execPermb x s
  | .lea x => Sys2Proof.Machine.execLea x s
  | .mov x => Sys2Proof.Machine.execMov x s
  | .movU x => Sys2Proof.Machine.execMovU x s
  | .sel x => Sys2Proof.Machine.execSel x s
  | .movi x => Sys2Proof.Machine.execMovi x s
  | .iaddImm x => Sys2Proof.Machine.execIaddImm x s
  | .imulImm x => Sys2Proof.Machine.execImulImm x s
  | .andImm x => Sys2Proof.Machine.execAndImm x s
  | .orImm x => Sys2Proof.Machine.execOrImm x s
  | .xorImm x => Sys2Proof.Machine.execXorImm x s
  | .moviHi x => Sys2Proof.Machine.execMoviHi x s
  | .moviX2 x => Sys2Proof.Machine.execMoviX2 x s
  | .fadd x => Sys2Proof.Machine.execFadd x s
  | .fmul x => Sys2Proof.Machine.execFmul x s
  | .ffma x => Sys2Proof.Machine.execFfma x s
  | .fmin x => Sys2Proof.Machine.execFmin x s
  | .fmax x => Sys2Proof.Machine.execFmax x s
  | .fabs x => Sys2Proof.Machine.execFabs x s
  | .fneg x => Sys2Proof.Machine.execFneg x s
  | .fcmp x => Sys2Proof.Machine.execFcmp x s
  | .fclass x => Sys2Proof.Machine.execFclass x s
  | .frnd x => Sys2Proof.Machine.execFrnd x s
  | .fscale x => Sys2Proof.Machine.execFscale x s
  | .fdot2 x => Sys2Proof.Machine.execFdot2 x s
  | .cvt x => Sys2Proof.Machine.execCvt x s
  | .pack x => Sys2Proof.Machine.execPack x s
  | .unpack x => Sys2Proof.Machine.execUnpack x s
  | .qnt x => Sys2Proof.Machine.execQnt x s
  | .dqnt x => Sys2Proof.Machine.execDqnt x s
  | .rcp x => Sys2Proof.Machine.execRcp x s
  | .rsq x => Sys2Proof.Machine.execRsq x s
  | .sqrt x => Sys2Proof.Machine.execSqrt x s
  | .exp2 x => Sys2Proof.Machine.execExp2 x s
  | .log2 x => Sys2Proof.Machine.execLog2 x s
  | .sin x => Sys2Proof.Machine.execSin x s
  | .cos x => Sys2Proof.Machine.execCos x s
  | .tanh x => Sys2Proof.Machine.execTanh x s
  | .sigm x => Sys2Proof.Machine.execSigm x s
  | .pset x => Sys2Proof.Machine.execPset x s
  | .plop x => Sys2Proof.Machine.execPlop x s
  | .xpull x => Sys2Proof.Machine.execXpull x s
  | .xpush x => Sys2Proof.Machine.execXpush x s
  | .xshuf x => Sys2Proof.Machine.execXshuf x s
  | .xbcast x => Sys2Proof.Machine.execXbcast x s
  | .xred x => Sys2Proof.Machine.execXred x s
  | .xscan x => Sys2Proof.Machine.execXscan x s
  | .xballot x => Sys2Proof.Machine.execXballot x s
  | .xmatch x => Sys2Proof.Machine.execXmatch x s
  | .xvote x => Sys2Proof.Machine.execXvote x s
  | .rep x => Sys2Proof.Machine.execRep x s
  | .ld x => Sys2Proof.Machine.execLd x s
  | .st x => Sys2Proof.Machine.execSt x s
  | .ldu x => Sys2Proof.Machine.execLdu x s
  | .atom x => Sys2Proof.Machine.execAtom x s
  | .red x => Sys2Proof.Machine.execRed x s
  | .atom64b x => Sys2Proof.Machine.execAtom64b x s
  | .bind x => Sys2Proof.Machine.execBind x s
  | .unbind x => Sys2Proof.Machine.execUnbind x s
  | .acq x => Sys2Proof.Machine.execAcq x s
  | .rel x => Sys2Proof.Machine.execRel x s
  | .fence x => Sys2Proof.Machine.execFence x s
  | .prefetch x => Sys2Proof.Machine.execPrefetch x s
  | .bra x => Sys2Proof.Machine.execBra x s
  | .brx x => Sys2Proof.Machine.execBrx x s
  | .call x => Sys2Proof.Machine.execCall x s
  | .ret x => Sys2Proof.Machine.execRet x s
  | .loop x => Sys2Proof.Machine.execLoop x s
  | .loopx x => Sys2Proof.Machine.execLoopx x s
  | .exit x => Sys2Proof.Machine.execExit x s
  | .nop x => Sys2Proof.Machine.execNop x s
  | .yield x => Sys2Proof.Machine.execYield x s
  | .elect x => Sys2Proof.Machine.execElect x s
  | .spawn x => Sys2Proof.Machine.execSpawn x s
  | .spawnfl x => Sys2Proof.Machine.execSpawnfl x s
  | .join x => Sys2Proof.Machine.execJoin x s
  | .emit x => Sys2Proof.Machine.execEmit x s
  | .migrate x => Sys2Proof.Machine.execMigrate x s
  | .lwake x => Sys2Proof.Machine.execLwake x s
  | .bararv x => Sys2Proof.Machine.execBararv x s
  | .barwt x => Sys2Proof.Machine.execBarwt x s
  | .barsync x => Sys2Proof.Machine.execBarsync x s
  | .waitaddr x => Sys2Proof.Machine.execWaitaddr x s
  | .qpush x => Sys2Proof.Machine.execQpush x s
  | .qpop x => Sys2Proof.Machine.execQpop x s
  | .qpeek x => Sys2Proof.Machine.execQpeek x s
  | .qcount x => Sys2Proof.Machine.execQcount x s
  | .mldw x => Sys2Proof.Machine.execMldw x s
  | .mma x => Sys2Proof.Machine.execMma x s
  | .mmas x => Sys2Proof.Machine.execMmas x s
  | .mmag x => Sys2Proof.Machine.execMmag x s
  | .mzero x => Sys2Proof.Machine.execMzero x s
  | .mrd x => Sys2Proof.Machine.execMrd x s
  | .mwr x => Sys2Proof.Machine.execMwr x s
  | .txbegin x => Sys2Proof.Machine.execTxbegin x s
  | .txcommit x => Sys2Proof.Machine.execTxcommit x s
  | .txabort x => Sys2Proof.Machine.execTxabort x s
  | .txstat x => Sys2Proof.Machine.execTxstat x s
  | .monset x => Sys2Proof.Machine.execMonset x s
  | .monrd x => Sys2Proof.Machine.execMonrd x s
  | .hmake x => Sys2Proof.Machine.execHmake x s
  | .hset x => Sys2Proof.Machine.execHset x s
  | .cpy x => Sys2Proof.Machine.execCpy x s
  | .coll x => Sys2Proof.Machine.execColl x s
  | .tfence x => Sys2Proof.Machine.execTfence x s
  | .trap x => Sys2Proof.Machine.execTrap x s
  | .tret x => Sys2Proof.Machine.execTret x s
  | .rdsr x => Sys2Proof.Machine.execRdsr x s
  | .wrsr x => Sys2Proof.Machine.execWrsr x s
  | .clock x => Sys2Proof.Machine.execClock x s
  | .sleep x => Sys2Proof.Machine.execSleep x s
  | .qpPkw x => Sys2Proof.Machine.execQpPkw x s
  | .qpLdi x => Sys2Proof.Machine.execQpLdi x s
  | .qpShli x => Sys2Proof.Machine.execQpShli x s
  | .qpAdd x => Sys2Proof.Machine.execQpAdd x s
  | .qpAnd x => Sys2Proof.Machine.execQpAnd x s
  | .qpOr x => Sys2Proof.Machine.execQpOr x s
  | .qpRdw x => Sys2Proof.Machine.execQpRdw x s
  | .qpWrw x => Sys2Proof.Machine.execQpWrw x s
  | .qpJz x => Sys2Proof.Machine.execQpJz x s
  | .qpRept x => Sys2Proof.Machine.execQpRept x s
  | .qpLaunch x => Sys2Proof.Machine.execQpLaunch x s
  | .qpGraph x => Sys2Proof.Machine.execQpGraph x s
  | .qpOrder x => Sys2Proof.Machine.execQpOrder x s
  | .qpEnd x => Sys2Proof.Machine.execQpEnd x s
  | .storeDrain wk x => Sys2Proof.Machine.execStoreDrain wk x s
  | .sliceFill cl part va => Sys2Proof.Machine.execSliceFill cl part va s
  | .sliceWriteBack cl line => Sys2Proof.Machine.execSliceWriteBack cl line s
  | .sliceEvict cl line => Sys2Proof.Machine.execSliceEvict cl line s
  | .crossbarDeliver src home => Sys2Proof.Machine.execCrossbarDeliver src home s
  | .hostAcknowledge dest => Sys2Proof.Machine.execHostAcknowledge dest s
  | .f64SecondHalf wk => Sys2Proof.Machine.execF64SecondHalf wk s
  | .warpStart wk => Sys2Proof.Machine.execWarpStart wk s
  | .warpUnblock wk => Sys2Proof.Machine.execWarpUnblock wk s
  | .warpRetire wk => Sys2Proof.Machine.execWarpRetire wk s
  | .warpPark wk => Sys2Proof.Machine.execWarpPark wk s
  | .warpUnpark part frame => Sys2Proof.Machine.execWarpUnpark part frame s
  | .frameSave wk => Sys2Proof.Machine.execFrameSave wk s
  | .waitaddrPoll wk => Sys2Proof.Machine.execWaitaddrPoll wk s
  | .joinPoll wk => Sys2Proof.Machine.execJoinPoll wk s
  | .sleepExpire wk => Sys2Proof.Machine.execSleepExpire wk s
  | .gatherTimeout core => Sys2Proof.Machine.execGatherTimeout core s
  | .childWarpPlace core x => Sys2Proof.Machine.execChildWarpPlace core x s
  | .spawnSpillRefill core => Sys2Proof.Machine.execSpawnSpillRefill core s
  | .orderedCommitProceed blk => Sys2Proof.Machine.execOrderedCommitProceed blk s
  | .orderedCommitSkip blk => Sys2Proof.Machine.execOrderedCommitSkip blk s
  | .commitRecordRelease blk => Sys2Proof.Machine.execCommitRecordRelease blk s
  | .deltaMerge blk => Sys2Proof.Machine.execDeltaMerge blk s
  | .matrixRetire core => Sys2Proof.Machine.execMatrixRetire core s
  | .matrixOperandFault core => Sys2Proof.Machine.execMatrixOperandFault core s
  | .matrixWatchdog core => Sys2Proof.Machine.execMatrixWatchdog core s
  | .matrixResetDone core => Sys2Proof.Machine.execMatrixResetDone core s
  | .mxresetTake wk => Sys2Proof.Machine.execMxresetTake wk s
  | .tilewalkComplete cl id => Sys2Proof.Machine.execTilewalkComplete cl id s
  | .engineSegmentFault eng place id row off dst => Sys2Proof.Machine.execEngineSegmentFault eng place id row off dst s
  | .permitReturn cl id row off len => Sys2Proof.Machine.execPermitReturn cl id row off len s
  | .collectiveComplete die id peers => Sys2Proof.Machine.execCollectiveComplete die id peers s
  | .faultEventPost die part => Sys2Proof.Machine.execFaultEventPost die part s
  | .priResponse part page success => Sys2Proof.Machine.execPriResponse part page success s
  | .atsInvalidate part base len => Sys2Proof.Machine.execAtsInvalidate part base len s
  | .fresolveRetry part tag => Sys2Proof.Machine.execFresolveRetry part tag s
  | .fresolveDeliver part tag => Sys2Proof.Machine.execFresolveDeliver part tag s
  | .invgo part => Sys2Proof.Machine.execInvgo part s
  | .invalidationComplete part => Sys2Proof.Machine.execInvalidationComplete part s
  | .doorbell part q => Sys2Proof.Machine.execDoorbell part q s
  | .commandPacket part q => Sys2Proof.Machine.execCommandPacket part q s
  | .queueResume part q => Sys2Proof.Machine.execQueueResume part q s
  | .queueProgramLoad part q ctx prog wins ringBase ringLen => Sys2Proof.Machine.execQueueProgramLoad part q ctx prog wins ringBase ringLen s
  | .graphTableLoad part place base => Sys2Proof.Machine.execGraphTableLoad part place base s
  | .evaluationComplete launch => Sys2Proof.Machine.execEvaluationComplete launch s
  | .blockPlace part => Sys2Proof.Machine.execBlockPlace part s
  | .launchComplete launch => Sys2Proof.Machine.execLaunchComplete launch s
  | .ctxnext core ctx => Sys2Proof.Machine.execCtxnext core ctx s
  | .preloadDone core => Sys2Proof.Machine.execPreloadDone core s
  | .ctxstop core => Sys2Proof.Machine.execCtxstop core s
  | .drainDone core => Sys2Proof.Machine.execDrainDone core s
  | .bankExchangeDone core => Sys2Proof.Machine.execBankExchangeDone core s
  | .spillDone core => Sys2Proof.Machine.execSpillDone core s
  | .pswapOut part => Sys2Proof.Machine.execPswapOut part s
  | .pswapIn part => Sys2Proof.Machine.execPswapIn part s
  | .swapHaltDone part => Sys2Proof.Machine.execSwapHaltDone part s
  | .swapCopyDone part => Sys2Proof.Machine.execSwapCopyDone part s
  | .linkFailure die port => Sys2Proof.Machine.execLinkFailure die port s
  | .linkProbeReply die port => Sys2Proof.Machine.execLinkProbeReply die port s
  | .linkNarrow die port => Sys2Proof.Machine.execLinkNarrow die port s
  | .linkSleep die port => Sys2Proof.Machine.execLinkSleep die port s
  | .linkFull die port => Sys2Proof.Machine.execLinkFull die port s
  | .lnkretrain die ports => Sys2Proof.Machine.execLnkretrain die ports s
  | .landingRequest die => Sys2Proof.Machine.execLandingRequest die s
  | .landingGrant die => Sys2Proof.Machine.execLandingGrant die s
  | .landingShip wk => Sys2Proof.Machine.execLandingShip wk s
  | .landingAck wk => Sys2Proof.Machine.execLandingAck wk s
  | .dieReset die img => Sys2Proof.Machine.execDieReset die img s
  | .mcload addr => Sys2Proof.Machine.execMcload addr s
  | .microcodeLoad => Sys2Proof.Machine.execMicrocodeLoad s
  | .attestationRequest part nonce => Sys2Proof.Machine.execAttestationRequest part nonce s
  | .keyEncapsulation part ct => Sys2Proof.Machine.execKeyEncapsulation part ct s
  | .bar2Access part op addr len data => Sys2Proof.Machine.execBar2Access part op addr len data s
  | .tdiConfigChange part => Sys2Proof.Machine.execTdiConfigChange part s
  | .ideIntegrityFail part => Sys2Proof.Machine.execIdeIntegrityFail part s
  | .ideKeyChange part => Sys2Proof.Machine.execIdeKeyChange part s
  | .registerWrite sel reg val => Sys2Proof.Machine.execRegisterWrite sel reg val s
  | .illegalInstruction => Sys2Proof.Machine.execIllegalInstruction s
  | .instructionFetchFault => Sys2Proof.Machine.execInstructionFetchFault s
  | .launchKill launch => Sys2Proof.Machine.execLaunchKill launch s
  | .graphTableUnload part place => Sys2Proof.Machine.execGraphTableUnload part place s
  | .tdiStateRequest part st => Sys2Proof.Machine.execTdiStateRequest part st s
  | .partitionCreate part vf given => Sys2Proof.Machine.execPartitionCreate part vf given s
  | .contextCreate part ctx drain slice => Sys2Proof.Machine.execContextCreate part ctx drain slice s

end Sys2Proof.Machine
end

