-- ==== Sys2Proof/Machine/Step.lean ====
section
/-! DEFINITION. One step of the device: it takes the agenda's next choice, or else one from outside, and runs what the
choice names. -/

namespace Sys2Proof.Machine

open Sys2Proof

/-- Runs the words of a visit in order, each REP with the repeat that follows it, while the warp goes on. -/
def runVisits (vs : List Visit) (uid : Nat) (trap : Bool) (s : State) : Host.Outcome State Fault Refusal :=
  match vs with
  | [] => .next s
  | v :: r =>
    match exec v.word { s with cur := .warp v.iss } with
    | .next t =>
      match t.repFollow v with
      | some u =>
        match exec u.word { t with cur := .warp u.iss } with
        | .next t => if t.goesOn v.iss.wk uid trap then runVisits r uid trap t else .next t
        | o => o
      | none => if t.goesOn v.iss.wk uid trap then runVisits r uid trap t else .next t
    | o => o

/-- Acts on a choice: an issue visit, the next bytecode of a queue, or a device step. -/
def act (a : Act) (s : State) : Host.Outcome State Fault Refusal :=
  match a with
  | .issue wk =>
    let p := s.planVisit wk
    runVisits p.2 (((p.1.warp wk).map (·.uid)).getD 0) (((p.1.warp wk).map (·.inTrap)).getD false) p.1
  | .bytecode part q =>
    match s.nextBytecode part q with
    | some i => exec i { s with cur := .queue part q }
    | none => .next s
  | .event i => if i.isEvent && !visitOnly i then exec i s else .next s

/-- One step. -/
def step (s : State) : Host.Outcome State Fault Refusal :=
  let c := s.nextChoice
  match act c.2.act (c.1.pass c.2.dt) with
  | .next t => .next (t.settle s c.2.act)
  | o => o

/-- The state with an instruction, numbered as spec/opcode_table.json numbers its bits, where the next step takes it. -/
def State.withFetchWord (s : State) (nbits w : Nat) : State := s.placeFetch nbits w

end Sys2Proof.Machine
end

