-- ==== Sys2Proof/Safety.lean ====
section
/-! DEFINITION. The terms in which claims about the machine are stated: who issues a word, what a word leaves behind in
the warp that issued it, and what stays as it was. -/

namespace Sys2Proof.Machine.Claims

open Sys2Proof

/-- A run goes wrong only by a fault or a refusal of the model. -/
def goesOn (o : Host.Outcome State Fault Refusal) : Prop := ∃ t, o = .next t

/-! ### Before a word -/

/-- `iss` is the visit at work, `w` the warp that issues, and every lane of the visit has a runnable thread. -/
abbrev Issues (s : State) (iss : Issue) (w : Warp) : Prop :=
  s.cur = .warp iss ∧ s.warp iss.wk = some w ∧ iss.lanes ≠ 0 ∧ w.threads.length = 32 ∧
  ∀ l ∈ lanesOf iss.lanes, (w.thread l).runnable = true

/-- No operand of the word is a queue. -/
abbrev NoQueue (i : VIns) : Prop := i.d.isQ = false ∧ i.a.isQ = false ∧ i.b.isQ = false ∧ i.c.isQ = false

/-! ### After a word -/

/-- Every byte of HBM and of the host bus reads as before, and so do the blocks' own memories, the clusters' slices and
the bytes on their way. -/
abbrev MemorySame (s t : State) : Prop :=
  (∀ a, Memory.read t.hbm a = Memory.read s.hbm a) ∧ (∀ a, Memory.read t.bus a = Memory.read s.bus a) ∧
  (∀ b, (t.block b).map (fun x => (x.aMem, x.wMem, x.cMem, x.heldG, x.heldH, x.delta)) =
    (s.block b).map (fun x => (x.aMem, x.wMem, x.cMem, x.heldG, x.heldH, x.delta))) ∧
  t.clusters = s.clusters ∧ t.dx = s.dx ∧ t.fp = s.fp

/-- Nothing but the warp of the visit has changed, and that is `w'`. -/
abbrev OnlyWarp (s t : State) (iss : Issue) (w' : Warp) : Prop :=
  t = s.setWarp iss.wk w' ∧ MemorySame s t

/-- Where the threads stand after a word at which every active lane goes on: an active thread has moved to its next place
(`Thread.advance`), every other stands where it stood; lane L has used `n L` draws. Which group a thread belongs to may
change. -/
abbrev ThreadsWentOn (iss : Issue) (w w' : Warp) (n : Nat → Nat) : Prop :=
  w'.threads.length = 32 ∧
  ∀ l < 32,
    (w'.thread l) =
      { (if iss.lanes.getLsbD l then (w.thread l).advance iss else w.thread l) with
        st := (w'.thread l).st, draw := (w.thread l).draw + BitVec.ofNat 32 (n l) } ∧
    (w'.thread l).runnable = (w.thread l).runnable

/-- The threads after a word that moves each by a rule: which group a thread belongs to may change besides. -/
abbrev ThreadsMoved (w w' : Warp) (f : Nat → Thread → Thread) : Prop :=
  w'.threads.length = 32 ∧
  ∀ l < 32, w'.thread l = { f l (w.thread l) with st := (w'.thread l).st } ∧
    (w'.thread l).runnable = (f l (w.thread l)).runnable

/-- A thread sent to a PC by the word of the visit: a clause header stands there. At the next PC it takes the loop-end step
that any word takes (R159, R282). -/
def sentTo (iss : Issue) (pc : Pc) (t : Thread) : Thread :=
  if pc = iss.pc + 1 then ({ t with pos := { t.pos with rep := 0 } } : Thread).advance { iss with last := true }
  else { t with pos := { pc } }

/-- FCSR with the flags of the lanes of a mask set. -/
def flagged (fcsr : Word) (m : LaneMask) (fl : Nat → Nat) : Word :=
  (lanesOf m).foldl (fun f l => f ||| BitVec.ofNat 64 (fl l % 64)) fcsr

/-- A word in the vector pipe has written `x L` to vector register `d` of every lane L of `m`, set the flags `fl L` and
used `n L` draws; no other register, predicate, handle, status or trap register of any warp has changed. -/
abbrev WroteV (s t : State) (iss : Issue) (w : Warp) (d : BitVec 8) (m : LaneMask) (x : Nat → Word)
    (fl n : Nat → Nat) : Prop :=
  ∃ w', OnlyWarp s t iss w' ∧
    w' = { w with vreg := w'.vreg, threads := w'.threads, fcsr := w'.fcsr, pend := none } ∧
    (∀ r < 256, ∀ l < 32, w'.v r l = if r = d.toNat ∧ m.getLsbD l then x l else w.v r l) ∧
    w'.fcsr = flagged w.fcsr m fl ∧
    ThreadsWentOn iss w w' fun l => if m.getLsbD l then n l else 0

/-- A word on the scalar unit has written `x` to scalar register `d` if `on`, set the flags `fl` and used `n` draws of the
scalar counter; nothing else has changed. -/
abbrev WroteS (s t : State) (iss : Issue) (w : Warp) (d : BitVec 6) (on : Bool) (x : Word) (fl n : Nat) : Prop :=
  ∃ w', OnlyWarp s t iss w' ∧
    w' = { w with sreg := w'.sreg, threads := w'.threads, fcsr := w'.fcsr, sdraw := w'.sdraw, srep := w.repLeft iss,
                  pend := none } ∧
    (∀ r < 64, w'.s r = if r = d.toNat ∧ on then x else w.s r) ∧
    w'.fcsr = (if on then w.fcsr ||| BitVec.ofNat 64 (fl % 64) else w.fcsr) ∧
    w'.sdraw = (if on then w.sdraw + BitVec.ofNat 32 n else w.sdraw) ∧
    ThreadsWentOn iss w w' fun _ => 0

/-- What a word writes in the warp that issues it: vector registers by register and lane, scalar registers, predicates
by number and lane, handles; the flags it sets and the draws it uses in each lane. What it does not name keeps its value. -/
structure Writes where
  v : Nat → Nat → Option Word := fun _ _ => none
  s : Nat → Option Word := fun _ => none
  p : Nat → Nat → Option Bool := fun _ _ => none
  h : Nat → Option (BitVec 256) := fun _ => none
  fl : Nat → Nat := fun _ => 0
  n : Nat → Nat := fun _ => 0

/-- The registers of a warp after a word that writes what `x` says; predicate 0 stays all ones (R161, R207). -/
abbrev RegsAfter (w w' : Warp) (x : Writes) : Prop :=
  (∀ r < 256, ∀ l < 32, w'.v r l = (x.v r l).getD (w.v r l)) ∧
  (∀ r < 64, w'.s r = (x.s r).getD (w.s r)) ∧
  (∀ q < 8, ∀ l < 32, (w'.pred q).getLsbD l = if q = 0 then true else (x.p q l).getD ((w.pred q).getLsbD l)) ∧
  (∀ r < 16, w'.h r = (x.h r).getD (w.h r))

/-- The warp after a word that writes what `x` says and at which every active lane goes on. Every other part of the warp
is as it was: its status, trap registers, queues, stores and links. -/
abbrev WarpAfter (iss : Issue) (w w' : Warp) (x : Writes) : Prop :=
  w' = { w with vreg := w'.vreg, sreg := w'.sreg, preg := w'.preg, hreg := w'.hreg, threads := w'.threads,
                fcsr := w'.fcsr, pend := none } ∧
  RegsAfter w w' x ∧ w'.fcsr = flagged w.fcsr iss.lanes x.fl ∧ ThreadsWentOn iss w w' x.n

/-- The word has changed nothing but its warp, which is as `x` says. -/
abbrev Completes (s t : State) (iss : Issue) (w : Warp) (x : Writes) : Prop :=
  ∃ w', OnlyWarp s t iss w' ∧ WarpAfter iss w w' x

/-- The word has taken `k` elements from the queue `pop` of its block, appended `l` to the queue `push`, and otherwise
changed nothing but its warp, which is as `x` says. -/
abbrev CompletesOnQueues (s t : State) (iss : Issue) (w : Warp) (pop push : Option Nat) (k : Nat) (l : List Word)
    (x : Writes) : Prop :=
  ∃ w', t = { s with warps := t.warps, blocks := t.blocks, free := t.free } ∧
    (∀ j, t.warp j = if j = iss.wk then some w' else s.warp j) ∧
    WarpAfter iss w w' x ∧
    (∀ b ≠ w.blk, t.block b = s.block b) ∧
    ∀ b, s.block w.blk = some b → ∃ b', t.block w.blk = some b' ∧
      b' = { b with fifos := b'.fifos, q7 := b'.q7 } ∧
      ∀ q, b'.fifo q = (if pop = some q then (b.fifo q).drop k else b.fifo q) ++ (if push = some q then l else [])

/-- Vector register `d` of the lanes of `m`, or scalar register `d` with the value of the lowest of them. -/
def writeTo (d : Opnd) (m : LaneMask) (x : Nat → Word) : Writes :=
  { v := fun r l => match d with
      | .v k => if r = k.toNat ∧ m.getLsbD l then some (x l) else none
      | _ => none
    s := fun r => match d with
      | .s k => if r = k.toNat then (lanesOf m).head?.map x else none
      | _ => none }

/-- The queues a word names are ready: it names none, or it runs on its block's core and they have elements and room for
`n` lanes and no other warp waits before it. -/
abbrev QueuesReady (s : State) (iss : Issue) (w : Warp) (pop push : Option Nat) (n : Nat) : Prop :=
  (pop = none ∧ push = none) ∨ (s.atHome iss.wk w = true ∧ s.fifoOk iss.wk w pop push n = true)

/-- The element that a word's k-th participating lane takes from the queue it pops. -/
def taken (s : State) (w : Warp) (pop : Option Nat) (k : Nat) : Word :=
  match pop, s.block w.blk with
  | some q, some b => (b.fifo q).getD k 0
  | _, _ => 0

/-! ### What a word computes -/

/-- The result `y`, flags `fl` and number of draws `n` of one lane, related to its sources and its stream of draws. -/
abbrev LaneRel := (Nat → Nat) → VArgs → Word → Nat → Nat → Prop

/-- A V-format word with what it does in each lane: the registers it needs below N (R169) and the type at which it reads
its sources. -/
structure VClaim where
  ins : Instr
  need : List (Opnd × Nat)
  ty : VTy
  rel : LaneRel

/-- The sources of a lane, an FDOT2 pair's second registers among them. -/
def argsOf (s : State) (wk : Nat) (w : Warp) (i : VIns) (ty : VTy) (lane : Nat) (popped old : Word) : VArgs :=
  { a := s.src wk w ty i.a lane popped, b := s.src wk w ty i.b lane popped, c := s.src wk w ty i.c lane popped,
    a1 := s.src wk w ty (nextReg i.a) lane popped, b1 := s.src wk w ty (nextReg i.b) lane popped, old }

/-- A word that sets no flag and draws nothing. -/
def pure (r : VArgs → Word → Prop) : LaneRel := fun _ x y fl n => r x y ∧ fl = 0 ∧ n = 0

/-- Every sub-element of width `w` of the result stands in the relation to those of the sources. -/
def everyElem (w : Nat) (r : Nat → Nat → Nat → Nat → Prop) : LaneRel :=
  Claims.pure fun x y => ∀ k < 64 / w, r (elem w k x.a) (elem w k x.b) (elem w k x.c) (elem w k y)

end Sys2Proof.Machine.Claims
end

