-- ==== Sys2Proof/Certificates/Slice0/Obligations.lean ====
section
/-! DEFINITION. The statements about the 9440 that are to be proved. Each docstring names the rules it formalises. The
terms they are stated in stand in Sys2Proof/Safety.lean, and the relations between operands and results here. -/

namespace Sys2Proof.Machine.Claims

open Sys2Proof

/-! ## V-format words: what each computes -/

/-- The integer that a sub-element stands for at a type (R170, R194). -/
def valueAt (t : VTy) (a : Nat) : Int := if t.signed ∧ 2 ^ (t.width - 1) ≤ a then (a : Int) - 2 ^ t.width else a

/-- The smallest value of an integer type. -/
def lowest (t : VTy) : Int := if t.signed then -2 ^ (t.width - 1) else 0
/-- The largest value of an integer type. -/
def highest (t : VTy) : Int := if t.signed then 2 ^ (t.width - 1) - 1 else 2 ^ t.width - 1

/-- An exact result modulo 2^w, or first clamped to the type's range (R194). -/
def delivered (t : VTy) (sat : Bool) (x : Int) : Int :=
  (if sat then max (lowest t) (min (highest t) x) else x) % 2 ^ t.width

/-- A word whose sub-elements are an exact function of its sources' integers. -/
def intClaim (i : VIns) (ins : Instr) (f : Int → Int → Int → Int) : VClaim :=
  { ins, need := needs i, ty := i.ty,
    rel := everyElem i.sh.width fun a b c y =>
      (y : Int) = delivered i.ty i.sat (f (valueAt i.ty a) (valueAt i.ty b) (valueAt i.ty c)) }

/-- The comparison of a condition code (Table 16 of the encoding chapter). -/
def holds (c : Nat) (a b : Int) : Bool :=
  match c with
  | 0 => a = b | 1 => a ≠ b | 2 => a < b | 3 => a ≤ b | 4 => b < a | _ => b ≤ a

/-- Byte k of a number, as a signed or unsigned integer. -/
def byteVal (signed : Bool) (a k : Nat) : Int :=
  let b := a / 2 ^ (8 * k) % 256
  if signed ∧ 128 ≤ b then (b : Int) - 256 else b

/-- The integer arithmetic words (R194, Table 1). -/
def intClaims (i : VIns) (_ : Rnd) : List VClaim :=
  [intClaim i (.iadd i) fun a b _ => a + b,
   intClaim i (.isub i) fun a b _ => a - b,
   intClaim i (.imul i) fun a b _ => a * b,
   intClaim i (.imulh i) fun a b _ => a * b / 2 ^ i.ty.width,
   intClaim i (.imad i) fun a b c => a * b + c,
   intClaim i (.imin i) fun a b _ => if a ≤ b then a else b,
   intClaim i (.imax i) fun a b _ => if a ≤ b then b else a,
   intClaim i (.iabs i) fun a _ _ => |a|,
   intClaim i (.isad i) fun a b c => |a - b| + c,
   { ins := .icmp i, need := needs i, ty := i.ty,
     rel := everyElem i.sh.width fun a b _ y =>
       y = if holds i.sub.toNat (valueAt i.ty a) (valueAt i.ty b) then 2 ^ i.sh.width - 1 else 0 },
   { ins := .dot4i i, need := needs i, ty := i.ty,
     rel := everyElem i.sh.width fun a b c y =>
       (y : Int) = delivered i.ty i.sat (valueAt i.ty c +
         (byteVal i.ty.signed a 0 * byteVal i.ty.signed b 0 + byteVal i.ty.signed a 1 * byteVal i.ty.signed b 1 +
          byteVal i.ty.signed a 2 * byteVal i.ty.signed b 2 + byteVal i.ty.signed a 3 * byteVal i.ty.signed b 3)) }]

/-- A word whose result is given bit by bit, from the width, the bit's number and the sources. -/
def bitClaim (i : VIns) (ins : Instr) (f : Nat → Nat → Nat → Nat → Nat → Bool) : VClaim :=
  { ins, need := needs i, ty := i.ty,
    rel := everyElem i.sh.width fun a b c y => ∀ j < i.sh.width, y.testBit j = f i.sh.width j a b c }

/-- Position and length of the field that BFE and BFI take from a control operand, cut to the width (R195). -/
def fieldOf (w c : Nat) : Nat × Nat := (c % 256, if w ≤ c % 256 then 0 else min (c / 256 % 256) (w - c % 256))

/-- The logic, shift and bit-field words (R194, R195, Table 1). -/
def bitClaims (i : VIns) (_ : Rnd) : List VClaim :=
  [bitClaim i (.iand i) fun _ j a b _ => a.testBit j && b.testBit j,
   bitClaim i (.ior i) fun _ j a b _ => a.testBit j || b.testBit j,
   bitClaim i (.ixor i) fun _ j a b _ => a.testBit j != b.testBit j,
   bitClaim i (.iandn i) fun _ j a b _ => a.testBit j && !b.testBit j,
   bitClaim i (.inot i) fun _ j a _ _ => !a.testBit j,
   bitClaim i (.shl i) fun w j a b _ => decide (b % w ≤ j) && a.testBit (j - b % w),
   bitClaim i (.shr i) fun w j a b _ => decide (j + b % w < w) && a.testBit (j + b % w),
   bitClaim i (.sar i) fun w j a b _ => a.testBit (min (j + b % w) (w - 1)),
   bitClaim i (.rot i) fun w j a b _ => a.testBit ((j + (w - b % w)) % w),
   bitClaim i (.bfe i) fun w j a b _ =>
     let (pos, len) := fieldOf w b
     if j < len then a.testBit (pos + j) else i.ty.signed && decide (0 < len) && a.testBit (pos + len - 1),
   bitClaim i (.bfi i) fun w j a b c =>
     let (pos, len) := fieldOf w c
     if pos ≤ j ∧ j < pos + len then a.testBit (j - pos) else b.testBit j,
   bitClaim i (.brev i) fun w j a _ _ => a.testBit (w - 1 - j)]

/-- A word that copies, counts or selects. -/
def moveClaim (i : VIns) (ins : Instr) (rel : LaneRel) : VClaim := { ins, need := needs i, ty := i.ty, rel }

/-- PACK of a format (R203, Table 5). -/
def packs (f : Nat) (a b y : Word) : Prop :=
  if f = 0 ∨ f = 8 then ∀ k < 16, elem 4 k y = (if k < 8 then elem 8 k a else elem 8 (k - 8) b) % 16
  else if f = 1 ∨ f = 2 ∨ f = 6 then (∀ k < 8, elem 6 k y = elem 8 k a % 64) ∧ elem 16 3 y = 0
  else y = a

/-- UNPACK of a format and part (R203, Table 5). -/
def unpacks (f p : Nat) (a y : Word) : Prop :=
  if f = 0 then ∀ k < 8, elem 8 k y = elem 4 (8 * p + k) a
  else if f = 8 then ∀ k < 8, elem 8 k y = elem 4 (8 * p + k) a + (if 8 ≤ elem 4 (8 * p + k) a then 240 else 0)
  else if f = 1 ∨ f = 2 ∨ f = 6 then ∀ k < 8, elem 8 k y = elem 6 k a
  else y = a

/-- The counting, address, move and packing words (R194, R196, R197, R203). -/
def moveClaims (i : VIns) (_ : Rnd) : List VClaim :=
  [moveClaim i (.popc i) (everyElem i.sh.width fun a _ _ y =>
     y = ((Finset.range i.sh.width).filter fun j => a.testBit j = true).card),
   moveClaim i (.clz i) (everyElem i.sh.width fun a _ _ y =>
     y ≤ i.sh.width ∧ (∀ j, i.sh.width - y ≤ j → j < i.sh.width → a.testBit j = false) ∧
     (y < i.sh.width → a.testBit (i.sh.width - 1 - y) = true)),
   moveClaim i (.ctz i) (everyElem i.sh.width fun a _ _ y =>
     y ≤ i.sh.width ∧ (∀ j < y, a.testBit j = false) ∧ (y < i.sh.width → a.testBit y = true)),
   moveClaim i (.lea i) (everyElem i.sh.width fun a b c y =>
     y = (a + b * 2 ^ (c % i.sh.width)) % 2 ^ i.sh.width),
   moveClaim i (.mov i) (Claims.pure fun x y => y = x.a),
   moveClaim i (.sel i) (Claims.pure fun x y => y = if x.c = 0 then x.b else x.a),
   moveClaim i (.permb i) (Claims.pure fun x y =>
     ∀ k < 8, elem 8 k y = if elem 4 k x.c < 8 then elem 8 (elem 4 k x.c) x.a else elem 8 (elem 4 k x.c - 8) x.b),
   moveClaim i (.pack i) (Claims.pure fun x y => packs i.sub.toNat x.a x.b y),
   moveClaim i (.unpack i) (Claims.pure fun x y => unpacks i.sub.toNat (i.b.immNat.getD 0) x.a y)]

/-! ### Float words that round nothing -/

/-- The class of a value by its bits (R200, Table 4). -/
def classOf (f : Fmt) (a : Nat) : Nat :=
  let x := a % 2 ^ f.width
  let top := 2 ^ (f.width - 1)
  if f.isTapered then (if x = top then 1 else if x = 0 then 6 else if top < x then 3 else 8)
  else
    let neg := decide (top ≤ x)
    let mag := x % top
    if f.hasInf ∧ mag = f.maxCode + 1 then (if neg then 2 else 9)
    else if f.maxCode < mag then
      (if f = .e4m3 ∨ f = .e5m2 ∨ 2 ^ (f.mbits - 1) ≤ mag % 2 ^ f.mbits then 1 else 0)
    else if mag = 0 then (if neg then 5 else 6)
    else if mag < 2 ^ f.mbits then (if neg then 4 else 7)
    else (if neg then 3 else 8)

/-- A code with its sign cleared, or negated: by the sign bit, and for the tapered formats as a two's complement pattern
(Table 3). -/
def signed (f : Fmt) (negate : Bool) (a y : Nat) : Prop :=
  let x := a % 2 ^ f.width
  let top := 2 ^ (f.width - 1)
  if f.isTapered then
    (if x = 0 ∨ x = top ∨ (negate = false ∧ x < top) then y = x else y + x = 2 ^ f.width)
  else y % top = x % top ∧ y < 2 * top ∧ (if negate then (top ≤ y ↔ x < top) else y < top)

/-- FMIN to FCLASS: comparison by totalOrder, sign and class (R102, R198, R200). -/
def orderClaims (i : VIns) (_ : Rnd) : List VClaim :=
  let f := fmtOf i.ty
  let low := fun a => a % 2 ^ f.width
  [moveClaim i (.fmin i) (everyElem i.sh.width fun a b _ y =>
     (y = low a ∨ y = low b) ∧ f.key y ≤ f.key a ∧ f.key y ≤ f.key b),
   moveClaim i (.fmax i) (everyElem i.sh.width fun a b _ y =>
     (y = low a ∨ y = low b) ∧ f.key a ≤ f.key y ∧ f.key b ≤ f.key y),
   moveClaim i (.fabs i) (everyElem i.sh.width fun a _ _ y => signed f false a y),
   moveClaim i (.fneg i) (everyElem i.sh.width fun a _ _ y => signed f true a y),
   moveClaim i (.fcmp i) (everyElem i.sh.width fun a b _ y =>
     y = if holds i.sub.toNat (f.key a) (f.key b) then 2 ^ i.sh.width - 1 else 0),
   moveClaim i (.fclass i) (everyElem i.sh.width fun a b _ y =>
     y = if b.testBit (classOf f a) then 2 ^ i.sh.width - 1 else 0)]

/-! ### Float words that round -/

/-- The rational number of a finite value. -/
def ratOf (s : Bool) (m : Nat) (e : Int) : ℚ := (if s then -1 else 1) * m * (2 : ℚ) ^ e

/-- The value of a finite number as a rational; 0 for the others. -/
def numRat (x : Num) : ℚ :=
  match x with
  | .fin s m e => ratOf s m e
  | _ => 0

/-- The sign of a number that is not a NaN. -/
def numNeg (x : Num) : Bool :=
  match x with
  | .fin s _ _ => s
  | .inf s => s
  | _ => false

/-- The number one. -/
def one : Num := .fin false 1 0

/-- Zero times infinity. -/
def zeroTimesInf (p : Num × Num) : Bool :=
  !p.1.isNan && !p.2.isNan &&
  ((p.1.nonFinite && !p.2.nonFinite && decide (numRat p.2 = 0)) ||
   (p.2.nonFinite && !p.1.nonFinite && decide (numRat p.1 = 0)))

/-- Is a product infinite? -/
def infTerm (p : Num × Num) : Bool := p.1.nonFinite || p.2.nonFinite

/-- The sign of a product. -/
def termNeg (p : Num × Num) : Bool := numNeg p.1 != numNeg p.2

/-- A sum of products computed exactly and rounded once, with R94's sign of a zero sum and the invalid cases of R97 and
R100: the code and the flags it delivers. -/
def sumOfProducts (f : Fmt) (mode : Rnd) (u : Nat) (sat : Bool) (ts : List (Num × Num)) (y : Nat) (fl : Flags) : Prop :=
  if ts.any (fun p => p.1.isNan || p.2.isNan) then
    y = f.nanCode ∧
    fl = if ts.any (fun p => p.1.isSig || p.2.isSig || zeroTimesInf p) then .invalid else {}
  else if ts.any zeroTimesInf then y = f.nanCode ∧ fl = .invalid
  else if ts.any infTerm then
    (if (ts.filter infTerm).any termNeg ∧ (ts.filter infTerm).any (fun p => !termNeg p) then
      y = f.nanCode ∧ fl = .invalid
     else y = f.withSign ((ts.filter infTerm).any termNeg) (f.maxCode + 1) ∧ fl = {})
  else
    ∃ s m e, ratOf s m e = (ts.map fun p => numRat p.1 * numRat p.2).sum ∧
      (m = 0 → s = if ts.all termNeg then true else if ts.any termNeg then mode == .rdn else false) ∧
      y = (f.round mode u sat (.fin s m e)).1 ∧
      fl = if (f.round mode u sat (.fin s m e)).2.iv then .invalid else (f.round mode u sat (.fin s m e)).2

/-- A magnitude rounded to an integer by a mode (R94, R95). -/
def roundsTo (mode : Rnd) (u : Nat) (neg : Bool) (x : ℚ) (n : Nat) : Prop :=
  let k := ⌊x⌋₊
  let r := x - k
  n = k + if r = 0 then 0 else
    match mode with
    | .rtz => 0
    | .rup => if neg then 0 else 1
    | .rdn => if neg then 1 else 0
    | .rna => if 1 / 2 ≤ r then 1 else 0
    | .sr => if 65536 ≤ ⌊r * 65536⌋₊ + u then 1 else 0
    | _ => if 1 / 2 < r ∨ (r = 1 / 2 ∧ k % 2 = 1) then 1 else 0

/-- A word each of whose sub-elements is rounded: one draw for each under stochastic rounding, in ascending order, and the
flags of every sub-element together (R95, R192). -/
def everyRounded (w : Nat) (mode : Rnd) (r : Nat → Nat → VArgs → Nat → Flags → Prop) : LaneRel := fun u x y fl n =>
  n = (if mode = .sr then 64 / w else 0) ∧
  ∃ fs : Nat → Flags,
    (∀ k < 64 / w, r (if mode = .sr then u k else 0) k x (elem w k y) (fs k)) ∧
    ∀ b, fl.testBit b = true ↔ ∃ k < 64 / w, (fs k).bits.testBit b = true

/-- A sum of products in each sub-element. -/
def sumClaim (i : VIns) (mode : Rnd) (ins : Instr) (need : List (Opnd × Nat))
    (ts : (Word → Num) → VArgs → List (Num × Num)) : VClaim :=
  { ins, need, ty := i.ty,
    rel := everyRounded i.sh.width mode fun u k x y fl =>
      sumOfProducts (fmtOf i.ty) mode u i.sat (ts (fun v => (fmtOf i.ty).decode (elem i.sh.width k v)) x) y fl }

/-- FRND in each sub-element (Table 3). -/
def frndElem (f : Fmt) (mode : Rnd) (u a y : Nat) (fl : Flags) : Prop :=
  match f.decode a with
  | .nan k => y = f.nanCode ∧ fl = if k = .sig then .invalid else {}
  | .inf s => y = f.withSign s (f.maxCode + 1) ∧ fl = {}
  | .fin s m e =>
    ∃ n, roundsTo mode u s |ratOf s m e| n ∧ y = (f.round mode u false (.fin s n 0)).1 ∧
      fl = { nx := decide (|ratOf s m e| ≠ n) || (f.round mode u false (.fin s n 0)).2.nx }

/-- FSCALE in each sub-element: n beyond ±8192, which is past the range of every format, rounds as ±8192 does. -/
def fscaleElem (f : Fmt) (mode : Rnd) (u : Nat) (sat : Bool) (a : Nat) (n : Int) (y : Nat) (fl : Flags) : Prop :=
  match f.decode a with
  | .nan k => y = f.nanCode ∧ fl = if k = .sig then .invalid else {}
  | .inf s => y = f.withSign s (f.maxCode + 1) ∧ fl = {}
  | .fin s m e =>
    y = (f.round mode u sat (.fin s m (e + max (-8192) (min 8192 n)))).1 ∧
    fl = (f.round mode u sat (.fin s m (e + max (-8192) (min 8192 n)))).2

/-- FADD, FMUL, FFMA, FSCALE and FDOT2 (R100, R198, R199). -/
def sumClaims (i : VIns) (mode : Rnd) : List VClaim :=
  [sumClaim i mode (.fadd i) (needs i) fun v x => [(v x.a, one), (v x.b, one)],
   sumClaim i mode (.fmul i) (needs i) fun v x => [(v x.a, v x.b)],
   sumClaim i mode (.ffma i) (needs i) fun v x => [(v x.a, v x.b), (v x.c, one)],
   sumClaim i mode (.fdot2 i) [(i.d, 1), (i.a, 2), (i.b, 2), (i.c, 1)]
     fun v x => [(v x.a, v x.b), (v x.a1, v x.b1), (v x.c, one)],
   { ins := .fscale i, need := needs i, ty := i.ty,
     rel := everyRounded i.sh.width mode fun u k x y fl =>
       fscaleElem (fmtOf i.ty) mode u i.sat (elem i.sh.width k x.a)
         (let b := elem i.sh.width k x.b
          if 2 ^ (i.sh.width - 1) ≤ b then (b : Int) - 2 ^ i.sh.width else b) y fl }]

/-- FRND (R198). -/
def frndClaims (i : VIns) (mode : Rnd) : List VClaim :=
  [{ ins := .frnd i, need := needs i, ty := i.ty,
     rel := everyRounded i.sh.width mode fun u k x y fl => frndElem (fmtOf i.ty) mode u (elem i.sh.width k x.a) y fl }]

/-- The rounded words that issue in one visit in the vector pipe: all but the F64 sums (R22). -/
def roundClaims (i : VIns) (mode : Rnd) : List VClaim :=
  frndClaims i mode ++ if i.ty = .f64 then [] else sumClaims i mode

/-! ### Transcendental words -/

/-- A special result: the code and the flags, in the format. -/
abbrev Special := Fmt → Nat × Flags

/-- A number stands for an exact result that is known by what lies below it and above it: it is that result, or both lie
between the same two neighbouring multiples of a power of two, 150 bits and more below the result, where no rounding boundary
lies. -/
def standsFor (neg : Bool) (below above : ℚ → Prop) (x : Num) : Prop :=
  ∃ (q : Nat) (g : Int), 2 ^ 150 ≤ q ∧
    ((¬ below (ratOf false q g) ∧ ¬ above (ratOf false q g) ∧ x = .fin neg q g) ∨
     (below (ratOf false q g) ∧ above (ratOf false (q + 1) g) ∧ x = .fin neg (2 * q + 1) (g - 1)))

/-- What ties the number that is rounded to a function: from the sign and the magnitude of a finite operand that is not zero. -/
abbrev Ties := Bool → ℚ → Num → Prop

/-- The reciprocal. -/
def tiesRcp : Ties := fun s v x => standsFor s (fun c => c * v < 1) (fun c => 1 < c * v) x
/-- The square root. -/
def tiesSqrt : Ties := fun _ v x => standsFor false (fun c => c * c < v) (fun c => v < c * c) x
/-- The reciprocal of the square root. -/
def tiesRsq : Ties := fun _ v x => standsFor false (fun c => c * c * v < 1) (fun c => 1 < c * c * v) x

/-- 2^x: within the binade of the power of two below, and that power itself at an integer; beyond ±4096, which is past the range
of every format, as at ±4096. -/
def tiesExp2 : Ties := fun s v x =>
  let w := if s then -v else v
  (v < 4096 → (2 : ℚ) ^ ⌊w⌋ ≤ numRat x ∧ numRat x ≤ (2 : ℚ) ^ (⌊w⌋ + 1) ∧ ((⌊w⌋ : ℚ) = w → x = .fin false 1 ⌊w⌋)) ∧
  (4096 ≤ v → x = .fin false 1 (if s then -4096 else 4096))

/-- log2 x: between the exponent of x and the next integer, and the exponent itself at a power of two. -/
def tiesLog2 : Ties := fun _ v x =>
  ∃ k : Int, (2 : ℚ) ^ k ≤ v ∧ v < (2 : ℚ) ^ (k + 1) ∧ (k : ℚ) ≤ numRat x ∧ numRat x ≤ k + 1 ∧
    (v = (2 : ℚ) ^ k → x = numOfInt k)

/-- sin x: below 1 in magnitude; up to 1 between x − x³/6 and x, but for 2^-190. -/
def tiesSin : Ties := fun s v x =>
  let y := if s then -numRat x else numRat x
  |numRat x| < 1 ∧ (v ≤ 1 → v - v ^ 3 / 6 - (2 : ℚ) ^ (-190 : Int) ≤ y ∧ y ≤ v)

/-- cos x: below 1 in magnitude; up to 1 at least 1 − x²/2, but for 2^-190. -/
def tiesCos : Ties := fun _ v x => |numRat x| < 1 ∧ (v ≤ 1 → 1 - v ^ 2 / 2 - (2 : ℚ) ^ (-190 : Int) ≤ numRat x)

/-- tanh x: of the sign of x, and below 1. -/
def tiesTanh : Ties := fun s _ x => 0 < (if s then -numRat x else numRat x) ∧ |numRat x| < 1

/-- 1 ÷ (1 + e^−x): between 0 and 1, below 1/2 for a negative x and above it for a positive one. -/
def tiesSigm : Ties := fun s _ x => if s then 0 < numRat x ∧ numRat x < 1 / 2 else 1 / 2 < numRat x ∧ numRat x < 1

/-- What R101's table gives a function for ±∞ and ±0, for a negative finite operand and for 1; the rest is one rounding to
nearest even of a number that is tied to the function. -/
def transElem (f : Fmt) (a : Nat) (onInf onZero : Bool → Special) (onNeg onOne : Option Special) (ties : Ties) (y : Nat)
    (fl : Flags) : Prop :=
  let rounded := fun (s : Bool) (v : ℚ) => ∃ x, ties s v x ∧ (y, fl) = f.round .rne 0 false x
  match f.decode a with
  | .nan k => y = f.nanCode ∧ fl = if k = .sig then .invalid else {}
  | .inf s => (y, fl) = onInf s f
  | .fin s m e =>
    if m = 0 then (y, fl) = onZero s f
    else if s then
      match onNeg with
      | some r => (y, fl) = r f
      | none => rounded s (ratOf false m e)
    else rounded s (ratOf false m e) ∧ ∀ r, onOne = some r → ratOf false m e = 1 → (y, fl) = r f

/-- An infinity, with DZ or without. -/
def infCodeOf (s dz : Bool) : Special := fun f => (f.withSign s (f.maxCode + 1), { dz })
/-- A zero. -/
def zeroCode (s : Bool) : Special := fun f => (f.withSign s 0, {})
/-- The canonical NaN with IV. -/
def nanIv : Special := fun f => (f.nanCode, .invalid)
/-- The number 2^e, or its negative, exactly. -/
def powerCode (s : Bool) (e : Int) : Special := fun f => f.round .rne 0 false (.fin s 1 e)

/-- A transcendental word. -/
def transClaim (i : VIns) (ins : Instr) (onInf onZero : Bool → Special) (onNeg : Option Special) (ties : Ties)
    (onOne : Option Special := none) : VClaim :=
  { ins, need := needs i, ty := i.ty,
    rel := everyRounded i.sh.width .rne fun _ k x y fl =>
      transElem (fmtOf i.ty) (elem i.sh.width k x.a) onInf onZero onNeg onOne ties y fl }

/-- RCP to SIGM, with the special results of Table 11 (R101). -/
def transClaims (i : VIns) (_ : Rnd) : List VClaim :=
  [transClaim i (.rcp i) (fun s => zeroCode s) (fun s => infCodeOf s true) none tiesRcp,
   transClaim i (.rsq i) (fun s => if s then nanIv else zeroCode false) (fun s => infCodeOf s true) (some nanIv) tiesRsq,
   transClaim i (.sqrt i) (fun s => if s then nanIv else infCodeOf false false) (fun s => zeroCode s) (some nanIv) tiesSqrt,
   transClaim i (.exp2 i) (fun s => if s then zeroCode false else infCodeOf false false) (fun _ => powerCode false 0) none
     tiesExp2,
   transClaim i (.log2 i) (fun s => if s then nanIv else infCodeOf false false) (fun _ => infCodeOf true true) (some nanIv)
     tiesLog2 (some (zeroCode false)),
   transClaim i (.sin i) (fun _ => nanIv) (fun s => zeroCode s) none tiesSin,
   transClaim i (.cos i) (fun _ => nanIv) (fun _ => powerCode false 0) none tiesCos,
   transClaim i (.tanh i) (fun s => powerCode s 0) (fun s => zeroCode s) none tiesTanh,
   transClaim i (.sigm i) (fun s => if s then zeroCode false else powerCode false 0) (fun _ => powerCode false (-1)) none
     tiesSigm]

/-! ### Conversions -/

/-- One element converted (R98, Tables 9 and 10). Between integers of one width the saturate bit clamps too. -/
def convElem (src dst : VTy) (mode : Rnd) (u : Nat) (sat : Bool) (a y : Nat) (fl : Flags) : Prop :=
  if src.isInt then
    let v := valueAt src a
    if dst.isInt then
      (y : Int) = (if sat ∧ dst.width ≤ src.width then delivered dst true v else v % 2 ^ dst.width) ∧ fl = {}
    else (y, fl) = (fmtOf dst).round mode u sat (.fin (v < 0) v.natAbs 0)
  else
    let x := (fmtOf src).decode a
    if dst.isInt then
      match x with
      | .nan _ => y = 0 ∧ fl = .invalid
      | .inf s => (y : Int) = (if s then lowest dst else highest dst) % 2 ^ dst.width ∧ fl = .invalid
      | .fin s m e =>
        ∃ n : Nat, roundsTo mode u s |ratOf s m e| n ∧
          (let v : Int := if s then -(n : Int) else n
           (y : Int) = delivered dst true v ∧
           fl = if lowest dst ≤ v ∧ v ≤ highest dst then { nx := decide (|ratOf s m e| ≠ n) } else .invalid)
    else
      y = ((fmtOf dst).round mode u sat x).1 ∧
      fl = if x.isSig ∨ ((fmtOf dst).round mode u sat x).2.iv then .invalid else ((fmtOf dst).round mode u sat x).2

/-- CVT of a word: which element goes where, and what a narrowing leaves (R201). -/
def cvtRel (src dst : VTy) (sh p : Nat) (mode : Rnd) (sat : Bool) : LaneRel := fun u x y fl n =>
  let draws := decide (mode = .sr) && !(src.isInt && dst.isInt)
  n = (if draws then 64 / sh else 0) ∧
  ∃ fs : Nat → Flags,
    (∀ k < 64 / sh, convElem src dst mode (if draws then u k else 0) sat
      (elem src.width (if src.width ≤ dst.width then p * (64 / sh) + k else k) x.a)
      (elem dst.width (if src.width ≤ dst.width then k else p * (64 / sh) + k) y) (fs k)) ∧
    (dst.width < src.width → ∀ j < 64 / dst.width, j / (64 / sh) ≠ p → elem dst.width j y = elem dst.width j x.old) ∧
    ∀ b, fl.testBit b = true ↔ ∃ k < 64 / sh, (fs k).bits.testBit b = true

/-- DQNT of a word (R205): an element whose scale is 0xFF is the canonical NaN, and the others draw in order. -/
def dqntRel (t : VTy) (code : Nat) (mode : Rnd) (sat : Bool) : LaneRel := fun u x y fl n =>
  let used := fun k => decide (elem 8 k x.b ≠ 0xFF)
  let before := fun k => ((List.range k).filter used).length
  n = (if mode = .sr then before (64 / t.width) else 0) ∧
  ∃ fs : Nat → Flags,
    (∀ k < 64 / t.width,
      if used k then
        (elem t.width k y, fs k) = (fmtOf t).round mode (if mode = .sr then u (before k) else 0) sat
          ((mxValue code (elem 8 k x.a) 0).shift ((elem 8 k x.b : Int) - 127))
      else elem t.width k y = (fmtOf t).nanCode ∧ fs k = {}) ∧
    ∀ b, fl.testBit b = true ↔ ∃ k < 64 / t.width, (fs k).bits.testBit b = true

/-- CVT and DQNT. -/
def convClaims (i : VIns) (mode : Rnd) : List VClaim :=
  [{ ins := .cvt i, need := needs i, ty := VTy.ofCode i.sub.toNat,
     rel := cvtRel (VTy.ofCode i.sub.toNat) i.ty i.sh.width (i.b.immNat.getD 0) mode i.sat },
   { ins := .dqnt i, need := needs i, ty := i.ty, rel := dqntRel i.ty i.sub.toNat mode i.sat }]

/-- Every V-format word of class 0 that computes lane by lane, but for the F64 words of two visits. -/
def laneClaims (i : VIns) (mode : Rnd) : List VClaim :=
  intClaims i mode ++ bitClaims i mode ++ moveClaims i mode ++ orderClaims i mode ++ roundClaims i mode ++
  transClaims i mode ++ convClaims i mode

end Sys2Proof.Machine.Claims

namespace Sys2Proof.Machine.Claims

open Sys2Proof

/-- A family of words in the vector pipe, with a v destination and no queue operand: each well-formed one completes, writes
each participating lane as its relation says, and changes nothing else. The other lanes, and the lanes whose guard is
false, keep the destination (R187, R189, R190, R192). -/
def VectorForms (c : VIns → Rnd → List VClaim) : Prop :=
  ∀ (s : State) (iss : Issue) (w : Warp) (i : VIns) (d : BitVec 8), Issues s iss w → i.d = .v d → NoQueue i →
    ∀ p ∈ c i (modeI w i), p.ins.wf = true → w.codesOk p.need = true →
      ∃ t x fl n, exec p.ins s = .next t ∧ WroteV s t iss w d (w.partLanes iss i.g) x fl n ∧
        ∀ l ∈ lanesOf (w.partLanes iss i.g),
          p.rel (fun k => s.draw w l ((w.thread l).draw.toNat + k)) (argsOf s iss.wk w i p.ty l 0 (w.v d.toNat l))
            (x l) (fl l) (n l)

end Sys2Proof.Machine.Claims

open Sys2Proof Sys2Proof.Machine Sys2Proof.Machine.Claims

/-- R194, R195, with R187, R189, R190 and R192: IADD, ISUB, IMUL, IMULH, IMAD, IMIN, IMAX, IABS, ISAD, ICMP and DOT4I in
the vector pipe. -/
def Obligations.IntegerArithmeticByLane : Prop := VectorForms intClaims

/-- R194, R195: AND, OR, XOR, ANDN, NOT, SHL, SHR, SAR, ROT, BFE, BFI and BREV in the vector pipe, bit by bit. -/
def Obligations.LogicAndShiftsByLane : Prop := VectorForms bitClaims

/-- R194, R196, R197, R203: POPC, CLZ, CTZ, LEA, MOV, SEL, PERMB, PACK and UNPACK in the vector pipe. -/
def Obligations.MovesAndCountsByLane : Prop := VectorForms moveClaims

/-- R102, R198, R200: FMIN, FMAX, FABS, FNEG, FCMP and FCLASS in the vector pipe; they set no flag and draw nothing. -/
def Obligations.FloatOrderByLane : Prop := VectorForms orderClaims

/-- R94, R95, R97, R100, R198, R199: FADD, FMUL, FFMA, FSCALE, FDOT2 and FRND in the vector pipe, of every type but the
F64 words of two visits: the exact result rounded once, with its flags and draws. -/
def Obligations.FloatRoundedByLane : Prop := VectorForms roundClaims

/-- R101, R206: RCP, RSQ, SQRT, EXP2, LOG2, SIN, COS, TANH and SIGM in the vector pipe: Table 11's special results, and
otherwise one rounding to nearest even, with its flags, of a number that is tied to the function: for RCP, RSQ and SQRT the exact
result or one that no rounding boundary parts from it, for the others one within a bound. That such a number rounds as the exact
result does is the model's own reading (log entry 12). -/
def Obligations.TranscendentalsByLane : Prop := VectorForms transClaims

/-- R98, R99, R201, R205: CVT and DQNT in the vector pipe. That DQNT draws only for the elements it rounds is the model's
reading (log entry 19). -/
def Obligations.ConversionsByLane : Prop := VectorForms convClaims

/-- R187: a word with a uniform destination and uniform sources executes once on the scalar unit, under the guard of the
lowest-numbered active lane; it sets its flags once and draws from the scalar counter. F64 words take one visit there. -/
def Obligations.ScalarUnitForms : Prop :=
  ∀ (s : State) (iss : Issue) (w : Warp) (i : VIns) (d : BitVec 6), Issues s iss w → i.d = .s d → vScalar i = true →
    ∀ p ∈ laneClaims i (modeI w i) ++ sumClaims i (modeI w i), p.ins.wf = true →
      ∃ t x fl n, exec p.ins s = .next t ∧ WroteS s t iss w d (w.electedGuard iss i.g) x fl n ∧
        p.rel (fun k => s.draw w scalarLane (w.sdraw.toNat + k)) (argsOf s iss.wk w i p.ty iss.elected 0 (w.s d.toNat))
          x fl n

/-- R191, R242: a word that names a user FIFO as a source takes one element for each participating lane in ascending lane
order, and one that names a FIFO as its destination appends each such lane's result in that order; it completes when
enough elements and enough room exist. What a narrowing CVT leaves of a queue destination is a free value (log
entry 4). -/
def Sys2Proof.Machine.Claims.QueueOperandForms : Prop :=
  ∀ (s : State) (iss : Issue) (w : Warp) (i : VIns), Issues s iss w → i.d.isS = false →
    (popQueue i).isSome = true ∨ (queueOf i.d).isSome = true → s.atHome iss.wk w = true →
    s.fifoOk iss.wk w (popQueue i) (queueOf i.d) (lanesOf (w.partLanes iss i.g)).length = true →
    ∀ p ∈ laneClaims i (modeI w i), p.ins.wf = true → w.codesOk p.need = true →
      ∃ t x fl n, exec p.ins s = .next t ∧
        CompletesOnQueues s t iss w (popQueue i) (queueOf i.d) (lanesOf (w.partLanes iss i.g)).length
          ((lanesOf (w.partLanes iss i.g)).map x) { writeTo i.d (w.partLanes iss i.g) x with fl, n } ∧
        ∀ k l, (lanesOf (w.partLanes iss i.g))[k]? = some l →
          ∃ old, (∀ d, i.d = .v d → old = w.v d.toNat l) ∧
            p.rel (fun k => s.draw w l ((w.thread l).draw.toNat + k))
              (argsOf s iss.wk w i p.ty l (taken s w (popQueue i) k) old) (x l) (fl l) (n l)

/-- R25, R191, R244: when its queues have not enough elements or room, or another warp of the block waits before it, a word
that names a queue leaves everything as it was and its warp waits, Blocked, keeping the place in the order of waiting that
it took when it first blocked. -/
def Sys2Proof.Machine.Claims.QueueOperandsBlock : Prop :=
  ∀ (s : State) (iss : Issue) (w : Warp) (i : VIns), Issues s iss w →
    (popQueue i).isSome = true ∨ (queueOf i.d).isSome = true → s.atHome iss.wk w = true →
    lanesOf (w.partLanes iss i.g) ≠ [] →
    s.fifoOk iss.wk w (popQueue i) (queueOf i.d) (lanesOf (w.partLanes iss i.g)).length = false →
    ∀ p ∈ laneClaims i (modeI w i), p.ins.wf = true → w.codesOk p.need = true →
      ∃ pd : Pend, exec p.ins s =
          .next { s with warps := KMap.set s.warps iss.wk { w with st := .blocked, pend := some pd },
                         nextTicket := s.nextTicket + 1 } ∧
        pd.iss = iss ∧ pd.word = p.ins ∧
        pd.why = .fifo (popQueue i) (queueOf i.d) (lanesOf (w.partLanes iss i.g)).length ∧
        pd.ticket = (match w.pend with
          | some q => q.ticket
          | none => s.nextTicket)

/-- R22: an F64 FADD, FMUL, FFMA, FSCALE or FDOT2 in the vector pipe takes two visits. The first writes lanes 0 to 15 and
leaves every thread where it stands; F64_SECOND_HALF writes lanes 16 to 31, after which the word has done what a word of
one visit does. -/
def Obligations.F64TakesTwoVisits : Prop :=
  ∀ (s : State) (iss : Issue) (w : Warp) (i : VIns) (d : BitVec 8), Issues s iss w → i.d = .v d → NoQueue i →
    i.ty = .f64 → (∀ e ∈ w.f64, e.iss ≠ iss) →
    ∀ p ∈ sumClaims i (modeI w i), p.ins.wf = true → w.codesOk p.need = true →
      ∃ t u x fl n w1, exec p.ins s = .next t ∧ exec (.f64SecondHalf iss.wk) t = .next u ∧
        t = s.setWarp iss.wk w1 ∧ w1.f64.length = w.f64.length + 1 ∧
        (∀ r < 256, ∀ l < 32, w1.v r l =
          if r = d.toNat ∧ (w.partLanes iss i.g).getLsbD l ∧ l < 16 then x l else w.v r l) ∧
        (∀ l < 32, (w1.thread l).pos = (w.thread l).pos) ∧
        WroteV s u iss w d (w.partLanes iss i.g) x fl n ∧
        ∀ l ∈ lanesOf (w.partLanes iss i.g),
          p.rel (fun k => s.draw w l ((w.thread l).draw.toNat + k)) (argsOf s iss.wk w i p.ty l 0 (w.v d.toNat l))
            (x l) (fl l) (n l)

/-- R169: a word that names a v code at or above the N of its warp's role takes ILLEGAL, and has no other effect. -/
def Obligations.CodesAboveNAreIllegal : Prop :=
  ∀ (s : State) (iss : Issue) (w : Warp) (i : VIns), Issues s iss w →
    ∀ p ∈ laneClaims i (modeI w i) ++ sumClaims i (modeI w i), p.ins.wf = true → w.codesOk p.need = false →
      exec p.ins s = .next (s.takeFault iss { cause := 1 })

namespace Sys2Proof.Machine.Claims

open Sys2Proof

/-! ## Immediate words -/

/-- The immediate words with the relation of the result to srcA, the destination's old value and imm32 (Table 15 of the
encoding chapter). -/
def immClaims : List ((IIns → Instr) × (Word → Word → BitVec 32 → Word → Prop)) :=
  [(.movi, fun _ _ m y => y.toInt = m.toInt),
   (.iaddImm, fun a _ m y => y = BitVec.ofInt 64 (a.toInt + m.toInt)),
   (.imulImm, fun a _ m y => y = BitVec.ofInt 64 (a.toInt * m.toInt)),
   (.andImm, fun a _ m y => ∀ k < 64, y.getLsbD k = (a.getLsbD k && m.getLsbD (min k 31))),
   (.orImm, fun a _ m y => ∀ k < 64, y.getLsbD k = (a.getLsbD k || m.getLsbD (min k 31))),
   (.xorImm, fun a _ m y => ∀ k < 64, y.getLsbD k = (a.getLsbD k != m.getLsbD (min k 31))),
   (.moviHi, fun _ old m y => y.toNat = 2 ^ 32 * m.toNat + old.toNat % 2 ^ 32),
   (.moviX2, fun _ _ m y => y.toNat = 2 ^ 32 * m.toNat + m.toNat)]

/-! ## Quantisation across the warp -/

/-- floor(log2 |v|) of the largest of the block's values is E (R93, R110). -/
def isMaxExp (vs : List Num) (e : Int) : Prop :=
  (∃ v ∈ vs, v.finNonzero = true ∧ v.eps = e) ∧ ∀ v ∈ vs, v.finNonzero = true → v.eps ≤ e

/-- The scale of one block: 0xFF with a NaN or an infinity, 0x7F for zeros, else X + 127 (R93). -/
def scaleOf (code : Nat) (vs : List Num) (sc : Nat) : Prop :=
  if vs.any Num.nonFinite then sc = 0xFF
  else if vs.all fun v => !v.finNonzero then sc = 0x7F
  else ∃ e, isMaxExp vs e ∧ (sc : Int) = max (-127) (min 127 (e - mxEmax code)) + 127

/-- A block whose elements are rounded. -/
def roundedBlock (vs : List Num) : Bool := !(vs.any Num.nonFinite) && !(vs.all fun v => !v.finNonzero)

/-- One lane of QNT: element code k, by the block's scale, and its flags; the draws come in ascending order for the rounded
blocks alone (log entry 19). -/
def quantised (code w : Nat) (mode : Rnd) (u : Nat → Nat) (blocks : Nat → List Num) (mine : Nat → Num) (sc y : Word)
    (fl n : Nat) : Prop :=
  let before := fun k => ((List.range k).filter fun j => roundedBlock (blocks j)).length
  n = (if mode = .sr then before (64 / w) else 0) ∧
  ∃ fs : Nat → Flags,
    (∀ k < 64 / w,
      if roundedBlock (blocks k) then
        (elem 8 k y, fs k) = quantElem code mode (if mode = .sr then u (before k) else 0)
          ((mine k).shift (127 - (elem 8 k sc : Int)))
      else elem 8 k y = 0 ∧ fs k = if (blocks k).any Num.nonFinite then .invalid else {}) ∧
    (∀ k < 8, 64 / w ≤ k → elem 8 k y = 0) ∧
    ∀ b, fl.testBit b = true ↔ ∃ k < 64 / w, (fs k).bits.testBit b = true

/-! ## Cross-lane words -/

/-- What a word's lanes hold: the participating lanes in ascending order, and a source of each. -/
structure Lanes where
  ls : List Nat
  a : Nat → Word
  b : Nat → Word
  c : Nat → Word
  old : Nat → Word

/-- The index that srcB gives lane L at sub-element k (R212). -/
def indexOf (i : VIns) (b : Word) (k : Nat) : Nat :=
  match i.b with
  | .imm n => (n.toInt % 256).toNat
  | _ => elem i.sh.width k b % 256

/-- A sub-element in a result: bits [7:6] of a T6 are zero (R87). -/
def sixBits (t : VTy) (x : Nat) : Nat := if t = .t6 then x % 64 else x

/-- A read of element e of operand a, made for lane L (R212, R213). -/
def readElem (t : VTy) (w : Nat) (x : Lanes) (e l : Nat) : Nat :=
  let n := 64 / w
  let j := e % (32 * n) / n
  match (x.ls.filter (· ≤ j)).getLast? with
  | some j' => sixBits t (elem w (e % n) (x.a j'))
  | none => sixBits t (elem w (e % n) (x.c l))

/-- The cross-lane words without a fold, with what lane L receives (R214, R215). -/
def crossClaims (i : VIns) : List (Instr × (Lanes → Nat → Word → Prop)) :=
  let w := i.sh.width
  let n := 64 / w
  [(.xpull i, fun x l y => ∀ k < n, elem w k y = readElem i.ty w x (indexOf i (x.b l) k) l),
   (.xshuf i, fun x l y => ∀ k < n, elem w k y = readElem i.ty w x ((l * n + k) ^^^ indexOf i (x.b l) 0) l),
   (.xbcast i, fun x l y => ∀ k < n, elem w k y = readElem i.ty w x (indexOf i (x.b l) 0) l),
   (.xpush i, fun x l y => ∀ k < n,
     let names := fun j m => m < n ∧ indexOf i (x.b j) m % (32 * n) = l * n + k
     (∀ j ∈ x.ls, ∀ m, names j m → (∀ j' ∈ x.ls, ∀ m', names j' m' → j' < j ∨ (j' = j ∧ m' ≤ m)) →
       elem w k y = sixBits i.ty (elem w m (x.a j))) ∧
     ((∀ j ∈ x.ls, ∀ m, ¬ names j m) → elem w k y = elem w k (x.old l))),
   (.xballot i, fun x _ y => ∀ j < 64, y.getLsbD j = true ↔ j ∈ x.ls ∧ x.a j ≠ 0),
   (.xmatch i, fun x l y => ∀ j < 64, y.getLsbD j = true ↔ j ∈ x.ls ∧ x.a j = x.a l)]

/-- One step of a fold (R216). -/
def foldsTo (t : VTy) (op : Nat) (mode : Rnd) (sat : Bool) (u acc x y : Nat) (fl : Flags) : Prop :=
  let f := fmtOf t
  match op % 8 with
  | 0 =>
    if t.isInt then (y : Int) = delivered t sat (valueAt t acc + valueAt t x) ∧ fl = {}
    else sumOfProducts f mode u sat [(f.decode acc, one), (f.decode x, one)] y fl
  | 1 =>
    (if t.isInt then y = (if valueAt t acc ≤ valueAt t x then acc else x)
     else (y = acc % 2 ^ f.width ∨ y = x % 2 ^ f.width) ∧ f.key y ≤ f.key acc ∧ f.key y ≤ f.key x) ∧ fl = {}
  | 2 =>
    (if t.isInt then y = (if valueAt t acc ≤ valueAt t x then x else acc)
     else (y = acc % 2 ^ f.width ∨ y = x % 2 ^ f.width) ∧ f.key acc ≤ f.key y ∧ f.key x ≤ f.key y) ∧ fl = {}
  | 3 => (∀ j < t.width, y.testBit j = (acc.testBit j && x.testBit j)) ∧ fl = {}
  | 4 => (∀ j < t.width, y.testBit j = (acc.testBit j || x.testBit j)) ∧ fl = {}
  | _ => (∀ j < t.width, y.testBit j = (acc.testBit j != x.testBit j)) ∧ fl = {}

/-- A fold over the lanes: `acc k j` is sub-element k of the accumulator before the j-th participating lane, and `fs k j`
the flags that lane's step sets. -/
def foldRuns (i : VIns) (mode : Rnd) (u : Nat → Nat → Nat) (x : Lanes) (acc : Nat → Nat → Nat)
    (fs : Nat → Nat → Flags) : Prop :=
  let w := i.sh.width
  ∀ k < 64 / w,
    (∀ l, x.ls.head? = some l → acc k 0 = elem w k (x.c l)) ∧
    ∀ j l, x.ls[j]? = some l →
      acc k (j + 1) < 2 ^ w ∧
      foldsTo i.ty i.sub.toNat mode i.sat (if mode = .sr then u l k else 0) (acc k j) (elem w k (x.a l)) (acc k (j + 1))
        (fs k j)

/-- The sources of the participating lanes. -/
def lanesAt (s : State) (iss : Issue) (w : Warp) (i : VIns) (old : Nat → Word) : Lanes :=
  let ls := lanesOf (w.partLanes iss i.g)
  let src := fun o l => s.src iss.wk w i.ty o l (taken s w (popQueue i) (ls.findIdx (· == l)))
  { ls, a := src i.a, b := src i.b, c := src i.c, old }

end Sys2Proof.Machine.Claims

/-- R178: MOVI, IADD, IMUL, AND, OR and XOR with an immediate, MOVI.hi and MOVI.x2, with a vector destination in every
participating lane, and with a scalar destination once under the guard of the lowest active lane (R187). -/
def Obligations.ImmediateForms : Prop :=
  ∀ (s : State) (iss : Issue) (w : Warp) (i : IIns), Issues s iss w →
    ∀ p ∈ immClaims, (p.1 i).wf = true → w.codesOk [(i.d, 1), (i.a, 1)] = true →
      (∀ d, i.d = .v d → ∃ t, ∃ x : Nat → Word, exec (p.1 i) s = .next t ∧
        Completes s t iss w (writeTo i.d (w.partLanes iss i.g) x) ∧
        ∀ l ∈ lanesOf (w.partLanes iss i.g), p.2 (s.opnd iss.wk w i.a l) (w.v d.toNat l) i.imm (x l)) ∧
      (∀ d, i.d = .s d → ∃ t x, exec (p.1 i) s = .next t ∧ WroteS s t iss w d (w.electedGuard iss i.g) x 0 0 ∧
        p.2 (s.opnd iss.wk w i.a iss.elected) (w.s d.toNat) i.imm x) ∧
      ((p.1 i = .movi i ∨ p.1 i = .moviHi i ∨ p.1 i = .moviX2 i) → i.a = .none)

/-- R187, R196: MOV.u with a uniform source executes once on the scalar unit, under the guard of the lowest-numbered active
lane. With any other source it gives its scalar destination the common value of the participating lanes, and writes nothing
when no lane participates; when two values differ it faults NONUNIFORM (0x02), and the elements it popped stay consumed. -/
def Sys2Proof.Machine.Claims.MoveUniform : Prop :=
  ∀ (s : State) (iss : Issue) (w : Warp) (i : VIns) (d : BitVec 6), Issues s iss w → (Instr.movU i).wf = true →
    i.d = .s d → w.codesOk (needs i) = true →
    let ls := lanesOf (w.partLanes iss i.g)
    let val := fun k l => s.src iss.wk w .u64 i.a l (taken s w (popQueue i) k)
    (vScalar i = true → ∃ t, exec (.movU i) s = .next t ∧
      WroteS s t iss w d (w.electedGuard iss i.g) (s.src iss.wk w .u64 i.a iss.elected 0) 0 0) ∧
    (vScalar i = false → QueuesReady s iss w (popQueue i) none ls.length →
    (ls = [] → ∃ t, exec (.movU i) s = .next t ∧ CompletesOnQueues s t iss w (popQueue i) none 0 [] {}) ∧
    (∀ v, ls ≠ [] → (∀ k l, ls[k]? = some l → val k l = v) → ∃ t, exec (.movU i) s = .next t ∧
      CompletesOnQueues s t iss w (popQueue i) none ls.length [] { s := fun r => if r = d.toNat then some v else none }) ∧
    ((∃ k l k' l', ls[k]? = some l ∧ ls[k']? = some l' ∧ val k l ≠ val k' l') →
      exec (.movU i) s = .next ((match popQueue i with
        | some q => s.popFifo w.blk q ls.length
        | none => s).takeFault iss { cause := 2 })))

/-- R93, R204: QNT quantises sub-element k of the participating lanes as one block: codes to d, scales to d + 1, the other
bytes zero. That draws are used for the rounded blocks alone is the model's reading (log entry 19). -/
def Obligations.Quantise : Prop :=
  ∀ (s : State) (iss : Issue) (w : Warp) (i : VIns) (d : BitVec 8), Issues s iss w → (Instr.qnt i).wf = true →
    i.d = .v d → w.codesOk [(i.d, 2), (i.a, 1)] = true →
    let m := w.partLanes iss i.g
    let ls := lanesOf m
    let val := fun k l => s.src iss.wk w i.ty i.a l (taken s w (popQueue i) k)
    let mine := fun j e => (fmtOf i.ty).decode (elem i.ty.width e (val j (ls.getD j 0)))
    let blocks := fun e => (List.range ls.length).map fun j => mine j e
    QueuesReady s iss w (popQueue i) none ls.length →
    ∃ t, ∃ x : Nat → Word, ∃ sc : Word, ∃ fl n : Nat → Nat, exec (.qnt i) s = .next t ∧
      CompletesOnQueues s t iss w (popQueue i) none ls.length []
        { v := fun r l => if m.getLsbD l then
            (if r = (d + 1).toNat then some sc else if r = d.toNat then some (x l) else none) else none, fl, n } ∧
      (∀ e < 64 / i.ty.width, scaleOf i.sub.toNat (blocks e) (elem 8 e sc)) ∧
      (∀ e < 8, 64 / i.ty.width ≤ e → elem 8 e sc = 0) ∧
      ∀ j l, ls[j]? = some l →
        quantised i.sub.toNat i.ty.width (w.mode i.rnd) (fun k => s.draw w l ((w.thread l).draw.toNat + k)) blocks
          (mine j) sc (x l) (fl l) (n l)

/-- R102, R207, R208, R214: PSET, PLOP and XVOTE write one predicate in the participating lanes; p0 ignores writes. Their
predicate fields are those the rules name, and PLOP's pb is 0 under `.not` and `.mov`. -/
def Sys2Proof.Machine.Claims.PredicateWords : Prop :=
  (∀ i : VIns, (Instr.pset i).wf = true → (∃ d, i.d = .pred d) ∧ i.c = .none) ∧
  (∀ i : VIns, (Instr.plop i).wf = true → i.sub.toNat ≤ 5 ∧
    ∃ d a b, i.d = .pred d ∧ i.a = .pred a ∧ i.b = .pred b ∧ i.c = .none ∧ (4 ≤ i.sub.toNat → b = 0)) ∧
  ∀ (s : State) (iss : Issue) (w : Warp) (i : VIns) (d : BitVec 3), Issues s iss w → i.d = .pred d →
    let m := w.partLanes iss i.g
    let ls := lanesOf m
    let put := fun (x : Nat → Bool) => ({ p := fun q l => if q = d.toNat ∧ m.getLsbD l then some (x l) else none } : Writes)
    ((Instr.pset i).wf = true → w.codesOk (needs i) = true → QueuesReady s iss w (popQueue i) none ls.length →
      ∃ t, ∃ x : Nat → Bool, exec (.pset i) s = .next t ∧ CompletesOnQueues s t iss w (popQueue i) none ls.length [] (put x) ∧
        ∀ j l, ls[j]? = some l →
          let e := fun o => elem i.ty.width 0 (s.src iss.wk w i.ty o l (taken s w (popQueue i) j))
          x l = if i.ty.isInt then holds i.sub.toNat (valueAt i.ty (e i.a)) (valueAt i.ty (e i.b))
            else holds i.sub.toNat ((fmtOf i.ty).key (e i.a)) ((fmtOf i.ty).key (e i.b))) ∧
    (∀ a b, i.a = .pred a → i.b = .pred b → (Instr.plop i).wf = true →
      ∃ t, exec (.plop i) s = .next t ∧ Completes s t iss w (put fun l =>
        let x := (w.pred a.toNat).getLsbD l
        let y := (w.pred b.toNat).getLsbD l
        match i.sub.toNat with
        | 0 => x && y | 1 => x || y | 2 => x != y | 3 => x && !y | 4 => !x | _ => x)) ∧
    (∀ a, i.a = .pred a → (Instr.xvote i).wf = true →
      ∃ t, exec (.xvote i) s = .next t ∧ Completes s t iss w (put fun _ =>
        let x := fun l => (w.pred a.toNat).getLsbD l
        match i.sub.toNat with
        | 0 => ls.all x | 1 => ls.any x | _ => ls.all x || ls.all fun l => !x l))

/-- R190, R191, R212 to R215: XPULL, XPUSH, XSHUF, XBCAST, XBALLOT and XMATCH: every source is read before a destination
is written, and a scalar destination receives the lowest participating lane's result. -/
def Obligations.CrossLaneMoves : Prop :=
  ∀ (s : State) (iss : Issue) (w : Warp) (i : VIns), Issues s iss w →
    ∀ p ∈ crossClaims i, p.1.wf = true → w.codesOk (needs i) = true →
      let ls := lanesOf (w.partLanes iss i.g)
      QueuesReady s iss w (popQueue i) (queueOf i.d) ls.length →
      ∃ t, ∃ x old : Nat → Word, exec p.1 s = .next t ∧
        CompletesOnQueues s t iss w (popQueue i) (queueOf i.d) ls.length (ls.map x)
          (writeTo i.d (w.partLanes iss i.g) x) ∧
        (∀ d, i.d = .v d → ∀ l ∈ ls, old l = w.v d.toNat l) ∧
        ∀ l ∈ ls, p.2 (lanesAt s iss w i old) l (x l)

/-- R212, R214, R216: XRED and XSCAN fold each sub-element over the participating lanes in ascending order from the identity
operand; each step sets the flags of its own addition and, under stochastic rounding, takes one draw of its lane. -/
def Obligations.CrossLaneFolds : Prop :=
  ∀ (s : State) (iss : Issue) (w : Warp) (i : VIns), Issues s iss w →
    ∀ red : Bool, (if red then Instr.xred i else Instr.xscan i).wf = true → w.codesOk (needs i) = true →
      let ls := lanesOf (w.partLanes iss i.g)
      let u := fun l k => s.draw w l ((w.thread l).draw.toNat + k)
      QueuesReady s iss w (popQueue i) (queueOf i.d) ls.length →
      ∃ t, ∃ x : Nat → Word, ∃ fl n : Nat → Nat, ∃ acc fs, exec (if red then .xred i else .xscan i) s = .next t ∧
        CompletesOnQueues s t iss w (popQueue i) (queueOf i.d) ls.length (ls.map x)
          { writeTo i.d (w.partLanes iss i.g) x with fl, n } ∧
        foldRuns i (modeI w i) u (lanesAt s iss w i fun _ => 0) acc fs ∧
        (∀ l, l ∉ ls → fl l = 0 ∧ n l = 0) ∧
        ∀ j l, ls[j]? = some l →
          n l = (if modeI w i = .sr ∧ i.ty.isInt = false ∧ i.sub.toNat % 8 = 0 then 64 / i.sh.width else 0) ∧
          (∀ b, (fl l).testBit b = true ↔ ∃ k < 64 / i.sh.width, (fs k j).bits.testBit b = true) ∧
          ∀ k < 64 / i.sh.width,
            elem i.sh.width k (x l) =
              if red then acc k ls.length else sixBits i.ty (acc k (if 8 ≤ i.sub.toNat then j else j + 1))

/-- R180, R209 to R211: REP leaves every active thread at the next word with all its repeats to come, and changes nothing
else; at the last word of a clause, or over a word whose fields may not step so, it is ILLEGAL. Readings that are the model’s
own: log entry 11. -/
def Obligations.RepeatWord : Prop :=
  ∀ (s : State) (iss : Issue) (w : Warp) (i : IIns), Issues s iss w →
    let legal := !iss.last && repLegal ((s.codeOf w.activeCode).getD (iss.pc.toNat + 1) 0) i.imm
    (legal = true → ∃ w', exec (.rep i) s = .next (s.setWarp iss.wk w') ∧
      w' = { w with threads := w'.threads, pend := none } ∧ w'.threads.length = 32 ∧
      ∀ l < 32, w'.thread l =
        if iss.lanes.getLsbD l then
          { w.thread l with
            pos := { pc := iss.pc + 1, hdr := some iss.hdr, rep := i.imm.toNat % 64 + 1, repImm := i.imm } }
        else w.thread l) ∧
    (legal = false → exec (.rep i) s = .next (s.takeFault iss { cause := 1 }))

/-- R14, R155, R211, R282: where a thread goes after a word at which it goes on. With repeats left it stays at the word.
Otherwise it goes to the next word; if its innermost loop level ends at this word it returns to that level's start with one
iteration less, and at the last iteration it drops the level, which empties its loop buffer, and looks at the next. -/
def Obligations.NextPosition : Prop :=
  ∀ (iss : Issue) (t : Thread),
    (1 < t.pos.rep → t.advance iss =
      { t with pos := { t.pos with pc := iss.pc, hdr := some iss.hdr, rep := t.pos.rep - 1 } }) ∧
    (t.pos.rep ≤ 1 → (∀ v ∈ t.loops.head?, v.le ≠ iss.pc) → t.advance iss =
      { t with pos := { pc := iss.pc + 1, hdr := if iss.last then none else some iss.hdr } }) ∧
    (∀ v r, t.pos.rep ≤ 1 → t.loops = v :: r → v.le = iss.pc → v.lc ≠ 1 → t.advance iss =
      { t with pos := { pc := v.ls }, loops := { v with lc := v.lc - 1 } :: r }) ∧
    (∀ v r, t.pos.rep ≤ 1 → t.loops = v :: r → v.le = iss.pc → v.lc = 1 → t.advance iss =
      { ({ t with loops := r } : Thread).advance iss with bufLen := 0 })

namespace Sys2Proof.Machine.Claims

open Sys2Proof

/-- Every participating lane's thread moved by `f`, every other active lane's gone on, the rest left. -/
def movedBy (iss : Issue) (part : LaneMask) (f : Nat → Thread → Thread) (l : Nat) (t : Thread) : Thread :=
  if iss.lanes.getLsbD l then (if part.getLsbD l then f l t else t.advance iss) else t

/-- A transfer word has moved its lanes and written what `x` says. -/
abbrev Transfers (s t : State) (iss : Issue) (w : Warp) (part : LaneMask) (x : Writes) (f : Nat → Thread → Thread) : Prop :=
  ∃ w', OnlyWarp s t iss w' ∧
    w' = { w with vreg := w'.vreg, sreg := w'.sreg, threads := w'.threads, pend := none } ∧
    RegsAfter w w' x ∧ ThreadsMoved w w' (movedBy iss part f)

/-- The innermost loop level ended, and the loop buffer emptied if there was one (R14, R283). -/
def dropLevel (t : Thread) : Thread := if t.loops = [] then t else { t with loops := t.loops.tail, bufLen := 0 }

/-- The vector word of a cause for the context of a warp: TVBASE plus 8 times the entry's index (R353). -/
def vectorWord (s : State) (wk : Nat) (w : Warp) (index : Nat) : Word :=
  s.physWord ((KMap.getD (s.partD (s.partOf w)).ctxs (ctxOfWk wk) {}).tvbase.toNat + 8 * index)

/-- MODE of a vector word: bits [63:62], and 0 when a reserved bit is set (R353, Table 1). -/
def vectorMode (v : Word) : Nat := if v.field 61 32 = 0 then v.field 63 62 else 0

/-- The code a handler runs: the warp's kernel image under MODE 1, the context's handler image under MODE 2 (R353, R354). -/
def handlerCode (s : State) (wk : Nat) (w : Warp) (mode : Nat) : CodeRef :=
  if mode = 1 then .orig (imageKey (s.partOf w) (s.launchOf w).image)
  else .orig (imageKey (s.partOf w)
    (KMap.getD (s.partD (s.partOf w)).ctxs (ctxOfWk wk) {}).thimg.toNat)

/-- Trap entry (R211, R299, R355): the warp's threads of `lanes` stand at the handler's entry with their position, loops and
repeats saved, no loop level and an empty loop buffer, and the scalar repeat count is saved and zero; the trap registers describe the trap; no register, predicate,
handle, FCSR or draw counter has changed. `at_` says where each thread stands before. -/
abbrev EntersTrap (s t : State) (iss : Issue) (w : Warp) (lanes : LaneMask) (cause index : Nat) (info : Word)
    (at_ : Nat → Thread → Thread) : Prop :=
  let v := vectorWord s iss.wk w index
  ∃ w', t = s.setWarp iss.wk w' ∧
    w' = { w with threads := w'.threads, tregs := w'.tregs, tcode := handlerCode s iss.wk w (vectorMode v), st := .run,
                  pend := none, srep := 0, srepSave := w.srep } ∧
    w'.tregs = { tcause := BitVec.ofNat 64 cause, tpc := BitVec.ofNat 64 iss.pc.toNat,
                 topc := BitVec.ofNat 64 (s.backOf w.code iss.pc).1.toNat,
                 titer := BitVec.ofNat 64 (s.backOf w.code iss.pc).2, tmask := BitVec.ofNat 64 lanes.toNat,
                 tinfo := info } ∧
    w'.threads.length = 32 ∧
    ∀ l < 32, w'.thread l =
      let u := at_ l (w.thread l)
      if lanes.getLsbD l then
        { u with save := some { pos := u.pos, loops := u.loops }, trapped := true, tret := none, bufLen := 0, loops := [],
                 pos := { pc := v.setWidth 32 }, st := .sub }
      else u

/-- The word's effect is a double fault (R358): the warp is frozen with its registers as they were, and firmware's mailbox
holds slot, core, die, the two causes and the PCs. -/
abbrev DoubleFaults (s t : State) (iss : Issue) (w : Warp) (first second : Nat) (tpc topc : Word) : Prop :=
  ∃ w', t = { s with warps := KMap.set s.warps iss.wk w',
                     mailbox := s.mailbox ++ [.doubleFault (slotOfWk iss.wk) (coreOfWk iss.wk % 56)
                       (coreOfWk iss.wk / 56) first second tpc topc] } ∧
    w' = { w with st := .frozen, pend := none, fault := none }

end Sys2Proof.Machine.Claims

/-- R280, R282, R283, with the guard rule of R279: BRA, BRX, CALL, RET and LOOPX send each participating lane to its target
and the other active lanes to the next PC; CALL writes the next PC to its link register, LOOPX ends the innermost loop
level. They change no other register. -/
def Sys2Proof.Machine.Claims.TransferWords : Prop :=
  ∀ (s : State) (iss : Issue) (w : Warp) (i : BIns), Issues s iss w →
    let part := w.partLanes iss i.g
    let target := iss.pc + i.off.signExtend 32
    let low := fun l => (s.opnd iss.wk w i.a l).setWidth 32
    ((Instr.bra i).wf = true → ∃ t, exec (.bra i) s = .next t ∧ Transfers s t iss w part {} fun _ => sentTo iss target) ∧
    ((Instr.brx i).wf = true → w.codesOk [(i.a, 1)] = true →
      ∃ t, exec (.brx i) s = .next t ∧ Transfers s t iss w part {} fun l => sentTo iss (target + low l)) ∧
    ((Instr.call i).wf = true → w.codesOk [(i.a, 1)] = true →
      ∃ t, exec (.call i) s = .next t ∧
        Transfers s t iss w part (writeTo i.a part fun _ => BitVec.ofNat 64 (iss.pc + 1).toNat)
          fun _ => sentTo iss target) ∧
    ((Instr.ret i).wf = true → w.codesOk [(i.a, 1)] = true →
      ∃ t, exec (.ret i) s = .next t ∧ Transfers s t iss w part {} fun l => sentTo iss (low l)) ∧
    ((Instr.loopx i).wf = true →
      ∃ t, exec (.loopx i) s = .next t ∧ Transfers s t iss w part {} fun _ u => sentTo iss target (dropLevel u))

/-- R14, R281: LOOP with a count opens a level over the words up to its target and loads a body of at most 48 words into
the loop buffer; with a count of zero it goes past the body; where a participating lane with a count already has four
levels it faults LOOPDEPTH (0x0B) and writes nothing. -/
def Sys2Proof.Machine.Claims.LoopWord : Prop :=
  ∀ (s : State) (iss : Issue) (w : Warp) (i : BIns), Issues s iss w → (Instr.loop i).wf = true →
    w.codesOk [(i.a, 1)] = true →
    let part := w.partLanes iss i.g
    let last := iss.pc + i.off.signExtend 32
    let cnt := fun l => (s.opnd iss.wk w i.a l).setWidth 32
    ((∀ l ∈ lanesOf part, cnt l = 0 ∨ (w.thread l).loops.length < 4) →
      ∃ t, exec (.loop i) s = .next t ∧ Transfers s t iss w part {} fun l u =>
        if cnt l = 0 then { u with pos := { pc := last + 1 } }
        else { u with loops := { lc := cnt l, ls := iss.pc + 1, le := last } :: u.loops, bufBase := iss.pc + 1,
                      bufLen := if (last - iss.pc).toNat ≤ 48 then (last - iss.pc).toNat else 0,
                      pos := { pc := iss.pc + 1, hdr := if iss.last then none else some iss.hdr } }) ∧
    ((∃ l ∈ lanesOf part, cnt l ≠ 0 ∧ 4 ≤ (w.thread l).loops.length) →
      exec (.loop i) s = .next (s.takeFault iss { cause := 0x0B }))

/-- R284: NOP changes nothing but the place of its threads; YIELD keeps its group from the warp's next visit; ELECT makes
its predicate one in the lowest participating lane and zero in the other participating lanes. -/
def Sys2Proof.Machine.Claims.NopYieldElect : Prop :=
  ∀ (s : State) (iss : Issue) (w : Warp) (i : BIns), Issues s iss w →
    let part := w.partLanes iss i.g
    (∃ t, exec (.nop i) s = .next t ∧ Completes s t iss w {}) ∧
    (∃ t w', exec (.yield i) s = .next t ∧ OnlyWarp s t iss w' ∧
      w' = { w with threads := w'.threads, pend := none, yielded := if part = 0 then w.yielded else some iss.buf } ∧
      ThreadsWentOn iss w w' fun _ => 0) ∧
    (∀ d, i.a = .pred d → (Instr.elect i).wf = true → ∃ t, exec (.elect i) s = .next t ∧
      Completes s t iss w { p := fun q l =>
        if q = d.toNat ∧ part.getLsbD l then some (decide ((lanesOf part).head? = some l)) else none })

/-- R25, R284: EXIT ends the participating threads and drops their loop levels; the other active lanes go on, and the warp
keeps its registers. Without a thread left the warp retires, and of the rest only its block's barriers may change (R239).
(Outside trap mode, in a launch that is not deterministic, for threads that owe no join counter, of a block without a
transaction begun.) -/
def Sys2Proof.Machine.Claims.ExitWord : Prop :=
  ∀ (s : State) (iss : Issue) (w : Warp) (i : BIns), Issues s iss w → w.inTrap = false → s.isDet w.blk = false →
    w.owedJoins (w.partLanes iss i.g) = [] → (∀ b, s.block w.blk = some b → b.tx.begun = []) →
    let ends := movedBy iss (w.partLanes iss i.g) fun _ u =>
      { u with st := .done, loops := [], bufLen := 0, pos := { u.pos with rep := 0 }, save := none, tret := none }
    ((∃ l < 32, (ends l (w.thread l)).runnable = true) → ∃ t w', exec (.exit i) s = .next t ∧ OnlyWarp s t iss w' ∧
      w' = { w with threads := w'.threads, pend := none } ∧ ThreadsMoved w w' ends) ∧
    ((∀ l < 32, (ends l (w.thread l)).runnable = false) → ∃ t w', exec (.exit i) s = .next t ∧
      t = { s with warps := t.warps, blocks := t.blocks } ∧
      (∀ k, t.warp k = if k = iss.wk then some w' else s.warp k) ∧
      w' = { w with threads := w'.threads, pend := none, st := .retire } ∧ ThreadsMoved w w' ends ∧
      (∀ b ≠ w.blk, t.block b = s.block b) ∧
      ∀ b, s.block w.blk = some b → ∃ b', t.block w.blk = some b' ∧ b' = { b with bars := b'.bars })

/-- R299, R96, R370: RDSR reads the registers of Table 7 into every participating lane of a v destination or into an s
destination; a trap register outside trap mode, and any other number, faults PERM (0x04). With a false guard of the lowest
active lane it does nothing (R295). -/
def Sys2Proof.Machine.Claims.ReadSystemRegister : Prop :=
  ∀ (s : State) (iss : Issue) (w : Warp) (i : IIns), Issues s iss w → (Instr.rdsr i).wf = true →
    w.codesOk [(i.d, 1)] = true →
    let put := fun (x : Word) => writeTo i.d (w.partLanes iss i.g) fun _ => x
    let reg := i.imm.toNat % 4096
    let reads := fun (x : Word) => ∃ t, exec (.rdsr i) s = .next t ∧ Completes s t iss w (put x)
    let perm := ∃ fi, fi.cause = 4 ∧ exec (.rdsr i) s = .next (({ s with free := s.free + 2 } : State).takeFault iss fi)
    (w.electedGuard iss i.g = false → ∃ t, exec (.rdsr i) s = .next t ∧ Completes s t iss w {}) ∧
    (w.electedGuard iss i.g = true →
      (reg = 0x000 → reads w.fcsr) ∧
      (reg = 0x002 → dieOfWk iss.wk < 4 →
        reads (BitVec.ofNat 64 ([0x0024, 0x088D, 0x1873, 0x10DA].getD (dieOfWk iss.wk) 0))) ∧
      (reg = 0x001 → reads (BitVec.ofNat 64 (s.boot.present.toNat * 4096 + 0x356))) ∧
      (reg = 0x003 → reads (s.launchOf w).seed) ∧
      (w.inTrap = true → (reg = 0x010 → reads w.tregs.tcause) ∧ (reg = 0x011 → reads w.tregs.tpc) ∧
        (reg = 0x012 → reads w.tregs.topc) ∧ (reg = 0x013 → reads w.tregs.titer) ∧ (reg = 0x014 → reads w.tregs.tmask) ∧
        (reg = 0x015 → reads w.tregs.tinfo)) ∧
      (w.inTrap = false → 0x010 ≤ reg → reg ≤ 0x015 → perm) ∧
      ((4 ≤ reg ∧ reg < 0x010) ∨ 0x015 < reg → perm))

/-- R96, R299: WRSR writes FCSR: reserved bits store zero, and an RMODE of 6 or 7 stores 0; it is the only word that can
clear a flag. Any other register faults PERM (0x04). -/
def Sys2Proof.Machine.Claims.WriteSystemRegister : Prop :=
  ∀ (s : State) (iss : Issue) (w : Warp) (i : IIns), Issues s iss w → (Instr.wrsr i).wf = true →
    let x := s.uni iss.wk w i.a
    (w.electedGuard iss i.g = false → ∃ t, exec (.wrsr i) s = .next t ∧ Completes s t iss w {}) ∧
    (w.electedGuard iss i.g = true →
      (i.imm.toNat % 4096 = 0 → ∃ t w', exec (.wrsr i) s = .next t ∧ OnlyWarp s t iss w' ∧
        w' = { w with fcsr := w'.fcsr, threads := w'.threads, pend := none } ∧
        (∀ k < 64, w'.fcsr.getLsbD k =
          if k < 6 ∨ (8 ≤ k ∧ k < 14) then x.getLsbD k
          else if 16 ≤ k ∧ k < 19 then x.getLsbD k && !(x.getLsbD 17 && x.getLsbD 18) else false) ∧
        ThreadsWentOn iss w w' fun _ => 0) ∧
      (i.imm.toNat % 4096 ≠ 0 → ∃ fi, fi.cause = 4 ∧
        exec (.wrsr i) s = .next (({ s with free := s.free + 2 } : State).takeFault iss fi)))

/-- R301, R302: CLOCK writes the count of ck since the die's reset. SLEEP of no ck completes at once; any other blocks the
warp until that many ck have passed, then SLEEP_EXPIRE lets its slot run again, and the word completes at the next visit. -/
def Sys2Proof.Machine.Claims.ClockAndSleep : Prop :=
  ∀ (s : State) (iss : Issue) (w : Warp) (i : IIns), Issues s iss w → w.electedGuard iss i.g = true →
    let d := i.imm.toNat + (s.uni iss.wk w i.a).toNat % 2 ^ 32
    ((Instr.clock i).wf = true → w.codesOk [(i.d, 1)] = true → ∃ t, exec (.clock i) s = .next t ∧
      Completes s t iss w (writeTo i.d (w.partLanes iss i.g)
        fun _ => BitVec.ofNat 64 (s.ck - (s.die (dieOfWk iss.wk)).clk0))) ∧
    ((Instr.sleep i).wf = true → d = 0 → ∃ t, exec (.sleep i) s = .next t ∧ Completes s t iss w {}) ∧
    ((Instr.sleep i).wf = true → d ≠ 0 → w.slept = false → ∃ pd : Pend,
      exec (.sleep i) s = .next { s with warps := KMap.set s.warps iss.wk { w with st := .blocked, pend := some pd },
                                         nextTicket := s.nextTicket + 1 } ∧
      pd.iss = iss ∧ pd.word = .sleep i ∧ pd.why = .sleep (s.ck + d) ∧
      ∀ (u : State) (w1 : Warp), u.warp iss.wk = some w1 → w1.pend = some pd → w1.threads = w.threads →
        (u.ck < s.ck + d → exec (.sleepExpire iss.wk) u = .next u) ∧
        (s.ck + d ≤ u.ck → u.coreIssues iss.wk w1 = true →
          exec (.sleepExpire iss.wk) u = .next (u.setWarp iss.wk { w1 with st := .run })) ∧
        (Issues u iss w1 → ∃ t, exec (.sleep i) u = .next t ∧ Completes u t iss w1 {}))

/-- R295, R296: TFENCE does nothing without a participating lane; otherwise it waits, Blocked, while matrix commands of its
warp are outstanding, and completes when no enabled flag is set, or in trap mode. -/
def Sys2Proof.Machine.Claims.FlagFence : Prop :=
  ∀ (s : State) (iss : Issue) (w : Warp) (i : IIns), Issues s iss w →
    let part := w.partLanes iss i.g
    (part = 0 ∨ (s.matrixLeft w = false ∧ (w.inTrap = true ∨ w.fcsr.toNat % 64 &&& w.fcsr.toNat / 256 % 64 = 0)) →
      ∃ t, exec (.tfence i) s = .next t ∧ Completes s t iss w {}) ∧
    (part ≠ 0 → s.matrixLeft w = true → ∃ pd : Pend,
      exec (.tfence i) s = .next { s with warps := KMap.set s.warps iss.wk { w with st := .blocked, pend := some pd },
                                          nextTicket := s.nextTicket + 1 } ∧
      pd.iss = iss ∧ pd.word = .tfence i ∧ pd.why = .matrix)

/-- R296, R297, R299, R353, R355, R357: TRAP, and TFENCE with an enabled flag set, enter the handler with their participating
lanes as the trapped set, cause SOFT (0x10) with the trap number in TINFO and ARITH (0x11) with the armed flags, to return to
the word after. Without a participating lane TRAP does nothing. Readings that are the model’s own: log entry 16. -/
def Obligations.SoftAndArithTraps : Prop :=
  ∀ (s : State) (iss : Issue) (w : Warp) (i : IIns), Issues s iss w → w.inTrap = false →
    let part := w.partLanes iss i.g
    let n := i.imm.toNat % 65536
    let f := w.fcsr.toNat % 64 &&& w.fcsr.toNat / 256 % 64
    let goes := fun l (t : Thread) => if iss.lanes.getLsbD l then t.advance iss else t
    let index := if n < 32 then 0x20 + n else 0x10
    (part = 0 → ∃ t, exec (.trap i) s = .next t ∧ Completes s t iss w {}) ∧
    (part ≠ 0 → (vectorMode (vectorWord s iss.wk w index) = 1 ∨ vectorMode (vectorWord s iss.wk w index) = 2) →
      ∃ t, exec (.trap i) s = .next t ∧ EntersTrap s t iss w part 0x10 index (BitVec.ofNat 64 n) goes) ∧
    (part ≠ 0 → s.matrixLeft w = false → f ≠ 0 →
      (vectorMode (vectorWord s iss.wk w 0x11) = 1 ∨ vectorMode (vectorWord s iss.wk w 0x11) = 2) →
      ∃ t, exec (.tfence i) s = .next t ∧ EntersTrap s t iss w part 0x11 0x11 (BitVec.ofNat 64 f) goes)

/-- R355, R357: an exact fault with a cause other than the memory causes enters the handler at once, outside trap mode: the
trapped set is the lanes that issued the word, and they return to the word itself, at its repeat. The spec states no TINFO
for these causes but CONFLICT's (log entry 20): for ILLEGAL, NONUNIFORM, NOWEIGHTS, SPAWNDEPTH and LOOPDEPTH it is a free
value. -/
def Sys2Proof.Machine.Claims.ExactFaultsEnterTheHandler : Prop :=
  ∀ (s : State) (iss : Issue) (w : Warp) (fi : FaultInfo), Issues s iss w → w.inTrap = false →
    fi.cause = 0x01 ∨ fi.cause = 0x02 ∨ fi.cause = 0x08 ∨ fi.cause = 0x0A ∨ fi.cause = 0x0B →
    (vectorMode (vectorWord s iss.wk w fi.cause) = 1 ∨ vectorMode (vectorWord s iss.wk w fi.cause) = 2) →
    EntersTrap { s with free := s.free + 1 } (s.takeFault iss fi) iss w iss.lanes fi.cause fi.cause s.freeWord fun l t =>
      if iss.lanes.getLsbD l then
        { t with pos := { t.pos with pc := iss.pc, hdr := if iss.pc = iss.hdr then none else some iss.hdr } }
      else t

/-- R25, R358: in trap mode an exact fault of any cause is a double fault with first cause DOUBLE (0x0C) and the cause found
as second, and so is a TRAP; outside trap mode a cause whose vector has MODE 0 is one with that cause as first and 0 as
second. -/
def Sys2Proof.Machine.Claims.DoubleFault : Prop :=
  ∀ (s : State) (iss : Issue) (w : Warp), Issues s iss w →
    let tpc := BitVec.ofNat 64 iss.pc.toNat
    (w.inTrap = true →
      (∀ fi : FaultInfo, DoubleFaults s (s.takeFault iss fi) iss w 0x0C fi.cause tpc
        (BitVec.ofNat 64 (s.backOf w.activeCode iss.pc).1.toNat)) ∧
      ∀ i : IIns, w.partLanes iss i.g ≠ 0 → ∃ t, exec (.trap i) s = .next t ∧
        DoubleFaults s t iss w 0x0C 0x10 tpc (BitVec.ofNat 64 (s.backOf w.activeCode iss.pc).1.toNat)) ∧
    (w.inTrap = false → ∀ fi : FaultInfo,
      fi.cause = 0x01 ∨ fi.cause = 0x02 ∨ fi.cause = 0x08 ∨ fi.cause = 0x0A ∨ fi.cause = 0x0B →
      vectorMode (vectorWord s iss.wk w fi.cause) = 0 ∨ vectorMode (vectorWord s iss.wk w fi.cause) = 3 →
      DoubleFaults s (s.takeFault iss fi) iss w fi.cause 0 tpc (BitVec.ofNat 64 (s.backOf w.code iss.pc).1.toNat))

/-- R298, R356, R357: TRET outside trap mode is ILLEGAL. In trap mode its threads wait; when the whole trapped set has
executed TRET, each thread resumes at its saved position with its loops and repeats, out of trap mode, and the scalar repeat
count is that from before (R211); one that carried SKIP
resumes after the word, for every cause but SOFT, ARITH and MXRESET. (For a cause other than CONFLICT.) Readings that are the
model’s own: log entries 76 and 77. -/
def Obligations.TrapReturn : Prop :=
  ∀ (s : State) (iss : Issue) (w : Warp) (i : IIns), Issues s iss w → (Instr.tret i).wf = true →
    w.tregs.tcause.toNat ≠ 9 →
    let skip := i.imm.getLsbD 0
    let waits := fun l (t : Thread) => if iss.lanes.getLsbD l then { t with st := .wait, tret := some skip } else t
    (w.electedGuard iss i.g = false → ∃ t, exec (.tret i) s = .next t ∧ Completes s t iss w {}) ∧
    (w.electedGuard iss i.g = true → w.inTrap = false → exec (.tret i) s = .next (s.takeFault iss { cause := 1 })) ∧
    (w.electedGuard iss i.g = true → w.inTrap = true →
      (∃ l < 32, (w.thread l).trapped = true ∧ (waits l (w.thread l)).tret = none) → ∃ t w', exec (.tret i) s = .next t ∧
        OnlyWarp s t iss w' ∧ w' = { w with threads := w'.threads, pend := none } ∧ ThreadsMoved w w' waits) ∧
    (w.electedGuard iss i.g = true → w.inTrap = true →
      (∀ l < 32, (w.thread l).trapped = true →
        (waits l (w.thread l)).tret.isSome = true ∧ (w.thread l).save.isSome = true) → ∃ t w', exec (.tret i) s = .next t ∧
        OnlyWarp s t iss w' ∧
        w' = { w with threads := w'.threads, pend := none, srep := w.srepSave, srepSave := 0 } ∧
        ThreadsMoved w w' fun l t =>
          let t := waits l t
          match t.trapped, t.save with
          | true, some v =>
            let r : Thread :=
              { t with pos := v.pos, loops := v.loops, trapped := false, tret := none, save := none, bufLen := 0 }
            if t.tret = some true ∧ w.tregs.tcause.toNat ≠ 0x10 ∧ w.tregs.tcause.toNat ≠ 0x11 ∧ w.tregs.tcause.toNat ≠ 7 then
              ({ r with pos := { v.pos with rep := 0 } } : Thread).advance (issueAt (s.codeOf w.code) iss.wk v.pos)
            else r
          | _, _ => t)

namespace Sys2Proof.Machine.Claims

open Sys2Proof

/-! ## Memory words -/

/-- Outside its warp the word has left the machine as `u`, in which every warp stands as before; the warp, `w` but for
what its registers and threads now hold, is as `x` says. -/
abbrev CompletesIn (s u t : State) (iss : Issue) (w : Warp) (x : Writes) : Prop :=
  u.warps = s.warps ∧ ∃ w', t = { u with warps := KMap.set s.warps iss.wk w' } ∧ WarpAfter iss w w' x

/-- A group of registers from `d` up that takes `size` bytes in each lane of `m`, byte k in bits [8k mod 64 + 7 : 8k mod 64]
of register d + k / 8, the last register filled with zeros (R218, R221). -/
def groupTo (d : Opnd) (m : LaneMask) (size : Nat) (x : Nat → Nat → Byte) : Writes :=
  let word := fun l j => ofElems 8 ((List.range 8).map fun k => if 8 * j + k < size then (x l (8 * j + k)).toNat else 0)
  { v := fun r l => match d with
      | .v n => if n.toNat ≤ r ∧ r < n.toNat + (size + 7) / 8 ∧ m.getLsbD l then some (word l (r - n.toNat)) else none
      | _ => none
    s := fun r => match d with
      | .s n => if n.toNat ≤ r ∧ r < n.toNat + (size + 7) / 8 then
          (lanesOf m).head?.map fun l => word l (r - n.toNat) else none
      | _ => none }

/-- Byte `k` of a register group of a lane. -/
def groupByte (s : State) (wk : Nat) (w : Warp) (d : Opnd) (l k : Nat) : Byte :=
  BitVec.ofNat 8 (elem 8 (k % 8) ((s.group wk w d l (k / 8 + 1)).getD (k / 8) 0))

/-- The lanes for which a load acts: LDU's lowest active lane, LD's participating lanes. -/
def loadMask (w : Warp) (iss : Issue) (i : MIns) (uni : Bool) : LaneMask :=
  if uni then (if w.electedGuard iss i.g then maskOf [iss.elected] else 0) else w.partLanes iss i.g

/-- Every byte range lies in the warp's own A-buffer allocation, and no line of it waits for a map fill. -/
abbrev LocalOk (s : State) (iss : Issue) (w : Warp) (b : Block) (m : LaneMask) (ea : Nat → Nat) (size : Nat) : Prop :=
  s.block w.blk = some b ∧ s.atHome iss.wk w = true ∧
  ∀ l ∈ lanesOf m, ea l + size ≤ b.aSize ∧
    ∀ k ∈ linesOf (ea l) size, b.mapAt (k * 64) = none ∨ (KMap.get? b.filled k).isSome = true

/-- The byte of the A-buffer that the warp sees at an offset: of its own newest store that still waits, else what its open
transaction holds for it, else the version that the block holds for it (R66, R134). -/
def localByte (s : State) (wk : Nat) (w : Warp) (b : Block) (a : Nat) : Byte :=
  let p : Piece := { lane := 0, off := 0, n := 1, addr := a, blk := w.blk }
  match (w.sqByte 1 p 0).or (if s.isMember wk w then b.heldByte 1 p 0 else none) with
  | some x => x
  | none =>
    match if s.isMember wk w then KMap.get? b.specA (a / 64) else none with
    | some d => lineByte d (a % 64)
    | none => Memory.read b.aMem a

/-- The pieces of a word in order: lane after lane in ascending order, and in each lane ascending and together the whole access;
each lies at its place from the lane's address, of a power of two of bytes on its own boundary, of 32 bytes at most in HBM, 8 in
host space and 64 in scratch (R78, R79). A cluster-remote address is an offset in its member's A-buffer. -/
abbrev PiecesOf (space size : Nat) (ea : Nat → Nat) (ls : List Nat) (ps : List Piece) : Prop :=
  (ps.Pairwise fun p q => p.lane < q.lane ∨ (p.lane = q.lane ∧ p.off + p.n ≤ q.off)) ∧
  (∀ l ∈ ls, ∀ k < size, ∃ p ∈ ps, p.lane = l ∧ p.off ≤ k ∧ k < p.off + p.n) ∧
  ∀ p ∈ ps, p.lane ∈ ls ∧ p.off + p.n ≤ size ∧ p.addr = (if space = 4 then ea p.lane % 2 ^ 20 else ea p.lane) + p.off ∧
    (∃ j, p.n = 2 ^ j) ∧ p.n ≤ atomicSize space ∧ p.addr % p.n = 0

/-- A word whose pieces or lanes are steps of their own (R132, R225), run as often as it has steps, with no step of another
between them. -/
def runs (ins : Instr) (n : Nat) (s : State) : Host.Outcome State Fault Refusal :=
  match n with
  | 0 => .next s
  | k + 1 =>
    match exec ins s with
    | .next t => runs ins k t
    | o => o

/-- The store-queue entries of a store: one for each piece of each lane, lanes ascending (R79, R82, R132). -/
def entriesOf (s : State) (wk : Nat) (w : Warp) (space hint : Nat) (ps : List Piece) (data : Nat → Nat → Byte) :
    List SqEntry :=
  ps.map fun p =>
    { space, addr := p.addr, bytes := (List.range p.n).map fun k => data p.lane (p.off + k), attr := p.attr,
      core := ((s.block p.blk).map (·.core)).getD 0, blk := p.blk, member := s.isMember wk w, hint }

/-- The byte of HBM that a read of `n` bytes through a cluster's slice gives: of the slice's copy where that holds them all, or
this one dirty; else of the home, after every earlier message of the cluster's path to it (R81, R132). -/
def sliceByte (s : State) (cl part : Nat) (at_ : Attr) (n i : Nat) : Byte :=
  let a := (at_.pa + i) % 64
  let home := ((s.deliverAll cl (stackOfPa at_.pa)).homeRead part at_.pa at_.cmp).2.getD a 0
  match s.sliceLine cl (at_.pa / 64) with
  | some x =>
    if (∀ k < n, x.valid.getLsbD (at_.pa % 64 + k) = true) ∨ x.dirty.getLsbD a = true then lineByte x.data a else home
  | none => home

/-- The byte that a load's piece takes from its space where its warp has not written it (R66, R134, R153): of the A-buffer's
version; of the image, in a deterministic launch; of HBM through the slice; and of the host or a peer the newest write in the
FIFO, else the memory there. -/
def sourceByte (s : State) (wk : Nat) (w : Warp) (space : Nat) (p : Piece) (k : Nat) : Byte :=
  if space = 1 ∨ space = 4 then
    match s.block p.blk with
    | some b =>
      match if s.isMember wk w ∧ space = 1 then KMap.get? b.specA ((p.addr + k) / 64) else none with
      | some d => lineByte d ((p.addr + k) % 64)
      | none => Memory.read b.aMem (p.addr + k)
    | none => 0
  else if s.isDet w.blk then (s.imageRead w.blk (space == 5) p.attr p.n).2.getD k 0
  else if space = 0 then sliceByte s (clusterOfWk wk) (s.partOf w) p.attr p.n k
  else (((s.fpQueue (fpDest p.attr)).q.reverse.findSome? (·.at? (p.attr.pa + k))).getD (Memory.read s.bus (p.attr.pa + k)))

/-- The new value of an atomic on numbers of `n` bytes (R225, Table 7 of the memory chapter). -/
def atomResult (op n old a b y : Nat) : Prop :=
  let w := 8 * n
  let sg := fun (x : Nat) => if x < 2 ^ (w - 1) then (x : Int) else x - 2 ^ w
  let f : Fmt := if n = 2 then .f16 else if n = 4 then .f32 else .f64
  match op with
  | 0 => y = (old + a) % 2 ^ w
  | 1 => (y = old ∨ y = a) ∧ sg y ≤ sg old ∧ sg y ≤ sg a
  | 2 => (y = old ∨ y = a) ∧ sg old ≤ sg y ∧ sg a ≤ sg y
  | 3 => y = min old a
  | 4 => y = max old a
  | 5 => y < 2 ^ w ∧ ∀ j < w, y.testBit j = (old.testBit j && a.testBit j)
  | 6 => y < 2 ^ w ∧ ∀ j < w, y.testBit j = (old.testBit j || a.testBit j)
  | 7 => y < 2 ^ w ∧ ∀ j < w, y.testBit j = (old.testBit j != a.testBit j)
  | 8 => y = a
  | 9 => y = (if old = a then b else old)
  | 10 => ∃ fl, sumOfProducts f .rne 0 false [(f.decode old, one), (f.decode a, one)] y fl
  | 11 => (y = old ∨ y = a) ∧ f.key y ≤ f.key old ∧ f.key y ≤ f.key a
  | 12 => (y = old ∨ y = a) ∧ f.key old ≤ f.key y ∧ f.key a ≤ f.key y
  | _ => ∃ fl, sumOfProducts .bf16 .rne 0 false [(Fmt.bf16.decode old, one), (Fmt.bf16.decode a, one)] y fl

/-- The number that `n` bytes of a memory hold, byte 0 least significant. -/
def numAt (mem : Nat → Byte) (a n : Nat) : Nat := ((List.range n).map fun k => (mem (a + k)).toNat * 2 ^ (8 * k)).sum

/-- The number in bytes `from_` to `from_ + n − 1` of a register group. -/
def groupNum (s : State) (wk : Nat) (w : Warp) (d : Opnd) (l from_ n : Nat) : Nat :=
  ((List.range n).map fun k => (groupByte s wk w d l (from_ + k)).toNat * 2 ^ (8 * k)).sum

/-- The warp has been saved to frame `n` and its slot is free (R342). -/
abbrev SavedToFrame (s t : State) (wk : Nat) (w : Warp) (n : Nat) : Prop :=
  (∀ j, t.warp j = if j = wk then none else s.warp j) ∧
  ∃ f, KMap.get? (t.partD (s.partOf w)).frames n = some f ∧ f.w = w ∧ f.core = coreOfWk wk ∧ f.ctx = ctxOfWk wk ∧
    f.slot = slotOfWk wk ∧ f.parked = false

end Sys2Proof.Machine.Claims

/-- R66, R134, R217, R218, R221: LD in every participating lane, and LDU once for the lowest active lane, from the warp's
own A-buffer: byte k of the group is the byte the warp sees at ea + k. Loads set no flag and write no memory. An
acquiring order drops the clean copies of the cluster's slice. The word takes one step for each piece of each lane (R132); of one
piece, it completes at once. -/
def Obligations.LocalLoads : Prop :=
  ∀ (s : State) (iss : Issue) (w : Warp) (i : MIns) (b : Block) (uni : Bool), Issues s iss w → i.space = 1 → w.unfinished = none →
    let ins := if uni then Instr.ldu i else .ld i
    ins.wf = true →
    let size := 2 ^ i.size.toNat
    let m := loadMask w iss i uni
    let ea := fun l => s.ea iss.wk w i false l
    let steps := ((lanesOf m).map fun l => (splitAccess 64 64 (ea l) 0 size).length).sum
    w.codesOk [(i.data, (size + 7) / 8), (i.base, 1), (i.idx, 1)] = true → LocalOk s iss w b m ea size →
    ∃ t, runs ins (max 1 steps) s = .next t ∧ (steps ≤ 1 → exec ins s = .next t) ∧
      (∀ l ∈ lanesOf m, ea l % size = 0 → (splitAccess 64 64 (ea l) 0 size).length = 1) ∧
      CompletesIn s (if m = 0 then s else s.acquireIf (ordAcquires i) iss.wk w i.scope.toNat) t iss w
        (groupTo i.data m size fun l k => localByte s iss.wk w b (ea l + k))

/-- R79, R132, R134, R220, R221: LD and LDU in any space, where the checks of R220 pass: one step for each piece, lane by lane
in ascending order and each in ascending address, reads it; after the last, each lane's bytes are in its group, and no other
register of the warp and no other warp has changed. Each byte is the newest that the warp's own store queue holds, else what its
open transaction holds, else that of its space's source. -/
def Obligations.LoadsByPieces : Prop :=
  (∀ (s u : State) (iss : Issue) (w : Warp) (i : MIns) (uni : Bool) (ps : List Piece), Issues s iss w →
    w.unfinished = none →
    let ins := if uni then Instr.ldu i else .ld i
    ins.wf = true →
    let size := 2 ^ i.size.toNat
    let m := loadMask w iss i uni
    let ea := fun l => s.ea iss.wk w i false l
    w.codesOk [(i.data, (size + 7) / 8), (i.base, 1), (i.idx, 1)] = true → m ≠ 0 →
    s.checkAccess iss.wk w
      { space := i.space.toNat, size, acc := 0, lanes := (lanesOf m).map fun l => (l, ea l) } = .ok (u, ps) →
    PiecesOf i.space.toNat size ea (lanesOf m) ps ∧
    ∃ at_ : Nat → State, ∃ byte : Nat → Nat → Byte, at_ 0 = s ∧
      (∀ j < ps.length, exec ins (at_ j) = .next (at_ (j + 1))) ∧
      (∀ j ≤ ps.length, (∀ k ≠ iss.wk, (at_ j).warp k = s.warp k) ∧ (at_ j).bus = s.bus ∧ (at_ j).launches = s.launches) ∧
      (∀ j < ps.length, j ≠ 0 → ∃ pd, (at_ j).warp iss.wk = some { w with pend := some pd } ∧ pd.left = ps.drop j) ∧
      (∃ w', (at_ ps.length).warp iss.wk = some w' ∧ WarpAfter iss w w' (groupTo i.data m size byte)) ∧
      ∀ j p, ps[j]? = some p →
        ((if j = 0 then u else at_ j).readPiece iss.wk w i.space.toNat i.hint.toNat p).2 =
          (List.range p.n).map fun k => byte p.lane (p.off + k)) ∧
  ∀ (s : State) (wk : Nat) (w : Warp) (space hint : Nat) (p : Piece), space = 0 ∨ space = 1 ∨ space = 4 ∨ space = 5 →
    (space = 0 → p.attr.pa % 64 + p.n ≤ 64) → ∀ k < p.n,
    (s.readPiece wk w space hint p).2[k]? = some
      (((w.sqByte space p k).or (if s.isMember wk w then (s.block w.blk).bind (·.heldByte space p k) else none)).getD
        (sourceByte s wk w space p k))

/-- R79, R132, R221: ST whose order is no release: one store-queue entry for each piece of each participating lane, lanes and
pieces in ascending order, after those already there; no register changes, and no memory but for the lines of a mapped region
that the checks fill. It completes on the warp's own A-buffer, and in any space where the checks of R220 pass. That each entry
remembers whether a member of an open transaction issued it is the model's own (log entry 70). -/
def Obligations.StoresEnterTheQueue : Prop :=
  ∀ (s : State) (iss : Issue) (w : Warp) (i : MIns), Issues s iss w → (Instr.st i).wf = true →
    let size := 2 ^ i.size.toNat
    let part := w.partLanes iss i.g
    let ea := fun l => s.ea iss.wk w i false l
    let queued := fun (u : State) (ps : List Piece) =>
      { w with sq := w.sq ++ entriesOf u iss.wk w i.space.toNat i.hint.toNat ps (groupByte s iss.wk w i.data) }
    w.codesOk [(i.data, (size + 7) / 8), (i.base, 1), (i.idx, 1)] = true → i.ord ≠ 2 →
    (part = 0 → ∃ t, exec (.st i) s = .next t ∧ Completes s t iss w {}) ∧
    (∀ b, i.space = 1 → LocalOk s iss w b part ea size → ∃ t ps, exec (.st i) s = .next t ∧
      PiecesOf 1 size ea (lanesOf part) ps ∧ (∀ p ∈ ps, p.blk = w.blk) ∧ CompletesIn s s t iss (queued s ps) {}) ∧
    (∀ u ps, part ≠ 0 →
      s.checkAccess iss.wk w
        { space := i.space.toNat, size, acc := 1, lanes := (lanesOf part).map fun l => (l, ea l),
          place := s.argPlace w i.space.toNat size } = .ok (u, ps) →
      PiecesOf i.space.toNat size ea (lanesOf part) ps ∧
      (∃ t, exec (.st i) s = .next t ∧ CompletesIn s u t iss (queued u ps) {}) ∧
      (i.space = 0 ∨ i.space = 5 →
        u = { s with dies := u.dies, parts := u.parts, free := u.free }))

/-- R132, R133, R68, R82: STORE_DRAIN takes an entry that no earlier entry of its queue overlaps. A scratch entry of a warp
that is no member writes its bytes to the committed version and to a speculative one where there is one; a global entry's
bytes become dirty in the cluster's slice, with no fill, and those of a bypass store of an absent line go to its home at once and
leave no copy; a host entry joins its destination's FIFO. Nothing else of memory changes. A member's entry whose transaction is
open no more writes nothing. -/
def Sys2Proof.Machine.Claims.StoreDrains : Prop :=
  ∀ (s : State) (wk k : Nat) (w : Warp) (e : SqEntry), s.warp wk = some w → w.sq[k]? = some e →
    s.warpLives wk w = true → (∀ x ∈ w.sq.take k, x.overlaps e = false) →
    let w1 := { w with sq := w.sq.eraseIdx k }
    let cl := clusterOfWk wk
    let line := e.attr.pa / 64
    let mine := fun a => e.attr.pa ≤ line * 64 + a ∧ line * 64 + a < e.attr.pa + e.bytes.length
    let byte := fun a => e.bytes.getD (line * 64 + a - e.attr.pa) 0
    let bypass := e.hint = 3 ∧ (s.sliceLine cl line).isNone = true
    ∃ t, exec (.storeDrain wk k) s = .next t ∧
    (e.member = true → s.isMember wk w = false → ((s.block w.blk).map (·.txOpen)).getD false = false →
      t = s.setWarp wk w1) ∧
    (e.member = false → s.isDet w.blk = false →
      (∀ b, e.space = 1 ∨ e.space = 4 → s.block e.blk = some b → Memory.wf b.aMem = true → ∃ b',
        t = { s with warps := KMap.set s.warps wk w1, blocks := KMap.set s.blocks e.blk b' } ∧
        b' = { b with aMem := b'.aMem, specA := b'.specA, dirty := b'.dirty } ∧
        (∀ a, Memory.read b'.aMem a =
          if e.addr ≤ a ∧ a < e.addr + e.bytes.length then e.bytes.getD (a - e.addr) 0 else Memory.read b.aMem a) ∧
        ∀ l, (KMap.get? b'.specA l).isSome = (KMap.get? b.specA l).isSome) ∧
      (e.space = 0 → e.attr.pa % 64 + e.bytes.length ≤ 64 → ¬ bypass → ∃ x,
        t = { s with warps := KMap.set s.warps wk { w1 with wroteG := (t.warp wk).elim [] (·.wroteG) },
                     clusters := KMap.set s.clusters cl { s.cluster cl with
                       uses := (s.cluster cl).uses + 1, lines := KMap.set (s.cluster cl).lines line x } } ∧
        let old := (s.sliceLine cl line).getD {}
        ∀ a < 64, (mine a → x.valid.getLsbD a = true ∧ x.dirty.getLsbD a = true ∧ lineByte x.data a = byte a) ∧
          (¬ mine a → x.valid.getLsbD a = old.valid.getLsbD a ∧ x.dirty.getLsbD a = old.dirty.getLsbD a ∧
            lineByte x.data a = lineByte old.data a)) ∧
      (e.space = 0 → e.attr.pa % 64 + e.bytes.length ≤ 64 → e.bytes ≠ [] → bypass → t.sliceLine cl line = none ∧ ∃ m : Msg,
        t.path cl (stackOfPa (line * 64)) = s.path cl (stackOfPa (line * 64)) ++ [m] ∧ m.line = line ∧
        ∀ a < 64, (m.mask.getLsbD a = true ↔ mine a) ∧ (mine a → lineByte m.data a = byte a)) ∧
      (e.space = 5 → t.bus = s.bus ∧ t.blocks = s.blocks ∧ t.clusters = s.clusters ∧ (e.attr.ace = false → t.hbm = s.hbm) ∧
        (t.fpQueue (fpDest e.attr)).q = (s.fpQueue (fpDest e.attr)).q ++
          [{ addr := e.attr.pa, bytes := e.bytes.map some, va := e.addr }] ∧
        ∀ d ≠ fpDest e.attr, t.fpQueue d = s.fpQueue d))

/-- R143, R220, R224, R225: ATOM, RED and ATOM64B on the A-buffer of a block with no transaction open, by a warp with no
store waiting: in ascending lane order each lane's number is replaced in one step of its own; ATOM and ATOM64B return each lane's old
value. Every other byte of memory stays. The result of floating addition is rounded to nearest even. Readings that are the
model’s own: log entry 21. -/
def Obligations.LocalAtomics : Prop :=
  ∀ (s : State) (iss : Issue) (w : Warp) (i : MIns) (b : Block), Issues s iss w → i.space = 1 → w.sq = [] →
    w.unfinished = none → b.txOpen = false → i.ord = 0 → Memory.wf b.aMem = true →
    ∀ p ∈ [((.atom : MIns → Instr), MKind.atom, true), (.red, .red, false), (.atom64b, .atom64, true)], (p.1 i).wf = true →
      let size := 2 ^ i.size.toNat
      let part := w.partLanes iss i.g
      let ls := lanesOf part
      let ea := fun l => s.ea iss.wk w i true l
      w.codesOk [(i.data, p.2.1.group i), (i.base, 1), (i.idx, 1)] = true → LocalOk s iss w b part ea size →
      (∀ l ∈ ls, ea l % size = 0) →
      ∃ t b', ∃ mem : Nat → Nat → Byte, runs (p.1 i) (max 1 ls.length) s = .next t ∧
        (ls.length ≤ 1 → exec (p.1 i) s = .next t) ∧
        CompletesIn s { s with blocks := KMap.set s.blocks w.blk b' } t iss w
          (if p.2.2 then groupTo i.data part size fun l k => mem (ls.findIdx (· == l)) (ea l + k) else {}) ∧
        b' = { b with aMem := b'.aMem, specA := b'.specA, dirty := b'.dirty } ∧
        (∀ a, mem 0 a = Memory.read b.aMem a) ∧ (∀ a, Memory.read b'.aMem a = mem ls.length a) ∧
        ∀ j l, ls[j]? = some l →
          atomResult i.aop size (numAt (mem j) (ea l) size) (groupNum s iss.wk w i.data l 0 size)
            (groupNum s iss.wk w i.data l (8 * ((size + 7) / 8)) size) (numAt (mem (j + 1)) (ea l) size) ∧
          ∀ a, a < ea l ∨ ea l + size ≤ a → mem (j + 1) a = mem j a

/-- R220: the three checks in order on an A-buffer access: the misaligned lanes of an atomic fault ALIGN (0x05), and only
where there is none do the lanes outside the allocation fault PERM (0x04); each faulting lane has its own record, and TINFO
takes the address of the lowest. The word has no effect. Readings that are the model’s own: log entry 59. -/
def Obligations.AccessChecks : Prop :=
  ∀ (s : State) (iss : Issue) (w : Warp) (i : MIns) (b : Block), Issues s iss w → i.space = 1 → s.block w.blk = some b →
    s.atHome iss.wk w = true → w.unfinished = none →
    let size := 2 ^ i.size.toNat
    let ls := lanesOf (w.partLanes iss i.g)
    let fault := fun (c acc : Nat) (ea : Nat → Nat) (bad : List Nat) =>
      s.takeFault iss
        { cause := c, info := BitVec.ofNat 64 (ea (bad.headD 0)),
          recs := bad.map fun l => { cause := c, lanes := maskOf [l], addr := ea l, acc, space := 1 } }
    (∀ p ∈ [((.atom : MIns → Instr), MKind.atom), (.red, .red), (.atom64b, .atom64)], (p.1 i).wf = true →
      w.codesOk [(i.data, p.2.group i), (i.base, 1), (i.idx, 1)] = true →
      let ea := fun l => s.ea iss.wk w i true l
      let odd := ls.filter fun l => ea l % size ≠ 0
      let outside := ls.filter fun l => b.aSize < ea l + size
      (odd ≠ [] → exec (p.1 i) s = .next (fault 5 2 ea odd)) ∧
      (odd = [] → outside ≠ [] → exec (p.1 i) s = .next (fault 4 2 ea outside))) ∧
    ∀ p ∈ [((.ld : MIns → Instr), 0), (.st, 1)], (p.1 i).wf = true →
      w.codesOk [(i.data, (size + 7) / 8), (i.base, 1), (i.idx, 1)] = true →
      let ea := fun l => s.ea iss.wk w i false l
      let outside := ls.filter fun l => b.aSize < ea l + size
      outside ≠ [] → exec (p.1 i) s = .next (fault 4 p.2 ea outside)

/-- R25, R220, R339 to R342: outside trap mode a memory fault saves the warp to the lowest free frame, its slot free at once,
and posts its records in the ring of the partition, each record's four words at the tail, where the ring has room and no
earlier event waits; without a free frame the warp stays in its slot, Blocked, and FRAME_SAVE does the same later. (For one
record.) Readings that are the model’s own: log entries 15 and 20. -/
def Obligations.FaultsSaveTheWarp : Prop :=
  ∀ (s : State) (iss : Issue) (w : Warp) (fi : FaultInfo) (r : FaultRec), Issues s iss w → w.inTrap = false →
    (fi.cause = 3 ∨ fi.cause = 4 ∨ fi.cause = 5 ∨ fi.cause = 6) → fi.recs = [r] → (s.part (s.partOf w)).isSome = true →
    let part := s.partOf w
    let p := s.partD part
    let back := s.backOf w.code iss.pc
    let w1 := { w with st := .blocked, pend := none,
                       fault := some { info := fi, iss, opc := BitVec.ofNat 64 back.1.toNat,
                                       rpc := BitVec.ofNat 64 iss.pc.toNat, iter := back.2 } }
    ((∀ n < min p.regs.frameCnt.toNat 32768, (KMap.get? p.frames n).isSome = true) →
      s.takeFault iss fi = s.setWarp iss.wk w1) ∧
    (∀ n < min p.regs.frameCnt.toNat 32768, (KMap.get? p.frames n).isNone = true →
      (∀ k < n, (KMap.get? p.frames k).isSome = true) →
      let t := s.takeFault iss fi
      SavedToFrame s t iss.wk w1 n ∧ exec (.frameSave iss.wk) (s.setWarp iss.wk w1) = .next t ∧
      (s.ringRoom part 1 = true → (s.die (dieOfWk iss.wk)).waitEv.all (·.part != part) = true →
        let at_ := p.regs.fqBase.toNat + 32 * (p.regs.fqTail.toNat % p.regs.fqSize.toNat)
        t.physRead at_ 32 = (r.words n 0 1 back.1.toNat iss.pc.toNat (dieOfWk iss.wk) (coreOfWk iss.wk % 56)
          (slotOfWk iss.wk) back.2).flatMap wordBytes ∧
        (t.partD part).regs.fqTail.toNat = (p.regs.fqTail.toNat % p.regs.fqSize.toNat + 1) % p.regs.fqSize.toNat ∧
        ∃ ev, KMap.get? (t.partD part).events n = some ev ∧ ev.posted = true ∧ ev.who = .warp))

namespace Sys2Proof.Machine.Claims

open Sys2Proof

/-- The word leaves the machine as `u`, and its warp, `w` but for this, Blocked for a reason (R25). -/
abbrev BlocksIn (u t : State) (iss : Issue) (w : Warp) (word : Instr) (why : WaitKind) : Prop :=
  ∃ pd : Pend, t = { u with warps := KMap.set u.warps iss.wk { w with st := .blocked, pend := some pd },
                            nextTicket := u.nextTicket + 1 } ∧
    pd.iss = iss ∧ pd.word = word ∧ pd.why = why ∧ (w.pend = none → pd.ticket = u.nextTicket ∧ pd.since = u.ck)

/-- The word takes PERM (0x04), with a record whose address the spec leaves open (log entry 22). -/
abbrev TakesPerm (s : State) (iss : Issue) (o : Host.Outcome State Fault Refusal) : Prop :=
  ∃ fi, fi.cause = 4 ∧ o = .next (({ s with free := s.free + 2 } : State).takeFault iss fi)

/-- A warp whose releases have nothing to do: no store waits, and nothing it wrote is unreleased. -/
abbrev NothingToRelease (w : Warp) : Prop := w.sq = [] ∧ w.wroteG = [] ∧ w.wroteH = []

/-- A clean copy that an acquire of a set of bytes drops (R135): of a line that meets it, under the address the line was last
reached by or under the physical one. -/
def dropped (part : Nat) (x : ByteSet) (e : Nat × SliceLine) : Prop :=
  e.2.dirty = 0 ∧
    (x = .all ∨ (e.2.part = part ∧ x.meets 0 (e.2.va / 64 * 64) 64 = true) ∨ x.meets 16 (e.1 * 64) 64 = true)

/-- Each key stands once in a table, and they rise. -/
abbrev RisingKeys {α : Type} (m : KMap α) : Prop := m.Pairwise fun p q => p.1 < q.1

/-- A global address translates on the die of a warp, and its home can be reached: the leaf, and the machine after the walk. -/
abbrev Reaches (s u : State) (wk : Nat) (w : Warp) (a acc : Nat) (at_ : Attr) : Prop :=
  s.translate (dieOfWk wk) (s.partOf w) a 0 acc = (u, .ok at_) ∧ u.reach (dieOfWk wk) (dieOfPa at_.pa) = true

/-- Only the memory system has changed: slices, paths, homes, links, counters and free values. -/
abbrev MemorySystemOnly (s t : State) : Prop :=
  t = { s with clusters := t.clusters, dx := t.dx, hbm := t.hbm, dies := t.dies, parts := t.parts, free := t.free }

/-- The leaf of an address `k` bytes further in its page. -/
def leafPlus (at_ : Attr) (k : Nat) : Attr := { at_ with pa := at_.pa + k }

/-- No byte that the warp wrote by line and mask is dirty in its slice or on its way to its home (R135). -/
abbrev ReachedHome (t : State) (cl : Nat) (wrote : KMap (BitVec 64)) : Prop :=
  ∀ e ∈ wrote, (∀ x, t.sliceLine cl e.1 = some x → x.dirty &&& e.2 = 0) ∧
    ∀ m ∈ t.path cl (stackOfPa (e.1 * 64)), m.line = e.1 → m.mask &&& e.2 = 0

/-- A comparison of WAITADDR on numbers of `n` bytes (R181, R234). -/
def waitRel (c n x a : Nat) : Prop :=
  let sg := fun (y : Nat) => if y < 2 ^ (8 * n - 1) then (y : Int) else y - 2 ^ (8 * n)
  match c with
  | 0 => x = a | 1 => x ≠ a | 2 => a ≤ x | 3 => x < a | 4 => sg a ≤ sg x | _ => sg x < sg a

end Sys2Proof.Machine.Claims

/-- R138, R230, R231: under the guard of the lowest active lane BIND adds the region to its block's bindings on the core,
once, and faults PERM (0x04) with 64 entries in use or a region past the end of the allocation; UNBIND removes the entry, or with
length 0 every entry of the object. An object that is not on a line, and a region whose base or length is not a whole number of
lines or whose length is none of 64 to 2^40 bytes (0 for UNBIND apart), faults ALIGN (0x05); after that check a warp away from its
block's core, or one that has migrated, faults PERM. Neither writes a register. The object lies in the A-buffer, or in a global
page that translates. -/
def Obligations.BindingWords : Prop :=
  ∀ (s u : State) (iss : Issue) (w : Warp) (i : MIns) (b : Block), Issues s iss w → s.block w.blk = some b →
    let oab := i.off.getLsbD 0
    let obj := (s.uni iss.wk w i.data).toNat
    let base := (s.uni iss.wk w i.base).toNat
    let len := (s.uni iss.wk w i.idx).toNat
    let core := coreOfWk iss.wk
    let e : Binding := { blk := w.blk, oab, obj, space := i.space.toNat, base, len }
    let at_ := fun (c a sp : Nat) (v : State) =>
      v.takeFault iss { cause := c, info := BitVec.ofNat 64 a,
                        recs := [{ cause := c, lanes := maskOf [iss.elected], addr := a, space := sp }] }
    let lines := obj % 64 = 0 ∧ base % 64 = 0 ∧ len % 64 = 0 ∧ len ≤ 2 ^ 40
    let object := if oab then u = s ∧ LocalOk s iss w b (maskOf [iss.elected]) (fun _ => obj) 64
      else ∃ at_, Reaches s u iss.wk w obj 0 at_
    let now := fun (t : State) (l : List Binding) =>
      ∃ v : State, v = { u with cores := KMap.set u.cores core { u.core core with binds := l } } ∧ CompletesIn s v t iss w {}
    (w.electedGuard iss i.g = false → ∀ word ∈ [Instr.bind i, .unbind i], ∃ t, exec word s = .next t ∧
      Completes s t iss w {}) ∧
    (w.electedGuard iss i.g = true →
      ((Instr.bind i).wf = true → lines → 64 ≤ len → s.atHome iss.wk w = true → object →
        (i.space = 0 ∨ i.space = 5 ∨ (i.space = 1 ∧ base + len ≤ b.aSize) →
          (e ∈ (u.core core).binds → ∃ t, exec (.bind i) s = .next t ∧ now t (u.core core).binds) ∧
          (e ∉ (u.core core).binds → (u.core core).binds.length < 64 →
            ∃ t, exec (.bind i) s = .next t ∧ now t ((u.core core).binds ++ [e])) ∧
          (e ∉ (u.core core).binds → 64 ≤ (u.core core).binds.length →
            exec (.bind i) s = .next (at_ 4 base i.space.toNat u))) ∧
        (i.space = 1 → b.aSize < base + len → exec (.bind i) s = .next (at_ 4 base 1 u))) ∧
      ((Instr.unbind i).wf = true → lines → s.atHome iss.wk w = true → object → i.space = 0 ∨ i.space = 1 ∨ i.space = 5 →
        ∃ t l, exec (.unbind i) s = .next t ∧ now t l ∧ l.Sublist (u.core core).binds ∧
          ∀ f ∈ (u.core core).binds, f ∈ l ↔ ¬ (f.blk = w.blk ∧ f.oab = oab ∧ f.obj = obj ∧ (len = 0 ∨ f = e))) ∧
      (∀ word ∈ [Instr.bind i, .unbind i], word.wf = true →
        (obj % 64 ≠ 0 → exec word s = .next (at_ 5 obj oab.toNat s)) ∧
        (obj % 64 = 0 → base % 64 ≠ 0 ∨ len % 64 ≠ 0 ∨ 2 ^ 40 < len ∨ (len = 0 ∧ word = .bind i) →
          exec word s = .next (at_ 5 base i.space.toNat s)) ∧
        (lines → len ≠ 0 → s.atHome iss.wk w = false → exec word s = .next (at_ 4 base i.space.toNat s))))

/-- R137, R139, R140, R143, R232: with a false guard of the lowest active lane ACQ and REL do nothing, and a REL by a member of an
open transaction faults PERM (0x04). ACQ reads the 8 bytes of RSEQ at offset 24 of its object into its destination, and REL adds
one to them, in one step, and changes no other byte of the object: in the A-buffer; in the cluster's slice at block to cluster
scope (1 to 3); and at the home at stack scope or wider (4 to 7), where ACQ then drops from the slice the clean copies of the lines
that meet the regions bound to the object. (In a launch that is not deterministic; REL by a warp with nothing to release.) -/
def Sys2Proof.Machine.Claims.AcquireAndRelease : Prop :=
  ∀ (s : State) (iss : Issue) (w : Warp) (i : MIns) (b : Block), Issues s iss w → s.block w.blk = some b →
    s.isDet w.blk = false →
    let obj := (s.uni iss.wk w i.base + s.uni iss.wk w i.idx).toNat
    let cl := clusterOfWk iss.wk
    let part := s.partOf w
    let scope := i.scope.toNat
    let to_ := fun byte => groupTo i.data (maskOf [iss.elected]) 8 fun _ k => byte k
    let bound := fun (f : Binding) => f ∈ (s.core (coreOfWk iss.wk)).binds ∧ f.blk = w.blk ∧ f.oab = false ∧ f.obj = obj
    (w.electedGuard iss i.g = false →
      (∃ t, exec (.acq i) s = .next t ∧ Completes s t iss w {}) ∧ ∃ t, exec (.rel i) s = .next t ∧ Completes s t iss w {}) ∧
    (w.electedGuard iss i.g = true → obj % 64 = 0 → s.isMember iss.wk w = true → (Instr.rel i).wf = true →
      exec (.rel i) s = .next (s.takeFault iss
        { cause := 4, info := BitVec.ofNat 64 obj,
          recs := [{ cause := 4, lanes := maskOf [iss.elected], addr := obj, acc := 2, space := i.space.toNat }] })) ∧
    (w.electedGuard iss i.g = true → obj % 64 = 0 → i.space = 1 →
      LocalOk s iss w b (maskOf [iss.elected]) (fun _ => obj) 64 →
      ((Instr.acq i).wf = true → ∃ t, exec (.acq i) s = .next t ∧ CompletesIn s s t iss w
        (to_ fun k => match if s.isMember iss.wk w then KMap.get? b.specA (obj / 64) else none with
          | some d => lineByte d (24 + k)
          | none => Memory.read b.aMem (obj + 24 + k))) ∧
      ((Instr.rel i).wf = true → w.sq = [] → b.txOpen = false → Memory.wf b.aMem = true →
        ∃ t b', exec (.rel i) s = .next t ∧ CompletesIn s { s with blocks := KMap.set s.blocks w.blk b' } t iss w {} ∧
          b' = { b with aMem := b'.aMem, specA := b'.specA, dirty := b'.dirty } ∧
          numAt (Memory.read b'.aMem) (obj + 24) 8 = (numAt (Memory.read b.aMem) (obj + 24) 8 + 1) % 2 ^ 64 ∧
          ∀ a, a < obj + 24 ∨ obj + 32 ≤ a → Memory.read b'.aMem a = Memory.read b.aMem a)) ∧
    (∀ u at_, w.electedGuard iss i.g = true → obj % 64 = 0 → i.space = 0 → (Instr.acq i).wf = true →
      Reaches s u iss.wk w obj 0 at_ → at_.pa % 64 = 0 →
      (scope ≤ 3 → ∃ t r, exec (.acq i) s = .next t ∧ MemorySystemOnly s r ∧
        CompletesIn s r t iss w (to_ fun k => sliceByte u cl part (leafPlus at_ 24) 8 k)) ∧
      (4 ≤ scope → ∃ t r, exec (.acq i) s = .next t ∧ MemorySystemOnly s r ∧
        CompletesIn s r t iss w (to_ fun k => (u.homeRead part at_.pa at_.cmp).2.getD (24 + k) 0) ∧
        r.hbm = s.hbm ∧ r.dx = s.dx ∧ (∀ c ≠ cl, r.cluster c = s.cluster c) ∧ (r.cluster cl).lines.Sublist (s.cluster cl).lines ∧
        (∀ e ∈ (s.cluster cl).lines, e ∈ (r.cluster cl).lines ↔ ¬ dropped part (u.boundSet iss.wk w false obj) e) ∧
        ∀ f, bound f → f.space = 0 → ∀ e ∈ (r.cluster cl).lines, e.2.part = part → e.2.dirty = 0 →
          rangesMeet (e.2.va / 64 * 64) 64 f.base f.len = false)) ∧
    (∀ u at_, w.electedGuard iss i.g = true → obj % 64 = 0 → i.space = 0 → (Instr.rel i).wf = true →
      s.isMember iss.wk w = false → NothingToRelease w → s.argPlace w 0 64 obj = none →
      Reaches s u iss.wk w obj 2 at_ → at_.pa % 64 = 0 →
      (scope ≤ 3 → ∃ t r w1 x, exec (.rel i) s = .next t ∧ MemorySystemOnly s r ∧ w1 = { w with wroteG := w1.wroteG } ∧
        CompletesIn s r t iss w1 {} ∧ r.sliceLine cl (at_.pa / 64) = some x ∧
        numAt (lineByte x.data) 24 8 = (numAt (sliceByte u cl part (leafPlus at_ 24) 8) 0 8 + 1) % 2 ^ 64 ∧
        (∀ k, 24 ≤ k → k < 32 → x.valid.getLsbD k = true ∧ x.dirty.getLsbD k = true) ∧
        ∀ old, s.sliceLine cl (at_.pa / 64) = some old → ∀ k, k < 24 ∨ (32 ≤ k ∧ k < 64) →
          x.dirty.getLsbD k = old.dirty.getLsbD k ∧ (old.dirty.getLsbD k = true → lineByte x.data k = lineByte old.data k)) ∧
      (4 ≤ scope → ∃ t r, exec (.rel i) s = .next t ∧ MemorySystemOnly s r ∧ CompletesIn s r t iss w {} ∧
        (at_.cmp = 0 → at_.ace = false →
          let v := (u.writeBack cl (at_.pa / 64)).deliverAll cl (stackOfPa at_.pa)
          Memory.wf v.hbm = true →
          numAt (Memory.read r.hbm) (at_.pa + 24) 8 = (numAt (Memory.read v.hbm) (at_.pa + 24) 8 + 1) % 2 ^ 64 ∧
          ∀ a, a < at_.pa + 24 ∨ at_.pa + 32 ≤ a → Memory.read r.hbm a = Memory.read v.hbm a)))

/-- R135, R141, R233: a releasing FENCE completes when every byte its warp wrote has reached the scope: at stack scope or
wider none is dirty in the slice or on a path, and at system scope none is in the fabric port. An acquiring one leaves no
clean copy in the slice at stack scope or wider. (For a warp with no store waiting, in a block without a dirty mapped line
and a launch that is not deterministic.) -/
def Sys2Proof.Machine.Claims.FenceWord : Prop :=
  ∀ (s : State) (iss : Issue) (w : Warp) (i : MIns), Issues s iss w → (Instr.fence i).wf = true → w.sq = [] →
    s.isDet w.blk = false → (∀ b, s.block w.blk = some b → b.dirty = [] ∧ b.mapFixup = []) → RisingKeys s.dx →
    let scope := i.scope.toNat
    let cl := clusterOfWk iss.wk
    let rel := i.ord = 2 ∨ i.ord = 3
    let acq := i.ord = 1 ∨ i.ord = 3
    (w.electedGuard iss i.g = false → ∃ t, exec (.fence i) s = .next t ∧ Completes s t iss w {}) ∧
    (scope ≤ 3 → ∃ t, exec (.fence i) s = .next t ∧ Completes s t iss w {}) ∧
    (w.electedGuard iss i.g = true → 4 ≤ scope → ∃ t w' w1, exec (.fence i) s = .next t ∧
      w1 = { w with wroteG := w1.wroteG, wroteH := w1.wroteH } ∧ WarpAfter iss w1 w' {} ∧
      t = { s with warps := KMap.set s.warps iss.wk w', clusters := t.clusters, dx := t.dx, fp := t.fp, hbm := t.hbm,
                   bus := t.bus, dies := t.dies, parts := t.parts, free := t.free } ∧
      (∀ c ≠ cl, t.cluster c = s.cluster c) ∧
      (rel → ReachedHome t cl w.wroteG ∧ ReachedHome t cl ((s.launchOf w).mapWrote cl)) ∧
      (rel → scope = 7 → ∀ d, ∀ m ∈ (t.fpQueue d).q ++ (t.fpQueue d).unacked, m.hits w.wroteH .all = false) ∧
      (acq → ∀ e ∈ (t.cluster cl).lines, e.2.dirty ≠ 0) ∧
      (scope ≠ 7 → t.fp = s.fp ∧ t.bus = s.bus) ∧
      (¬ rel → t.hbm = s.hbm ∧ t.dx = s.dx ∧ t.fp = s.fp ∧ t.bus = s.bus))

/-- R25, R144, R234, R235: WAITADDR polls its word at the home, the checks of R220 having passed: where the comparison holds it
completes, with the acquire of its order; else its warp is Blocked. WAITADDR_POLL polls again; once the comparison has held the slot
is at Run, and the word completes at its next visit. -/
def Sys2Proof.Machine.Claims.WaitOnAddress : Prop :=
  ∀ (s u r : State) (iss : Issue) (w : Warp) (i : MIns) (p : Piece) (ps : List Piece) (bs : List Byte), Issues s iss w →
    (Instr.waitaddr i).wf = true →
    let size := 2 ^ i.size.toNat
    let a := (s.uni iss.wk w i.data).toNat % 2 ^ (8 * size)
    let value := ((List.range size).map fun k => (bs.getD k 0).toNat * 2 ^ (8 * k)).sum
    let acc : Access := { space := i.space.toNat, size, acc := 0, aligned := true, home := true,
                          lanes := [(iss.elected, s.ea iss.wk w i true iss.elected)],
                          place := fun _ => if i.space.toNat = 5 then some 0 else none }
    (w.waitMet = true → ∃ t, exec (.waitaddr i) s = .next t ∧
      CompletesIn s (s.acquireIf (ordAcquires i) iss.wk w i.scope.toNat) t iss w {}) ∧
    (w.waitMet = false → w.electedGuard iss i.g = false → ∃ t, exec (.waitaddr i) s = .next t ∧ Completes s t iss w {}) ∧
    (w.waitMet = false → w.electedGuard iss i.g = true → s.checkAccess iss.wk w acc = .ok (u, p :: ps) →
      u.pollRead iss.wk w i.space.toNat { p with n := size } = (r, bs) →
      (waitRel i.aop size value a → ∃ t, exec (.waitaddr i) s = .next t ∧
        CompletesIn s (r.acquireIf (ordAcquires i) iss.wk w i.scope.toNat) t iss w {}) ∧
      (¬ waitRel i.aop size value a → ∃ t, exec (.waitaddr i) s = .next t ∧
        BlocksIn r t iss w (.waitaddr i) .waitaddr) ∧
      ∀ pd : Pend, pd.iss = iss → pd.word = .waitaddr i → pd.why = .waitaddr → w.pend = some pd → w.st = .run →
        let v := s.setWarp iss.wk { w with st := .blocked }
        v.coreIssues iss.wk w = true →
        let after := fun (w1 : Warp) => exec (.waitaddrPoll iss.wk) v = .next { r with warps := KMap.set s.warps iss.wk w1 }
        (waitRel i.aop size value a → after { w with pend := some { pd with met := true } }) ∧
        (¬ waitRel i.aop size value a → after { w with st := .blocked }))

/-- R82, R229: PREFETCH writes no register and never faults on an address; for a global line that translates and whose home
can be reached, of one participating lane, the slice of the warp's cluster then holds every byte, unless the hint is to keep
no copy. In another space it does nothing. -/
def Sys2Proof.Machine.Claims.PrefetchWord : Prop :=
  ∀ (s : State) (iss : Issue) (w : Warp) (i : MIns), Issues s iss w → (Instr.prefetch i).wf = true →
    w.codesOk [(i.base, 1), (i.idx, 1)] = true →
    (∃ t u, exec (.prefetch i) s = .next t ∧ CompletesIn s u t iss w {} ∧ u.bus = s.bus ∧ u.blocks = s.blocks ∧
      u.fp = s.fp ∧ u.launches = s.launches ∧ (∀ c ≠ clusterOfWk iss.wk, u.cluster c = s.cluster c)) ∧
    (i.space ≠ 0 → ∃ t, exec (.prefetch i) s = .next t ∧ Completes s t iss w {}) ∧
    ∀ l u at_, i.space = 0 → lanesOf (w.partLanes iss i.g) = [l] → i.hint ≠ 3 →
      s.translate (dieOfWk iss.wk) (s.partOf w) (s.ea iss.wk w i false l / 64 * 64) 0 0 = (u, .ok at_) →
      u.reach (dieOfWk iss.wk) (dieOfPa at_.pa) = true →
      ∃ t x, exec (.prefetch i) s = .next t ∧ t.sliceLine (clusterOfWk iss.wk) (at_.pa / 64) = some x ∧
        ∀ k, at_.pa % 64 ≤ k → k < 64 → x.valid.getLsbD k = true

/-- R237 to R240: BARARV counts an arrival at its barrier, BARSYNC arrives and then waits, BARWT waits on the phase the warp
last arrived at, or on the current one; the phase ends when the arrivals reach CNT, or with CNT 0 the block's warps that have
not exited. A waiting warp is Blocked. A barrier number at or above B faults PERM. (For a warp with no store waiting.)
Readings that are the model’s own: log entries 101 and 102. -/
def Obligations.BarrierWords : Prop :=
  ∀ (s : State) (iss : Issue) (w : Warp) (i : IIns) (b : Block), Issues s iss w → s.block w.blk = some b →
    s.atHome iss.wk w = true → w.sq = [] → w.barWaits = none →
    let id := if i.imm.getLsbD 7 then (s.uni iss.wk w i.a).toNat % 128 else i.imm.toNat % 128
    let cnt := i.imm.toNat / 256 % 64
    let bar := b.bar id
    let full := (if cnt = 0 then (s.ownLive w.blk).length else cnt) ≤ bar.count + 1
    let bar' : Barrier := if full then { phase := bar.phase + 1 } else { bar with count := bar.count + 1, cnt := some cnt }
    let u : State := { s with blocks := KMap.set s.blocks w.blk { b with bars := KMap.set b.bars id bar' } }
    let w1 := { w with barSeen := KMap.set w.barSeen id bar.phase }
    let last := KMap.getD w.barSeen id bar.phase
    (w.electedGuard iss i.g = false → ∀ word ∈ [Instr.bararv i, .barwt i, .barsync i],
      ∃ t, exec word s = .next t ∧ Completes s t iss w {}) ∧
    (w.electedGuard iss i.g = true → b.nbar ≤ id → ∀ word ∈ [Instr.bararv i, .barwt i, .barsync i],
      TakesPerm s iss (exec word s)) ∧
    (w.electedGuard iss i.g = true → id < b.nbar → cnt ≤ 32 →
      ((w.child = false ∨ cnt ≠ 0) → (bar.cnt = none ∨ bar.cnt = some cnt) →
        (∃ t, exec (.bararv i) s = .next t ∧ CompletesIn s u t iss w1 {}) ∧
        (full → ∃ t, exec (.barsync i) s = .next t ∧ CompletesIn s u t iss w1 {}) ∧
        (¬ full → ∃ t, exec (.barsync i) s = .next t ∧ BlocksIn u t iss w1 (.barsync i) (.barrier id bar.phase))) ∧
      (last < bar.phase → ∃ t, exec (.barwt i) s = .next t ∧ Completes s t iss w {}) ∧
      (bar.phase ≤ last → ∃ t, exec (.barwt i) s = .next t ∧ BlocksIn s t iss w (.barwt i) (.barrier id last)))

/-- R148, R241 to R246: QPUSH appends one element for each participating lane in ascending order; QPOP takes one for each
from a FIFO of the block or from the warp's own part of q1, q3 or q5, and QPEEK reads them and takes none; QCOUNT writes the
number of elements. A pop of collective records acquires their ranges in the slice. Readings that are the model’s own: log
entry 102. -/
def Obligations.QueueWords : Prop :=
  ∀ (s : State) (iss : Issue) (w : Warp) (i : VIns), Issues s iss w → s.atHome iss.wk w = true → w.codesOk [(i.d, 1)] = true →
    let m := w.partLanes iss i.g
    let ls := lanesOf m
    let nth := fun (l : Nat) => ls.findIdx (· == l)
    let own := fun (q : Nat) => if q = 1 then w.q1 else if q = 3 then w.q3 else w.q5.map (·.1)
    ((Instr.qpush i).wf = true → w.codesOk [(i.a, 1)] = true →
      ls = [] ∨ s.fifoOk iss.wk w none (queueOf i.d) ls.length = true →
      ∃ t, exec (.qpush i) s = .next t ∧
        CompletesOnQueues s t iss w none (queueOf i.d) 0 (ls.map fun l => s.opnd iss.wk w i.a l) {}) ∧
    (∀ pops : Bool, let word := if pops then Instr.qpop i else .qpeek i
      word.wf = true →
      (∀ q, queueOf i.a = some q → 7 ≤ q → ls = [] ∨ s.fifoOk iss.wk w (some q) none ls.length = true →
        ∃ t, exec word s = .next t ∧
          CompletesOnQueues s t iss w (some q) none (if pops then ls.length else 0) []
            (writeTo i.d m fun l => taken s w (some q) (nth l))) ∧
      (∀ q, queueOf i.a = some q → q < 7 → ls.length ≤ (own q).length →
        ∃ t w1, exec word s = .next t ∧
          w1 = (if pops then { w with q1 := w1.q1, q3 := w1.q3, q5 := w1.q5 } else w) ∧
          (pops = true → w1.q1 = w.q1.drop (if q = 1 then ls.length else 0) ∧
            w1.q3 = w.q3.drop (if q = 3 then ls.length else 0) ∧
            w1.q5 = w.q5.drop (if q = 1 ∨ q = 3 then 0 else ls.length)) ∧
          CompletesIn s (if pops ∧ q = 5 ∧ ls ≠ [] then s.acquire iss.wk (s.partOf w) 7
              (s.byteSet (dieOfWk iss.wk) (s.partOf w) (recordRanges (w.q5.take ls.length))) else s) t iss w1 (writeTo i.d m fun l => (own q).getD (nth l) 0)) ∧
      (∀ q, queueOf i.a = some q → q < 7 → (own q).length < ls.length →
        ∃ t, exec word s = .next t ∧ BlocksIn s t iss w word (.records q ls.length))) ∧
    ((Instr.qcount i).wf = true → ∃ t, exec (.qcount i) s = .next t ∧
      Completes s t iss w (writeTo i.d m fun _ => BitVec.ofNat 64 (
        match queueOf i.a, s.block w.blk with
        | some 6, _ => (s.core (coreOfWk iss.wk)).spawnQ.length
        | some q, some b => if q < 6 then (own q).length else (b.fifo q).length
        | _, _ => 0)))

namespace Sys2Proof.Machine.Claims

open Sys2Proof

/-- The spawn record of a lane (R286). -/
def recordOf (s : State) (iss : Issue) (w : Warp) (i : BIns) (entry : Pc) (j : JoinCtr) (l : Nat) : SpawnRec :=
  { entry, blk := w.blk, depth := w.depth + 1, join := j, payload := s.group iss.wk w i.b l (i.lo.toNat / 8),
    parent := w.uid, parentSlot := slotOfWk iss.wk, lane := l, ck := s.ck }

/-- A record but for when it came to the queue and where its place in the spill area is. -/
def bareRec (r : SpawnRec) : SpawnRec := { r with arr := 0, spillIx := 0, spillAt := none }

/-- A core after the gatherer has taken records and launched every partial child warp that holds one of a warp (R288,
R289): no record is lost, and only the spawn queue and the gatherer have changed. -/
abbrev Flushed (c c' : Core) (uid : Nat) : Prop :=
  c' = { c with spawnQ := c'.spawnQ, gather := c'.gather } ∧
  (c'.gather.flatMap (·.recs) ++ c'.spawnQ).Perm (c.gather.flatMap (·.recs) ++ c.spawnQ) ∧
  (∀ g ∈ c'.gather, (∃ r ∈ g.recs, r.parent = uid) → g.launched = true)

/-- A matrix word's push: the command joins q0 of its core, after those there (R249). -/
abbrev PushesMatrix (s u t : State) (iss : Issue) (w : Warp) (c : MCmd) : Prop :=
  let core := coreOfWk iss.wk
  CompletesIn s { u with cores := KMap.set u.cores core { u.core core with
    q0 := (u.core core).q0 ++ [c], mxSince := if (u.core core).q0 = [] then u.ck else (u.core core).mxSince } } t iss w {}

/-- Byte `k` of a handle. -/
def handleWord (h : BitVec 256) (k : Nat) : Nat := h.toNat / 2 ^ (64 * k) % 2 ^ 64

/-- The byte of the C-buffer that a warp reads at an offset (R66). -/
def localC (s : State) (wk : Nat) (w : Warp) (b : Block) (a : Nat) : Byte :=
  match if s.isMember wk w then KMap.get? b.specC (a / 64) else none with
  | some d => lineByte d (a % 64)
  | none => Memory.read b.cMem a

/-- The word leaves the machine as `u` but for its block, which is `b'`. -/
abbrev WithBlock (u : State) (k : Nat) (b' : Block) : State := { u with blocks := KMap.set u.blocks k b' }

end Sys2Proof.Machine.Claims

/-- R25, R285 to R290: SPAWN adds the number of participating lanes to its counter in one atomic and enters one record for each,
with its entry, payload and lane, in the core's spawn queue or spill area; SPAWNFL and JOIN launch the warp's partial child
warps, on whichever core their records were gathered; JOIN completes when its counter reads zero: at once, or, its warp Blocked, at
the visit after a JOIN_POLL that reads zero. At depth 255 SPAWN faults SPAWNDEPTH (0x0A). (For a warp with nothing to release, and
counters in the A-buffer but for SPAWN's atomic.) Readings that are the model’s own: log entries 35 and 36. -/
def Obligations.SpawnAndJoin : Prop :=
  ∀ (s : State) (iss : Issue) (w : Warp) (i : BIns), Issues s iss w →
    let core := coreOfWk iss.wk
    let ls := lanesOf (w.partLanes iss i.g)
    let glob := i.lo.getLsbD 2
    let addr := (s.uni iss.wk w i.a).toNat
    let j : JoinCtr := { glob, addr }
    let space := if glob then 0 else 1
    ((Instr.spawn i).wf = true → w.codesOk [(i.a, 1), (if i.lo.toNat / 8 = 0 then .none else i.b, i.lo.toNat / 8)] = true →
      (ls = [] → ∃ t, exec (.spawn i) s = .next t ∧ Completes s t iss w {}) ∧
      (∀ e u p r old, ls ≠ [] → NothingToRelease w → addr % 8 = 0 → s.isMember iss.wk w = false →
        s.spawnEntry w (iss.pc + i.off.signExtend 32) = some e → i.lo.toNat / 8 ≤ e.regs → w.depth < 255 →
        (glob = false → ∃ b, LocalOk s iss w b (maskOf [ls.headD 0]) (fun _ => addr) 8) →
        s.spawnCounter iss w i (ls.headD 0) addr = .ok (u, p) → u.spawnRoomOk core w.launch ls.length = true →
        u.performAtomic iss.wk w space (if glob then 6 else 3) p (fun bs => leBytes 8 (leNat bs + ls.length)) = (r, old, true) →
        ∃ t v k, exec (.spawn i) s = .next t ∧ CompletesIn s v t iss w {} ∧
          v = { r with cores := KMap.set r.cores core k, hbm := v.hbm, dies := v.dies, parts := v.parts, free := v.free } ∧
          k = { s.core core with spawnQ := k.spawnQ, spillQ := k.spillQ } ∧
          ((k.spawnQ ++ k.spillQ).map bareRec).Perm (((s.core core).spawnQ ++ (s.core core).spillQ).map bareRec ++
            ls.map (recordOf s iss w i e.entry j)) ∧
          ((s.core core).spillQ = [] → (s.core core).queued + ls.length ≤ 1024 →
            k.spillQ = [] ∧ v = { r with cores := KMap.set r.cores core k } ∧
            ∀ x ∈ k.spawnQ, x ∈ (s.core core).spawnQ ∨ x.arr = s.ck)) ∧
      (∀ b e, ls ≠ [] → addr % 8 = 0 → glob = false → LocalOk s iss w b (maskOf [ls.headD 0]) (fun _ => addr) 8 →
        s.spawnEntry w (iss.pc + i.off.signExtend 32) = some e → i.lo.toNat / 8 ≤ e.regs → w.depth = 255 →
        exec (.spawn i) s = .next (s.takeFault iss { cause := 0x0A }))) ∧
    ((Instr.spawnfl i).wf = true → ∃ t u, exec (.spawnfl i) s = .next t ∧
      (w.partLanes iss i.g = 0 → Completes s t iss w {}) ∧
      (w.partLanes iss i.g ≠ 0 → CompletesIn s u t iss w {} ∧ u = { s with cores := u.cores } ∧
        ∀ c, Flushed (s.core c) (u.core c) w.uid)) ∧
    ((Instr.join i).wf = true →
      (w.waitMet = true → ∃ t, exec (.join i) s = .next t ∧
        CompletesIn s (if glob then s.acquire iss.wk (s.partOf w) 6 .all else s) t iss w {}) ∧
      (w.joins = false → w.waitMet = false → w.electedGuard iss i.g = false →
        ∃ t, exec (.join i) s = .next t ∧ Completes s t iss w {}) ∧
      (∀ b, w.joins = false → w.waitMet = false → w.electedGuard iss i.g = true → glob = false → addr % 8 = 0 →
        LocalOk s iss w b (maskOf [iss.elected]) (fun _ => addr) 8 → s.isMember iss.wk w = false → ∃ t u,
          exec (.join i) s = .next t ∧ u = { s with cores := u.cores } ∧ (∀ c, Flushed (s.core c) (u.core c) w.uid) ∧
          (numAt (Memory.read b.aMem) addr 8 = 0 → CompletesIn s u t iss w {}) ∧
          (numAt (Memory.read b.aMem) addr 8 ≠ 0 → BlocksIn u t iss w (.join i) .join)) ∧
      (∀ b pd, w.st = .blocked → w.pend = some pd → pd.iss = iss → pd.word = .join i → pd.why = .join →
        s.coreIssues iss.wk w = true → glob = false → addr % 8 = 0 →
        LocalOk s iss w b (maskOf [iss.elected]) (fun _ => addr) 8 → s.isMember iss.wk w = false →
        (numAt (Memory.read b.aMem) addr 8 = 0 → exec (.joinPoll iss.wk) s = .next (s.setWarp iss.wk
          { w with st := .run, pend := some { pd with met := true } })) ∧
        (numAt (Memory.read b.aMem) addr 8 ≠ 0 → exec (.joinPoll iss.wk) s = .next s)))

/-- R292 to R294, R371, R377: EMIT puts the records of its lanes, as one run, in the node's queue, or holds them for a member
of an open transaction, and waits, Blocked, where the queue has no room; MIGRATE to the die it runs on has no effect, and to
another sends a request for a landing slot there and waits; LWAKE begins the wake of every sleeping or narrow link on the route
and remembers the links. Readings that are the model’s own: log entries 34 and 37. -/
def Obligations.EmitMigrateWake : Prop :=
  ∀ (s : State) (iss : Issue) (w : Warp) (i : BIns), Issues s iss w →
    let ls := lanesOf (w.partLanes iss i.g)
    let n := i.lo.toNat / 4 + 1
    let part := s.partOf w
    let node := (s.uni iss.wk w i.a).toNat % 4096
    let recs := ls.map fun l => s.group iss.wk w i.b l n
    let die := dieOfWk iss.wk
    let addr := (s.uni iss.wk w i.a).toNat
    ((Instr.emit i).wf = true → w.codesOk [(i.a, 1), (i.b, n)] = true →
      (ls = [] → ∃ t, exec (.emit i) s = .next t ∧ Completes s t iss w {}) ∧
      (∀ g k, ls ≠ [] → (s.launchOf w).graph = some (g, k) → s.emitPerm w node n = false → NothingToRelease w →
        s.isDet w.blk = false →
        let v := s.modRun part g node fun r => { r with recs := r.recs ++ recs }
        (s.isMember iss.wk w = false → s.nodeRoom part g node recs.length = false → ∃ t, exec (.emit i) s = .next t ∧
          BlocksIn s t iss w (.emit i) .nodeRoom) ∧
        (s.isMember iss.wk w = false → s.nodeRoom part g node recs.length = true → ∃ t, exec (.emit i) s = .next t ∧
          (v.graphAct part g = none → ((v.graph part g).all fun x => !x.over) = true → CompletesIn s v t iss w {})) ∧
        (∀ b, s.block w.blk = some b → s.isMember iss.wk w = true → 2 * recs.length ≤ s.freeA b → ∃ t,
          exec (.emit i) s = .next t ∧
          CompletesIn s (WithBlock s w.blk { b with heldRecs := b.heldRecs ++ [(node, recs)] }) t iss w {}))) ∧
    ((Instr.migrate i).wf = true →
      (w.electedGuard iss i.g = false → w.pend = none → ∃ t, exec (.migrate i) s = .next t ∧ Completes s t iss w {}) ∧
      (∀ u at_, w.electedGuard iss i.g = true → s.landingAsked w = false → s.migratePerm iss.wk w = false →
        s.translate die part addr 0 0 = (u, .ok at_) →
        let target := dieOfPa at_.pa
        (target = die → ∃ t, exec (.migrate i) s = .next t ∧ CompletesIn s u t iss w {}) ∧
        (target ≠ die → u.reach die target = true → u.waitOk w 0x1F = true → w.q1 = [] → w.q3 = [] → w.q5 = [] →
          NothingToRelease w → ∃ t, exec (.migrate i) s = .next t ∧
          BlocksIn { u with dies := KMap.set u.dies target { u.die target with landNew := (u.die target).landNew ++
            [{ uid := w.uid, wk := iss.wk, domain := at_.pa / 2 ^ 36 % 8, charge := (w.nregs + 7) / 8 * 8 }] } }
            t iss w (.migrate i) .landing))) ∧
    ((Instr.lwake i).wf = true →
      (w.electedGuard iss i.g = false → ∃ t, exec (.lwake i) s = .next t ∧ Completes s t iss w {}) ∧
      (w.electedGuard iss i.g = true → ∃ t w1 ds,
        let links := s.routeLinks die (addr % 4)
        exec (.lwake i) s = .next t ∧ CompletesIn s { s with dies := ds } t iss w1 {} ∧
        w1 = { w with lwake := w1.lwake } ∧ (∀ k, k ∈ w1.lwake ↔ k ∈ w.lwake ∨ k ∈ links) ∧
        ∀ d < 4, t.die d = { s.die d with port0 := (t.die d).port0, port1 := (t.die d).port1 } ∧
          (t.die d).port0 = (if ∃ k ∈ links, ringDie k = d then
            (if ((s.die d).port0.st = .sleep ∨ (s.die d).port0.st = .narrow) ∧ (s.die d).port0.waking = none then { (s.die d).port0 with waking := some s.ck }
             else (s.die d).port0) else (s.die d).port0) ∧
          (t.die d).port1 = (if ∃ k ∈ links, ringDie (k + 1) = d then
            (if ((s.die d).port1.st = .sleep ∨ (s.die d).port1.st = .narrow) ∧ (s.die d).port1.waking = none then { (s.die d).port1 with waking := some s.ck }
             else (s.die d).port1) else (s.die d).port1)))

/-- R173, R174, R248, R249, R256, R258, R260, R266: MLDW, MMA, MMAS, MMAG and MZERO whose checks pass append their command to q0, with
their operands copied, and write no register; with the queue full, or the engine in reset, the warp is Blocked. With a false
guard of the lowest active lane they do nothing. RF, and MON on MMA, MMAS and MMAG, outside an open transaction are ILLEGAL
(0x01), whatever the guard. Readings that are the model’s own: log entries 40 and 44. -/
def Obligations.MatrixPushes : Prop :=
  ∀ (s : State) (iss : Issue) (w : Warp) (i : XIns) (b : Block), Issues s iss w → s.block w.blk = some b →
    s.atHome iss.wk w = true →
    let core := s.core (coreOfWk iss.wk)
    let arr := i.fl.toNat % 4
    let room := core.q0.length < 16 ∧ core.mxReset = none
    let member := s.isMember iss.wk w
    let base : MCmd := { uid := w.uid, blk := w.blk, pc := iss.pc, hdr := iss.hdr, arr, lanes := iss.lanes,
                         tile := i.t.toNat, recd := i.fl.getLsbD 2, mon := i.lad.getLsbD 1, member }
    let owed := i.fl.getLsbD 2 = true → w.q1.length + s.owedMatrix w < 64
    let m := 16 * 2 ^ (i.a.immNat.getD 0)
    let rf := i.lad.getLsbD 2
    let mon := i.lad.getLsbD 1
    let illegal := s.takeFault iss { cause := 1 }
    (w.electedGuard iss i.g = false →
      (∃ t, exec (.mzero i) s = .next t ∧ Completes s t iss w {}) ∧
      ((rf = true → member = true) → ∃ t, exec (.mldw i) s = .next t ∧ Completes s t iss w {}) ∧
      ((rf = true ∨ mon = true → member = true) → ∀ word ∈ [Instr.mma i, .mmas i, .mmag i],
        ∃ t, exec word s = .next t ∧ Completes s t iss w {})) ∧
    (member = false → (rf = true → exec (.mldw i) s = .next illegal) ∧
      (rf = true ∨ mon = true → ∀ word ∈ [Instr.mma i, .mmas i, .mmag i], exec word s = .next illegal)) ∧
    (∀ hb, w.electedGuard iss i.g = true → (Instr.mldw i).wf = true → i.b = .h hb →
      let hv := w.h hb.toNat
      let h := handleOf hv
      let f := if i.lad.getLsbD 2 then (s.rungFmt w).2 else (i.fb.toNat, h.scl)
      let spr := i.fl.getLsbD 2
      (i.lad.getLsbD 2 = true → member = true) → h.reserved = false → h.space = 2 → mxOk f.1 f.2 = true →
      h.base % 16384 = 0 → h.pitch % 16384 = 0 →
      rangesFit (groupRanges h 1 arr f.2 (mElems f.1 * if spr then 2 else 1) spr) b.wSize = true →
      let c := { base with op := .mldw, recd := false, fb := f.1, scb := f.2, spr, hB := some hv }
      (room → ∃ t, exec (.mldw i) s = .next t ∧ PushesMatrix s s t iss w c) ∧
      (¬ room → ∃ t, exec (.mldw i) s = .next t ∧ BlocksIn s t iss w (.mldw i) (.engine .matrix))) ∧
    (w.electedGuard iss i.g = true → (Instr.mzero i).wf = true → 1024 * i.t.toNat + 512 * m ≤ b.cSize →
      let c := { base with op := .mzero, rows := List.range m }
      (room → owed → ∃ t, exec (.mzero i) s = .next t ∧ PushesMatrix s s t iss w c) ∧
      (¬ room → ∃ t, exec (.mzero i) s = .next t ∧ BlocksIn s t iss w (.mzero i) (.engine .matrix))) ∧
    ∀ p ∈ [(MOp.mma, (.mma : XIns → Instr)), (.mmas, .mmas), (.mmag, .mmag)], ∀ ha u rows,
      w.electedGuard iss i.g = true → (p.2 i).wf = true → i.a = .h ha →
      let sparse := decide (p.1 = .mmas)
      let gather := decide (p.1 = .mmag)
      let hvA := w.h ha.toNat
      let hvB := match i.b with
        | .h k => some (w.h k.toNat)
        | _ => none
      let hA := handleOf hvA
      let hB := hvB.map handleOf
      let n := if gather then hA.gRows else hA.rows
      let fa := if i.lad.getLsbD 2 then (s.rungFmt w).1 else (i.fa.toNat, hA.scl)
      ∀ side, s.bSide iss w i sparse = some side → (rf = true ∨ mon = true → member = true) →
      mmaIllegal hA hB fa.1 fa.2 (some side) n sparse = false → mmaMisaligned hA hB = none →
      (gather = true → hA.base + hA.xOff + 2 * n ≤ b.aSize) → s.gatherRows iss w hA gather n = .ok (u, rows) →
      (∀ r ∈ rows, gather = true → r < hA.rows) →
      let shape := stepShape fa.1 side.fmt hA.rowBytes sparse
      let reads := aRanges hA rows fa.2 shape.2.2
      rangesFit reads b.aSize = true →
      (∀ h, hB = some h → rangesFit (groupRanges h h.rows arr side.scl (mElems side.fmt * if sparse then 2 else 1) sparse)
        (if h.space = 2 then b.wSize else 2 ^ 52) = true) →
      1024 * i.t.toNat + 512 * n ≤ b.cSize → (hB = none → s.noWeights iss w i sparse = false) →
      let held := (hB.any fun h => h.space == 0) || b.mapsRange reads
      let c := { base with op := p.1, fa := fa.1, sca := fa.2, fb := side.fmt, scb := side.scl, spr := sparse, hA := hvA,
                           hB := hvB, rows, k := shape.2.2,
                           thr := if i.lad.getLsbD 1 then b.tx.thr.getD (s.rungThr w) else 0, held,
                           before := if held then w.threads else [] }
      (room → owed → ∃ t, exec (p.2 i) s = .next t ∧ PushesMatrix s u t iss w c) ∧
      (¬ room → ∃ t, exec (p.2 i) s = .next t ∧ BlocksIn u t iss w (p.2 i) (.engine .matrix))

/-- R253, R267: HMAKE joins four scalars to a handle, HSET replaces one word of one; MRD gives each participating lane its
bytes of a row of the C-buffer, MWR stores each such lane's, and no other byte changes. With HALF a lane holds 8 bytes, else
16. (MWR by a warp that is no member.) Readings that are the model’s own: log entries 41 and 106. -/
def Obligations.HandleAndTileWords : Prop :=
  ∀ (s : State) (iss : Issue) (w : Warp) (i : XIns), Issues s iss w →
    let on := w.electedGuard iss i.g = true
    let n := if i.fl.getLsbD 1 then 8 else 16
    let part := w.partLanes iss i.g
    let off := 1024 * i.t.toNat + 512 * ((s.uni iss.wk w i.a).toNat % 256)
    (∀ q a, (Instr.hmake i).wf = true → i.q = .h q → i.a = .s a → ∃ t x, exec (.hmake i) s = .next t ∧
      Completes s t iss w { h := fun r => if r = q.toNat ∧ on then some x else none } ∧
      ∀ k < 4, handleWord x k = (w.s (a.toNat + k)).toNat) ∧
    (∀ q, (Instr.hset i).wf = true → i.q = .h q → ∃ t x, exec (.hset i) s = .next t ∧
      Completes s t iss w { h := fun r => if r = q.toNat ∧ on then some x else none } ∧
      ∀ k < 4, handleWord x k =
        if k = i.fl.toNat % 4 then (s.uni iss.wk w i.a).toNat else handleWord (w.h q.toNat) k) ∧
    ((Instr.mrd i).wf = true → w.codesOk [(i.q, n / 8)] = true → part = 0 → ∃ t, exec (.mrd i) s = .next t ∧
      Completes s t iss w {}) ∧
    (∀ b, s.block w.blk = some b → s.atHome iss.wk w = true → w.codesOk [(i.q, n / 8)] = true → off + 512 ≤ b.cSize →
      ((Instr.mrd i).wf = true → ∃ t, exec (.mrd i) s = .next t ∧
        Completes s t iss w (groupTo i.q part n fun l k => localC s iss.wk w b (off + n * l + k))) ∧
      ((Instr.mwr i).wf = true → s.isMember iss.wk w = false → Memory.wf b.cMem = true → ∃ t b',
        exec (.mwr i) s = .next t ∧ CompletesIn s (WithBlock s w.blk b') t iss w {} ∧
        b' = { b with cMem := b'.cMem, specC := b'.specC } ∧
        ∀ a, Memory.read b'.cMem a =
          if off ≤ a ∧ a < off + 32 * n ∧ part.getLsbD ((a - off) / n) then
            groupByte s iss.wk w i.q ((a - off) / n) ((a - off) % n)
          else Memory.read b.cMem a)) ∧
    (∀ b, s.block w.blk = some b → s.atHome iss.wk w = true → w.codesOk [(i.q, n / 8)] = true → b.cSize < off + 512 →
      part ≠ 0 → ∀ word ∈ [Instr.mrd i, .mwr i], exec word s = .next (s.takeFault iss
        { cause := 4, info := BitVec.ofNat 64 off,
          recs := [{ cause := 4, lanes := maskOf [iss.elected], addr := off, space := 3 }] }))

/-- R112, R115 to R117, R268 to R270: TXBEGIN opens its block's transaction when every own warp has begun, and else waits;
TXCOMMIT waits for the other own warps, and then replaces the committed lines by the speculative ones and closes, and the warps
that waited go on; TXABORT discards the transaction, and its block is to be placed again a rung up; outside an open transaction
TXCOMMIT, TXABORT, MONSET and MONRD are ILLEGAL. TXSTAT and MONRD read Tables 9 and 10, MONSET sets thresholds. (TXCOMMIT without an object, in
a launch that is not deterministic, of a block with nothing held, no store waiting and no trip at the top rung.) Readings
that are the model’s own: log entries 24, 67 and 70. -/
def Obligations.TransactionWords : Prop :=
  ∀ (s : State) (iss : Issue) (w : Warp) (i : XIns) (b : Block), Issues s iss w → s.block w.blk = some b → w.pend = none →
    let illegal := s.takeFault iss { cause := 1 }
    let read := fun (x : Word) => writeTo i.q (w.partLanes iss i.g) fun _ => x
    (w.electedGuard iss i.g = false →
      ∀ word ∈ [Instr.txbegin i, .txabort i, .monset i], ∃ t, exec word s = .next t ∧ Completes s t iss w {}) ∧
    (w.electedGuard iss i.g = false → b.tx.arrived.contains w.uid = false →
      ∃ t, exec (.txcommit i) s = .next t ∧ Completes s t iss w {}) ∧
    (w.electedGuard iss i.g = true →
      ((Instr.txbegin i).wf = true → w.child = false → s.rungsOf (s.launchOf w) ≠ 0 → b.tx.phase = .idle →
        let tx := { b.tx with begun := b.tx.begun ++ [w.uid] }
        let v := WithBlock s w.blk { b with tx }
        (v.canOpen w.blk = true → ∃ t, exec (.txbegin i) s = .next t ∧
          CompletesIn s (WithBlock s w.blk { b with tx := { tx with phase := .open } }) t iss w {}) ∧
        (v.canOpen w.blk = false → ∃ t, exec (.txbegin i) s = .next t ∧ BlocksIn v t iss w (.txbegin i) .txbegin)) ∧
      (b.tx.phase = .idle ∨ b.tx.phase = .closed → b.tx.arrived.contains w.uid = false →
        exec (.txcommit i) s = .next illegal ∧ exec (.txabort i) s = .next illegal ∧ exec (.monset i) s = .next illegal) ∧
      ((Instr.txcommit i).wf = true → w.child = false → b.tx.phase = .open → b.reserved = false → b.ended = false →
        i.a = .sp .zero → b.tx.arrived.contains w.uid = false → b.tx.named = false ∨ (b.tx.obj = none ∧ b.tx.ord = false) →
        s.childrenLeft w.blk = false → s.isDet w.blk = false → b.tx.topTrip = false →
        (∀ e ∈ s.warps, e.2.blk = w.blk → ∀ v, s.warp e.1 = some v → v.sq = []) →
        (∀ p ∈ s.parts, ∀ f ∈ p.2.frames, f.2.w.blk = w.blk → f.2.w.sq = []) → b.heldG = [] → b.heldH = [] → b.heldR = [] → b.heldRecs = [] →
        let tx := { b.tx with arrived := b.tx.arrived ++ [w.uid], named := true, obj := none, ord := false, objAttr := {} }
        ((∃ v ∈ s.ownLive w.blk, tx.arrived.contains v.uid = false) → ∃ t, exec (.txcommit i) s = .next t ∧
          BlocksIn (WithBlock s w.blk { b with tx }) t iss w (.txcommit i) .txcommit) ∧
        ((∀ v ∈ s.ownLive w.blk, tx.arrived.contains v.uid = true) → s.commandsLeft w.blk = false →
          Memory.wf b.aMem = true → Memory.wf b.cMem = true → ∃ t b' ds, exec (.txcommit i) s = .next t ∧
          CompletesIn s { WithBlock s w.blk b' with dies := ds, launches := t.launches } t iss w {} ∧
          b' = { b with aMem := b'.aMem, cMem := b'.cMem, specA := [], specC := [], dirty := b'.dirty, reservedA := 0,
                        tx := { tx with arrived := b.tx.arrived, phase := .closed, synced := true } } ∧
          (∀ d, t.die d = { s.die d with history := (t.die d).history }) ∧
          (∀ a, (KMap.get? b.specA (a / 64) = none ∧ Memory.read b'.aMem a = Memory.read b.aMem a) ∨
            ∃ x, (a / 64, x) ∈ b.specA ∧ Memory.read b'.aMem a = lineByte x (a % 64)) ∧
          (∀ a, (KMap.get? b.specC (a / 64) = none ∧ Memory.read b'.cMem a = Memory.read b.cMem a) ∨
            ∃ x, (a / 64, x) ∈ b.specC ∧ Memory.read b'.cMem a = lineByte x (a % 64)))) ∧
      ((Instr.txabort i).wf = true → s.isMember iss.wk w = true → b.rung < s.topRung b →
        (∀ e ∈ s.blockPlaces w.blk, ∀ q ∈ e.2.sq, q.member = true) → ∃ t b', exec (.txabort i) s = .next t ∧
        (∀ k v, t.warp k = some v → v.blk ≠ w.blk) ∧ t.block w.blk = some b' ∧ b'.aMem = b.aMem ∧ b'.cMem = b.cMem ∧
        b'.wMem = b.wMem ∧ b'.specA = [] ∧ b'.specC = [] ∧ b'.heldG = [] ∧ b'.heldH = [] ∧ b'.heldR = [] ∧ b'.heldRecs = [] ∧
        b'.reserved = true ∧ b'.tx = {} ∧ t.hbm = s.hbm ∧ t.bus = s.bus ∧
        ∀ l, s.launch b.launch = some l → ∃ l' u, t.launch b.launch = some l' ∧ l'.unplaced = u :: l.unplaced ∧
          u.idx = b.idx ∧ u.replay = true ∧ u.rung = b.rung + 1 ∧ u.txseq = b.txseq + 1 ∧ l'.replays = l.replays + 1) ∧
      (b.reserved = false → b.tx.phase = .closed → b.tx.arrived.contains w.uid = true → ∃ t, exec (.txcommit i) s = .next t ∧
        CompletesIn s (WithBlock s w.blk { b with tx := { b.tx with
          arrived := b.tx.arrived.filter (· != w.uid) } }) t iss w {}) ∧
      ((Instr.monset i).wf = true → s.isMember iss.wk w = true → ∃ t, exec (.monset i) s = .next t ∧
        CompletesIn s (WithBlock s w.blk { b with tx := { b.tx with
          thr := some ((s.uni iss.wk w i.a).setWidth 28) } }) t iss w {}) ∧
      ((Instr.txstat i).wf = true → w.codesOk [(i.q, 1)] = true → ∃ t x, exec (.txstat i) s = .next t ∧
        Completes s t iss w (read x) ∧ x.toNat % 8 = b.rung % 8 ∧ x.getLsbD 5 = b.txOpen ∧ x.getLsbD 6 = b.narrow ∧
        x.getLsbD 7 = b.tx.topTrip ∧ x.toNat / 2 ^ 16 % 2 ^ 16 = b.usedA % 2 ^ 16 ∧
        x.toNat / 2 ^ 32 % 2 ^ 16 = b.usedC % 2 ^ 16 ∧ x.toNat / 2 ^ 48 = 0) ∧
      ((Instr.monrd i).wf = true → w.codesOk [(i.q, 1)] = true →
        (s.isMember iss.wk w = true → ∃ t x, exec (.monrd i) s = .next t ∧ Completes s t iss w (read x) ∧
          x.toNat % 2 ^ 24 = min b.tx.monN (2 ^ 24 - 1) ∧ x.toNat / 2 ^ 24 % 2 ^ 24 = min b.tx.monU (2 ^ 24 - 1) ∧
          x.toNat / 2 ^ 48 % 2 ^ 8 = min b.tx.monC 255 ∧ x.toNat / 2 ^ 56 = b.tx.tripped.toNat) ∧
        (s.isMember iss.wk w = false → exec (.monrd i) s = .next illegal)))

/-- R249, R271 to R277: CPY and COLL whose checks pass append their command to q2 of the cluster and to q4 of the die, with
their handles, rows and control words copied, and write no register; with the queue full the warp is Blocked. With a false
guard of the lowest active lane they do nothing. (CPY by a warp that is no member of an open transaction; COLL in a launch
that is not deterministic, by a warp with nothing to release.) Readings that are the model’s own: log entries 18 and 53. -/
def Obligations.CopyAndCollectivePushes : Prop :=
  ∀ (s : State) (iss : Issue) (w : Warp) (i : XIns) (hs hd : BitVec 4), Issues s iss w → i.a = .h hs → i.b = .h hd →
    let cl := clusterOfWk iss.wk
    let die := dieOfWk iss.wk
    let part := s.partOf w
    let back := s.backOf w.activeCode iss.pc
    let reg := fun k => w.s (i.t.toNat + k)
    let hS := handleOf (w.h hs.toNat)
    let hD := handleOf (w.h hd.toNat)
    (w.electedGuard iss i.g = false → ∀ word ∈ [Instr.cpy i, .coll i],
      ∃ t, exec word s = .next t ∧ Completes s t iss w {}) ∧
    (∀ u v rows, w.electedGuard iss i.g = true → (Instr.cpy i).wf = true → s.isMember iss.wk w = false →
      cpyIllegal i.fl.toNat hS hD = false → hS.misaligned 16 = false → hD.misaligned 16 = false →
      let scope := (reg 0).field 26 24
      let c : TwCmd :=
        { uid := w.uid, blk := w.blk, core := coreOfWk iss.wk, pc := iss.pc, kind := i.fl.toNat, hS := w.h hs.toNat,
          hD := w.h hd.toNat, ctl := reg 0, cval := reg 1,
          acq := if scope = 0 then none else some ((reg 0).getLsbD 27, (reg 2).toNat, scope), member := false,
          slot := slotOfWk iss.wk, opc := back.1.toNat, iter := back.2, rows }
      (c.cwe = true → c.cwOff % 8 = 0) → (scope ≠ 0 → (reg 2).toNat % 64 = 0) →
      (if i.fl = 2 then s.gatherList iss w (reg 3).toNat hD.rows = .ok (u, rows) else u = s ∧ rows = List.range hS.rows) →
      (i.fl = 2 → ∀ r ∈ rows, r < hS.rows) → u.scratchOk iss.wk w c = true → c.globFits = true → u.cwOk c = true →
      u.copyObject iss w c = .ok v →
      ((v.cluster cl).q2.length < 32 → (c.recd = true → w.q3.length + v.owedCopies w < 64) →
        ∃ t r, exec (.cpy i) s = .next t ∧ CompletesIn s r t iss w {} ∧
          r = { v with
            clusters := KMap.set v.clusters cl
              { v.cluster cl with q2 := (v.cluster cl).q2 ++ [{ c with id := (v.partD part).nextCmd }] }
            parts := r.parts
            blocks := r.blocks } ∧
          (∀ k, r.block k = v.block k) ∧
          ∀ p, v.part part = some p → r.part part = some { p with nextCmd := (p.nextCmd + 1) % 0x7FC0 }) ∧
      (32 ≤ (v.cluster cl).q2.length → ∃ t, exec (.cpy i) s = .next t ∧ BlocksIn v t iss w (.cpy i) (.engine .tilewalk))) ∧
    (∀ g rank, w.electedGuard iss i.g = true → (Instr.coll i).wf = true → s.isMember iss.wk w = false →
      s.isDet w.blk = false → NothingToRelease w →
      let c : CollCmd :=
        { uid := w.uid, blk := w.blk, core := coreOfWk iss.wk, part, pc := iss.pc, kind := i.fl.toNat, hS := w.h hs.toNat,
          hD := w.h hd.toNat, ctl := reg 0, tag := reg 1, slot := slotOfWk iss.wk, opc := back.1.toNat, iter := back.2 }
      s.communicator part c.comm = some (g, rank) → hS.reserved = false → hD.reserved = false →
      collShapeBad i.fl.toNat g hS hD = false → hS.misaligned 64 = false → hD.misaligned 64 = false → hS.space = 0 →
      hD.space = 0 → hS.passes = false → hD.passes = false → s.collPerm c (some (g, rank)) = false →
      ((s.die die).q4.length < 64 → w.q5.length + s.owedColl w < 64 → ∃ t r, exec (.coll i) s = .next t ∧
        CompletesIn s r t iss w {} ∧ r.hbm = s.hbm ∧ r.bus = s.bus ∧ r.blocks = s.blocks ∧
        r.nextTicket = s.nextTicket + 1 ∧
        (r.die die).q4 = (s.die die).q4 ++ [{ c with g, rank, id := (s.partD part).nextCmd, seq := s.nextTicket }]) ∧
      (64 ≤ (s.die die).q4.length → ∃ t, exec (.coll i) s = .next t ∧
        BlocksIn s t iss w (.coll i) (.engine .collective)))

namespace Sys2Proof.Machine.Claims

open Sys2Proof

/-! ### One part of the device has changed -/

/-- Nothing but a partition has changed, and that is `x`. -/
abbrev OnlyPart (s t : State) (p : Nat) (x : Part) : Prop :=
  t = { s with parts := t.parts } ∧ ∀ k, t.part k = if k = p then some x else s.part k

/-- Nothing but a core has changed, and that is `c`. -/
abbrev OnlyCore (s t : State) (core : Nat) (c : Core) : Prop :=
  t = { s with cores := t.cores } ∧ ∀ k, t.core k = if k = core then c else s.core k

/-- Nothing but a cluster has changed, and that is `c`. -/
abbrev OnlyCluster (s t : State) (cl : Nat) (c : Cluster) : Prop :=
  t = { s with clusters := t.clusters } ∧ ∀ k, t.cluster k = if k = cl then c else s.cluster k

/-- Nothing but a die has changed, and that is `d`. -/
abbrev OnlyDie (s t : State) (die : Nat) (d : Die) : Prop :=
  t = { s with dies := t.dies } ∧ ∀ k, t.die k = if k = die then d else s.die k

/-- Nothing but a queue of a partition has changed, and that is `x`. -/
abbrev OnlyQueue (s t : State) (part q : Nat) (x : Queue) : Prop :=
  ∃ P P', s.part part = some P ∧ OnlyPart s t part P' ∧ P' = { P with queues := P'.queues } ∧
    ∀ j, KMap.get? P'.queues j = if j = q then some x else KMap.get? P.queues j

/-! ### Queue programs -/

/-- The front end is at a bytecode of queue `q` of a partition: the queue is `x`, and its program at work is `r`. -/
abbrev QueueRuns (s : State) (part q : Nat) (x : Queue) (r : QRun) : Prop :=
  s.cur = .queue part q ∧ s.queue part q = some x ∧ x.run = some r

/-- The program goes on at bytecode `pc`, with registers as they may have changed: behind the body of a REPT it goes back to
the body's start while repeats are left (R314). -/
abbrev GoesTo (r r' : QRun) (pc : Nat) : Prop :=
  r' = { r with pc := r'.pc, rept := r'.rept, regs := r'.regs } ∧
  (∀ start len left, r.rept = some (start, len, left) → pc = start + len →
    (1 < left → r'.pc = start ∧ r'.rept = some (start, len, left - 1)) ∧ (left ≤ 1 → r'.pc = pc ∧ r'.rept = none)) ∧
  ((∀ start len left, r.rept = some (start, len, left) → pc ≠ start + len) → r'.pc = pc ∧ r'.rept = r.rept)

/-- The bytecode waits, to be run again. -/
abbrev QueueWaits (s t : State) (part q : Nat) (x : Queue) (r : QRun) (w : QWait) : Prop :=
  OnlyQueue s t part q { x with run := some { r with wait := w } }

/-- Something that comes before a LAUNCH or GRAPH of a queue has still to end: a load of microcode, or, after ORDER, the
queue's earlier launches and graphs (R316, R395). -/
abbrev HeldBack (s : State) (x : Queue) : Prop :=
  s.boot.mcload ≠ none ∨ (x.ordered = true ∧ (x.pendingIds ≠ [] ∨ x.pendingGraphs ≠ []))

end Sys2Proof.Machine.Claims

namespace Sys2Proof.Machine

open Sys2Proof Claims

/-- R314: the bytecodes that compute write one register from the packet, their immediate or other registers and go on; RDW
reads a word of its window; JZ goes on behind its distance when its register is zero; REPT notes its body and count; ORDER
holds the queue's next launch back; END consumes the packet. -/
def Claims.ComputingBytecodes : Prop :=
  ∀ (s : State) (part q : Nat) (x : Queue) (r : QRun) (i : QIns), QueueRuns s part q x r →
    let b := i.imm.extractLsb' 0 4
    (∀ p ∈ [(Instr.qpPkw i, r.packet.getD (i.imm.toNat % 8) 0), (.qpLdi i, BitVec.ofNat 64 i.imm.toNat),
            (.qpShli i, r.k i.a <<< (i.imm.toNat % 64)), (.qpAdd i, r.k i.a + r.k b), (.qpAnd i, r.k i.a &&& r.k b),
            (.qpOr i, r.k i.a ||| r.k b)],
      ∃ t r', exec p.1 s = .next t ∧ OnlyQueue s t part q { x with run := some r' } ∧ GoesTo r r' (r.pc + 1) ∧
        ∀ j, r'.k j = if j = i.d then p.2 else r.k j) ∧
    (∀ v u bs, x.wins[i.imm.toNat % 8]? = some v → s.feRead part (v.base + 8 * (r.k i.a).toNat % v.size) 8 = (u, bs) →
      ∃ t r', exec (.qpRdw i) s = .next t ∧ OnlyQueue u t part q { x with run := some r' } ∧ GoesTo r r' (r.pc + 1) ∧
        ∀ j, r'.k j = if j = i.d then leWord bs else r.k j) ∧
    (∃ t r', exec (.qpJz i) s = .next t ∧ OnlyQueue s t part q { x with run := some r' } ∧ r'.regs = r.regs ∧
      GoesTo r r' (if r.k i.a = 0 then r.pc + 1 + i.imm.toNat else r.pc + 1)) ∧
    (∃ t, exec (.qpRept i) s = .next t ∧ OnlyQueue s t part q { x with run := some { r with
      pc := r.pc + 1, rept := some (r.pc + 1, i.imm.toNat % 256, i.imm.toNat / 256) } }) ∧
    (∃ t r', exec (.qpOrder i) s = .next t ∧ OnlyQueue s t part q { x with ordered := true, run := some r' } ∧
      r'.regs = r.regs ∧ GoesTo r r' (r.pc + 1)) ∧
    ∃ t, exec (.qpEnd i) s = .next t ∧ OnlyQueue s t part q { x with run := none, head := x.head + 1 }

/-- R314, R319: WRW writes a register's word at its window's place and goes on; a write that faults posts an event under the
queue's tag, and while such an event waits the bytecode waits. -/
def Claims.WindowWrite : Prop :=
  ∀ (s : State) (part q : Nat) (x : Queue) (r : QRun) (i : QIns) (v : QWindow), QueueRuns s part q x r →
    x.wins[i.imm.toNat % 8]? = some v →
    let va := v.base + 8 * (r.k i.a).toNat % v.size
    (KMap.get? (s.partD part).events (0xFFC0 + q) ≠ none → ∃ t, exec (.qpWrw i) s = .next t ∧
      QueueWaits s t part q x r .write) ∧
    (KMap.get? (s.partD part).events (0xFFC0 + q) = none →
      (∀ u, s.feWrite part va 1 (wordBytes (r.k i.d)) = (u, none) → ∃ t r', exec (.qpWrw i) s = .next t ∧
        OnlyQueue u t part q { x with run := some r' } ∧ r'.regs = r.regs ∧ GoesTo r r' (r.pc + 1) ∧
        ∀ p at_, s.feTranslate part va 1 = (p, .ok at_) → va % 8 = 0 → at_.pa % 8 = 0 → at_.mtype ≤ 1 → at_.cmp = 0 →
          Memory.wf p.hbm = true →
          ∀ a, Memory.read t.hbm a =
            if at_.pa ≤ a ∧ a < at_.pa + 8 then (wordBytes (r.k i.d)).getD (a - at_.pa) 0 else Memory.read p.hbm a) ∧
      (∀ u f, s.feWrite part va 1 (wordBytes (r.k i.d)) = (u, some f) → ∃ t ev, exec (.qpWrw i) s = .next t ∧
        t.queue part q = some { x with run := some { r with wait := .write } } ∧
        KMap.get? (t.partD part).events (0xFFC0 + q) = some ev ∧ ev.who = .front (.word q va (r.k i.d)) ∧ ev.first = f))

/-- R36, R316 to R318, R402: LAUNCH waits while something before it has still to end, or while no argument page is free; a
descriptor that fails a check gives a record with its status; else the arguments are captured in the lowest free page and a
launch of the descriptor starts, every block of it to be placed. (For an image with no specialisation.) -/
def Claims.LaunchBytecode : Prop :=
  ∀ (s : State) (part q : Nat) (x : Queue) (r : QRun) (i : QIns) (v : QWindow), QueueRuns s part q x r →
    x.wins[i.imm.toNat % 8]? = some v →
    (HeldBack s x → ∃ t, exec (.qpLaunch i) s = .next t ∧ QueueWaits s t part q x r .order) ∧
    ∀ u ws, ¬ HeldBack s x → s.feWords part (v.base + 64 * (r.k i.a).toNat % v.size) 8 = (u, ws) →
      let d := parseDesc ws
      let img := s.image (imageKey part d.image)
      let st := launchStatus d img s.ptokCap.toNat
      (∀ y : State, st ≠ 0 → d.seed ≠ 0 → KMap.get? (s.partD part).events (0xFFC0 + q) = none → s.nextUid ∉ x.pendingIds →
        (u.addLaunch
          { part, ctx := x.ctx, queue := q, image := d.image, argPage := 2 ^ 52, nblocks := 0, clusg := d.clusg,
            stackg := d.stackg, dieg := d.dieg, det := d.det, prio := d.prio, seed := d.seed, doneVa := d.done,
            spillVa := d.spill, status := st, phase := .finishing }).1.feWrite part d.done 1
          (recordBytes st 0 0 0 d.det false d.seed 0) = (y, none) →
        ∃ t r', exec (.qpLaunch i) s = .next t ∧ t.hbm = y.hbm ∧ t.bus = y.bus ∧
          t.queue part q = some { x with ordered := false, run := some r' } ∧ GoesTo r r' (r.pc + 1)) ∧
      (st = 0 → s.freePage part = none → ∃ t, exec (.qpLaunch i) s = .next t ∧ QueueWaits u t part q x r .argPage) ∧
      (∀ page y g, st = 0 → u.freePage part = some page → KMap.get? (s.partD part).events (0xFFC0 + q) = none →
        u.capture part page d.args d.arglen = (y, none) → img = some g → g.nospec = true → d.seed ≠ 0 →
        ∃ t l r', exec (.qpLaunch i) s = .next t ∧ t.launch s.nextUid = some l ∧ t.nextUid = s.nextUid + 1 ∧
          l = { part, ctx := x.ctx, queue := q, image := d.image, phase := .running, argPage := page, nblocks := d.nblocks,
                clusg := d.clusg, stackg := d.stackg, dieg := d.dieg, det := d.det, prio := d.prio, seed := d.seed,
                doneVa := d.done, spillVa := d.spill, key := l.key, detHbm := l.detHbm, detBus := l.detBus,
                unplaced := (List.range d.nblocks).map fun k => { idx := k } } ∧
          (∀ k ≠ s.nextUid, t.launch k = s.launch k) ∧ (t.partD part).pages = (s.partD part).pages ++ [page] ∧
          t.queue part q = some { x with ordered := false, pendingIds := x.pendingIds ++ [s.nextUid], run := some r' } ∧
          GoesTo r r' (r.pc + 1) ∧ t.hbm = y.hbm ∧ t.bus = y.bus)

/-- R316, R320, R321, R402: GRAPH of an absent table has no effect; while its table runs, or something before it has still to
end, or too few argument pages are free, it waits; else every node's arguments are captured, its counters are set, and the
graph does what it can. -/
def Claims.GraphBytecode : Prop :=
  ∀ (s : State) (part q : Nat) (x : Queue) (r : QRun) (i : QIns), QueueRuns s part q x r →
    let g := (r.k i.a).toNat % 16
    (s.graph part g = none → ∃ t r', exec (.qpGraph i) s = .next t ∧ OnlyQueue s t part q { x with run := some r' } ∧
      r'.regs = r.regs ∧ GoesTo r r' (r.pc + 1)) ∧
    ∀ tbl, s.graph part g = some tbl →
      (tbl.running = true ∨ HeldBack s x → ∃ t, exec (.qpGraph i) s = .next t ∧ QueueWaits s t part q x r .order) ∧
      (tbl.running = false → ¬ HeldBack s x →
        (s.freePages part < tbl.nodes.length → ∃ t, exec (.qpGraph i) s = .next t ∧
          QueueWaits s t part q x r .argPage) ∧
        ∀ u runs, tbl.nodes.length ≤ s.freePages part → KMap.get? (s.partD part).events (0xFFC0 + q) = none →
          s.captureNodes part tbl.nodes = (u, .ok runs) →
          runs.length = tbl.nodes.length ∧
          (∀ n < runs.length, (runs.getD n {}).counter = (tbl.nodes.getD n {}).pred ∧ (runs.getD n {}).started = false) ∧
          ∃ (v : State) (r' : QRun), exec (.qpGraph i) s = .next (v.pump part g) ∧ v = { u with parts := v.parts } ∧
            v.graph part g = some { tbl with running := true, queue := q, runs, bad := none, sumAband := 0, sumTop := 0,
                                             sumReplay := 0, writing := false } ∧
            v.queue part q = some { x with ordered := false, pendingGraphs := x.pendingGraphs ++ [g], run := some r' } ∧
            r'.regs = r.regs ∧ GoesTo r r' (r.pc + 1))

end Sys2Proof.Machine

/-- R313 to R321, R402: what each bytecode of a queue's program does to its queue. -/
def Sys2Proof.Machine.Claims.QueueBytecodes : Prop :=
  ComputingBytecodes ∧ WindowWrite ∧ LaunchBytecode ∧ GraphBytecode

namespace Sys2Proof.Machine.Claims

open Sys2Proof

/-- The state but for its memory, the paths of the crossbar and the dies is `s`. -/
abbrev OnlyHomes (s t : State) : Prop := t = { s with hbm := t.hbm, dx := t.dx, dies := t.dies }

/-- Of the dies only how their ports are used and woken has changed. -/
abbrev PortsUsed (s t : State) : Prop :=
  ∀ d, ∃ x y : Port, t.die d = { s.die d with port0 := x, port1 := y } ∧
    x = { (s.die d).port0 with used := x.used, waking := x.waking } ∧
    y = { (s.die d).port1 with used := y.used, waking := y.waking }

/-- The bytes of the line `line` in HBM have been replaced where the mask has a one; every other byte reads as before. -/
abbrev LineWritten (s t : State) (line : Nat) (mask : BitVec 64) (data : BitVec 512) : Prop :=
  ∀ a, Memory.read t.hbm a =
    if a / 64 = line ∧ mask.getLsbD (a % 64) = true then lineByte data (a % 64) else Memory.read s.hbm a

/-- The copy of a line in a slice, or an empty one. -/
def sliceOr (s : State) (cl line : Nat) : SliceLine := (s.sliceLine cl line).getD {}

/-- The place of a hint in the order of eviction: stream and bypass, then normal, then keep (R82). -/
def evictRank (hint : Nat) : Nat := if hint = 2 then 2 else if hint = 0 then 1 else 0

/-- The bytes of a context frame or slot area are those of a warp (R359, Table 3), for its first `n` threads: FCSR, the trap
registers, scalar registers, predicates, handles, draw counts, and the PC of each thread. -/
abbrev HoldsArea (at_ : Nat → Byte) (n : Nat) (v : Warp) : Prop :=
  (∀ r < 64, (v.s r).toNat = numAt at_ (0x1000 + 8 * r) 8) ∧
  (∀ p, 1 ≤ p → p < 8 → (KMap.getD v.preg p 0).toNat = numAt at_ (0xF04 + 4 * p) 4) ∧
  (∀ r < 16, (v.h r).toNat = numAt at_ (0x1200 + 32 * r) 32) ∧
  v.fcsr.toNat = numAt at_ 0x18 8 ∧ v.sdraw.toNat = numAt at_ 0xF00 4 ∧
  v.tregs.tcause.toNat = numAt at_ 0x38 8 ∧ v.tregs.tpc.toNat = numAt at_ 0x40 8 ∧ v.tregs.topc.toNat = numAt at_ 0x48 8 ∧
  v.tregs.titer.toNat = numAt at_ 0x50 8 ∧ v.tregs.tmask.toNat = numAt at_ 0x58 8 ∧ v.tregs.tinfo.toNat = numAt at_ 0x60 8 ∧
  ∀ l < n, l < 32 →
    (v.thread l).pos.pc.toNat = numAt at_ (0x80 + 4 * l) 4 ∧ (v.thread l).draw.toNat = numAt at_ (0xE80 + 4 * l) 4

/-- The bytes at an offset are the vector registers of a warp up to its charge. -/
abbrev HoldsVectors (at_ : Nat → Byte) (base : Nat) (v : Warp) : Prop :=
  ∀ r < charge v.nregs, ∀ l < 32, (v.v r l).toNat = numAt at_ (base + 256 * r + 8 * l) 8

/-- A warp in which only what a frame and a register segment hold may differ. -/
abbrev HeldPart (w v : Warp) : Prop :=
  v = { w with
    depth := v.depth, warpid := v.warpid, fcsr := v.fcsr, threads := v.threads, lastBuf := v.lastBuf, tregs := v.tregs,
    sdraw := v.sdraw, srep := v.srep, preg := v.preg, sreg := v.sreg, hreg := v.hreg, vreg := v.vreg } ∧
  v.threads.length = w.threads.length ∧
  ∀ l < w.threads.length, l < 32 → (v.thread l).join = (w.thread l).join

/-- A warp put back from its frame in memory (R359): registers, FCSR, draw counts, trap registers, and the PC of each thread
are what the frame's bytes hold; what a frame does not hold is as it was saved. -/
abbrev FromFrame (s : State) (base wk : Nat) (w v : Warp) : Prop :=
  HeldPart { w with st := .start, fault := none, pend := w.pend.map (fun p => { p with iss := { p.iss with wk := wk } })
                    f64 := w.f64.map (fun p => { p with iss := { p.iss with wk := wk } }) } v ∧
  HoldsArea (fun a => Memory.read s.hbm (base + a)) w.threads.length v ∧
  HoldsVectors (fun a => Memory.read s.hbm (base + a)) 0x2000 v

end Sys2Proof.Machine.Claims

namespace Sys2Proof.Machine

open Sys2Proof Claims

/-- R82, R132: SLICE_FILL, SLICE_WRITE_BACK and SLICE_EVICT. A fill delivers the path's earlier messages, then takes the home's
bytes except where the copy is dirty; a write-back sends the dirty bytes behind the path's messages and leaves the copy
clean; a clean copy is dropped in its turn (stream and bypass lines first, then normal ones, the least recently used first, then
those kept), and a dirty one never is. (Access counters are another rule: pages with ACE clear.) -/
def Claims.SliceSteps : Prop :=
  (∀ (s u : State) (cl part va : Nat) (at_ : Attr), s.clusterOf cl part = true →
    s.translate (dieOfCluster cl) part (va / 64 * 64) 0 0 = (u, .ok at_) →
    u.reach (dieOfCluster cl) (dieOfPa at_.pa) = true → at_.ace = false →
    let line := at_.pa / 64
    let v := u.deliverAll cl (stackOfPa at_.pa)
    let old := sliceOr u cl line
    ∀ bs, lineIn v.hbm (v.partD part).regs at_.pa at_.cmp = some bs → ∃ t x, exec (.sliceFill cl part va) s = .next t ∧
      t = { v with clusters := t.clusters, dies := t.dies } ∧ PortsUsed v t ∧ t.sliceLine cl line = some x ∧
      x.valid = BitVec.allOnes 64 ∧ x.dirty = old.dirty ∧ x.hint = old.hint ∧ x.attr = at_ ∧
      (∀ k < 64, lineByte x.data k = if old.dirty.getLsbD k then lineByte old.data k else bs.getD k 0) ∧
      ∀ c j, (c, j) ≠ (cl, line) → t.sliceLine c j = u.sliceLine c j) ∧
  (∀ (s : State) (cl line : Nat) (x : SliceLine), s.sliceLine cl line = some x →
    (x.dirty = 0 → exec (.sliceWriteBack cl line) s = .next s) ∧
    (x.dirty ≠ 0 → x.attr.ace = false → ∃ t, exec (.sliceWriteBack cl line) s = .next t ∧
      t = { s with clusters := t.clusters, dx := t.dx } ∧
      (∀ c j, t.sliceLine c j = if (c, j) = (cl, line) then some { x with dirty := 0 } else s.sliceLine c j) ∧
      ∀ src home, t.path src home = s.path src home ++
        if pathKey src home = pathKey cl (stackOfPa (line * 64)) then
          [{ line, mask := x.dirty, data := x.data, attr := x.attr, part := x.part, va := x.va }] else [])) ∧
  ∀ (s : State) (cl line : Nat) (x : SliceLine), s.sliceLine cl line = some x →
    let last := ∀ e ∈ (s.cluster cl).lines, evictRank x.hint < evictRank e.2.hint ∨
      (evictRank x.hint = evictRank e.2.hint ∧ (x.hint = 0 → x.used ≤ e.2.used))
    (x.dirty = 0 → last → ∃ t, exec (.sliceEvict cl line) s = .next t ∧
      OnlyCluster s t cl { s.cluster cl with lines := KMap.erase (s.cluster cl).lines line }) ∧
    (x.dirty ≠ 0 ∨ ¬ last → exec (.sliceEvict cl line) s = .next s)

/-- R132, R371, R373, R376: CROSSBAR_DELIVER applies the message at the head of a path at its home, byte by byte as its mask
says, or the oldest write of a destination of the fabric port; a message returned by a failed link, or with no route, stays, and
one that needs a sleeping link stays while the link begins to wake. HOST_ACKNOWLEDGE confirms what a destination has been given. -/
def Claims.DeliverySteps : Prop :=
  (∀ (s : State) (src home : Nat) (m : Msg) (r : List Msg), home < 8 → s.path src home = m :: r →
    let die := s.srcDie src
    let to_ := dieOfPa (m.line * 64)
    let awake := ∀ p ∈ s.routeLinks die to_, (s.die (ringDie p)).port0.st ≠ .sleep ∧ (s.die (ringDie (p + 1))).port1.st ≠ .sleep
    (m.nak = true ∨ s.reach die to_ = false → exec (.crossbarDeliver src home) s = .next s) ∧
    (m.nak = false → s.reach die to_ = true → awake → m.attr.cmp = 0 → Memory.wf s.hbm = true →
      ∃ t, exec (.crossbarDeliver src home) s = .next t ∧ OnlyHomes s t ∧ PortsUsed s t ∧ LineWritten s t m.line m.mask m.data ∧
        t.dx = if r = [] then KMap.erase s.dx (pathKey src home) else KMap.set s.dx (pathKey src home) r) ∧
    (m.nak = false → s.reach die to_ = true → ¬ awake → ∃ t, exec (.crossbarDeliver src home) s = .next t ∧
      t = { s with dies := t.dies } ∧ PortsUsed s t ∧ ∀ p ∈ s.routeLinks die to_,
        ((s.die (ringDie p)).port0.st = .sleep → (t.die (ringDie p)).port0.waking ≠ none) ∧
        ((s.die (ringDie (p + 1))).port1.st = .sleep → (t.die (ringDie (p + 1))).port1.waking ≠ none))) ∧
  (∀ (s : State) (src d : Nat) (w : FpWrite) (r : List FpWrite), (s.fpQueue d).q = w :: r → Memory.wf s.bus = true →
    ∃ t, exec (.crossbarDeliver src (8 + d)) s = .next t ∧ t = { s with bus := t.bus, fp := t.fp } ∧
      (∀ a, Memory.read t.bus a =
        if w.addr ≤ a then ((w.bytes[a - w.addr]?).join).getD (Memory.read s.bus a) else Memory.read s.bus a) ∧
      ∀ j, t.fpQueue j = if j = d then { q := r, unacked := (s.fpQueue d).unacked ++ [w] } else s.fpQueue j) ∧
  ∀ (s : State) (d : Nat), ∃ t, exec (.hostAcknowledge d) s = .next t ∧ t = { s with fp := t.fp } ∧
    t.fp = if (s.fpQueue d).q = [] then KMap.erase s.fp d else KMap.set s.fp d { q := (s.fpQueue d).q, unacked := [] }

/-- R25, R31, R150, R151: WARP_START runs a started warp, after an acquire of its cluster's slice where its start owes one.
WARP_UNBLOCK runs a blocked warp whose condition holds, and leaves any other; R249, R240: what the conditions are. -/
def Claims.StartAndUnblock : Prop :=
  (∀ (s : State) (wk : Nat) (w : Warp), s.warp wk = some w →
    (w.st = .start → s.coreIssues wk w = true → ∃ t, exec (.warpStart wk) s = .next t ∧
      t = { s with warps := t.warps, clusters := t.clusters } ∧
      (∀ j, t.warp j = if j = wk then some { w with st := .run, acqScope := 0 } else s.warp j) ∧
      ∀ c, t.cluster c = if c = clusterOfWk wk ∧ 4 ≤ w.acqScope then
          { s.cluster c with lines := (s.cluster c).lines.filter fun e => e.2.dirty != 0 } else s.cluster c) ∧
    (w.st ≠ .start ∨ s.coreIssues wk w = false → exec (.warpStart wk) s = .next s)) ∧
  ∀ (s : State) (wk : Nat) (w : Warp) (p : Pend), s.warp wk = some w → w.pend = some p → w.st = .blocked → w.fault = none →
    s.coreIssues wk w = true →
    (s.unblocks wk w p = true → exec (.warpUnblock wk) s = .next (s.setWarp wk { w with st := .run })) ∧
    (s.unblocks wk w p = false → exec (.warpUnblock wk) s = .next s) ∧
    (p.why = .waitaddr ∨ p.why = .join ∨ (∃ ck, p.why = .sleep ck) → s.unblocks wk w p = false) ∧
    (p.why = .engine .matrix →
      (s.unblocks wk w p = true ↔ (s.core (coreOfWk wk)).q0.length < 16 ∧ (s.core (coreOfWk wk)).mxReset = none)) ∧
    (p.why = .engine .tilewalk → (s.unblocks wk w p = true ↔ (s.cluster (clusterOfWk wk)).q2.length < 32)) ∧
    (p.why = .engine .collective → (s.unblocks wk w p = true ↔ (s.die (dieOfWk wk)).q4.length < 64)) ∧
    (∀ n, p.why = .records 1 n → (s.unblocks wk w p = true ↔ n ≤ w.q1.length)) ∧
    (∀ n, p.why = .records 3 n → (s.unblocks wk w p = true ↔ n ≤ w.q3.length)) ∧
    (∀ n, p.why = .records 5 n → (s.unblocks wk w p = true ↔ n ≤ w.q5.length)) ∧
    (∀ id n b, p.why = .barrier id n → s.block w.blk = some b → (s.unblocks wk w p = true ↔ n < (b.bar id).phase)) ∧
    (p.why = .matrix → (s.unblocks wk w p = true ↔ ∀ e ∈ s.cores, ∀ c ∈ e.2.q0, c.uid ≠ w.uid)) ∧
    (∀ b, p.why = .mapFixup → s.block w.blk = some b → (s.unblocks wk w p = true ↔ b.mapFixup = []))

/-- R9, R25: WARP_RETIRE frees the slot of a finished warp; when it was the block's last, with no child or command of the
block left, the block ends: the launch notes its index, its bindings go and its allocation is free. (For a warp with nothing
left to drain or release, a block without a cluster group, transaction or dirty mapped line that no discard ended, and a launch
of no graph.) -/
def Claims.Retire : Prop :=
  ∀ (s : State) (wk : Nat) (w : Warp) (b : Block) (l : Launch), s.warp wk = some w → w.st = .retire →
    s.warpLives wk w = true → w.sq = [] → w.wroteG = [] → w.wroteH = [] → s.block w.blk = some b → b.group = none →
    b.tx.phase = .idle → b.dirty = [] → b.mapFixup = [] → b.launch = w.launch → s.launch w.launch = some l →
    l.graph = none → b.ended = false → b.reserved = false → b.endDue = false →
    let u := s.dropWarp wk
    (u.blockWarps w.blk ≠ [] → exec (.warpRetire wk) s = .next u) ∧
    (u.blockWarps w.blk = [] → s.childrenLeft w.blk = false → s.commandsLeft w.blk = false →
      ∃ t, exec (.warpRetire wk) s = .next t ∧
        t = { u with blocks := KMap.erase s.blocks w.blk, cores := t.cores, launches := t.launches } ∧
        (∀ j, t.launch j = if j = w.launch then some { l with endedIdx := l.endedIdx ++ [b.idx] } else s.launch j) ∧
        ∀ c, t.core c =
          if c = b.core then { s.core c with binds := (s.core c).binds.filter (·.blk != w.blk) } else s.core c)

/-- R25, R291, R342: WARP_PARK saves a warp blocked in SPAWN or JOIN to the lowest free frame, with no record posted, when
every slot it could leave for is Blocked too; every byte outside the frame stays. WARP_UNPARK puts a parked warp back, in a
free slot of its kind, once its word would no longer block (or once a retry has answered its fault), with what the frame in memory
holds (R359), and frees the frame. -/
def Claims.ParkAndRestore : Prop :=
  (∀ (s : State) (wk n : Nat) (w : Warp) (p : Pend), s.warp wk = some w → w.pend = some p → w.st = .blocked →
    w.fault = none → (p.why = .join ∨ p.why = .spawnRoom) → s.coreIssues wk w = true →
    (∀ k < 30, (k < 26 ∨ (26 ≤ slotOfWk wk ∧ slotOfWk wk < 30)) →
      ∃ v, s.warp (wkOf (coreOfWk wk) (ctxOfWk wk) k) = some v ∧ v.st = .blocked) →
    (s.partD (s.partOf w)).freeFrame = some n → Memory.wf s.hbm = true →
    let f : Frame := { w, core := coreOfWk wk, ctx := ctxOfWk wk, slot := slotOfWk wk, parked := true }
    ∃ t P, exec (.warpPark wk) s = .next t ∧
      t = { s with warps := KMap.erase s.warps wk, parts := t.parts, hbm := t.hbm } ∧
      OnlyPart { s with warps := t.warps, hbm := t.hbm } t (s.partOf w) P ∧
      P = { s.partD (s.partOf w) with frames := KMap.set (s.partD (s.partOf w)).frames n f } ∧
      let base := (s.partD (s.partOf w)).regs.frameBase.toNat + 73728 * n
      (w.nregs ≤ 256 → ∀ a, (a < base ∨ base + 73728 ≤ a) → Memory.read t.hbm a = Memory.read s.hbm a)) ∧
  ∀ (s : State) (part n slot : Nat) (f : Frame) (P : Part), s.part part = some P → P.progress = true →
    KMap.get? P.frames n = some f → f.w.st ≠ .frozen → s.restoreSlot f = some slot →
    (f.parked = true → s.parkOver f slot = false → exec (.warpUnpark part n) s = .next s) ∧
    ((f.parked = true ∧ s.parkOver f slot = true) ∨ (f.parked = false ∧ f.ready = true ∧ f.deliver = none) → ∃ t v, exec (.warpUnpark part n) s = .next t ∧
      t = { s with warps := t.warps, parts := t.parts } ∧
      (∀ j, t.warp j = if j = wkOf f.core f.ctx slot then some v else s.warp j) ∧
      FromFrame s ((s.partD part).regs.frameBase.toNat + 73728 * n) (wkOf f.core f.ctx slot) f.w v ∧
      OnlyPart { s with warps := t.warps } t part { P with frames := KMap.erase P.frames n })

/-- R32, R33, R113, R287, R288: GATHER_TIMEOUT launches child warps whose first record came 256 ck ago; SPAWN_SPILL_REFILL moves
records from the head of the spill area in HBM into the queue's room; CHILD_WARP_PLACE puts a launched child warp in the slot R33
gives it, on its block's own core while the block's transaction is open, one thread for each record, with the record's payload and
counter (the depth of the first where they differ, log entry 117). -/
def Claims.ChildSteps : Prop :=
  (∀ (s : State) (core : Nat), ∃ t, exec (.gatherTimeout core) s = .next t ∧
    OnlyCore (s.gather core) t core { (s.gather core).core core with
      gather := ((s.gather core).core core).gather.map fun g =>
        if g.firstCk + 256 ≤ s.ck then { g with launched := true } else g }) ∧
  (∀ (s : State) (core : Nat), ∃ t, exec (.spawnSpillRefill core) s = .next t ∧
    let u := s.gather core
    let c := u.core core
    let back := c.spillQ.take (1024 - c.queued)
    ∃ (q rs : List SpawnRec), t = { u with cores := t.cores, free := t.free } ∧
      (∀ k, t.core k = if k = core then { c with spillQ := c.spillQ.drop (1024 - c.queued), spawnQ := q } else u.core k) ∧
      q.Perm (c.spawnQ ++ rs) ∧ rs.length = back.length ∧
      (c.spawnQ.Pairwise (fun a b => b.before a = false) → q.Pairwise (fun a b => b.before a = false)) ∧
      ∀ (k : Nat) (r x : SpawnRec), back[k]? = some r → rs[k]? = some x →
        x = { r with arr := s.ck, spillAt := none, entry := x.entry, depth := x.depth, join := x.join, payload := x.payload } ∧
        (r.spillAt = none → x = { r with arr := s.ck }) ∧
        ∀ at_, r.spillAt = some at_ → at_.cmp = 0 →
          let word := fun (j : Nat) => numAt (Memory.read u.hbm) (at_.pa + 8 * j) 8
          x.entry.toNat = word 0 % 2 ^ 32 ∧ x.depth = word 1 / 2 ^ 52 % 256 ∧ x.join.addr = word 1 % 2 ^ 52 ∧
          (x.join.glob = true ↔ 2 ^ 63 ≤ word 1) ∧
          x.payload.length = r.payload.length ∧
          ∀ j < min 6 r.payload.length, (x.payload.getD j 0).toNat = word (j + 2)) ∧
  ∀ (s : State) (core i c slot : Nat) (g : Gather) (b : Block) (l : Launch) (img : Image) (e : SpawnEntry),
    let u := s.gather core
    (u.core core).gather[i]? = some g → g.launched = true → g.recs ≠ [] → g.recs.length ≤ 32 → u.block g.blk = some b →
    b.ended = false → u.launch b.launch = some l → u.image (imageKey l.part l.image) = some img →
    img.spawns.find? (fun x => x.entry == g.entry) = some e → (u.core core).ctxCur = l.ctx →
    u.childSlot (if b.txOpen then b.core else core) l.ctx b.launch (charge e.regs) b.txOpen = some (c, slot) →
    ∃ t w, exec (.childWarpPlace core i) s = .next t ∧
      t = { u with warps := t.warps, nextUid := u.nextUid + 1, cores := t.cores } ∧
      (∀ j, t.warp j = if j = wkOf c l.ctx slot then some w else u.warp j) ∧
      (∀ k, t.core k = if k = core then { u.core core with gather := (u.core core).gather.eraseIdx i } else u.core k) ∧
      w.uid = u.nextUid ∧ w.st = .start ∧ w.launch = b.launch ∧ w.blk = g.blk ∧ w.child = true ∧ w.warpid = 32 + slot ∧
      w.nregs = e.regs ∧ w.depth = (g.recs.map (·.depth)).headD 1 ∧ w.threads.length = 32 ∧
      (w.code, (w.thread 0).pos.pc) = l.start b.launch e.entry e.regs ∧
      ∀ k < 32,
        (∀ r, g.recs[k]? = some r → (w.thread k).st = .sub ∧ (w.thread k).pos.pc = (w.thread 0).pos.pc ∧
          (w.thread k).join = some r.join ∧ ∀ j < r.payload.length, w.v j k = r.payload.getD j 0) ∧
        (g.recs.length ≤ k → (w.thread k).st = .off ∧ ∀ j, w.v j k = 0)

/-- R173, R176: a visit whose word is no instruction raises ILLEGAL; a visit whose word lies outside the code section, or on
a page that does not translate for a fetch, raises the fault with one record for the lanes that issue. -/
def Claims.WordsThatCannotRun : Prop :=
  ∀ (s : State) (iss : Issue) (w : Warp), Issues s iss w →
    exec .illegalInstruction s = .next (s.takeFault iss { cause := 0x01 }) ∧
    ((s.codeOf w.activeCode).length ≤ iss.pc.toNat → exec .instructionFetchFault s = .next (s.takeFault iss
      { cause := 4, info := BitVec.ofNat 64 iss.pc.toNat,
        recs := [{ cause := 4, lanes := iss.lanes, addr := iss.pc.toNat, client := 8, acc := 3 }] })) ∧
    ∀ k u e, iss.pc.toNat < (s.codeOf w.activeCode).length → w.activeCode = .orig k →
      s.translate (dieOfWk iss.wk) (s.partOf w) (k % 2 ^ 52 + 8 * iss.pc.toNat) 0 3 = (u, .error e) →
      exec .instructionFetchFault s = .next (u.takeFault iss
        { cause := e.cause, info := BitVec.ofNat 64 iss.pc.toNat,
          recs := [{ cause := e.cause, reason := e.reason, lanes := iss.lanes, addr := iss.pc.toNat, client := 8, acc := 3,
                     hostpri := e.hostpri }] })

end Sys2Proof.Machine

/-- R82, R130 to R133, R371 to R373: the steps of the memory system that no word performs. -/
def Sys2Proof.Machine.Claims.MemorySystemSteps : Prop := SliceSteps ∧ DeliverySteps

/-- R9, R25, R31 to R33, R150, R287 to R291, R342: the life of a warp slot, and the child warps of SPAWN. -/
def Sys2Proof.Machine.Claims.WarpSlotSteps : Prop := StartAndUnblock ∧ Retire ∧ ParkAndRestore ∧ ChildSteps

/-- R173, R176: words that cannot be fetched or decoded. -/
def Sys2Proof.Machine.Claims.WordsThatCannotBeRun : Prop := WordsThatCannotRun

namespace Sys2Proof.Machine.Claims

open Sys2Proof

/-! ### Commits -/

/-- Nothing stands in the way of the commit of block `k`, which is `x`: it is of a launch that is not deterministic and of no
graph, every own warp that has not exited has arrived, no child or command is left, and every store has drained. -/
abbrev CommitFree (s : State) (k : Nat) (x : Block) (l : Launch) : Prop :=
  s.block k = some x ∧ s.launch x.launch = some l ∧ l.det = false ∧ l.graph = none ∧ x.reserved = false ∧ x.ended = false ∧
  x.tx.begun ≠ [] ∧ (∀ w ∈ s.ownLive k, w.uid ∈ x.tx.arrived) ∧ s.blockWarps k ≠ [] ∧ s.childrenLeft k = false ∧
  s.commandsLeft k = false ∧ (∀ w ∈ s.blockWarps k, w.sq = []) ∧ RisingKeys s.warps

/-- A byte of scratch with the speculative lines in their places. -/
def committed (spec : KMap (BitVec 512)) (mem : Memory) (e : Nat) : Byte :=
  match KMap.get? spec (e / 64) with
  | some d => lineByte d (e % 64)
  | none => Memory.read mem e

/-- The block after step 3 of its commit: speculative lines have replaced the committed ones in the C-buffer and, as `aMem`
says, in the A-buffer, none is left, and the commit stands at `phase`. -/
abbrev LinesReplaced (x b' : Block) (phase : TxPhase) : Prop :=
  b' = { x with aMem := b'.aMem, cMem := b'.cMem, specA := [], specC := [], reservedA := 0, dirty := b'.dirty,
                tx := { x.tx with phase, synced := true } } ∧
  ∀ e, Memory.read b'.cMem e = committed x.specC x.cMem e

/-- Where the commit object of a block lies: in its own A-buffer at `a`, or in global space where its leaf says, in a page of
no compression and no counting. -/
abbrev ObjectAt (x : Block) (oab : Bool) (a base : Nat) : Prop :=
  x.tx.obj = some (oab, a) ∧ base % 64 = 0 ∧
  (if oab then base = a else base = x.tx.objAttr.pa ∧ x.tx.objAttr.cmp = 0 ∧ x.tx.objAttr.ace = false)

/-- Field `k` (eight bytes) of a sync object. -/
def objField (mem : Nat → Byte) (base k : Nat) : Nat := numAt mem (base + 8 * k) 8

/-- Does the word wait as a commit: a TXCOMMIT, or an EXIT of a transaction not yet at its sync point? -/
def commitWaits (x : Block) (word : Instr) : Prop :=
  (∃ i, word = .txcommit i) ∨ ((∃ i, word = .exit i) ∧ x.txOpen = true ∧ x.tx.synced = false)

/-- A byte of a block's delta that an earlier block of the round wrote with another value (R154). -/
def Clashes (l : Launch) (x : Block) (b : DeltaByte) : Prop :=
  ∃ m ∈ l.merged, m.1 = x.round ∧ m.2.1 < x.idx ∧ ∃ v, deltaByte m.2.2 b.host b.addr = some v ∧ v ≠ b.val

/-! ### The matrix engine -/

/-- The oldest command of a core has retired: it has left q0, its warp has the flags, and its record if it asked for one
(R123, R249, R266). -/
abbrev Retired (s t : State) (core : Nat) (c : MCmd) (r : List MCmd) (flags : Nat) (trip : Bool) (top : Bool) : Prop :=
  (t.core core).q0 = r ∧ (t.core core).mxSince = s.ck ∧ (∀ k ≠ core, t.core k = s.core k) ∧
  (∀ j, t.warp j = (s.warp j).map fun w =>
    if w.uid = c.uid then
      { w with
        fcsr := w.fcsr ||| BitVec.ofNat 64 flags
        q1 := if c.recd then w.q1 ++ [BitVec.ofNat 64 (c.pc.toNat * 2 ^ 32 + trip.toNat * 2 ^ 13 +
          (match c.op with | .mldw => 0 | .mma => 1 | .mmas => 2 | .mmag => 3 | .mzero => 4) * 2 ^ 9 + c.tile % 512)]
          else w.q1 }
    else w) ∧ (trip = true → top = true)

/-- A command that no transaction, hold or earlier read complicates: of a block that is `b` with warps left. -/
abbrev PlainCommand (s : State) (core : Nat) (c : MCmd) (r : List MCmd) (b : Block) : Prop :=
  (s.core core).q0 = c :: r ∧ c.held = false ∧ c.member = false ∧ s.block c.blk = some b ∧ b.tx.phase = .idle ∧
  s.blockWarps c.blk ≠ [] ∧ b.specC = [] ∧ Memory.wf b.cMem = true ∧ c.frozenA = [] ∧ c.frozenC = [] ∧ c.frozenW = []

/-- An A row of a command, as its elements in blocks of 32 (R91, R92, R261). -/
def aRow (b : Block) (c : MCmd) (row : Nat) : List (List Elem) :=
  let h := handleOf c.hA
  let byte := Memory.read b.aMem
  rowElems c.fa c.k (fun i => byte (h.base + row * h.pitch + i))
    (if h.zpe then intOf true 8 (byte (h.base + h.zOff + row)).toNat else 0)
    (fun n => if c.sca = 1 then some (byte (h.base + h.sOff + row * h.sPitch + n)).toNat else none)

/-- The weight sets of an array that a command reads, in ascending K: the array's latch, or the groups of its handle in the
block's W-buffer (R260). -/
def setsOf (s : State) (core : Nat) (b : Block) (c : MCmd) (a : Nat) : List Latch :=
  match c.hB with
  | some h => (List.range (handleOf h).rows).map fun g => c.loadSet (Memory.read b.wMem) (handleOf h) g a
  | none => [(s.core core).latch a]

/-- The FP32 sum that one block of products adds to an accumulator: the block's exact sum rounded once, then the sum of both
rounded (R103). -/
def addBlock (acc : Nat) (sum : Num) : Nat :=
  match (Fmt.f32.decode acc).add .rne (Fmt.f32.decode (Fmt.f32.round .rne 0 false sum).1) with
  | some x => (Fmt.f32.round .rne 0 false x).1
  | none => Fmt.f32.nanCode

/-! ### Copies -/

/-- An outstanding copy that the engine may work on: it is the oldest of its core, owes no acquire, and its fix-up list is
not full (R329, R344). -/
abbrev CopyRuns (s : State) (cl id : Nat) (c : TwCmd) : Prop :=
  s.twCmd cl id = some c ∧ c.id = id ∧ s.twRuns cl c = true ∧ c.acq = none ∧ c.fixup.length < 256

/-- A record of the same page with the lowest address that some ranges have in it. -/
abbrev LowestOf (r : FaultRec) (l : List (Nat × Nat)) (f : FaultRec) : Prop :=
  f = { r with addr := f.addr } ∧ f.addr / 4096 = r.addr / 4096 ∧ (∃ y ∈ l, y.1 ≤ f.addr ∧ f.addr < y.1 + y.2) ∧
  ∀ y ∈ l, ∀ a, y.1 ≤ a → a < y.1 + y.2 → a / 4096 = r.addr / 4096 → f.addr ≤ a

/-- The command after bytes `off` to `off + len − 1` of a row have moved. -/
def movedOn (c : TwCmd) (row off len : Nat) : TwCmd := { c with moved := c.moved ++ [(row, off, len)] }

end Sys2Proof.Machine.Claims

namespace Sys2Proof.Machine

open Sys2Proof Claims

/-- R117 to R120, R149: an ordered commit goes on when NEXT of its object, read at the object's home (the block's A-buffer, or
HBM), is the block's index: in one step the speculative lines replace the committed ones in both buffers; while it holds lines or
records they are then to be released, and else COUNT and RSEQ grow by one and NEXT by STRIDE, and the transaction is closed; at any
other NEXT nothing changes. A block that has ended without an ordered commit to the object is skipped: NEXT grows by STRIDE and no
other byte changes, in the committed lines or the speculative ones. -/
def Claims.OrderedCommits : Prop :=
  ∀ (s : State) (k a base : Nat) (x : Block) (l : Launch) (oab : Bool), s.block k = some x → s.launch x.launch = some l →
    x.tx.phase = .ordered → x.tx.ord = true → ObjectAt x oab a base → Memory.wf x.aMem = true → Memory.wf x.cMem = true →
    Memory.wf s.hbm = true → RisingKeys x.specA → RisingKeys x.specC →
    let next := objField (if oab then Memory.read x.aMem else Memory.read s.hbm) base 1
    let cl := clusterOfCore x.core
    let v := (s.writeBack cl (base / 64)).deliverAll cl (stackOfPa base)
    let skips := l.recNode = false ∧ next < l.nblocks ∧ next ∈ l.endedIdx ∧
      ∀ e ∈ l.ordDone, e ≠ (next, (oab, a, if oab then k else 0))
    (next ≠ x.idx → exec (.orderedCommitProceed k) s = .next s) ∧
    (next = x.idx → CommitFree s k x l → x.tx.synced = false → x.tx.topTrip = false →
      ∃ t b', exec (.orderedCommitProceed k) s = .next t ∧ t.block k = some b' ∧ (∀ j ≠ k, t.block j = s.block j) ∧
        (x.unsent ≠ [] ∨ x.heldRecs ≠ [] → t = { s with blocks := t.blocks } ∧ LinesReplaced x b' .releasing ∧
          ∀ e, Memory.read b'.aMem e = committed x.specA x.aMem e) ∧
        (x.heldG = [] → x.heldH = [] → x.heldR = [] → x.heldRecs = [] →
          t = { s with blocks := t.blocks, dies := t.dies, launches := t.launches, clusters := t.clusters, dx := t.dx,
                       hbm := t.hbm, parts := t.parts, free := t.free } ∧
          LinesReplaced x b' .closed ∧
          (t.launch x.launch).map (·.ordDone) = some (l.ordDone ++ [(x.idx, (oab, a, if oab then k else 0))]) ∧
          (oab = true → t = { s with blocks := t.blocks, dies := t.dies, launches := t.launches }) ∧
          (oab = false → ∀ e, Memory.read b'.aMem e = committed x.specA x.aMem e) ∧
          let was := if oab then committed x.specA x.aMem else Memory.read v.hbm
          let now := if oab then Memory.read b'.aMem else Memory.read t.hbm
          objField now base 0 = (objField was base 0 + 1) % 2 ^ 64 ∧
          objField now base 1 = (objField was base 1 + objField was base 2) % 2 ^ 64 ∧
          objField now base 2 = objField was base 2 ∧ objField now base 3 = (objField was base 3 + 1) % 2 ^ 64 ∧
          ∀ e, (e < base ∨ base + 32 ≤ e) → now e = was e)) ∧
    (skips → ∃ t, exec (.orderedCommitSkip k) s = .next t ∧
      (oab = true → ∃ b', t = { s with blocks := t.blocks } ∧ (∀ j, t.block j = if j = k then some b' else s.block j) ∧
        b' = { x with aMem := b'.aMem, specA := b'.specA, dirty := b'.dirty } ∧
        objField (Memory.read b'.aMem) base 1 = (next + objField (Memory.read x.aMem) base 2) % 2 ^ 64 ∧
        (∀ e, (e < base + 8 ∨ base + 16 ≤ e) → Memory.read b'.aMem e = Memory.read x.aMem e) ∧
        ∀ n d, KMap.get? x.specA n = some d → ∃ d', KMap.get? b'.specA n = some d' ∧
          ∀ i < 64, (n * 64 + i < base + 8 ∨ base + 16 ≤ n * 64 + i) → lineByte d' i = lineByte d i) ∧
      (oab = false → t = { s with clusters := t.clusters, dx := t.dx, hbm := t.hbm, dies := t.dies, parts := t.parts, free := t.free } ∧
        objField (Memory.read t.hbm) base 1 =
          (objField (Memory.read v.hbm) base 1 + objField (Memory.read s.hbm) base 2) % 2 ^ 64 ∧
        ∀ e, (e < base + 8 ∨ base + 16 ≤ e) → Memory.read t.hbm e = Memory.read v.hbm e)) ∧
    (¬ skips → exec (.orderedCommitSkip k) s = .next s)

/-- R117 step 4: after its step 3 a commit writes what it holds, one line a step and each once: a global line goes to its home as
one message of the held bytes, a host line to its destination as one write of them, a cluster-remote line to its target's A-buffer.
Then the held records enter their node's queue when that has room, and wait while it has none; once none is left the commit closes.
The order of the lines is open (log entry 69). -/
def Claims.RecordRelease : Prop :=
  ∀ (s : State) (k : Nat) (x : Block) (l : Launch), s.block k = some x → s.launch x.launch = some l →
    x.tx.phase = .releasing → x.tx.begun ≠ [] → x.reserved = false → s.blockWarps k ≠ [] →
    (x.unsent ≠ [] → l.graph = none → ∃ space key h t, (space, key, h) ∈ x.unsent ∧
      exec (.commitRecordRelease k) s = .next t ∧ t.free = s.free + 1 ∧ t.warps = s.warps ∧ t.bus = s.bus ∧
      (space = 4 ∨ h.attr.ace = false → t.hbm = s.hbm) ∧
      (space ≠ 4 → ∀ j, t.block j = if j = k then some (x.markSent space key) else s.block j) ∧
      (space = 0 → h.attr.ace = false → ∃ m : Msg,
        t.path (clusterOfCore x.core) (stackOfPa (key * 64)) = s.path (clusterOfCore x.core) (stackOfPa (key * 64)) ++ [m] ∧
        m.line = key ∧ m.mask = h.mask ∧ m.data = h.data) ∧
      (space = 4 → t.dx = s.dx ∧ t.fp = s.fp ∧ ∀ y, h.blk ≠ k → s.block h.blk = some y → Memory.wf y.aMem = true →
        ∃ y', t.block h.blk = some y' ∧ ∀ a, Memory.read y'.aMem a =
          if a / 64 = key % 2 ^ 20 ∧ h.mask.getLsbD (a % 64) = true then lineByte h.data (a % 64) else Memory.read y.aMem a) ∧
      (space = 5 → h.attr.ace = false → t.dx = s.dx ∧ ∃ d v, (t.fpQueue d).q = (s.fpQueue d).q ++ [v] ∧ v.addr = key * 64 ∧
        ∀ i < 64, v.bytes[i]? = some (if h.mask.getLsbD i then some (lineByte h.data i) else none))) ∧
    (x.unsent = [] → x.heldG = [] → x.heldH = [] → x.tx.obj = none → x.tx.topTrip = false →
      (l.graph = none → x.heldRecs = [] → ∃ t, exec (.commitRecordRelease k) s = .next t ∧
        t = { s with blocks := t.blocks, dies := t.dies, launches := t.launches } ∧
        t.block k = some { x with heldR := [], tx := { x.tx with phase := .closed } } ∧ (∀ j ≠ k, t.block j = s.block j)) ∧
      ∀ g n node recs r, l.graph = some (g, n) → x.heldRecs = (node, recs) :: r →
        (s.nodeRoom l.part g node recs.length = false → exec (.commitRecordRelease k) s = .next (s.pump l.part g)) ∧
        (s.nodeRoom l.part g node recs.length = true → r = [] → l.det = false →
          let u := (s.modBlock k fun b => { b with heldRecs := [] }).modRun l.part g node fun y => { y with recs := y.recs ++ recs }
          u.graphAct l.part g = none → ((u.graph l.part g).all fun y => !y.over) = true →
          ∃ t b', exec (.commitRecordRelease k) s = .next t ∧ t.block k = some b' ∧ b'.heldRecs = [] ∧
            b'.tx.phase = .closed ∧ t.graph l.part g = u.graph l.part g))

/-- R152 to R154: DELTA_MERGE merges the delta of a block that waits at a sync point once every lower-indexed block has closed
its own or ended, and the warp's word may go on; where a byte was written with another value by a lower-indexed block of
the round, the word raises CONFLICT (0x09) with the lowest such byte's address (log entry 20). The last delta of a block that a
discard has ended closes with its end (log entry 110). -/
def Claims.DeltaMerges : Prop :=
  ∀ (s : State) (k : Nat) (x : Block) (l : Launch), s.block k = some x → s.launch x.launch = some l → l.det = true →
    let lower := ∀ j < x.idx, x.round < KMap.getD l.closed j 0 ∨ j ∈ l.endedIdx
    let closed : Launch := { l with merged := insertDelta l.merged (x.round, x.idx, deltaFinal x.delta),
                                    closed := KMap.set l.closed x.idx (x.round + 1) }
    (∀ wk w p, s.deltaWaiter k = some (wk, w, p) → s.warp wk = some w → s.exitWaits k p = false → s.coreIssues wk w = true →
      (∀ v ∈ s.blockWarps k, v.sq = []) → RisingKeys s.warps →
      (¬ lower → exec (.deltaMerge k) s = .next s) ∧
      (lower → (∀ b ∈ deltaFinal x.delta, ¬ Clashes l x b) → ∃ t b', exec (.deltaMerge k) s = .next t ∧
        t = { s with blocks := t.blocks, launches := t.launches } ∧
        (∀ j, t.block j = if j = k then some b' else s.block j) ∧
        (commitWaits x p.word →
          b' = { x with delta := [], round := x.round + 1, tx := { x.tx with synced := true } }) ∧
        (¬ commitWaits x p.word →
          b' = { x with delta := [], round := x.round + 1, presynced := x.presynced ++ [w.uid] }) ∧
        ∀ j, t.launch j = if j = x.launch then some closed else s.launch j) ∧
      (lower → (∃ b ∈ deltaFinal x.delta, Clashes l x b) → ∃ va, (∃ b ∈ deltaFinal x.delta, Clashes l x b ∧ b.va = va) ∧
        (∀ b ∈ deltaFinal x.delta, Clashes l x b → va ≤ b.va) ∧
        exec (.deltaMerge k) s =
          .next ((s.setWarp wk { w with st := .run }).takeFault p.iss { cause := 9, info := BitVec.ofNat 64 va }))) ∧
    (s.deltaWaiter k = none →
      (x.endDue = false → exec (.deltaMerge k) s = .next s) ∧
      (x.endDue = true → x.tx.phase = .closed → x.ended = false → x.reserved = false → s.blockWarps k = [] →
        s.childrenLeft k = false → s.commandsLeft k = false → x.group = none → x.mapFixup = [] → l.graph = none →
        (¬ lower → exec (.deltaMerge k) s = .next s) ∧
        (lower → (∀ b ∈ deltaFinal x.delta, ¬ Clashes l x b) → ∃ t, exec (.deltaMerge k) s = .next t ∧
          t = { s with blocks := KMap.erase s.blocks k, launches := t.launches, cores := t.cores } ∧
          ∀ j, t.launch j = if j = x.launch then some { closed with endedIdx := l.endedIdx ++ [x.idx] } else s.launch j)))

/-- R103, R261 to R263, R266: MATRIX_RETIRE of the oldest command. MLDW loads the latch of each array it names from the block's
W-buffer; MZERO writes +0 over its rows and columns; MMA, MMAS and MMAG add, block by block of 32 in ascending K, the
rounded block sum of row and column to each accumulator, and write no other byte; a monitored operation that trips below
the top rung discards its block's transaction. -/
def Claims.MatrixRetirement : Prop :=
  (∀ (s : State) (core : Nat), (s.core core).q0 = [] → exec (.matrixRetire core) s = .next s) ∧
  (∀ (s : State) (core : Nat) (c : MCmd) (r : List MCmd) (b : Block) (hb : BitVec 256), PlainCommand s core c r b →
    c.op = .mldw → c.hB = some hb → ∃ t, exec (.matrixRetire core) s = .next t ∧ Retired s t core c r 0 false false ∧
      t.blocks = s.blocks ∧ t.hbm = s.hbm ∧
      (∀ a < 2, a ∉ arraysOf c.arr → (t.core core).latch a = (s.core core).latch a) ∧
      ∀ a ∈ arraysOf c.arr,
        let h := handleOf hb
        let x := (t.core core).latch a
        let slot := arraySlot c.arr a
        x.valid = true ∧ x.owner = c.blk ∧ x.fmt = c.fb ∧ x.scl = c.scb ∧ x.spr = c.spr ∧
        (∀ i < 16384, Memory.read x.wt i = Memory.read b.wMem (h.base + 16384 * slot + i)) ∧
        (c.scb = 1 → ∀ i < 1008 + (mElems c.fb * (if c.spr then 2 else 1) + 31) / 32, Memory.read x.wt (16384 + i) =
          Memory.read b.wMem (h.base + h.sOff + 1024 * slot + i)) ∧
        (c.spr = true → ∀ i < 8064 + mElems c.fb * 2 / 8, Memory.read x.wt (32768 + i) =
          Memory.read b.wMem (h.base + h.zOff + 8192 * slot + i))) ∧
  (∀ (s : State) (core : Nat) (c : MCmd) (r : List MCmd) (b : Block), PlainCommand s core c r b →
    c.op = .mzero → ∃ t b', exec (.matrixRetire core) s = .next t ∧ Retired s t core c r 0 false false ∧
      t.block c.blk = some b' ∧ b' = { b with cMem := b'.cMem } ∧ (∀ j ≠ c.blk, t.block j = s.block j) ∧ t.hbm = s.hbm ∧
      (∀ i < c.rows.length, ∀ j ∈ columnsOf c.arr, ∀ n < 4, Memory.read b'.cMem (1024 * c.tile + 512 * i + 4 * j + n) = 0) ∧
      ∀ a, (¬ ∃ i < c.rows.length, ∃ j ∈ columnsOf c.arr, ∃ n < 4, a = 1024 * c.tile + 512 * i + 4 * j + n) →
        Memory.read b'.cMem a = Memory.read b.cMem a) ∧
  (∀ (s : State) (core : Nat) (c : MCmd) (r : List MCmd) (b : Block), PlainCommand s core c r b →
    (c.op = .mma ∨ c.op = .mmas ∨ c.op = .mmag) → c.mon = false → c.globalB = false →
    ∃ t b' flags, exec (.matrixRetire core) s = .next t ∧ Retired s t core c r flags false false ∧ flags < 64 ∧
      t.block c.blk = some b' ∧ b' = { b with cMem := b'.cMem } ∧ (∀ j ≠ c.blk, t.block j = s.block j) ∧
      ((∀ e ∈ s.parts, ∀ f ∈ e.2.frames, f.2.w.uid ≠ c.uid) → t.hbm = s.hbm) ∧
      (∀ i < c.rows.length, ∀ j ∈ columnsOf c.arr,
        let at_ := 1024 * c.tile + 512 * i + 4 * j
        numAt (Memory.read b'.cMem) at_ 4 =
          (accumulate c.fa c.fb c.thr.toNat (numAt (Memory.read b.cMem) at_ 4) {} (aRow b c (c.rows.getD i 0))
            ((setsOf s core b c (j / 64)).flatMap fun l => l.column (j % 64))).1 % 2 ^ 32) ∧
      (∀ a, (¬ ∃ i < c.rows.length, ∃ j ∈ columnsOf c.arr, ∃ n < 4, a = 1024 * c.tile + 512 * i + 4 * j + n) →
        Memory.read b'.cMem a = Memory.read b.cMem a) ∧
      ∀ a ∈ arraysOf c.arr, (t.core core).latch a = ((setsOf s core b c a).getLast?).getD ((s.core core).latch a)) ∧
  (∀ (fa fb thr acc : Nat) (w : Seen) (xs : List (Int × Int)),
    (blockStep fa fb thr (acc, w) (xs.map fun p =>
        (Elem.make (numInt p.1) (numInt p.1) none, Elem.make (numInt p.2) (numInt p.2) none))).1 =
      addBlock acc (numInt ((xs.map fun p => p.1 * p.2).sum))) ∧
  ∀ (s : State) (core : Nat) (c : MCmd) (r : List MCmd) (b : Block) (l : Launch), (s.core core).q0 = c :: r →
    c.held = false → s.block c.blk = some b → s.launch b.launch = some l → (c.op = .mma ∨ c.op = .mmas ∨ c.op = .mmag) →
    c.mon = true → c.globalB = false →
    tripBits c.thr.toNat (c.compute b fun a => match c.hB with
      | some h => (List.range (handleOf h).rows).map fun g => c.loadSet (b.opW c) (handleOf h) g a
      | none => [(s.core core).latch a]).2 ≠ 0 → b.rung ≠ s.topRung b →
    ∃ t l', exec (.matrixRetire core) s = .next t ∧ (∀ j w, t.warp j = some w → w.blk ≠ c.blk) ∧
      (∀ k, ∀ y ∈ (t.core k).q0, y.blk ≠ c.blk) ∧ t.launch b.launch = some l' ∧ l'.replays = l.replays + 1 ∧
      l'.unplaced = { idx := b.idx, replay := true, rung := b.rung + 1, startRung := b.startRung, txseq := b.txseq + 1,
                      narrow := false, dirtyTx := true, place := some c.blk, recs := b.payload } :: l.unplaced

/-- R265, R124, R365: a held command whose operand page does not translate is dropped and its latches made invalid, and its
warp, back at the word, takes the fault. After 2^24 ck without progress the engine drops every command, its latches are
invalid, firmware is told, each warp with a command owes an MXRESET, and pushes resume after 512 ck; whether a step of a multiply at
the head has been completed meanwhile is a free value (log entry 54). MXRESET_TAKE enters
the handler with cause 0x07 and the lanes that issued the dropped command; in trap mode it is a double fault. -/
def Claims.MatrixTroubles : Prop :=
  (∀ (s u : State) (core wk : Nat) (c : MCmd) (r : List MCmd) (w : Warp) (f : FaultRec) (recs : List FaultRec),
    (s.core core).q0 = c :: r → c.held = true → s.findUid c.uid = some (wk, w) → s.fetchFaults core c = (u, f :: recs) →
    ∃ v k, OnlyCore u v core k ∧ k.q0 = r ∧ (∀ a ∈ arraysOf c.arr, k.latch a = {}) ∧
      (∀ a < 2, a ∉ arraysOf c.arr → k.latch a = (u.core core).latch a) ∧
      exec (.matrixOperandFault core) s = .next ((v.setWarp wk { w with threads := c.before }).takeFault
        { wk, lanes := c.lanes, pc := c.pc, hdr := c.hdr }
        { cause := f.cause, info := BitVec.ofNat 64 f.addr, recs := f :: recs })) ∧
  (∀ (s : State) (core : Nat), let k := s.core core
    (k.q0 = [] ∨ s.ck < k.mxSince + 2 ^ 24 → exec (.matrixWatchdog core) s = .next s) ∧
    let stepped := k.steps = true ∧ s.freeWord.getLsbD 63 = true
    (k.q0 ≠ [] → k.mxSince + 2 ^ 24 ≤ s.ck → stepped → ∃ t, exec (.matrixWatchdog core) s = .next t ∧
      OnlyCore { s with free := s.free + 1 } t core { k with mxSince := s.ck - s.freeWord.toNat % 2 ^ 24 }) ∧
    (k.q0 ≠ [] → k.mxSince + 2 ^ 24 ≤ s.ck → ¬ stepped →
      (∀ c ∈ k.q0, c.member = false ∧ (∃ b, s.block c.blk = some b ∧ b.tx.phase = .idle) ∧ s.blockWarps c.blk ≠ []) →
      ∃ t, exec (.matrixWatchdog core) s = .next t ∧ t.blocks = s.blocks ∧ t.hbm = s.hbm ∧
        t.mailbox = s.mailbox ++ [.engineReset core] ∧
        (∀ j, t.core j = if j = core then
          { k with q0 := [], mxReset := some s.ck, mxSince := s.ck, west := {}, east := {} } else s.core j) ∧
        (∀ d, t.die d = if d = dieOfCore core then { s.die d with mxRst := (s.die d).mxRst + 1 } else s.die d) ∧
        ∀ j, t.warp j = (s.warp j).map fun w =>
          { w with mxreset := w.mxreset.or ((k.q0.find? (·.uid == w.uid)).map fun c => (c.pc, c.lanes)) }) ∧
    ∀ c b, k.q0 = [c] → c.member = true → k.mxSince + 2 ^ 24 ≤ s.ck → ¬ stepped → s.block c.blk = some b →
      (∃ l, s.launch b.launch = some l) →
      ∃ t l', exec (.matrixWatchdog core) s = .next t ∧ (t.core core).q0 = [] ∧ t.launch b.launch = some l' ∧
        (l'.unplaced.head?).map (fun y => (y.idx, y.replay, y.rung, y.txseq)) = some (b.idx, true, b.rung, b.txseq + 1)) ∧
  (∀ (s : State) (core k : Nat), (s.core core).mxReset = some k →
    (s.ck < k + 512 → exec (.matrixResetDone core) s = .next s) ∧
    (k + 512 ≤ s.ck → ∃ t, exec (.matrixResetDone core) s = .next t ∧
      OnlyCore s t core { s.core core with mxReset := none })) ∧
  ∀ (s : State) (wk : Nat) (w : Warp) (pc : Pc) (lanes : LaneMask), s.warp wk = some w → w.mxreset = some (pc, lanes) →
    w.threads.length = 32 → (∀ l ∈ lanesOf lanes, (w.thread l).runnable = true) →
    let w0 : Warp := { w with mxreset := none, pend := none }
    let iss : Issue := { wk, lanes, pc }
    (w.inTrap = false → vectorMode (vectorWord s wk w 7) = 1 ∨ vectorMode (vectorWord s wk w 7) = 2 →
      ∃ t, exec (.mxresetTake wk) s = .next t ∧
        EntersTrap { s with free := s.free + 1 } t iss w0 lanes 0x07 7 s.freeWord fun _ t => t) ∧
    (w.inTrap = true → ∃ t, exec (.mxresetTake wk) s = .next t ∧
      DoubleFaults s t iss w0 0x0C 7 (BitVec.ofNat 64 pc.toNat) (BitVec.ofNat 64 (s.backOf w.activeCode pc).1.toNat))

/-- R70, R74, R77, R274, R329: PERMIT_RETURN moves bytes of a row that are still to move: into the A-buffer of the block, as
a read through the cluster's slice gives them; or out of it, as dirty bytes of the slice. Bytes that have moved, or lie in
a listed segment, do not move again. TILEWALK_COMPLETE, with every byte moved, ends the command: what it wrote is released,
its completion word is written, its record is pushed, and it leaves q2. -/
def Claims.CopiesMove : Prop :=
  (∀ (s : State) (cl id : Nat) (c : TwCmd) (row off len : Nat), s.twCmd cl id = some c →
    (len = 0 ∨ c.rows.length ≤ row ∨ ¬ ∃ r ∈ c.toMove row, r.1 ≤ off ∧ off + len ≤ r.1 + r.2) →
    exec (.permitReturn cl id row off len) s = .next s) ∧
  (∀ (s u v v' : State) (cl id : Nat) (c : TwCmd) (row off len : Nat) (at_ : Attr) (bs : List Byte) (b : Block),
    CopyRuns s cl id c → row < c.rows.length → 0 < len → (∃ r ∈ c.toMove row, r.1 ≤ off ∧ off + len ≤ r.1 + r.2) →
    let va := c.gAddr row + off
    let o := c.sOff row + off
    va % 64 + len ≤ 64 → c.kind ≠ 3 → c.member = false → s.isDet c.blk = false → c.frozen = [] → c.glob.space = 0 →
    c.scr.space = 1 → s.block c.blk = some b → b.regions = [] → b.specA = [] → Memory.wf b.aMem = true →
    s.twReach cl c row off len = (u, none) → u.translate (dieOfCluster cl) (u.blockPart c.blk) va 0 c.out.toNat = (v, .ok at_) →
    (c.out = false → v.sliceRead cl (v.blockPart c.blk) va len 0 at_ = (v', bs) → bs.length = len →
      ∃ t b', exec (.permitReturn cl id row off len) s = .next t ∧ t.twCmd cl id = some (movedOn c row off len) ∧
        t = { v' with clusters := t.clusters, blocks := t.blocks } ∧ (∀ j, t.block j = if j = c.blk then some b' else s.block j) ∧
        b' = { b with aMem := b'.aMem } ∧
        ∀ a, Memory.read b'.aMem a = if o ≤ a ∧ a < o + len then bs.getD (a - o) 0 else Memory.read b.aMem a) ∧
    (c.out = true → ∃ t x, exec (.permitReturn cl id row off len) s = .next t ∧
      t = { v with clusters := t.clusters } ∧ (t.twCmd cl id).map (·.moved) = some (c.moved ++ [(row, off, len)]) ∧
      t.sliceLine cl (at_.pa / 64) = some x ∧ x.dirty = (sliceOr s cl (at_.pa / 64)).dirty ||| byteMask (at_.pa % 64) len ∧
      ∀ k < 64, lineByte x.data k = if at_.pa % 64 ≤ k ∧ k < at_.pa % 64 + len then
          Memory.read b.aMem (o + (k - at_.pa % 64)) else lineByte (sliceOr s cl (at_.pa / 64)).data k)) ∧
  ∀ (s : State) (cl id : Nat) (c : TwCmd) (b : Block), CopyRuns s cl id c → c.fixup = [] →
    (∀ k < c.rows.length, c.unmoved k = []) → c.kind ≠ 3 → c.member = false → s.block c.blk = some b →
    b.tx.phase = .idle → s.blockWarps c.blk ≠ [] → b.group = none → b.regions = [] → b.specA = [] →
    Memory.wf b.aMem = true → RisingKeys s.dx → (c.cwe = true → c.cwPos = posOfCore b.core) →
    let v := s.releaseSlice cl c.wrote .all
    ∃ t b', exec (.tilewalkComplete cl id) s = .next t ∧ ReachedHome t cl c.wrote ∧
      t = { v with clusters := t.clusters, blocks := t.blocks, warps := t.warps, parts := t.parts } ∧
      (t.cluster cl).q2 = (s.cluster cl).q2.filter (fun y => y.id != id) ∧
      t.block c.blk = some b' ∧ (∀ j ≠ c.blk, t.block j = s.block j) ∧
      b' = { b with aMem := b'.aMem, reservedA := b.reservedA - c.res.length } ∧
      (∀ a, Memory.read b'.aMem a = if c.cwe = true ∧ c.cwOff ≤ a ∧ a < c.cwOff + 8 then
          (wordBytes c.cval).getD (a - c.cwOff) 0 else Memory.read b.aMem a) ∧
      ∀ j, t.warp j = (s.warp j).map fun w => if w.uid = c.uid ∧ c.recd then { w with q3 := w.q3 ++ [c.cval] } else w

/-- R344: a segment of a copy or a collective whose page fails is listed, and its page reported under the command's tag,
0x8000 and up, with its lowest address in the command's rows, unless a record of the page is out; matrix operand fetch never takes
this path. -/
def Claims.SegmentsFault : Prop :=
  (∀ (s : State) (place id row off : Nat) (dst : Bool), exec (.engineSegmentFault .matrix place id row off dst) s = .next s) ∧
  (∀ (s u : State) (cl id row off : Nat) (c : TwCmd) (r : FaultRec), CopyRuns s cl id c → row < c.rows.length →
    let lo := max (c.gAddr row) ((c.gAddr row + off) / 4096 * 4096)
    let hi := min (c.gAddr row + c.rowBytes) ((c.gAddr row + off) / 4096 * 4096 + 4096)
    let g : Segment := { row, off := lo - c.gAddr row, len := hi - lo, dst := c.out }
    (∃ y ∈ c.toMove row, rangesMeet y.1 y.2 g.off g.len = true) → g ∉ c.fixup →
    s.twReach cl c row g.off g.len = (u, some r) → (s.part (s.blockPart c.blk)).isSome = true →
    ∃ t, exec (.engineSegmentFault .tilewalk cl id row off c.out) s = .next t ∧
      (t.twCmd cl id).map (·.fixup) = some (c.fixup ++ [g]) ∧
      (t.twCmd cl id).map (·.posted) = some ((c.posted ++ [(r.client, r.addr / 4096)]).dedup) ∧
      ((r.client, r.addr / 4096) ∉ c.posted → ∃ ev, KMap.get? (t.partD (s.blockPart c.blk)).events (0x8000 + id) = some ev ∧
        ev.who = .tilewalk cl id ∧ (r.client ≠ 3 → ev.first = r) ∧
        (r.client = 3 → LowestOf r ((List.range c.rows.length).map fun k => (c.gAddr k, c.rowBytes)) ev.first)) ∧
      ((r.client, r.addr / 4096) ∈ c.posted → t = { u with clusters := t.clusters })) ∧
  ∀ (s u : State) (die id row off : Nat) (dst : Bool) (c : CollCmd) (r : FaultRec), s.collCmd die id = some c → c.id = id →
    let h := c.side dst
    let a := h.base + row * h.pitch
    let lo := max a ((a + off) / 4096 * 4096)
    let hi := min (a + h.rowBytes) ((a + off) / 4096 * 4096 + 4096)
    let g : Segment := { row, off := lo - a, len := hi - lo, dst }
    row < h.rows → off < h.rowBytes → c.fixup.length < 256 → g ∉ c.fixup →
    s.collReach die c dst.toNat lo (hi - lo) = (u, some r) → (s.part c.part).isSome = true →
    ∃ t, exec (.engineSegmentFault .collective die id row off dst) s = .next t ∧
      (t.collCmd die id).map (·.fixup) = some (c.fixup ++ [g]) ∧
      ((∀ y ∈ c.fixup, c.segAddr y / 4096 ≠ r.addr / 4096) → ∃ ev,
        KMap.get? (t.partD c.part).events (0x8000 + id) = some ev ∧ ev.who = .collective die id ∧
        LowestOf r ((handleOf c.hS).ranges ++ (handleOf c.hD).ranges) ev.first) ∧
      ((∃ y ∈ c.fixup, c.segAddr y / 4096 = r.addr / 4096) → t = { u with dies := t.dies })

/-- R148, R251, R277, R383, R385: the first collective of its communicator, with every row of both buffers reached and every
participant's bytes at hand, delivers its result, leaves q4, pushes its record to q5 and counts its step: an entry's count grows
by one, and at NEED it is zero again and the listed nodes are decremented (R385); Table 14 says what the result is. -/
def Claims.Collectives : Prop :=
  (∀ (s u v : State) (die id : Nat) (peers : List (List Byte)) (c : CollCmd) (own : List Byte), s.collCmd die id = some c →
    s.collReady die c = (u, true) → c.fixup = [] → s.collFirst c = true → (s.partD c.part).progress = true →
    let hS := handleOf c.hS
    let hD := handleOf c.hD
    (hS.ranges.foldl (fun (a : State × List Byte) r =>
      ((a.1.collRead die c r.1 r.2).1, a.2 ++ (a.1.collRead die c r.1 r.2).2)) (u, [])) = (v, own) →
    (∀ k < c.g, k ≠ c.rank → (peers.getD k []).length = own.length) →
    let srcs := (List.range c.g).map fun k => if k = c.rank then own else peers.getD k []
    let out := hD.ranges.zipIdx.foldl (fun s r =>
      s.collWrite die c r.1.1 (((collResult c srcs).drop (r.2 * hD.rowBytes)).take hD.rowBytes)) v
    let span := fun (h : Handle) => if h.rows = 0 then 0 else (h.rows - 1) * h.pitch + h.rowBytes
    ∃ t : State, exec (.collectiveComplete die id peers) s = .next (t.countStep c.part c.step) ∧
      t = { out with dies := t.dies, warps := t.warps, parts := t.parts } ∧
      (t.die die).q4 = (out.die die).q4.filter (fun k => k.id != id) ∧
      ∀ j, t.warp j = (s.warp j).map fun w =>
        if w.uid = c.uid then { w with q5 := w.q5 ++ [(c.tag, hS.base, span hS, hD.base, span hD)] } else w) ∧
  (∀ (s : State) (part e : Nat) (P : Part), s.part part = some P →
    let w0 := s.physWord (P.regs.stepBase.toNat + 32 * e)
    let n := KMap.getD P.stepCounts e 0 + 1
    let due := ((List.range 12).map fun i => numAt (Memory.read s.hbm) (P.regs.stepBase.toNat + 32 * e + 8 + 2 * i) 2).filter
      (· ≠ 0xFFFF)
    (e = 0xFFFF → s.countStep part e = s) ∧
    (e ≠ 0xFFFF → n ≠ w0.toNat % 65536 →
      OnlyPart s (s.countStep part e) part { P with stepCounts := KMap.set P.stepCounts e n }) ∧
    (e ≠ 0xFFFF → n = w0.toNat % 65536 → ∃ u, OnlyPart s u part { P with stepCounts := KMap.erase P.stepCounts e } ∧
      s.countStep part e = (due.foldl (fun s n => s.stepDecrement part (w0.toNat / 65536 % 16) n) u).pump part
        (w0.toNat / 65536 % 16))) ∧
  (∀ (c : CollCmd) (srcs : List (List Byte)), c.kind = 2 → collResult c srcs = srcs.flatten) ∧
  (∀ (c : CollCmd) (srcs : List (List Byte)), c.kind = 3 → collResult c srcs = srcs.getD c.root []) ∧
  (∀ (c : CollCmd) (srcs : List (List Byte)) (n : Nat), c.kind = 0 → c.ty = 4 → c.op = 0 → srcs ≠ [] →
    (∀ x ∈ srcs, x.length = 4 * n) → ∀ k < n,
      numAt (fun i => (collResult c srcs).getD i 0) (4 * k) 4 =
        ((srcs.map fun x => numAt (fun i => x.getD i 0) (4 * k) 4).sum) % 2 ^ 32) ∧
  ∀ (c : CollCmd) (srcs : List (List Byte)) (n : Nat), c.kind = 1 → c.ty = 4 → c.op = 0 → srcs ≠ [] → 0 < c.g →
    c.rank < c.g → (∀ x ∈ srcs, x.length = 4 * n * c.g) → ∀ k < n,
      numAt (fun i => (collResult c srcs).getD i 0) (4 * k) 4 =
        ((srcs.map fun x => numAt (fun i => x.getD i 0) (4 * (c.rank * n + k)) 4).sum) % 2 ^ 32

end Sys2Proof.Machine

/-- R117 to R120, R149, R153, R154: the device's part in commits and merges. Readings that are the model’s own: log entries
23, 24, 56 and 68. -/
def Obligations.CommitAndMergeSteps : Prop := OrderedCommits ∧ RecordRelease ∧ DeltaMerges

/-- R103, R124, R261 to R266, R365: what the matrix engine does with its commands. Readings that are the model’s own: log
entries 39 to 45 and 54. -/
def Obligations.MatrixEngine : Prop := MatrixRetirement ∧ MatrixTroubles

/-- R70 to R77, R148, R251, R274, R277, R329, R344: what the tile-walk and collective engines do with theirs. Readings that
are the model’s own: log entries 18, 46, 47, 81 and 100. -/
def Obligations.CopyAndCollectiveEngines : Prop := CopiesMove ∧ SegmentsFault ∧ Collectives

namespace Sys2Proof.Machine.Claims

open Sys2Proof

/-- Places of a ring of `size` records between its tail and its head, one of which stays unused (R340; log entry 15). -/
def placesFree (size head tail : Nat) : Nat := if head ≤ tail then size - 1 - (tail - head) else head - tail - 1

/-- A partition whose events a step answers, with the event of a tag posted (R341). -/
abbrev Posted (s : State) (part tag : Nat) (P : Part) (ev : Event) : Prop :=
  s.part part = some P ∧ P.progress = true ∧ KMap.get? P.events tag = some ev ∧ ev.posted = true

/-- The state without the event of a tag. -/
abbrev withoutEvent (s : State) (part tag : Nat) : State :=
  s.modPart part fun p => { p with events := KMap.erase p.events tag }

end Sys2Proof.Machine.Claims

namespace Sys2Proof.Machine

open Sys2Proof Claims

/-- R340: FAULT_EVENT_POST writes the records of a die's first waiting event of a partition at the tail of the ring, in
order, and advances the tail, if the ring has room for all of them; else nothing is written and the event waits. -/
def Claims.EventsPosted : Prop :=
  ∀ (s : State) (die part : Nat) (P : Part) (e : WaitEvent), s.part part = some P →
    (s.die die).waitEv.find? (fun x => x.part == part) = some e →
    let size := P.regs.fqSize.toNat
    let head := P.regs.fqHead.toNat
    let tail := P.regs.fqTail.toNat
    let base := P.regs.fqBase.toNat
    64 ≤ size → size ≤ 65536 → (∃ k, size = 2 ^ k) → head < size → tail < size →
    (placesFree size head tail < e.recs.length → exec (.faultEventPost die part) s = .next s) ∧
    (e.recs.length ≤ placesFree size head tail → (∀ r ∈ e.recs, r.length = 4) → Memory.wf s.hbm = true →
      ∃ t P', exec (.faultEventPost die part) s = .next t ∧
        t = { s with hbm := t.hbm, dies := t.dies, parts := t.parts } ∧
        (∀ d, t.die d = if d = die then { s.die d with waitEv := (s.die d).waitEv.erase e } else s.die d) ∧
        t.part part = some P' ∧ (∀ k ≠ part, t.part k = s.part k) ∧
        P' = { P with
          regs := { P.regs with fqTail := BitVec.ofNat 16 ((tail + e.recs.length) % size) }
          events := if e.quiet then P.events else KMap.modify P.events e.tag fun v => { v with posted := true } } ∧
        (∀ k < e.recs.length, ∀ j < 4, numAt (Memory.read t.hbm) (base + 32 * ((tail + k) % size) + 8 * j) 8 =
          ((e.recs.getD k []).getD j 0).toNat) ∧
        ∀ a, (a < base ∨ base + 32 * size ≤ a) → Memory.read t.hbm a = Memory.read s.hbm a)

/-- R341, R353, R355, R359: FRESOLVE answers a posted event of a warp. A retry puts the warp, as its frame in memory holds it,
back in a free slot of its kind, to issue the faulting word again; a delivery enters the handler of the fault's cause; without
a free slot the frame is ready and waits, and a frozen warp stays in its frame. An event not posted is not answered. -/
def Claims.WarpAnswers : Prop :=
  (∀ (s : State) (part tag : Nat) (P : Part), s.part part = some P →
    (KMap.get? P.events tag = none ∨ ∃ ev, KMap.get? P.events tag = some ev ∧ ev.posted = false) →
    exec (.fresolveRetry part tag) s = .next s ∧ exec (.fresolveDeliver part tag) s = .next s) ∧
  ∀ (s : State) (part tag : Nat) (P : Part) (ev : Event) (f : Frame), Posted s part tag P ev → ev.who = .warp →
    KMap.get? P.frames tag = some f →
    let waits : Option FaultInfo → Part := fun d => { P with
      events := KMap.erase P.events tag
      frames := KMap.modify P.frames tag fun f => { f with ready := true, deliver := d } }
    (f.w.st = .frozen ∨ s.restoreSlot f = none →
      (∃ t, exec (.fresolveRetry part tag) s = .next t ∧ OnlyPart s t part (waits none)) ∧
      ∃ t, exec (.fresolveDeliver part tag) s = .next t ∧
        OnlyPart s t part (waits (f.w.fault.map fun wf => { wf.info with cause := ev.first.cause }))) ∧
    ∀ slot, f.w.st ≠ .frozen → s.restoreSlot f = some slot →
      let wk := wkOf f.core f.ctx slot
      let P' : Part := { P with events := KMap.erase P.events tag, frames := KMap.erase P.frames tag }
      ∃ v : Warp, FromFrame s (P.regs.frameBase.toNat + 73728 * tag) wk f.w v ∧
        (∃ t, exec (.fresolveRetry part tag) s = .next t ∧ OnlyPart { s with warps := t.warps } t part P' ∧
          ∀ j, t.warp j = if j = wk then some v else s.warp j) ∧
        ∀ wf, f.w.fault = some wf → 3 ≤ ev.first.cause → ev.first.cause ≤ 6 → v.inTrap = false → v.threads.length = 32 →
          wf.iss.lanes ≠ 0 → (∀ l ∈ lanesOf wf.iss.lanes, (v.thread l).runnable = true) →
          vectorMode (vectorWord s wk v ev.first.cause) = 1 ∨ vectorMode (vectorWord s wk v ev.first.cause) = 2 →
          ∃ t u t1 w1, exec (.fresolveDeliver part tag) s = .next t ∧ OnlyPart s u part P' ∧
            EntersTrap u t1 { wf.iss with wk } v wf.iss.lanes ev.first.cause ev.first.cause wf.info.info
              (fun l t => if wf.iss.lanes.getLsbD l then { t with pos := { t.pos with
                pc := wf.iss.pc, hdr := if wf.iss.pc = wf.iss.hdr then none else some wf.iss.hdr } } else t) ∧
            t1.warp wk = some w1 ∧ t = t1.setWarp wk { w1 with st := .start }

/-- R319, R341, R344, R368: FRESOLVE answers other posted events. A delivery for an engine freezes the command's warp, in its slot or its frame, and
marks its launch for firmware; a retry takes the fix-up list again, and a segment that can be reached leaves it; a record
whose fault is delivered is dropped, with FESTAT[10] set, and its launch is complete. The answers to a partition that is
swapped out wait for its return. -/
def Claims.OtherAnswers : Prop :=
  (∀ (s : State) (part tag cl id : Nat) (P : Part) (ev : Event) (c : TwCmd) (b : Block) (l : Launch),
    Posted s part tag P ev → ev.who = .tilewalk cl id → s.twCmd cl id = some c → s.block c.blk = some b →
    s.launch b.launch = some l → l.phase = .running →
    let ice := fun (w : Warp) => if w.uid = c.uid then { w with st := .frozen, pend := none } else w
    ∃ t, exec (.fresolveDeliver part tag) s = .next t ∧
      t = { s with warps := t.warps, launches := t.launches, parts := t.parts } ∧
      (∀ j, t.warp j = (s.warp j).map ice) ∧
      (∀ j, t.launch j = if j = b.launch then some { l with phase := .faulted } else s.launch j) ∧
      ∀ k, t.part k = (s.part k).map fun p => { p with
        events := if k = part then KMap.erase p.events tag else p.events
        frames := p.frames.mapVals fun (f : Frame) => { f with w := ice f.w } }) ∧
  (∀ (s u : State) (part tag die id : Nat) (P : Part) (ev : Event) (c : CollCmd) (g : Segment), Posted s part tag P ev →
    ev.who = .collective die id → s.collCmd die id = some c → c.id = id → c.fixup = [g] →
    (withoutEvent s part tag).collReach die c g.dst.toNat (c.segAddr g) g.len = (u, none) →
    ∃ t, exec (.fresolveRetry part tag) s = .next t ∧ t = { u with dies := t.dies } ∧
      t.collCmd die id = some { c with fixup := [] }) ∧
  (∀ (s u v : State) (part tag cl id : Nat) (P : Part) (ev : Event) (c : TwCmd) (g : Segment), Posted s part tag P ev →
    ev.who = .tilewalk cl id → s.twCmd cl id = some c → c.id = id → c.fixup = [g] → g.row < c.rows.length →
    c.unmoved g.row = [(g.off, g.len)] →
    let k : TwCmd := { c with fixup := [], posted := [] }
    ((withoutEvent s part tag).modTw cl id fun c => { c with fixup := [], posted := [] }).twReach cl k g.row g.off g.len =
      (u, none) → u.twMove cl k g.row g.off g.len = (v, true) →
    exec (.fresolveRetry part tag) s = .next v) ∧
  (∀ (s : State) (part q id : Nat) (P : Part) (ev : Event) (l : Launch), Posted s part (0xFFC0 + q) P ev →
    ev.who = .front (.launchDone id) → s.launch id = some l → l.part = part → l.queue = q → l.graph = none →
    P.graphs = [] → (∀ e ∈ s.launches, e.2.phase = .finishing → e.1 = id) → RisingKeys s.launches →
    ∃ t P', exec (.fresolveDeliver part (0xFFC0 + q)) s = .next t ∧ t.launches = KMap.erase s.launches id ∧
      t.hbm = s.hbm ∧ t.bus = s.bus ∧ t.part part = some P' ∧ P'.regs = { P.regs with feDropped := true } ∧
      P'.pages = P.pages.filter (· != l.argPage)) ∧
  ∀ (s : State) (part tag : Nat) (P : Part) (ev : Event), s.part part = some P → P.progress = false →
    KMap.get? P.events tag = some ev → ev.posted = true →
    ∃ t t', exec (.fresolveRetry part tag) s = .next t ∧
      OnlyPart s t part { P with resolved := P.resolved ++ [(tag, false)] } ∧
      exec (.fresolveDeliver part tag) s = .next t' ∧
      OnlyPart s t' part { P with resolved := P.resolved ++ [(tag, true)] }

/-- R338, R345, R352, R379: PRI_RESPONSE answers one of the 512 page requests that may be outstanding. With success the
translation of 4 KiB to 1 GiB is admitted, and the clients that wait for the page go on; without, each gets a PERM record with
reason 7 and waits for FRESOLVE. A faulted warp still in its slot goes on, or its records of the page become PERM, likewise.
INVGO starts an invalidation; INVALIDATION_COMPLETE drops every cached entry of the range once no access that used one is in
flight. ATS_INVALIDATE drops cached translations of bus pages. -/
def Claims.PagesAndInvalidation : Prop :=
  (∀ (s : State) (part page : Nat) (ans : Option Nat) (P : Part), s.part part = some P →
    let P' : Part := { P with
      priOut := P.priOut.erase page
      atc := P.atc ++ ans.toList.map (page, ·) }
    let waits := fun (w : Warp) => s.partOf w = part ∧ ∃ wf, w.fault = some wf ∧ ∃ r ∈ wf.info.recs, r.hostpri = some page
    (page ∉ P.priOut.take 512 ∨ (∃ n ∈ ans, 18 < n) → exec (.priResponse part page ans) s = .next s) ∧
    (page ∈ P.priOut.take 512 → (∀ n ∈ ans, n ≤ 18) →
      ((∀ e ∈ P.events, page ∉ e.2.pris ∨ e.2.failed = true) → ∃ t, exec (.priResponse part page ans) s = .next t ∧
        OnlyPart { s with warps := t.warps } t part P' ∧
        ∀ j w, s.warp j = some w →
          (¬ waits w → t.warp j = some w) ∧
          ∀ wf, waits w → w.fault = some wf →
            (ans ≠ none → t.warp j = some { w with st := .start, fault := none }) ∧
            (ans = none → ∃ v vf, t.warp j = some v ∧ v = { w with fault := some vf } ∧
              vf = { wf with info := { wf.info with cause := vf.info.cause, recs := vf.info.recs } } ∧
              vf.info.recs = wf.info.recs.map (fun r =>
                if r.hostpri = some page then { r with cause := 4, reason := 7, hostpri := none } else r) ∧
              vf.info.recs.head?.map (·.cause) = some vf.info.cause)) ∧
      ((∀ a ∈ s.warps, ¬ waits a.2) → ∀ tag ev, P.events = [(tag, ev)] →
        page ∈ ev.pris → ev.failed = false →
        (∀ f slot, ans ≠ none → P.progress = true → ev.who = .warp → KMap.get? P.frames tag = some f → f.w.st ≠ .frozen →
          s.restoreSlot f = some slot →
          ∃ t v, exec (.priResponse part page ans) s = .next t ∧
            FromFrame s (P.regs.frameBase.toNat + 73728 * tag) (wkOf f.core f.ctx slot) f.w v ∧
            (∀ j, t.warp j = if j = wkOf f.core f.ctx slot then some v else s.warp j) ∧
            t.part part = some { P' with events := [], frames := KMap.erase P.frames tag }) ∧
        (ans = none → ∃ t ev', exec (.priResponse part page ans) s = .next t ∧ t.warps = s.warps ∧
          KMap.get? (t.partD part).events tag = some ev' ∧ ev'.who = ev.who ∧ ev'.first.cause = 4 ∧ ev'.first.reason = 7 ∧
          ev'.failed = true)))) ∧
  (∀ (s : State) (part : Nat) (P : Part), s.part part = some P → ∃ t, exec (.invgo part) s = .next t ∧
    OnlyPart s t part (if P.regs.invDone then
      { P with regs := { P.regs with invDone := false, invRange := (P.regs.invBase.toNat, P.regs.invLen.toNat) } }
      else P)) ∧
  (∀ (s : State) (part : Nat) (P : Part), s.part part = some P →
    let base := P.regs.invRange.1
    let len := P.regs.invRange.2
    (P.regs.invDone = true ∨ s.inFlight part base len = true → exec (.invalidationComplete part) s = .next s) ∧
    (P.regs.invDone = false → s.inFlight part base len = false → ∃ t, exec (.invalidationComplete part) s = .next t ∧
      t = { s with dies := t.dies, parts := t.parts } ∧
      (∀ d, t.die d = { s.die d with tlb := (t.die d).tlb } ∧ ∀ e, e ∈ (t.die d).tlb ↔ e ∈ (s.die d).tlb ∧
        ¬ (e.part = part ∧
          let n := if e.cont then 2 ^ 16 else 2 ^ levelShift e.level
          let a := if e.cont then e.prefix_ / 16 * 2 ^ 16 else e.prefix_ * 2 ^ levelShift e.level
          (len = 0 ∨ (a < base + len ∧ base < a + n)))) ∧
      ∀ k, t.part k = if k = part then some { P with regs := { P.regs with invDone := true } } else s.part k)) ∧
  ∀ (s : State) (part base len : Nat) (P : Part), s.part part = some P →
    (s.atsInFlight part base len = true → exec (.atsInvalidate part base len) s = .next s) ∧
    (s.atsInFlight part base len = false → ∃ t P', exec (.atsInvalidate part base len) s = .next t ∧
      OnlyPart s t part P' ∧ P' = { P with atc := P'.atc } ∧
      ∀ g, g ∈ P'.atc ↔ g ∈ P.atc ∧ ¬ (len = 0 ∨
        (let a := g.1 / 2 ^ g.2 * 2 ^ g.2 * 4096; a < base + len ∧ base < a + 2 ^ g.2 * 4096)))

/-- R313, R315, R380, R402: DOORBELL tells of one more packet while the TDI is in RUN; COMMAND_PACKET reads the next packet of
the ring and begins the program with every register zero; QUEUE_RESUME lets a waiting bytecode be tried again;
QUEUE_PROGRAM_LOAD installs an accepted program, and notes a refused one in FESTAT. -/
def Claims.QueueSteps : Prop :=
  (∀ (s : State) (part q : Nat) (x : Queue) (P : Part), s.part part = some P → s.queue part q = some x →
    (P.tdi = 2 → ∃ t, exec (.doorbell part q) s = .next t ∧ OnlyQueue s t part q { x with bell := x.bell + 1 }) ∧
    (P.tdi ≠ 2 → exec (.doorbell part q) s = .next s) ∧
    (P.progress = true → x.run = none → x.head < x.bell → x.ringLen ≠ 0 → x.prog ≠ [] →
      ∀ u ws, s.feWords part (x.ringBase + 64 * (x.head % x.ringLen)) 8 = (u, ws) →
        ∃ t, exec (.commandPacket part q) s = .next t ∧
          OnlyQueue u t part q { x with run := some { packet := ws, regs := [], pc := 0, rept := none, wait := .none } }) ∧
    (P.progress = false ∨ x.run ≠ none ∨ x.bell ≤ x.head → exec (.commandPacket part q) s = .next s) ∧
    ∀ r, x.run = some r →
      (P.progress = true → (r.wait = .argPage ∧ s.freePage part ≠ none) ∨ r.wait = .order ∨
          (r.wait = .write ∧ KMap.get? P.events (0xFFC0 + q) = none) →
        ∃ t, exec (.queueResume part q) s = .next t ∧ QueueWaits s t part q x r .none) ∧
      (r.wait = .none ∨ (r.wait = .argPage ∧ s.freePage part = none) ∨
          (r.wait = .write ∧ KMap.get? P.events (0xFFC0 + q) ≠ none) → exec (.queueResume part q) s = .next s)) ∧
  (∀ (s u : State) (part q ctx ringBase ringLen : Nat) (prog : List (BitVec 32)) (wins : List QWindow) (ok : Bool)
    (P : Part), s.part part = some P → q < 64 → ((KMap.get? P.queues q).bind (·.run)) = none →
    s.windowsMapped part wins = (u, ok) →
    (ok = true → programOk prog wins = true → ∃ t y, exec (.queueProgramLoad part q ctx prog wins ringBase ringLen) s = .next t ∧
      t = { u with parts := t.parts } ∧ t.queue part q = some y ∧ y.prog = prog ∧ y.wins = wins ∧ y.ringBase = ringBase ∧
      y.ringLen = ringLen ∧ y.ctx = ctx ∧ y.head = 0 ∧ y.bell = 0 ∧ y.run = none ∧
      (∀ j ≠ q, t.queue part j = s.queue part j) ∧ (t.partD part).regs = (u.partD part).regs) ∧
    (ok = false ∨ programOk prog wins = false → ∃ t, exec (.queueProgramLoad part q ctx prog wins ringBase ringLen) s = .next t ∧
      t = { u with parts := t.parts } ∧ (∀ j, t.queue part j = s.queue part j) ∧
      (t.partD part).regs = { (u.partD part).regs with feRefused := BitVec.ofNat 6 q, feLoadBad := true })) ∧
  (∀ (prog : List (BitVec 32)) (wins : List QWindow), programOk prog wins = true →
    prog.length ≤ 1024 ∧ wins.length ≤ 8 ∧ (∀ w ∈ prog, ∃ i, decodeBytecode w = some i) ∧
    (∀ v ∈ wins, 64 ≤ v.size ∧ v.size ≤ 2 ^ 30 ∧ ∃ k, v.size = 2 ^ k) ∧
    (∀ w ∈ prog, ∀ x, decodeBytecode w = some (.qpWrw x) → ∃ v, wins[x.imm.toNat % 8]? = some v ∧ v.writable = true) ∧
    ∀ w ∈ prog, ∀ x, (decodeBytecode w = some (.qpRdw x) ∨ decodeBytecode w = some (.qpLaunch x)) →
      x.imm.toNat % 8 < wins.length) ∧
  (∀ (s : State) (part place : Nat) (P : Part) (g : Graph), s.part part = some P → KMap.get? P.graphs place = some g →
    (g.running = true → exec (.graphTableUnload part place) s = .next s) ∧
    (g.running = false → ∃ t, exec (.graphTableUnload part place) s = .next t ∧
      OnlyPart s t part { P with graphs := KMap.erase P.graphs place }) ∧
    ∀ base, exec (.graphTableLoad part place base) s = .next s) ∧
  ∀ (s u v : State) (part place base : Nat) (P : Part) (hd : List Word) (nodes : List (Option GNode)), s.part part = some P →
    place < 16 → KMap.get? P.graphs place = none → s.feWords part base 8 = (u, hd) →
    let w := fun k => (hd.getD k 0).toNat
    let n := w 1 % 2 ^ 13
    let good := w 0 / 2 ^ 52 = 0 ∧ w 0 % 64 = 0 ∧ w 1 / 2 ^ 13 = 0 ∧ (∀ k, 2 ≤ k → k < 8 → w k = 0) ∧ 0 < n ∧ n ≤ 4096 ∧
      (P.graphs.map fun g => g.2.nodes.length).sum + n ≤ 4096
    (¬ good → exec (.graphTableLoad part place base) s = .next u) ∧
    (good → ((List.range n).foldl (fun (a : State × List (Option GNode)) k =>
        ((a.1.readNode part (base + 64 + 64 * k) n).1, a.2 ++ [(a.1.readNode part (base + 64 + 64 * k) n).2])) (u, [])) =
          (v, nodes) →
      (none ∈ nodes → exec (.graphTableLoad part place base) s = .next v) ∧
      (none ∉ nodes → ∃ t g, exec (.graphTableLoad part place base) s = .next t ∧ t = { v with parts := t.parts } ∧
        t.graph part place = some g ∧ g.base = base ∧ g.doneVa = w 0 ∧ g.nodes.map some = nodes ∧ g.running = false))

/-- R23 to R31, R126, R305, R324 to R326: BLOCK_PLACE takes the first unit of the list that can be placed. A block outside a
cluster group is placed with its allocation zero and its starting rung from the rung history (0 in a deterministic launch),
and its warps start in the slots found, each with its role's register count, all 32 threads at its entry. -/
def Claims.Placing : Prop :=
  (∀ (s : State) (part : Nat), (s.partD part).progress = false ∨ (∀ x ∈ s.placeList part, s.placeOf part x = none) →
    exec (.blockPlace part) s = .next s) ∧
  ∀ (s : State) (part c : Nat) (pre post : List PlaceUnit) (x : PlaceUnit) (u : Unplaced) (slots : List Nat) (l : Launch)
    (img : Image), (s.partD part).progress = true → s.placeList part = pre ++ x :: post →
    (∀ y ∈ pre, s.placeOf part y = none) → s.placeOf part x = some [(u, c, slots)] → s.launch x.launch = some l →
    l.part = part → l.clusg = 0 → u.place = none → u.replay = false → s.image (imageKey part l.image) = some img →
    img.maps = [] → slots.Nodup → slots.length = img.warps → (∀ n ∈ slots, n < 32) →
    ∃ t b l', exec (.blockPlace part) s = .next t ∧
      t = { s with warps := t.warps, blocks := t.blocks, launches := t.launches, parts := t.parts, nextUid := t.nextUid } ∧
      t.nextUid = s.nextUid + 1 + img.warps ∧ t.block s.nextUid = some b ∧
      (∀ k ≠ s.nextUid, t.block k = s.block k) ∧
      b.launch = x.launch ∧ b.idx = u.idx ∧ b.core = c ∧ b.aMem = [] ∧ b.wMem = [] ∧ b.cMem = [] ∧ b.aSize = img.aSize ∧
      b.wSize = img.wSize ∧ b.cSize = img.cSize ∧ b.poolA = img.vpa / 64 ∧ b.poolC = img.vpc / 64 ∧ b.q7 = u.recs ∧
      b.tx = {} ∧ b.ended = false ∧
      b.rung = (if l.det then 0 else s.historyLookup (dieOfCore c) l.key u.idx (s.rungsOf l - 1)) ∧
      (∀ k < img.warps, ∃ w r, t.warp (wkOf c l.ctx (slots.getD k 0)) = some w ∧ img.warpList[k]? = some r ∧ w.st = .start ∧
        w.launch = x.launch ∧ w.blk = s.nextUid ∧ w.warpid = k ∧ w.nregs = r.1 ∧ w.child = false ∧ w.uid = s.nextUid + 1 + k ∧
        w.code = (l.start x.launch r.2 r.1).1 ∧ w.threads.length = 32 ∧ (∀ j n, w.v j n = 0) ∧ (∀ j, w.s j = 0) ∧
        w.fcsr = 0 ∧ ∀ n < 32, w.thread n = { st := .sub, pos := { pc := (l.start x.launch r.2 r.1).2 } }) ∧
      (∀ j, (∀ n ∈ slots, j ≠ wkOf c l.ctx n) → t.warp j = s.warp j) ∧
      t.launch x.launch = some l' ∧ l' = { l with unplaced := l.unplaced.erase u, domains := l'.domains } ∧
      (t.partD part).lastSeq = c % 4 * 56 + 4 * (c % 56 / 4) + c / 56

/-- R50 to R54, R318, R319, R358: EVALUATION_COMPLETE installs the residual code on every present die as the entry last used
and runs it, or, where its walk left a word marked 0b10 unfolded, refuses the launch with status 2; where some die cannot free
the room it runs the original image, whatever the marks; LAUNCH_COMPLETE writes the record of a launch
with no block left and frees its argument page; LAUNCH_KILL ends a launch with a Frozen warp with status 7 and without its
blocks. (For launches of no graph.) -/
def Claims.LaunchEnds : Prop :=
  (∀ (s : State) (id : Nat) (l : Launch), s.launch id = some l → l.graph = none →
    (l.phase ≠ .evaluating ∨ s.ck < l.readyCk ∨ (s.partD l.part).progress = false →
      exec (.evaluationComplete id) s = .next s) ∧
    (l.phase = .evaluating → l.readyCk ≤ s.ck → (s.partD l.part).progress = true →
      let e : CacheEntry :=
        { key := l.key, identity := (s.image (imageKey l.part l.image)).elim [] (·.identity), res := l.resid.getD {} }
      (s.install e = none → ∃ t, exec (.evaluationComplete id) s = .next t ∧ t = { s with launches := t.launches } ∧
        ∀ j, t.launch j = if j = id then some { l with phase := .running, resid := none } else s.launch j) ∧
      ∀ u, s.install e = some u → u = { s with dies := u.dies } ∧
        (∀ d < 4, s.boot.present.getLsbD d = true → (u.die d).cache.getLast? = some e ∧
          ((u.die d).cache.map (·.bytes)).sum ≤ 2 ^ 22) ∧
        (l.refuse = false → ∃ t, exec (.evaluationComplete id) s = .next t ∧ t = { u with launches := t.launches } ∧
          ∀ j, t.launch j = if j = id then some { l with phase := .running, spec := true } else s.launch j) ∧
        (l.refuse = true →
          let l' : Launch := { l with status := 2, unplaced := [], resid := none, phase := .finishing }
          (KMap.get? (s.partD l.part).events (0xFFC0 + l.queue) ≠ none → ∃ t, exec (.evaluationComplete id) s = .next t ∧
            t = { s with launches := t.launches } ∧ ∀ j, t.launch j = if j = id then some l' else s.launch j) ∧
          ∀ v, KMap.get? (s.partD l.part).events (0xFFC0 + l.queue) = none →
            (s.setLaunch id l').feWrite l.part l.doneVa 1 l'.record = (v, none) →
            ∃ t, exec (.evaluationComplete id) s = .next t ∧ t.hbm = v.hbm ∧ t.bus = v.bus ∧
              t.launches = KMap.erase s.launches id ∧ t.warps = s.warps ∧
              (t.partD l.part).pages = (s.partD l.part).pages.filter (· != l.argPage)))) ∧
  (∀ (s v : State) (id : Nat) (l : Launch), s.launch id = some l → l.graph = none → l.recNode = false → l.det = false →
    (s.partD l.part).progress = true →
    (l.phase = .running → s.blocksLeft id l = true → exec (.launchComplete id) s = .next s) ∧
    (l.phase = .running → s.blocksLeft id l = false → l.wroteG = [] → l.wroteH = [] →
      KMap.get? (s.partD l.part).events (0xFFC0 + l.queue) = none →
      (s.modLaunch id fun l => { l with phase := .finishing }).feWrite l.part l.doneVa 1 l.record = (v, none) →
      ∃ t, exec (.launchComplete id) s = .next t ∧ t.hbm = v.hbm ∧ t.bus = v.bus ∧
        t.launches = KMap.erase s.launches id ∧
        (t.partD l.part).pages = (s.partD l.part).pages.filter (· != l.argPage) ∧
        (∀ x, s.queue l.part l.queue = some x →
          t.queue l.part l.queue = some { x with pendingIds := x.pendingIds.filter (· != id) }) ∧ t.warps = s.warps) ∧
    (l.phase = .finishing → KMap.get? (s.partD l.part).events (0xFFC0 + l.queue) ≠ none →
      exec (.launchComplete id) s = .next s)) ∧
  ∀ (s : State) (id : Nat) (l : Launch), s.launch id = some l → l.graph = none →
    (s.hasFrozen id = false → l.phase ≠ .faulted → exec (.launchKill id) s = .next s) ∧
    (s.hasFrozen id = true ∨ l.phase = .faulted → RisingKeys s.launches →
      ∃ t, exec (.launchKill id) s = .next t ∧ (∀ e ∈ t.blocks, e.2.launch ≠ id) ∧
        (∀ j w b, t.warp j = some w → s.block w.blk = some b → b.launch ≠ id) ∧
        ∀ l', t.launch id = some l' → l'.status = 7 ∧ l'.unplaced = [] ∧ l'.phase = .finishing)

end Sys2Proof.Machine

/-- R319, R338 to R345, R353, R368: what becomes of a fault after it is raised. Readings that are the model’s own: log
entries 15, 31, 57 and 80 to 83. -/
def Obligations.FaultAnswers : Prop := EventsPosted ∧ WarpAnswers ∧ OtherAnswers ∧ PagesAndInvalidation

/-- R313 to R323, R380, R402: queues, their programs and graph tables. -/
def Sys2Proof.Machine.Claims.QueueAndTableSteps : Prop := QueueSteps

/-- R23 to R31, R50 to R54, R318, R319, R324 to R326, R358: blocks are placed, and launches come to their end. Readings that
are the model’s own: log entries 33 and 62 to 67. -/
def Obligations.PlacementAndLaunchEnds : Prop := Placing ∧ LaunchEnds

namespace Sys2Proof.Machine.Claims

open Sys2Proof

/-- Nothing but two dies has changed: the link from ring position `p` has its end of the one as `x`, of the other as `y`. -/
def LinkNow (s t : State) (p : Nat) (x y : Port) : Prop :=
  t = { s with dies := t.dies } ∧ ∀ d, t.die d =
    if d = ringDie p then { s.die d with port0 := x } else if d = ringDie (p + 1) then { s.die d with port1 := y }
    else s.die d

/-- A byte of a list, by place. -/
def byteIn (l : List Byte) (k : Nat) : Byte := l.getD k 0

/-- A warp's word has accesses to perform still, so that no stop of its core is over (R361). -/
def HalfDone (w : Warp) : Prop := ∃ p, w.pend = some p ∧ p.why = .more

/-- A request for a landing slot is still the wish of the warp that made it. -/
def StillAsks (s : State) (r : LandReq) : Prop :=
  ∃ w, s.warp r.wk = some w ∧ w.uid = r.uid ∧ w.st = .blocked ∧ w.landing = none

/-- A partition whose carve, if it had one, is released when its clusters go to another (R368). -/
def uncarved (clusters : List Nat) (q : Part) : Part := if ∃ c ∈ q.clusters, c ∈ clusters then { q with carve := false } else q

/-- The messages of the crossbar that a route of `s` reaches go on from their sources. -/
def goOn (s : State) (dx : KMap (List Msg)) : KMap (List Msg) :=
  dx.map fun e => (e.1, e.2.map fun m =>
    if s.reach (s.srcDie (e.1 / 8)) (dieOfPa (m.line * 64)) = true then { m with nak := false } else m)

/-- A port that has come up. -/
abbrev Port.atFull (x : Port) (ck : Nat) : Port := { x with st := .full, since := ck, waking := none }

/-- The warp in slot `wk` waits at the word of a visit, whose lanes all have runnable threads. -/
abbrev WaitsAs (wk : Nat) (w : Warp) (p : Pend) : Prop :=
  w.pend = some p ∧ p.iss.wk = wk ∧ p.iss.lanes ≠ 0 ∧ w.threads.length = 32 ∧
  ∀ l ∈ lanesOf p.iss.lanes, (w.thread l).runnable = true

/-- Nothing at all waits to land. -/
def NoLanding (s : State) : Prop :=
  (∀ e ∈ s.dies, e.2.landReqs = [] ∧ e.2.landNew = []) ∧ (∀ e ∈ s.cores, e.2.landRes = []) ∧
  ∀ e ∈ s.warps, e.2.landing = none ∧ e.2.shipped = false

end Sys2Proof.Machine.Claims

namespace Sys2Proof.Machine

open Sys2Proof Claims

/-- R361, R363, R377: CTXNEXT names the next context; PRELOAD_DONE fills the shadow bank from the context's image, and the exchange of the banks begins
once the core has drained too, to end 64 ck later. CTXSTOP begins the drain: no word issues, a sleep ends, and a request for a
landing slot that has not been granted is taken back. -/
def Claims.ContextStop : Prop :=
  ∀ (s : State) (core n : Nat) (P : Part), s.partOfCore core = some (n, P) →
    let c := s.core core
    (∀ ctx, (KMap.get? P.ctxs ctx ≠ none → ∃ t, exec (.ctxnext core ctx) s = .next t ∧
        OnlyCore s t core { c with ctxNext := some ctx, preloaded := false }) ∧
      (KMap.get? P.ctxs ctx = none → exec (.ctxnext core ctx) s = .next s)) ∧
    (∀ k, c.ctxNext = some k → c.preloaded = false → c.spillDone = true → c.exchange = none →
      ∃ t, exec (.preloadDone core) s = .next t ∧ OnlyCore { s with warps := t.warps } t core
        (if c.drained then { c with exchange := some (s.ck + 64), incoming := k, ctxNext := none }
         else { c with preloaded := true }) ∧
        (RisingKeys s.warps → ∀ j,
          let x := KMap.get? s.imgs j
          (coreOfWk j ≠ core ∨ ctxOfWk j ≠ k ∨ s.warp j = none ∨ x.map (·.uid) ≠ (s.warp j).map (·.uid) →
            t.warp j = s.warp j) ∧
          ∀ w img, coreOfWk j = core → ctxOfWk j = k → s.warp j = some w → x = some img → img.uid = w.uid →
            ∃ v, t.warp j = some v ∧ HeldPart w v ∧ HoldsArea (byteIn img.area) w.threads.length v ∧
              HoldsVectors (byteIn img.regs) 0 v)) ∧
    (c.ctxNext = none ∨ c.preloaded = true ∨ c.spillDone = false ∨ c.exchange ≠ none →
      ∃ t, exec (.preloadDone core) s = .next t ∧ OnlyCore s t core c) ∧
    (c.draining = true → exec (.ctxstop core) s = .next s) ∧
    (c.draining = false → NoLanding s →
      (s.running core = [] → ∃ t, exec (.ctxstop core) s = .next t ∧
        OnlyCore s t core { c with draining := true, drained := false }) ∧
      ∀ wk w p ck, s.running core = [(wk, w)] → s.warp wk = some w → p.why = .sleep ck → WaitsAs wk w p →
        ∃ t w', exec (.ctxstop core) s = .next t ∧ OnlyCore { s with warps := t.warps } t core
            { c with draining := true, drained := false } ∧
          (∀ j, t.warp j = if j = wk then some w' else s.warp j) ∧
          w' = { w with st := .run, threads := w'.threads, pend := none } ∧ ThreadsWentOn p.iss w w' fun _ => 0) ∧
    ∀ wk w p, c.draining = false → s.running core = [(wk, w)] → s.warp wk = some w → w.landing = none →
      w.pend = some p → p.why = .landing → (∀ e ∈ s.warps, e.2.uid = w.uid → e = (wk, w)) →
      ∃ t, exec (.ctxstop core) s = .next t ∧ t = { s with dies := t.dies, cores := t.cores, warps := t.warps } ∧
        (∀ j, t.warp j = if j = wk then some { w with landing := none, shipped := false } else s.warp j) ∧
        t.core core = { c with landRes := c.landRes.filter (fun r => r.1 != w.uid), draining := true, drained := false } ∧
        ∀ d, t.die d = { s.die d with landReqs := (s.die d).landReqs.filter (fun r => r.uid != w.uid)
                                      landNew := (s.die d).landNew.filter (fun r => r.uid != w.uid) }

/-- R363, R364: DRAIN_DONE ends a drain once everything the core has issued is done; one that ends behind the slice's end is
charged to OVERRUN, a 32-bit count, and taken from the context's next slice, which stays at least 1 ck. After 64 ck of exchange
the next context issues, and the one before it is spilled: its image then holds every warp of it in Table 3's form. -/
def Claims.ContextSwitch : Prop :=
  (∀ (s : State) (core n : Nat) (P : Part) (x : Ctx), s.partOfCore core = some (n, P) →
    let c := s.core core
    (c.draining = false ∨ c.drained = true ∨ s.isDrained core = false → exec (.drainDone core) s = .next s) ∧
    (KMap.get? P.ctxs c.ctxCur = some x → c.draining = true → c.drained = false → P.swap = .resident →
      s.isDrained core = true →
      let late := s.ck - (c.sliceStart + max 1 (x.slice - KMap.getD c.cut c.ctxCur 0))
      ∃ t c', exec (.drainDone core) s = .next t ∧ OnlyCore s t core c' ∧ c'.drained = true ∧ c'.draining = true ∧
        KMap.getD c'.overrun c.ctxCur 0 = (KMap.getD c.overrun c.ctxCur 0 + late) % 2 ^ 32 ∧ KMap.getD c'.cut c.ctxCur 0 = late ∧
        (∀ k ≠ c.ctxCur, KMap.getD c'.overrun k 0 = KMap.getD c.overrun k 0 ∧ KMap.getD c'.cut k 0 = KMap.getD c.cut k 0) ∧
        c' = { c with overrun := c'.overrun, cut := c'.cut, drained := true, exchange := c'.exchange, incoming := c'.incoming
                      ctxNext := c'.ctxNext, preloaded := c'.preloaded } ∧
        (∀ k, c.ctxNext = some k → c.preloaded = true → c.exchange = none →
          c'.exchange = some (s.ck + 64) ∧ c'.incoming = k ∧ c'.ctxNext = none ∧ c'.preloaded = false) ∧
        (c.ctxNext = none ∨ c.preloaded = false → c'.exchange = c.exchange ∧ c'.incoming = c.incoming ∧
          c'.ctxNext = c.ctxNext ∧ c'.preloaded = c.preloaded))) ∧
  (∀ (s : State) (core : Nat), (s.core core).q0 = [] → s.running core = [] →
    (s.cluster (clusterOfCore core)).q2 = [] →
    (∀ q ∈ s.parts, ∀ f ∈ q.2.frames, f.2.core = core → f.2.ctx = (s.core core).ctxCur → f.2.w.sq = []) →
    s.isDrained core = true) ∧
  (∀ (s : State) (core : Nat), (s.core core).q0 ≠ [] → s.isDrained core = false) ∧
  (∀ (s : State) (core wk : Nat) (w : Warp), (wk, w) ∈ s.running core → w.sq ≠ [] ∨ w.landing ≠ none ∨ HalfDone w →
    s.isDrained core = false) ∧
  (∀ (s : State) (core : Nat) (q : Nat × Part) (f : Nat × Frame), q ∈ s.parts → f ∈ q.2.frames → f.2.core = core →
    f.2.ctx = (s.core core).ctxCur → f.2.w.sq ≠ [] → s.isDrained core = false) ∧
  ∀ (s : State) (core : Nat),
    let c := s.core core
    (c.exchange = none ∨ (∃ t, c.exchange = some t ∧ s.ck < t) → exec (.bankExchangeDone core) s = .next s) ∧
    (∀ ck, c.exchange = some ck → ck ≤ s.ck → ∃ t, exec (.bankExchangeDone core) s = .next t ∧ OnlyCore s t core
      { c with ctxCur := c.incoming, exchange := none, draining := false, drained := false, sliceStart := s.ck
               spilling := some c.ctxCur, spillDone := false }) ∧
    (c.spilling = none → exec (.spillDone core) s = .next s) ∧
    ∀ ctx, c.spilling = some ctx → ∃ t, exec (.spillDone core) s = .next t ∧ OnlyCore { s with imgs := t.imgs } t core
      { c with spilling := none, spillDone := true } ∧
      (RisingKeys s.warps → RisingKeys s.imgs → ∀ j,
        (coreOfWk j ≠ core ∨ ctxOfWk j ≠ ctx → KMap.get? t.imgs j = KMap.get? s.imgs j) ∧
        (coreOfWk j = core → ctxOfWk j = ctx → s.warp j = none → KMap.get? t.imgs j = none) ∧
        ∀ w, coreOfWk j = core → ctxOfWk j = ctx → s.warp j = some w →
          ∃ img, KMap.get? t.imgs j = some img ∧ img.uid = w.uid ∧ img.area.length = 8192 ∧
            img.regs.length = 256 * charge w.nregs ∧ HoldsArea (byteIn img.area) 32 w ∧ HoldsVectors (byteIn img.regs) 0 w ∧
            (core < 224 → numAt (byteIn img.area) 0 8 / 2 ^ 29 % 8 = 2))

/-- R366 to R368: PSWAP_OUT stops every core of a partition; when all have drained, SWAP_HALT_DONE writes back the dirty lines
of its slices and begins the copy; SWAP_COPY_DONE moves the warps, blocks and cores into the carve. PSWAP_IN brings them back
to the same clusters once no other partition holds one of them; the carve stays held until another partition gets a cluster of
it. Readings that are the model’s own: log entry 86. -/
def Claims.PartitionSwap : Prop :=
  (∀ (s : State) (part : Nat) (P : Part), s.part part = some P → P.swap = .resident →
    ∃ t, exec (.pswapOut part) s = .next t ∧ t.hbm = s.hbm ∧ t.blocks = s.blocks ∧
      t.part part = some { P with swap := .halting, swapDone := false } ∧ (∀ k ≠ part, t.part k = s.part k) ∧
      ∀ c ∈ P.cores, (t.core c).draining = true ∧ (t.core c).drained = false ∧ (t.core c).preloaded = false ∧
        (t.core c).ctxNext = none) ∧
  (∀ (s : State) (part : Nat) (P : Part), s.part part = some P →
    let still := fun c => s.isDrained c = true ∧ (s.core c).exchange = none ∧ (s.core c).spilling = none
    (P.swap = .halting → (∃ c ∈ P.cores, ¬ still c) → exec (.swapHaltDone part) s = .next s) ∧
    (P.swap = .halting → (∀ c ∈ P.cores, still c) → P.clusters.Nodup → ∃ t, exec (.swapHaltDone part) s = .next t ∧
      t.warps = s.warps ∧ t.blocks = s.blocks ∧
      (∀ c ∈ P.cores, t.core c = { s.core c with halted := true }) ∧
      (∀ cl ∈ P.clusters, t.cluster cl = { s.cluster cl with lines := [] }) ∧
      (∃ P', t.part part = some P' ∧ P'.swap = .copying ∧ P'.carve = true) ∧
      ∀ cl ∈ P.clusters, ∀ line x, s.sliceLine cl line = some x → x.dirty ≠ 0 →
        ∃ m ∈ t.path cl (stackOfPa (line * 64)), m.line = line ∧ m.mask = x.dirty ∧ m.data = x.data ∧ m.part = x.part)) ∧
  (∀ (s : State) (part : Nat) (P : Part), s.part part = some P →
    let mine := fun (core : Nat) => P.clusters.contains (clusterOfCore core)
    (P.swap = .copying → ∃ t P', exec (.swapCopyDone part) s = .next t ∧
      t = { s with warps := s.warps.filter (fun e => !mine (coreOfWk e.1)), blocks := s.blocks.filter (fun e => !mine e.2.core)
                   cores := s.cores.filter (fun e => !mine e.1), parts := t.parts } ∧
      t.part part = some P' ∧ (∀ k ≠ part, t.part k = s.part k) ∧
      P' = { P with saved := P'.saved, swap := .out, swapDone := true } ∧
      (∀ e, e ∈ P'.saved.warps ↔ e ∈ s.warps ∧ mine (coreOfWk e.1) = true) ∧
      (∀ e, e ∈ P'.saved.blocks ↔ e ∈ s.blocks ∧ mine e.2.core = true) ∧
      ∀ e, e ∈ P'.saved.cores ↔ e ∈ s.cores ∧ mine e.1 = true) ∧
    (P.swap = .restoring → P.resolved = [] → RisingKeys P.saved.warps →
      RisingKeys P.saved.cores → RisingKeys P.saved.blocks → P.clusters.Nodup →
      ∃ t, exec (.swapCopyDone part) s = .next t ∧ t.hbm = s.hbm ∧
        (∀ j, t.warp j = if KMap.get? P.saved.warps j = none then s.warp j else KMap.get? P.saved.warps j) ∧
        (∀ j, t.block j = if KMap.get? P.saved.blocks j = none then s.block j else KMap.get? P.saved.blocks j) ∧
        (∀ c ∈ P.cores, ∀ k, KMap.get? P.saved.cores c = some k →
          t.core c = { k with halted := false, draining := false, drained := false, sliceStart := s.ck }) ∧
        t.part part = some { P with swap := .resident, swapDone := true } ∧
        ∀ k ≠ part, t.part k = s.part k)) ∧
  (∀ (s : State) (part : Nat) (P : Part), s.part part = some P →
    let mine := ∀ q ∈ s.parts, q.1 = part ∨ q.2.swap = .out ∨ ∀ c ∈ q.2.clusters, c ∉ P.clusters
    (P.swap = .out → mine → ∃ t, exec (.pswapIn part) s = .next t ∧ t = { s with parts := t.parts } ∧
      ∀ k, t.part k = if k = part then some { P with swap := .restoring, swapDone := false, carve := true }
        else (s.part k).map (uncarved P.clusters)) ∧
    (P.swap ≠ .out ∨ ¬ mine → exec (.pswapIn part) s = .next s)) ∧
  ∀ P : Part, P.swap = .copying ∨ P.swap = .out ∨ P.swap = .restoring → P.progress = false

/-- R352, R360, R366, R398: CONTEXT_CREATE adds a context; PARTITION_CREATE gives whole clusters of present dies that no
partition in place holds to a new partition of its own virtual function, with its registers at their reset values and the
token share that firmware gives it (log entry 123). -/
def Claims.Creation : Prop :=
  (∀ (s : State) (part ctx drain slice : Nat) (P : Part), s.part part = some P →
    (ctx < 256 → KMap.get? P.ctxs ctx = none → ∃ t P', exec (.contextCreate part ctx drain slice) s = .next t ∧
      OnlyPart s t part P' ∧ P' = { P with ctxs := P'.ctxs } ∧
      ∀ k, KMap.get? P'.ctxs k = if k = ctx then some { drain, slice, tvbase := 0, thimg := 0 } else KMap.get? P.ctxs k) ∧
    (256 ≤ ctx ∨ KMap.get? P.ctxs ctx ≠ none → exec (.contextCreate part ctx drain slice) s = .next s)) ∧
  ∀ (s : State) (part vf tokens : Nat) (clusters : List Nat),
    let good := s.boot.up = true ∧ s.part part = none ∧ part < 56 ∧ vf < 56 ∧ (∀ q ∈ s.parts, q.2.vf ≠ vf) ∧
      clusters ≠ [] ∧ (∀ cl ∈ clusters, cl < 56 ∧ s.boot.present.getLsbD (dieOfCluster cl) = true) ∧ clusters.Nodup ∧
      ∀ q ∈ s.parts, q.1 = part ∨ q.2.swap = .out ∨ ∀ c ∈ q.2.clusters, c ∉ clusters
    (¬ good → exec (.partitionCreate part vf { clusters, tokens }) s = .next s) ∧
    (good → ∃ t P, exec (.partitionCreate part vf { clusters, tokens }) s = .next t ∧
      t = { s with parts := t.parts, nextUid := s.nextUid + 1 } ∧ (∀ k, t.part k = if k = part then some P else (s.part k).map (uncarved clusters)) ∧
      P.vf = vf ∧ P.tokShare = tokens ∧ P.clusters = clusters ∧ P.tdi = 0 ∧ P.swap = .resident ∧ P.queues = [] ∧ P.ctxs = [] ∧ P.graphs = [] ∧
      P.keyId = s.nextUid ∧
      ∀ reg, 0x810 ≤ reg → reg ≤ 0x82D → P.regs.read reg = if reg = 0x81C then 1 else 0)

/-- R371 to R376, R378: a link that fails is down and counted at both ends, and the packets that cross it wait at their source
until the probe is answered by another route; a die with both links down is told to firmware. A link narrows by its delay, and
sleeps when no packet has needed it through its delay; it reaches full within 175 ck from narrow and 1,400 from sleep, and is
down when it has missed that. LNKRETRAIN brings a down link up, and what was returned for want of a route goes on. -/
def Claims.LinkStates : Prop :=
  (∀ (s : State) (die port : Nat), die < 4 → port < 2 →
    let p := linkOf die port
    let a := ringDie p
    let b := ringDie (p + 1)
    (s.linkUp p = false → exec (.linkFailure die port) s = .next s) ∧
    (s.linkUp p = true → (∀ e ∈ s.warps, s.landingDie e.2 = none) → ∃ t, exec (.linkFailure die port) s = .next t ∧
      t = { s with dies := t.dies, dx := t.dx, mailbox := t.mailbox } ∧
      (∀ d, t.die d =
        if d = a then { s.die d with port0 := { (s.die d).port0 with st := .down, waking := none, since := s.ck }
                                     lnkDown := (s.die d).lnkDown + 1 }
        else if d = b then { s.die d with port1 := { (s.die d).port1 with st := .down, waking := none, since := s.ck }
                                          lnkDown := (s.die d).lnkDown + 1 }
        else s.die d) ∧
      t.dx = s.dx.map (fun e => (e.1, e.2.map fun m =>
        if p ∈ s.routeLinks (s.srcDie (e.1 / 8)) (dieOfPa (m.line * 64)) then { m with nak := true } else m)) ∧
      ∀ m, m ∈ t.mailbox ↔ m ∈ s.mailbox ∨
        (m = .linksDown a ∧ (s.die a).port0.st ≠ .down ∧ (s.die a).port1.st = .down) ∨
        (m = .linksDown b ∧ (s.die b).port1.st ≠ .down ∧ (s.die b).port0.st = .down)) ∧
    (s.linkUp p = false → s.reach a b = true → ∃ t, exec (.linkProbeReply die port) s = .next t ∧
      t = { s with dx := goOn s s.dx }) ∧
    (s.linkUp p = true ∨ s.reach a b = false → exec (.linkProbeReply die port) s = .next s)) ∧
  (∀ (s : State) (die port : Nat) (x y : Port), die < 4 → port < 2 →
    let p := linkOf die port
    (s.die (ringDie p)).port0 = x → (s.die (ringDie (p + 1))).port1 = y →
    let n := (s.die die).lnkIdle.toNat % 65536
    let m := (s.die die).lnkIdle.toNat / 65536
    let since := max x.since y.since
    let idle := max since (max x.used y.used)
    let crossed := ∃ e ∈ s.dx, ∃ m ∈ e.2, p ∈ s.routeLinks (s.srcDie (e.1 / 8)) (dieOfPa (m.line * 64))
    let missed := fun (z : Port) => ∃ ck, z.waking = some ck ∧ ck + (if z.st = .narrow then 175 else 1400) < s.ck
    (x.st = .full → y.st = .full → n ≠ 0 → since + 16 * n ≤ s.ck → ∃ t, exec (.linkNarrow die port) s = .next t ∧
      LinkNow s t p { x with st := .narrow, since := s.ck } { y with st := .narrow, since := s.ck }) ∧
    (n = 0 ∨ s.ck < since + 16 * n ∨ x.st ≠ .full → exec (.linkNarrow die port) s = .next s) ∧
    ((x.st = .full ∧ y.st = .full) ∨ (x.st = .narrow ∧ y.st = .narrow) → m ≠ 0 → idle + 16 * m ≤ s.ck →
      ¬ crossed → ∃ t, exec (.linkSleep die port) s = .next t ∧
      LinkNow s t p { x with st := .sleep, since := s.ck, waking := none } { y with st := .sleep, since := s.ck, waking := none }) ∧
    (m = 0 ∨ s.ck < idle + 16 * m ∨ x.st = .sleep ∨ x.st = .down ∨ crossed → exec (.linkSleep die port) s = .next s) ∧
    ((x.st = .narrow ∧ y.st = .narrow) ∨ (x.st = .sleep ∧ y.st = .sleep) → ¬ missed x → ¬ missed y →
      ∃ t, exec (.linkFull die port) s = .next t ∧ LinkNow s t p (Port.atFull x s.ck) (Port.atFull y s.ck)) ∧
    ((x.st = .narrow ∧ y.st = .narrow) ∨ (x.st = .sleep ∧ y.st = .sleep) → missed x ∨ missed y →
      exec (.linkFull die port) s = exec (.linkFailure die port) s) ∧
    (x.st = .down ∨ y.st = .down ∨ (x.st = .full ∧ y.st = .full) → exec (.linkFull die port) s = .next s)) ∧
  ∀ (s : State) (die port : Nat), die < 4 → port < 2 →
    let p := linkOf die port
    let x := (s.die (ringDie p)).port0
    let y := (s.die (ringDie (p + 1))).port1
    let ports : BitVec 2 := BitVec.ofNat 2 (2 ^ port)
    let runs := (s.die (ringDie p)).boot = .running ∧ (s.die (ringDie (p + 1))).boot = .running
    (s.linkUp p = false → x.held = false → y.held = false → runs → ∃ t, exec (.lnkretrain die ports) s = .next t ∧
      LinkNow { s with dx := t.dx } t p (Port.atFull x s.ck) (Port.atFull y s.ck) ∧ t.dx = goOn t s.dx) ∧
    (s.linkUp p = true ∨ x.held = true ∨ y.held = true ∨ ¬ runs → exec (.lnkretrain die ports) s = .next s) ∧
    exec (.lnkretrain die 0) s = .next s

/-- R293, R377: a request that arrives is granted the lowest core of the stack domain that qualifies, unless an earlier one
that still stands is listed on the die; the first of the list is granted when a slot frees, and grants follow the order of
arrival. The shipped warp issues behind MIGRATE in its landing slot once a route to its die is up, owing an acquire at device
scope, and its source slot is free. -/
def Claims.Landing : Prop :=
  (∀ (s : State) (die : Nat) (r : LandReq) (rest : List LandReq) (w : Warp), (s.die die).landNew = r :: rest →
    s.warp r.wk = some w →
    let d := { s.die die with landNew := rest }
    let listed := { d with landReqs := d.landReqs ++ [r] }
    let here := { s with dies := KMap.set s.dies die d }
    (¬ StillAsks s r → ∃ t, exec (.landingRequest die) s = .next t ∧ OnlyDie s t die d) ∧
    (StillAsks s r → (∃ q ∈ d.landReqs, StillAsks s q) ∨ here.landingCore r = none →
      ∃ t, exec (.landingRequest die) s = .next t ∧ OnlyDie s t die listed) ∧
    ∀ c, StillAsks s r → (∀ q ∈ d.landReqs, ¬ StillAsks s q) → here.landingCore r = some c →
      ∃ t, exec (.landingRequest die) s = .next t ∧ t = { s with dies := t.dies, cores := t.cores, warps := t.warps } ∧
        (∀ k, t.die k = if k = die then d else s.die k) ∧
        (∀ k, t.core k = if k = c then { s.core k with landRes := (s.core k).landRes ++ [(r.uid, r.charge)] } else s.core k) ∧
        ∀ j, t.warp j = if j = r.wk then some { w with landing := some c } else s.warp j) ∧
  (∀ (s : State) (r : LandReq) (w : Warp) (c : Nat), s.warp r.wk = some w → s.landingCore r = some c →
    let ok := fun c => clusterOfCore c ∈ (s.partD (s.partOf w)).clusters ∧ s.coreTakes c (ctxOfWk r.wk) = true ∧
      (s.core c).landRes.length < (s.freeSlots c (ctxOfWk r.wk) landingSlots).length ∧
      s.regsFree c (ctxOfWk r.wk) r.charge = true
    let first := r.domain / 2 * 56 + r.domain % 2 * 28
    first ≤ c ∧ c < first + 28 ∧ ok c ∧ ∀ k, first ≤ k → k < c → ¬ ok k) ∧
  (∀ (s : State) (r : LandReq), s.landingLive r = true ↔ StillAsks s r) ∧
  (∀ (s : State) (die : Nat) (r : LandReq) (rest : List LandReq),
    (s.die die).landReqs.filter s.landingLive = r :: rest → s.landingCore r = none →
    ∃ t, exec (.landingGrant die) s = .next t ∧ OnlyDie s t die { s.die die with landReqs := r :: rest }) ∧
  (∀ (s : State) (die c : Nat) (r : LandReq) (rest : List LandReq) (w : Warp),
    (s.die die).landReqs.filter s.landingLive = r :: rest → s.warp r.wk = some w → s.landingCore r = some c →
    ∃ t, exec (.landingGrant die) s = .next t ∧ t = { s with dies := t.dies, cores := t.cores, warps := t.warps } ∧
      (∀ k, t.die k = if k = die then { s.die k with landReqs := rest } else s.die k) ∧
      (∀ k, t.core k = if k = c then { s.core k with landRes := (s.core k).landRes ++ [(r.uid, r.charge)] } else s.core k) ∧
      ∀ j, t.warp j = if j = r.wk then some { w with landing := some c } else s.warp j) ∧
  ∀ (s : State) (wk c : Nat) (w : Warp) (p : Pend), s.warp wk = some w → w.landing = some c → w.pend = some p →
    (∃ t, exec (.landingShip wk) s = .next t ∧ t = { s with warps := t.warps } ∧
      ∀ j, t.warp j = if j = wk then some { w with shipped := true } else s.warp j) ∧
    (w.shipped = false ∨ s.reach (dieOfCore c) (dieOfWk wk) = false → exec (.landingAck wk) s = .next s) ∧
    ∀ slot rest, w.shipped = true → s.reach (dieOfCore c) (dieOfWk wk) = true → s.freeSlots c (ctxOfWk wk) landingSlots = slot :: rest → WaitsAs wk w p →
      RisingKeys s.warps →
      let wk' := wkOf c (ctxOfWk wk) slot
      ∃ t w', exec (.landingAck wk) s = .next t ∧ t = { s with warps := t.warps, cores := t.cores } ∧
        (∀ k, t.core k = if k = c then { s.core k with landRes := (s.core k).landRes.filter fun r => r.1 != w.uid }
          else s.core k) ∧
        (∀ j, t.warp j = if j = wk' then some w' else if j = wk then none else s.warp j) ∧
        w' = { w with st := .start, pend := none, landing := none, shipped := false, acqScope := 6, away := true
                      threads := w'.threads } ∧ ThreadsWentOn p.iss w w' fun _ => 0

end Sys2Proof.Machine

/-- R352, R360 to R368, R398: the contexts of a core, the swap of a partition, and what creates them. Readings that are the
model’s own: log entries 5 and 84 to 87. -/
def Obligations.ContextsAndPartitions : Prop := ContextStop ∧ ContextSwitch ∧ PartitionSwap ∧ Creation

/-- R293, R371 to R378: the links between dies, and the landing of a warp. Readings that are the model’s own: log entries 37,
88 and 89. -/
def Obligations.LinksAndLanding : Prop := LinkStates ∧ Landing

namespace Sys2Proof.Machine.Claims

open Sys2Proof

/-- The measurement of a die that has loaded a configuration record and firmware (R391, R395). -/
def measured (img : BootImage) : List Byte :=
  digest (digest (List.replicate 32 0 ++ objDigest img.cfg) ++ objDigest img.firmware)

/-- The identity private key of a PUF's seed (R390). -/
def privateOf (seed : List Byte) : List Byte := Config.falconPrivate (shake256 64 (seed ++ [1]))

/-- A die that has booted from an image, its links as `x` and `y`. -/
def bootedDie (s : State) (die : Nat) (img : BootImage) (st : BootSt) (x y : Port) (down : Nat) : Die :=
  { boot := st, clk0 := s.ck, port0 := x, port1 := y, lnkDown := down, measBoot := measured img,
    meas := digest (measured img ++ objDigest img.microcode), pubKey := cfgKey img.cfg die, cfg := some img.cfg,
    seed := img.puf, privKey := img.puf.map privateOf }

/-- Firmware keeps the ownership table, one byte for each of the 24,576 granules of 8 stacks, all of firmware’s (R391, R398;
log entry 125). -/
def OwnedByFirmware (t : State) : Prop := ∀ k < 196608, Memory.read t.hbm (t.boot.ownBase.toNat + k) = 0

/-- The signed object in memory at an address (R388, Table 1). -/
def objectIn (s : State) (a : Nat) : SignedObj :=
  let bytes := fun (k n : Nat) => (List.range n).map fun i => Memory.read s.hbm (a + k + i)
  let n := numAt (Memory.read s.hbm) (a + 8) 4
  { kind := numAt (Memory.read s.hbm) a 4, version := BitVec.ofNat 32 (numAt (Memory.read s.hbm) (a + 4) 4)
    signer := bytes 16 32, body := bytes 48 n, sig := bytes (48 + n) 1280 }

/-- The object at an address lies in stacks of the device that the leader reaches, with bytes 12 to 15 zero. -/
def ObjectThere (s : State) (a : Nat) : Prop :=
  let there := fun (x : Nat) =>
    x < 2 ^ 39 ∧ s.boot.excluded.getLsbD (dieOfPa x) = false ∧ s.reach s.boot.leader (dieOfPa x) = true
  numAt (Memory.read s.hbm) (a + 12) 4 = 0 ∧ there a ∧ there (a + 1327 + numAt (Memory.read s.hbm) (a + 8) 4)

/-- The device has booted and its leader die runs. -/
def LeaderRuns (s : State) : Prop := s.boot.up = true ∧ (s.die s.boot.leader).boot = .running

/-- Registers of a partition that software reads back, with the bits they hold. -/
def partRegisters : List (Nat × Nat × Nat) :=
  [(0x803, 51, 12), (0x804, 15, 0), (0x810, 51, 12), (0x811, 51, 12), (0x812, 51, 12), (0x813, 51, 12), (0x814, 51, 12),
   (0x815, 16, 0), (0x816, 15, 0), (0x81D, 51, 0), (0x81E, 15, 0), (0x820, 51, 0), (0x821, 51, 0), (0x822, 51, 0)] ++
  [(0x823, 51, 0), (0x824, 51, 0), (0x825, 51, 0), (0x826, 51, 0), (0x827, 51, 0), (0x828, 15, 0), (0x829, 51, 0),
   (0x82A, 16, 0), (0x82B, 15, 0), (0x82D, 31, 0), (0x860, 51, 6), (0x861, 16, 0), (0x862, 51, 5), (0x863, 15, 0),
   (0x864, 31, 0), (0x866, 31, 0)]

/-- Bits [hi:lo] of a value, the others zero. -/
def regBits (v : Word) (hi lo : Nat) : Word := BitVec.ofNat 64 (v.toNat / 2 ^ lo % 2 ^ (hi + 1 - lo) * 2 ^ lo)

/-- A register reads as `x` and every other but FESTAT as before. -/
abbrev Reads (s t : State) (sel : RegSel) (reg : Nat) (x : Word) : Prop :=
  t.readPriv sel reg = x ∧ ∀ k, k ≠ reg → k ≠ 0x802 → t.readPriv sel k = s.readPriv sel k

end Sys2Proof.Machine.Claims

namespace Sys2Proof.Machine

open Sys2Proof Claims

/-- R388 to R395, R54: DIE_RESET leaves nothing of what a die held, its seed and private key among it. A die one of whose
signed objects is not valid, or whose key is not that of its section, halts with its links down; if it was the leader, its
reports and its microcode load are gone. A die that boots holds the digests of what it loaded and its key pair. Alone it is the
leader of a present set of one die, with 56 tokens, and builds the ownership table; a second die whose link to it passes joins
the set; one whose measurement differs is excluded, and the link is held down and counted. Once a partition exists the set
stays, and a die outside it that boots is held in reset with its links down. (For dies that no warp waits to land on.) -/
def Claims.Booting : Prop :=
  (∀ (s : State) (die : Nat) (img : BootImage), 4 ≤ die → exec (.dieReset die img) s = .next s) ∧
  (∀ (s : State) (die : Nat) (img : BootImage), die < 4 → bootOk die img = false →
    (∀ e ∈ s.warps, s.landingDie e.2 = none) →
    ∃ t, exec (.dieReset die img) s = .next t ∧ t.die die = { boot := .halted, clk0 := s.ck } ∧
      (∀ d ≠ die, (t.die d).meas = (s.die d).meas ∧ (t.die d).privKey = (s.die d).privKey) ∧
      (∀ j, dieOfWk j = die → t.warp j = none) ∧ (∀ k b, t.block k = some b → dieOfCore b.core ≠ die) ∧
      (∀ c, dieOfCore c = die → t.core c = {}) ∧ (∀ cl, dieOfCluster cl = die → t.cluster cl = {}) ∧
      (∀ a, dieOfPa a = die → Memory.read t.hbm a = 0) ∧
      (Memory.wf s.hbm = true → (∀ e ∈ s.blocks, dieOfCore e.2.core ≠ die) → ∀ a, dieOfPa a ≠ die → Memory.read t.hbm a = Memory.read s.hbm a ∨
        (s.parts = [] ∧ Memory.read t.hbm a = 0 ∧ s.boot.ownBase.toNat ≤ a ∧ a < s.boot.ownBase.toNat + 196608)) ∧
      t.linkUp (linkOf die 0) = false ∧ t.linkUp (linkOf die 1) = false ∧
      (die = s.boot.leader → t.boot.reports = [] ∧ t.boot.mcload = none) ∧
      (die ≠ s.boot.leader → s.parts ≠ [] → t.boot = s.boot) ∧
      (s.parts = [] → (∀ d ≠ die, s.booted d = false) → t.boot.up = false)) ∧
  (∀ (die : Nat) (img : BootImage), bootOk die img = true →
    digest (cfgRoot img.cfg) = Config.romDigest ∧ img.cfg.kind = 2 ∧ img.firmware.kind = 1 ∧ img.microcode.kind = 3 ∧
    Config.falconVerify (cfgRoot img.cfg) (objHead img.cfg) img.cfg.sig = true ∧
    (∀ o ∈ [img.cfg, img.firmware, img.microcode], leNat (img.cfg.body.take 4) ≤ o.version.toNat ∧ o.sig.length = 1280) ∧
    (∀ o ∈ [img.firmware, img.microcode], ∃ k, digest k = o.signer ∧ Config.falconVerify k (objHead o) o.sig = true ∧
      (k = cfgRoot img.cfg ∨ ∃ d < 4, k = cfgKey img.cfg d ∧
        Config.falconVerify (cfgRoot img.cfg) (cfgKey img.cfg d) (cfgCert img.cfg d) = true)) ∧
    ∃ seed, img.puf = some seed ∧ seed.length = 32 ∧ Config.falconPublic (shake256 64 (seed ++ [1])) = cfgKey img.cfg die) ∧
  (∀ (s : State) (img : BootImage), bootOk 0 img = true → img.trained = 0 → s.parts = [] → (∀ d ∈ [1, 2, 3], s.booted d = false) →
    (∀ e ∈ s.warps, s.landingDie e.2 = none) →
    ∃ t, exec (.dieReset 0 img) s = .next t ∧ t.die 0 = bootedDie s 0 img .running {} {} 0 ∧ t.ptokCap = 56 ∧
      t.boot = { s.boot with
        leader := 0, present := 1, excluded := 14, up := true, cfg := some img.cfg, cfgVersion := img.cfg.version
        cfgFloor := BitVec.ofNat 32 (leNat (img.cfg.body.take 4)), fwKey := t.boot.fwKey, devKey := t.boot.devKey
        reports := t.boot.reports, mcload := t.boot.mcload } ∧ t.boot.fwKey ≠ t.boot.devKey ∧ OwnedByFirmware t) ∧
  (∀ (s : State) (img : BootImage) (cfg : SignedObj) (seed key : List Byte), bootOk 1 img = true → img.trained = 2 →
    s.parts = [] → (s.die 0).boot = .running → (∀ d ∈ [2, 3], s.booted d = false) → (s.die 0).port1.passed = false →
    s.linkUp (linkOf 1 0) = false → s.linkUp (linkOf 1 1) = false → img.puf = some seed → (s.die 0).privKey = some key →
    (s.die 0).cfg = some cfg → (∀ m, Config.falconVerify (cfgKey img.cfg 0) m (Config.falconSign key m) = true) →
    (∀ m, Config.falconVerify (cfgKey cfg 1) m (Config.falconSign (privateOf seed) m) = true) →
    ((s.die 0).measBoot = measured img → ∃ t, exec (.dieReset 1 img) s = .next t ∧ t.ptokCap = 112 ∧ t.boot.leader = 0 ∧
      t.boot.present = 3 ∧ t.boot.excluded = 12 ∧ t.boot.cfg = some cfg ∧ (t.die 0).boot = .running ∧
      t.die 1 = bootedDie s 1 img .running {} { st := .full, passed := true, since := s.ck } 0 ∧
      (t.die 0).port0.st = .full ∧ (t.die 0).lnkDown = (s.die 0).lnkDown) ∧
    ((s.die 0).measBoot ≠ measured img → ∃ t, exec (.dieReset 1 img) s = .next t ∧ t.ptokCap = 56 ∧ t.boot.leader = 0 ∧
      t.boot.present = 1 ∧ t.boot.excluded = 14 ∧ t.boot.cfg = some cfg ∧ (t.die 0).boot = .running ∧
      t.die 1 = bootedDie s 1 img .excluded {} { st := .down, held := true } 1 ∧
      (t.die 0).port0.st = .down ∧ (t.die 0).port0.held = true ∧ (t.die 0).lnkDown = (s.die 0).lnkDown + 1)) ∧
  ∀ (s : State) (die : Nat) (img : BootImage), die < 4 → bootOk die img = true → s.parts ≠ [] →
    s.boot.present.getLsbD die = false → die ≠ s.boot.leader → (∀ e ∈ s.warps, s.landingDie e.2 = none) →
    ∃ t, exec (.dieReset die img) s = .next t ∧ (t.die die).boot = .excluded ∧ t.boot = s.boot ∧
      t.linkUp (linkOf die 0) = false ∧ t.linkUp (linkOf die 1) = false

/-- R54, R388, R395 to R397: MCLOAD names the address of a signed object in memory; a load of microcode is asked for with one
that is valid under the leader's record alone, and takes place once no cache entry is pinned: every present die that runs
extends its measurement and empties its cache. A report holds the versions, the nonce and the leader's measurement, with the
signature of the leader, which runs; it serves one key exchange, and reports that are outstanding together serve one each. -/
def Claims.MeasuredAndReported : Prop :=
  (∀ (s : State) (a : Nat) (cfg : SignedObj), s.boot.cfg = some cfg →
    let obj := objectIn s a
    let good := LeaderRuns s ∧ s.boot.mcload = none ∧ ObjectThere s a ∧ objOk cfg 3 obj = true
    (good → exec (.mcload a) s = .next { s with boot := { s.boot with mcload := some obj } }) ∧
    (¬ good → exec (.mcload a) s = .next s)) ∧
  (∀ (s : State) (obj : SignedObj), s.boot.mcload = some obj →
    let pinned := ∃ d < 4, s.boot.present.getLsbD d = true ∧ ∃ e ∈ (s.die d).cache, s.pinned e = true
    (pinned → exec .microcodeLoad s = .next s) ∧
    (¬ pinned → s.parts = [] → ∃ t, exec .microcodeLoad s = .next t ∧
      t = { s with dies := t.dies, boot := { s.boot with mcload := none } } ∧
      ∀ d, t.die d = if d < 4 ∧ s.boot.present.getLsbD d = true ∧ (s.die d).boot = .running
        then { s.die d with meas := digest ((s.die d).meas ++ objDigest obj), cache := [] } else s.die d)) ∧
  (∀ (s : State) (part : Nat) (nonce key : List Byte) (P : Part), s.part part = some P → LeaderRuns s →
    (s.die s.boot.leader).privKey = some key → nonce.length = 32 →
    ∃ t rep body, exec (.attestationRequest part nonce) s = .next t ∧
      t = { s with nextUid := s.nextUid + 1
                   boot := { s.boot with reports := s.boot.reports ++ [{ part, key := s.nextUid, bytes := rep }] } } ∧
      rep = body ++ fixLen 1280 (Config.falconSign key body) ∧
      rep.take 12 = leBytes 4 1 ++ leBytes 4 s.boot.cfgVersion.toNat ++ leBytes 4 s.boot.cfgFloor.toNat ∧
      (rep.drop 16).take 32 = nonce ∧ (rep.drop 48).take 32 = fixLen 32 (s.die s.boot.leader).meas ∧
      body.drop (body.length - 1568) = fixLen 1568 (Config.kemPublic s.nextUid)) ∧
  (∀ (s : State) (part : Nat) (nonce : List Byte),
    ¬ LeaderRuns s ∨ (s.die s.boot.leader).privKey = none ∨ s.part part = none ∨ nonce.length ≠ 32 →
    exec (.attestationRequest part nonce) s = .next s) ∧
  ∀ (s : State) (part key : Nat) (ct : List Byte),
    (∀ (Q : Part) (rep : List Byte), s.part part = some Q → { part, key, bytes := rep } ∈ s.boot.reports →
      (∀ r ∈ s.boot.reports, r.key = key → r.bytes = rep) → ct.length = 1568 →
      let k := shake256 64 (Config.kemShared key ct ++ digest rep)
      ∃ v, exec (.keyEncapsulation part { key, text := ct }) s = .next v ∧
        v = { s with parts := v.parts, boot := { s.boot with reports := s.boot.reports.filter fun r => r.key != key } } ∧
        (∀ j, v.part j = if j = part then some { Q with sessionKey := k.take 32, wrapKey := k.drop 32 } else s.part j) ∧
        ∀ ct', exec (.keyEncapsulation part { key, text := ct' }) v = .next v) ∧
    ((∀ r ∈ s.boot.reports, r.part ≠ part ∨ r.key ≠ key) ∨ ct.length ≠ 1568 →
      exec (.keyEncapsulation part { key, text := ct }) s = .next s)

/-- R379, R380: a BAR 2 access of a function whose TDI is not in RUN has no effect; one that fails a check only counts in
BARERR; a read delivers the host's earlier messages first, and a write sends its bytes by the host's one path, whatever their
homes; an AtomicOp, on 4 or 8 bytes of their own boundary, is performed at the home behind the earlier messages (the order of
its operands: log entry 126). A change of the configuration in CONFIG_LOCKED or RUN, a failed integrity check and a change of
keys put the TDI in ERROR and end the partition's launches as killed. -/
def Claims.HostAccess : Prop :=
  (∀ (s : State) (part : Nat) (P : Part) (op : BarOp) (addr len : Nat) (data : List Byte), s.part part = some P →
    let n := match op with
      | .read => len
      | .cas => data.length / 2
      | _ => data.length
    let taken := op = .read ∨ op = .write ∨ ((n = 4 ∨ n = 8) ∧ (op = .cas → data.length % 2 = 0) ∧ addr % n = 0)
    (P.tdi ≠ 2 ∨ ¬ taken → exec (.bar2Access part op addr len data) s = .next s) ∧
    let acc := if op = .read then 0 else 1
    P.tdi = 2 → taken → 0 < n → addr % 4096 + n ≤ 4096 →
    (∀ u e, s.translate s.boot.leader part addr 0 acc = (u, .error e) →
      ∃ t, exec (.bar2Access part op addr len data) s = .next t ∧
        t = u.modRegs part fun r => { r with barErr := r.barErr + 1 }) ∧
    ∀ u at_, s.translate s.boot.leader part addr 0 acc = (u, .ok at_) →
      (u.reach u.boot.leader (dieOfPa at_.pa) = false → exec (.bar2Access part op addr len data) s =
        .next (u.modRegs part fun r => { r with barErr := r.barErr + 1 })) ∧
      (u.reach u.boot.leader (dieOfPa at_.pa) = true →
        let v := u.deliverAll 60 (stackOfPa at_.pa)
        (op = .read → exec (.bar2Access part op addr len data) s = .next (v.homeBytes part at_ n).1) ∧
        (op = .write → at_.pa % 64 + n ≤ 64 → ∃ t m, exec (.bar2Access part op addr len data) s = .next t ∧
          t = { u with dx := t.dx } ∧ t.path 60 0 = u.path 60 0 ++ [m] ∧
          (∀ src home, pathKey src home ≠ pathKey 60 0 → t.path src home = u.path src home) ∧
          m.line = at_.pa / 64 ∧ m.part = part ∧ m.nak = false ∧
          ∀ k < 64, (m.mask.getLsbD k = true ↔ at_.pa % 64 ≤ k ∧ k < at_.pa % 64 + n) ∧
            (m.mask.getLsbD k = true → m.data.extractLsb' (8 * k) 8 = data.getD (k - at_.pa % 64) 0)) ∧
        (op ≠ .read → op ≠ .write → at_.cmp = 0 → at_.pa % 64 + n ≤ 64 → Memory.wf v.hbm = true →
          ∃ t, exec (.bar2Access part op addr len data) s = .next t ∧ t = { v with hbm := t.hbm } ∧
            (∀ a, (a < at_.pa ∨ at_.pa + n ≤ a) → Memory.read t.hbm a = Memory.read v.hbm a) ∧
            let old := numAt (Memory.read v.hbm) at_.pa n
            let x := numAt (fun k => data.getD k 0) 0 n
            numAt (Memory.read t.hbm) at_.pa n =
              if op = .fetchAdd then (old + x) % 2 ^ (8 * n)
              else if op = .swap then x
              else if old = x then numAt (fun k => data.getD k 0) n n else old))) ∧
  ∀ (s : State) (part : Nat) (P : Part), s.part part = some P →
    let stops : List Instr := [.tdiConfigChange part, .ideIntegrityFail part, .ideKeyChange part]
    (P.tdi ≠ 1 → P.tdi ≠ 2 → exec (.tdiConfigChange part) s = .next s) ∧
    (∀ i ∈ stops, (i = .tdiConfigChange part → P.tdi = 1 ∨ P.tdi = 2) → (∀ e ∈ s.launches, e.2.part ≠ part) →
      ∃ t, exec i s = .next t ∧ OnlyPart s t part { P with tdi := 3 }) ∧
    (∀ i ∈ stops, ∀ id l, (i = .tdiConfigChange part → P.tdi = 1 ∨ P.tdi = 2) → s.launches = [(id, l)] → l.part = part →
      l.graph = none → ∃ t, exec i s = .next t ∧ (∀ e ∈ t.blocks, e.2.launch ≠ id) ∧ (t.partD part).tdi = 3 ∧
        ∀ l', t.launch id = some l' → l'.status = 7 ∧ l'.unplaced = [] ∧ l'.phase = .finishing) ∧
    ∀ st, ((st = 1 ∧ P.tdi = 0) ∨ (st = 2 ∧ P.tdi = 1) ∨ st = 0 → ∃ t, exec (.tdiStateRequest part st) s = .next t ∧
        OnlyPart s t part { P with tdi := st }) ∧
      (¬ ((st = 1 ∧ P.tdi = 0) ∨ (st = 2 ∧ P.tdi = 1) ∨ st = 0) → exec (.tdiStateRequest part st) s = .next s)

/-- R5, R328, R352, R369, R378, R387, R400, R401, R403: a privileged write sets the bits that a register holds, reserved bits
read zero, and no other register changes (STEPBASE and STEPCNT name a table whose counts are zero, R385); a register that is read only keeps its value; PTOKCAP and OWNBASE are written by
firmware alone. -/
def Claims.PrivilegedRegisters : Prop :=
  (∀ (s : State) (sel : RegSel) (v : Word) (P : Part), s.part sel.part = some P → ∀ x ∈ partRegisters,
    ∃ t, exec (.registerWrite sel x.1 v) s = .next t ∧ t = { s with parts := t.parts } ∧
      (∀ k ≠ sel.part, t.part k = s.part k) ∧ Reads s t sel x.1 (regBits v x.2.1 x.2.2)) ∧
  (∀ (s : State) (sel : RegSel) (v : Word) (P : Part) (c : Ctx), s.part sel.part = some P → KMap.get? P.ctxs sel.ctx = some c →
    ∀ x ∈ [(0x830, 51, 9), (0x831, 51, 0)], ∃ t, exec (.registerWrite sel x.1 v) s = .next t ∧ t = { s with parts := t.parts } ∧
      (∀ k ≠ sel.part, t.part k = s.part k) ∧ Reads s t sel x.1 (regBits v x.2.1 x.2.2)) ∧
  (∀ (s : State) (sel : RegSel) (v : Word) (P : Part), s.part sel.part = some P →
    ∃ t, exec (.registerWrite sel 0x819 v) s = .next t ∧
      OnlyPart s t sel.part { P with regs := { P.regs with invBase := BitVec.ofNat 52 (regBits v 51 12).toNat } } ∧
    ∃ t, exec (.registerWrite sel 0x81A v) s = .next t ∧
      OnlyPart s t sel.part { P with regs := { P.regs with invLen := v } } ∧
    ∀ reg ∈ [0x862, 0x863], ∃ t, exec (.registerWrite sel reg v) s = .next t ∧ (t.partD sel.part).stepCounts = []) ∧
  ∀ (s : State) (sel : RegSel) (v : Word),
    (∃ t, exec (.registerWrite sel 0x83C v) s = .next t ∧ t = { s with cores := t.cores } ∧
      Reads s t sel 0x83C (regBits v 31 0)) ∧
    (∃ t, exec (.registerWrite sel 0x851 v) s = .next t ∧ t = { s with dies := t.dies } ∧
      Reads s t sel 0x851 (regBits v 31 0)) ∧
    (∀ reg ∈ [0x801, 0x802, 0x817, 0x81C, 0x82C, 0x838, 0x83B, 0x83D, 0x841, 0x850, 0x852, 0x865, 0x870, 0x871],
      exec (.registerWrite sel reg v) s = .next s) ∧
    (∀ reg ∈ [0x818, 0x819, 0x81A, 0x81B, 0x839, 0x83A, 0x840, 0x853, 0x873], s.readPriv sel reg = 0) ∧
    (sel.firmware = false → ∀ reg ∈ [0x800, 0x872], exec (.registerWrite sel reg v) s = .next s) ∧
    (sel.firmware = true →
      (v.toNat % 256 ≤ 224 → exec (.registerWrite sel 0x800 v) s = .next { s with ptokCap := BitVec.ofNat 8 v.toNat }) ∧
      exec (.registerWrite sel 0x872 v) s =
        .next { s with boot := { s.boot with ownBase := BitVec.ofNat 52 (regBits v 51 12).toNat } }) ∧
    (∀ P, s.part sel.part = some P → (s.readPriv sel 0x817).toNat = P.regs.fqTail.toNat ∧
      s.readPriv sel 0x81C = (if P.regs.invDone then 1 else 0) ∧ s.readPriv sel 0x865 = BitVec.ofNat 64 P.tdi) ∧
    (s.readPriv sel 0x83B).toNat = (let c := s.core sel.core;
      (if c.draining = true ∧ c.drained = false then 1 else 0) + (if c.preloaded = true then 2 else 0) +
        (if c.spillDone = true then 4 else 0)) ∧
    (s.boot.leader < 4 → (s.readPriv sel 0x870).toNat = s.boot.present.toNat + 16 * s.boot.excluded.toNat +
      256 * s.boot.leader + (if s.boot.excluded = 0 then 0 else 1024)) ∧
    ∀ (iss : Issue) (w : Warp) (i : IIns), Issues s iss w → w.electedGuard iss i.g = true → 0x800 ≤ i.imm.toNat % 4096 →
      ((Instr.rdsr i).wf = true → w.codesOk [(i.d, 1)] = true →
        ∃ (u : State) (fi : FaultInfo), fi.cause = 4 ∧ u = { s with free := u.free } ∧ exec (.rdsr i) s = .next (u.takeFault iss fi)) ∧
      ((Instr.wrsr i).wf = true →
        ∃ (u : State) (fi : FaultInfo), fi.cause = 4 ∧ u = { s with free := u.free } ∧ exec (.wrsr i) s = .next (u.takeFault iss fi))

end Sys2Proof.Machine

/-- R54, R388 to R397: the boot of a die, the device's identity, and its reports. Readings that are the model’s own: log
entries 8, 91 to 94, 124 and 125. -/
def Obligations.BootAndIdentity : Prop := Booting ∧ MeasuredAndReported

/-- R379, R380: the host's accesses through BAR 2 and the TDI of a function. Readings that are the model’s own: log entries
81, 96 and 126. -/
def Obligations.HostAccess : Prop := Sys2Proof.Machine.Claims.HostAccess

/-- R5, R299, R328, R352, R369, R378, R387, R400, R401, R403: the privileged registers. Readings that are the model’s own:
log entries 5, 22, 75, 97 and 98. -/
def Obligations.PrivilegedRegisters : Prop := Sys2Proof.Machine.Claims.PrivilegedRegisters

namespace Sys2Proof.Machine.Claims

open Sys2Proof

/-! ## The machine -/

/-- What a step answers when its act does: the state settled after the act (R250), or the stop. -/
def settled (s : State) (a : Act) (o : Host.Outcome State Fault Refusal) : Host.Outcome State Fault Refusal :=
  match o with
  | .next t => .next (t.settle s a)
  | o => o

/-- The state in which a step acts: its choice taken from the agenda, time passed, nothing at work. -/
abbrev acting (s : State) (dt : Nat) (rest : List Choice) : State :=
  { s with agenda := rest, ck := s.ck + dt, cur := .idle }

/-- All 32 threads of a warp stand at a clause header and would issue together: none is in trap mode, no word is pending, and
nothing is owed. -/
def Together (w : Warp) (pc : Pc) : Prop :=
  w.st = .run ∧ w.pend = none ∧ w.f64 = [] ∧ w.mxreset = none ∧ w.yielded = none ∧ w.threads.length = 32 ∧
  ∀ l < 32, (w.thread l).st = .sub ∧ (w.thread l).pos = { pc } ∧ (w.thread l).trapped = false ∧ (w.thread l).tret = none

/-- A guard without mark or predicate. -/
abbrev open_ : Guard := { mark := 0, pred := 0, neg := false }

/-- The guard of a predicate. -/
abbrev if_ (p : BitVec 3) : Guard := { mark := 0, pred := p, neg := false }

/-- The guard without a predicate and the mark `.sta` or `.dyn`. -/
abbrev marked (m : BitVec 2) : Guard := { mark := m, pred := 0, neg := false }

/-- Words the spec writes out, with the instructions they stand for. -/
def writtenWords : List (Word × Instr) :=
  [(0x05000201C1C09800, .imad { g := open_, d := .v 1, a := .v 1, b := .imm 3, c := .s 2, ty := .u64, sh := .w64, rnd := .rne, sat := false, sub := 0 }),
   (0x15000162C2801800, .shl { g := open_, d := .v 0, a := .sp .laneid, b := .imm 5, c := .none, ty := .u64, sh := .w64, rnd := .rne, sat := false, sub := 0 }),
   (0x2002110880E31800, .lea { g := open_, d := .s 8, a := .s 8, b := .s 1, c := .imm 12, ty := .u64, sh := .w64, rnd := .rne, sat := false, sub := 0 }),
   (0x3002080012345678, .movi { g := open_, d := .s 4, a := .none, imm := 0x12345678 }),
   (0x3100000000000400, .iaddImm { g := open_, d := .v 0, a := .v 0, imm := 1024 }),
   (0x4200100482022900, .ffma { g := open_, d := .v 8, a := .v 4, b := .s 4, c := .v 8, ty := .f32, sh := .w32, rnd := .rne, sat := false, sub := 0 }),
   (0x8800080201EFD800, .xpull { g := open_, d := .v 4, a := .v 2, b := .v 3, c := .imm 63, ty := .u64, sh := .w64, rnd := .rne, sat := false, sub := 0 }),
   (0x9800000000001503, .rep { g := open_, d := .none, a := .none, imm := 0x1503 })] ++
  [(0xA0000A02B0008804, .ld { g := open_, data := .v 5, base := .v 2, idx := .sp .zero, off := 4, size := 2, scope := 0, ord := 0, space := 1, hint := 0 }),
   (0xA100110600001400, .st { g := open_, data := .v 8, base := .s 6, idx := .v 0, off := 0, size := 5, scope := 0, ord := 0, space := 0, hint := 0 }),
   (0xA242036BB0004800, .ldu { g := marked 1, data := .s 1, base := .sp .argbase, idx := .sp .zero, off := 2, size := 2, scope := 0, ord := 0, space := 0, hint := 0 }),
   (0xA400110403240DA0, .atom { g := open_, data := .v 8, base := .s 4, idx := .v 6, off := 0x120, size := 3, scope := 3, ord := 1, space := 0, hint := 0 }),
   (0xC048000005000000, .bra { g := { mark := 1, pred := 1, neg := false }, off := 5, a := .none, b := .none, lo := 0 }),
   (0xC44000000A828000, .loop { g := marked 1, off := 10, a := .s 5, b := .none, lo := 0 }),
   (0xC600000000000000, .exit { g := open_, off := 0, a := .none, b := .none, lo := 0 }),
   (0xC700000000000000, .nop { g := open_, off := 0, a := .none, b := .none, lo := 0 }),
   (0xCA08000004828008, .spawn { g := if_ 1, off := 4, a := .s 5, b := .v 0, lo := 8 })] ++
  [(0xCC00000000828000, .join { g := open_, off := 0, a := .s 5, b := .none, lo := 0 }),
   (0xD200000000000003, .barsync { g := open_, d := .none, a := .none, imm := 3 }),
   (0xD3020702B0002D24, .waitaddr { g := open_, data := .s 3, base := .s 2, idx := .sp .zero, off := 1, size := 3, scope := 2, ord := 1, space := 1, hint := 0 }),
   (0xD910154900001800, .qpop { g := if_ 2, d := .v 10, a := .q 9, b := .none, c := .none, ty := .u64, sh := .w64, rnd := .rne, sat := false, sub := 0 }),
   (0xE1028151A9010CC0, .mma { g := open_, q := .q 0, a := .h 1, b := .h 2, t := 4, fa := 3, fb := 3, lad := 0, fl := 0 }),
   (0xEC02A30800000000, .hmake { g := open_, q := .h 1, a := .s 8, b := .none, t := 0, fa := 0, fb := 0, lad := 0, fl := 0 }),
   (0xEE028553AA020000, .cpy { g := open_, q := .q 2, a := .h 3, b := .h 4, t := 8, fa := 0, fb := 0, lad := 0, fl := 0 }),
   (0xF100000000000005, .trap { g := open_, d := .none, a := .none, imm := 5 }),
   (0xF200000000000001, .tret { g := open_, d := .none, a := .none, imm := 1 }),
   (0xF300060000000000, .rdsr { g := open_, d := .v 3, a := .none, imm := 0 })]

/-- HBM and the host bus are in canonical form: every address listed once, in order, and none that reads as an unlisted one
does (log entry 1). -/
def Canonical (s : State) : Prop := Memory.wf s.hbm = true ∧ Memory.wf s.bus = true

/-- The scratch memories of a block are in canonical form, and its speculative lines stand in order. -/
def BlockForm (b : Block) : Prop :=
  Memory.wf b.aMem = true ∧ Memory.wf b.wMem = true ∧ Memory.wf b.cMem = true ∧ RisingKeys b.specA ∧ RisingKeys b.specC

/-- The tables of the device list each key once, in order, those of the partitions’ carves too, and every block’s memory is in
its form. -/
def TablesRise (s : State) : Prop :=
  RisingKeys s.warps ∧ RisingKeys s.blocks ∧ RisingKeys s.launches ∧ RisingKeys s.cores ∧ RisingKeys s.clusters ∧
  RisingKeys s.dies ∧ RisingKeys s.parts ∧ RisingKeys s.dx ∧ RisingKeys s.fp ∧ RisingKeys s.imgs ∧
  (∀ e ∈ s.blocks, BlockForm e.2) ∧
  ∀ q ∈ s.parts, RisingKeys q.2.saved.warps ∧ RisingKeys q.2.saved.blocks ∧ RisingKeys q.2.saved.cores ∧
    ∀ e ∈ q.2.saved.blocks, BlockForm e.2

end Sys2Proof.Machine.Claims

open Sys2Proof Machine Machine.Claims

/-- R12, R13, R16, R19, R155 to R159, R173, R313, R314: a step whose choice is an issue visit of a warp that stands together at
a clause header runs the instruction that its decoder reads from the word behind the header, for all 32 lanes, at the next ck
of the slot's position; several words of a visit run in turn; a step whose choice is a bytecode runs the one the queue's
program is at; one whose choice is a device step runs that step. An empty agenda takes the outside's choice (log entry 3). The
next ck of a slot is the first from now on at which its position comes round and no warp of the slot has issued (R19, R20). -/
def Obligations.StepRunsTheDecodedWord : Prop :=
  (∀ (s : State) (wk dt : Nat) (rest : List Choice) (w : Warp) (pc : Pc) (hw raw : Word) (h : Header) (i : Instr),
    s.agenda = { dt, act := .issue wk } :: rest → s.warp wk = some w → Together w pc →
    let s0 := acting s dt rest
    let code := s.codeOf w.code
    let ck := s0.nextVisitCk wk
    let s1 := ({ s0 with ck } : State).modCore (coreOfWk wk) fun c => { c with slotCk := KMap.set c.slotCk (slotOfWk wk) ck }
    s.coreIssues wk w = true → s.hasHeld wk w = false →
    code[pc.toNat]? = some hw → decodeHeader hw = some h → (pc + 1).toNat = pc.toNat + 1 →
    code[pc.toNat + 1]? = some raw → decodeWord raw = some i → (∀ x, i ≠ .rep x) →
    placeOk h.cls i.opcode (h.nwords == 1) ((code.getD (pc.toNat + 2) 0).toNat / 2 ^ 56) = true →
    s.waitOk w h.wait = true → s.tileBusy wk w i = false →
    ((∃ k, w.code = .resid k) ∨ ∃ k, w.code = .orig k ∧ ∀ p, p = pc ∨ p = pc + 1 →
      ∃ u at_, s1.translate (dieOfWk wk) (s.partOf w) (k % 2 ^ 52 + 8 * p.toNat) 0 3 = (u, .ok at_)) →
    let iss : Issue := { wk, lanes := BitVec.allOnes 32, buf := false, pc := pc + 1, hdr := pc, last := h.nwords == 1 }
    let w1 := { w with lastBuf := false }
    step s = settled s (.issue wk) (exec i { s1.setWarp wk w1 with cur := .warp iss })) ∧
  (∀ (s : State) (wk : Nat), (s.die (dieOfWk wk)).clk0 ≤ s.ck →
    let free := fun (ck : Nat) => s.ck ≤ ck ∧ (∀ k, KMap.get? (s.core (coreOfWk wk)).slotCk (slotOfWk wk) = some k → k < ck) ∧
      (ck - (s.die (dieOfWk wk)).clk0) % 16 = slotOfWk wk / 2
    free (s.nextVisitCk wk) ∧ ∀ ck, free ck → s.nextVisitCk wk ≤ ck) ∧
  (∀ (s s1 : State) (wk dt : Nat) (rest : List Choice) (w : Warp) (v : Visit) (vs : List Visit),
    s.agenda = { dt, act := .issue wk } :: rest → (acting s dt rest).planVisit wk = (s1, v :: vs) → s1.warp wk = some w →
    (∀ x, v.word ≠ .rep x) →
    step s = settled s (.issue wk) (match exec v.word { s1 with cur := .warp v.iss } with
      | .next t => if t.goesOn v.iss.wk w.uid w.inTrap then runVisits vs w.uid w.inTrap t else .next t
      | o => o)) ∧
  (∀ (s : State) (part q dt : Nat) (rest : List Choice) (P : Part) (x : Queue) (r : QRun) (w : BitVec 32) (i : Instr),
    s.agenda = { dt, act := .bytecode part q } :: rest → s.part part = some P → P.progress = true →
    KMap.get? P.queues q = some x → x.run = some r → r.wait = .none → x.prog[r.pc]? = some w → decodeBytecode w = some i →
    step s = settled s (.bytecode part q) (exec i { acting s dt rest with cur := .queue part q })) ∧
  (∀ (s : State) (dt : Nat) (rest : List Choice) (i : Instr), s.agenda = { dt, act := .event i } :: rest →
    (i.isEvent = true → visitOnly i = false → step s = settled s (.event i) (exec i (acting s dt rest))) ∧
    (i.isEvent = false ∨ visitOnly i = true → step s = settled s (.event i) (.next (acting s dt rest)))) ∧
  ∀ s : State, s.agenda = [] → step s =
    settled s (Config.choice s.ticks).act
      (act (Config.choice s.ticks).act { s with ticks := s.ticks + 1, ck := s.ck + (Config.choice s.ticks).dt, cur := .idle })

/-- R155 to R181 and each family's own description: words that the spec writes out decode to the instructions it writes beside
them, and headers to their fields. -/
def Obligations.WrittenWordsDecode : Prop :=
  (∀ p ∈ writtenWords, decodeWord p.1 = some p.2) ∧
  decodeHeader 0x00000C0000001213 = some { origin := 12, wait := 0x12, cls := 1, nwords := 3 } ∧
  decodeHeader 0x0000030000000212 = some { origin := 3, wait := 2, cls := 1, nwords := 2 }

/-- R160 to R181, R314: a well-formed kernel word or queue bytecode is decoded from the word that encodes it, every operand at
every value its field admits; and each word or bytecode that decodes is the encoding of what it decodes to. -/
def Obligations.EncodingRoundTrip : Prop :=
  (∀ i : Instr, i.isWord = true → i.wf = true → decodeWord (encode i) = some i) ∧
  (∀ (w : Word) (i : Instr), decodeWord w = some i → i.isWord = true ∧ i.wf = true ∧ encode i = w) ∧
  (∀ i : Instr, i.isBytecode = true → i.wf = true → decodeBytecode (encodeBytecode i) = some i) ∧
  ∀ (w : BitVec 32) (i : Instr), decodeBytecode w = some i → i.isBytecode = true ∧ i.wf = true ∧ encodeBytecode i = w

/-- Log entry 1, with R334: every step keeps HBM and the host bus in their canonical form, so that equal memories are equal
data; every step keeps the tables of the device, and the scratch of its blocks, in theirs. (The forms are the model's; what the
bytes are is the spec's.) -/
def Obligations.MemoryKeepsItsForm : Prop :=
  (∀ s t : State, Canonical s → step s = .next t → Canonical t) ∧
  ∀ s t : State, TablesRise s → step s = .next t → TablesRise t

/-- R391: right after reset no die runs and every link is down; there is no partition, image, launch, block or warp; caches and
rung history are clear; no step of boot has been taken. Memory and registers read zero, where the spec gives no value (log
entries 2 and 5). -/
def Obligations.Reset : Prop :=
  (∀ d, (State.reset.die d).boot = .reset ∧ (State.reset.die d).port0.st = .down ∧ (State.reset.die d).port1.st = .down ∧
    (State.reset.die d).cache = [] ∧ (State.reset.die d).history = [] ∧ (State.reset.die d).tlb = []) ∧
  (∀ k, State.reset.warp k = none ∧ State.reset.block k = none ∧ State.reset.launch k = none ∧ State.reset.image k = none ∧
    State.reset.part k = none ∧ State.reset.core k = {} ∧ State.reset.cluster k = {}) ∧
  (∀ a, Memory.read State.reset.hbm a = 0 ∧ Memory.read State.reset.bus a = 0) ∧ Canonical State.reset ∧ TablesRise State.reset ∧
  State.reset.ck = 0 ∧ State.reset.boot.up = false ∧ State.reset.boot.cfg = none ∧ State.reset.cur = .idle ∧
  State.reset.mailbox = []

open Sys2Proof Machine Machine.Claims

/-- R25, R191, R242, R244: words with a queue operand, ready or not (the free value of a narrowing CVT is that of log entry 4). -/
def Obligations.QueueOperands : Prop := Sys2Proof.Machine.Claims.QueueOperandForms ∧ Sys2Proof.Machine.Claims.QueueOperandsBlock

/-- R96, R295, R299, R370: RDSR and WRSR (what PERM records is free: log entry 22). -/
def Obligations.SystemRegisters : Prop := Sys2Proof.Machine.Claims.ReadSystemRegister ∧ Sys2Proof.Machine.Claims.WriteSystemRegister

/-- R295, R296, R301, R302: CLOCK, SLEEP and TFENCE. -/
def Obligations.ClockSleepAndFlagFence : Prop := Sys2Proof.Machine.Claims.ClockAndSleep ∧ Sys2Proof.Machine.Claims.FlagFence

/-- R14, R279 to R283: transfers of control and LOOP. Readings that are the model’s own: log entry 13. -/
def Obligations.TransfersAndLoops : Prop := Sys2Proof.Machine.Claims.TransferWords ∧ Sys2Proof.Machine.Claims.LoopWord

/-- R82, R144, R229, R234, R235: WAITADDR and PREFETCH. -/
def Obligations.WaitAndPrefetch : Prop := Sys2Proof.Machine.Claims.WaitOnAddress ∧ Sys2Proof.Machine.Claims.PrefetchWord

/-- R25, R300, R355, R357, R358: an exact fault enters the handler, and one in trap mode is a double fault (TINFO: log entry
20). Readings that are the model’s own: log entry 20. -/
def Obligations.FaultsAndDoubleFaults : Prop := Sys2Proof.Machine.Claims.ExactFaultsEnterTheHandler ∧ Sys2Proof.Machine.Claims.DoubleFault

/-- R135, R137, R139 to R141, R232, R233: ACQ, REL and FENCE. -/
def Obligations.AcquireReleaseAndFence : Prop := Sys2Proof.Machine.Claims.AcquireAndRelease ∧ Sys2Proof.Machine.Claims.FenceWord

/-- R102, R196, R207, R208, R214: MOV.u and the words on predicates. -/
def Obligations.UniformMovesAndPredicates : Prop := Sys2Proof.Machine.Claims.MoveUniform ∧ Sys2Proof.Machine.Claims.PredicateWords

/-- R313 to R323, R380, R402: queues, their bytecodes and graph tables. Readings that are the model’s own: log entries 26,
29, 30, 31 and 48 to 52. -/
def Obligations.QueuesAndBytecodes : Prop := Sys2Proof.Machine.Claims.QueueBytecodes ∧ Sys2Proof.Machine.Claims.QueueAndTableSteps

/-- R68, R82, R130 to R133, R371 to R373: stores drain, and the memory system moves lines and messages. Readings that are the
model’s own: log entries 55, 70 and 88. -/
def Obligations.StoresAndMemorySystem : Prop := Sys2Proof.Machine.Claims.StoreDrains ∧ Sys2Proof.Machine.Claims.MemorySystemSteps

/-- R25, R239, R284: NOP, YIELD, ELECT and EXIT. -/
def Obligations.OneSlotWords : Prop := Sys2Proof.Machine.Claims.NopYieldElect ∧ Sys2Proof.Machine.Claims.ExitWord

/-- R9, R25, R31 to R33, R150, R173, R176, R287 to R291, R342: what happens to a slot, and words that cannot be run. Readings
that are the model’s own: log entries 57, 66, 79 and 101. -/
def Obligations.SlotStepsAndBadWords : Prop := Sys2Proof.Machine.Claims.WarpSlotSteps ∧ Sys2Proof.Machine.Claims.WordsThatCannotBeRun
end

