-- ==== Sys2Proof/Laws/Elems.lean ====
section
/-! SUPPORT. Sub-elements: reading one of a word that is built from them. -/

namespace Sys2Proof.Machine

open Sys2Proof

/-- Sub-elements as one number, lowest first. -/
def packElems (w : Nat) (xs : List Nat) : Nat := (xs.mapIdx fun k x => x % 2 ^ w * 2 ^ (w * k)).sum

theorem packElems_nil (w : Nat) : packElems w [] = 0 := rfl

theorem packElems_cons (w x : Nat) (xs : List Nat) :
    packElems w (x :: xs) = x % 2 ^ w + 2 ^ w * packElems w xs := by
  have h : ∀ (ys : List Nat), (ys.mapIdx fun k x => x % 2 ^ w * 2 ^ (w * (k + 1))).sum =
      2 ^ w * (ys.mapIdx fun k x => x % 2 ^ w * 2 ^ (w * k)).sum := by
    intro ys
    have e : (ys.mapIdx fun k x => x % 2 ^ w * 2 ^ (w * (k + 1))) =
        (ys.mapIdx fun k x => x % 2 ^ w * 2 ^ (w * k)).map (2 ^ w * ·) := by
      apply List.ext_getElem?
      intro k
      simp only [List.getElem?_mapIdx, List.getElem?_map]
      cases ys[k]? with
      | none => rfl
      | some y => simp only [Option.map_some, Option.some.injEq]; rw [Nat.mul_add, Nat.pow_add]; ring
    rw [e, List.sum_map_mul_left, List.map_id']
  simp only [packElems, List.mapIdx_cons, List.sum_cons, Nat.mul_zero, Nat.pow_zero, Nat.mul_one]
  rw [h]

theorem packElems_lt (w : Nat) (xs : List Nat) : packElems w xs < 2 ^ (w * xs.length) := by
  induction xs with
  | nil => simp [packElems]
  | cons x xs ih =>
    rw [packElems_cons, List.length_cons, Nat.mul_add, Nat.mul_one, Nat.add_comm (w * _), Nat.pow_add]
    have h1 : x % 2 ^ w < 2 ^ w := Nat.mod_lt _ (by positivity)
    calc x % 2 ^ w + 2 ^ w * packElems w xs < 2 ^ w + 2 ^ w * packElems w xs := by omega
      _ = 2 ^ w * (packElems w xs + 1) := by ring
      _ ≤ 2 ^ w * 2 ^ (w * xs.length) := Nat.mul_le_mul_left _ ih

theorem packElems_get (w : Nat) (xs : List Nat) (k : Nat) (hk : k < xs.length) :
    packElems w xs / 2 ^ (w * k) % 2 ^ w = xs[k] % 2 ^ w := by
  induction xs generalizing k with
  | nil => simp at hk
  | cons x xs ih =>
    have h1 : x % 2 ^ w < 2 ^ w := Nat.mod_lt _ (by positivity)
    rw [packElems_cons]
    cases k with
    | zero => simp
    | succ k =>
      have := ih k (by simpa using hk)
      rw [Nat.mul_add, Nat.mul_one, Nat.add_comm (w * k), Nat.pow_add, ← Nat.div_div_eq_div_mul]
      rw [Nat.add_mul_div_left _ _ (by positivity), Nat.div_eq_of_lt h1, Nat.zero_add]
      simpa using this

/-- Sub-element k of a word built from sub-elements. -/
theorem elem_ofElems {w : Nat} {xs : List Nat} {k : Nat} (hk : k < xs.length) (h : w * xs.length ≤ 64) :
    elem w k (ofElems w xs) = xs[k] % 2 ^ w := by
  have hlt : packElems w xs < 2 ^ 64 :=
    Nat.lt_of_lt_of_le (packElems_lt w xs) (Nat.pow_le_pow_right (by omega) h)
  have e : (ofElems w xs).toNat = packElems w xs := by
    unfold ofElems
    rw [BitVec.toNat_ofNat]
    exact Nat.mod_eq_of_lt hlt
  unfold elem
  rw [e]
  exact packElems_get w xs k hk

theorem elem_lt (w k : Nat) (x : Word) : elem w k x < 2 ^ w := Nat.mod_lt _ (by positivity)

theorem elem_map1 {w k : Nat} {f : Nat → Nat} {a : Word} (hk : k < 64 / w) :
    elem w k (map1 w f a) = f (elem w k a) % 2 ^ w := by
  unfold map1
  rw [elem_ofElems (by simpa using hk) (by simpa using Nat.mul_div_le 64 w)]
  simp

theorem elem_map2 {w k : Nat} {f : Nat → Nat → Nat} {a b : Word} (hk : k < 64 / w) :
    elem w k (map2 w f a b) = f (elem w k a) (elem w k b) % 2 ^ w := by
  unfold map2
  rw [elem_ofElems (by simpa using hk) (by simpa using Nat.mul_div_le 64 w)]
  simp

theorem elem_map3 {w k : Nat} {f : Nat → Nat → Nat → Nat} {a b c : Word} (hk : k < 64 / w) :
    elem w k (map3 w f a b c) = f (elem w k a) (elem w k b) (elem w k c) % 2 ^ w := by
  unfold map3
  rw [elem_ofElems (by simpa using hk) (by simpa using Nat.mul_div_le 64 w)]
  simp

end Sys2Proof.Machine
end

