-- ==== Sys2Proof/Laws/Memory.lean ====
section
/-! SUPPORT. Tables and memories: what a read finds after a write, and that every memory operation keeps the canonical
form. -/

namespace Sys2Proof.Machine

open Sys2Proof

/-! ### Tables -/

@[simp] theorem KMap.get?_nil {α : Type} (k : Nat) : KMap.get? ([] : KMap α) k = none := rfl

theorem KMap.get?_cons {α : Type} (j k : Nat) (v : α) (r : KMap α) :
    KMap.get? ((j, v) :: r) k = if j = k then some v else if k < j then none else KMap.get? r k := rfl

theorem KMap.set_cons {α : Type} (j k : Nat) (v w : α) (r : KMap α) :
    KMap.set ((j, w) :: r) k v =
      if j = k then (k, v) :: r else if k < j then (k, v) :: (j, w) :: r else (j, w) :: KMap.set r k v := rfl

@[simp] theorem KMap.get?_set_self {α : Type} (m : KMap α) (k : Nat) (v : α) : KMap.get? (KMap.set m k v) k = some v := by
  induction m with
  | nil => simp [KMap.set, KMap.get?]
  | cons e r ih =>
    obtain ⟨j, w⟩ := e
    simp only [KMap.set_cons]
    split
    · simp [KMap.get?]
    · split
      · simp [KMap.get?]
      · simp only [KMap.get?_cons, *, if_false]

theorem KMap.get?_set_ne {α : Type} (m : KMap α) {k k' : Nat} (v : α) (h : k' ≠ k) :
    KMap.get? (KMap.set m k v) k' = KMap.get? m k' := by
  induction m with
  | nil => simp [KMap.set, KMap.get?, h.symm]
  | cons e r ih =>
    obtain ⟨j, w⟩ := e
    simp only [KMap.set_cons]
    split
    · next e => subst e; simp [KMap.get?_cons, h.symm]
    · split
      · next hlt =>
        simp only [KMap.get?_cons, h.symm, if_false]
        by_cases h' : k' < k
        · have : ¬ j = k' := by omega
          have : k' < j := by omega
          simp [*]
        · simp [h']
      · simp only [KMap.get?_cons, ih]

theorem KMap.get?_set {α : Type} (m : KMap α) (k k' : Nat) (v : α) :
    KMap.get? (KMap.set m k v) k' = if k' = k then some v else KMap.get? m k' := by
  split
  · next h => subst h; simp
  · next h => exact KMap.get?_set_ne m v h

theorem KMap.set_set {α : Type} (m : KMap α) (k : Nat) (v v' : α) : KMap.set (KMap.set m k v) k v' = KMap.set m k v' := by
  induction m with
  | nil => simp [KMap.set]
  | cons c r ih =>
    obtain ⟨j, w⟩ := c
    simp only [KMap.set]
    split
    · simp [KMap.set]
    · split
      · simp [KMap.set]
      · next h1 h2 => simp [KMap.set, h1, h2, ih]

@[simp] theorem KMap.getD_set_self {α : Type} (m : KMap α) (k : Nat) (v d : α) : KMap.getD (KMap.set m k v) k d = v := by
  simp [KMap.getD]

theorem KMap.getD_set_ne {α : Type} (m : KMap α) {k k' : Nat} (v d : α) (h : k' ≠ k) :
    KMap.getD (KMap.set m k v) k' d = KMap.getD m k' d := by simp [KMap.getD, KMap.get?_set_ne m v h]

theorem KMap.getD_set {α : Type} (m : KMap α) (k k' : Nat) (v d : α) :
    KMap.getD (KMap.set m k v) k' d = if k' = k then v else KMap.getD m k' d := by
  split
  · next h => subst h; simp
  · next h => exact KMap.getD_set_ne m v d h

theorem KMap.get?_modify {α : Type} (m : KMap α) (k k' : Nat) (f : α → α) :
    KMap.get? (KMap.modify m k f) k' = if k' = k then (KMap.get? m k).map f else KMap.get? m k' := by
  induction m with
  | nil => simp [KMap.modify, KMap.get?]
  | cons e r ih =>
    obtain ⟨j, w⟩ := e
    simp only [KMap.modify]
    by_cases hj : j = k
    · subst hj
      by_cases hk : k' = j
      · subst hk; simp [KMap.get?_cons]
      · have hk' : ¬ j = k' := fun h => hk h.symm
        simp [KMap.get?_cons, hk, hk']
    · simp only [hj, if_false, KMap.get?_cons, ih]
      by_cases hk : k' = k
      · subst hk
        simp only [hj, if_false, if_true]
        split <;> simp
      · simp [hk]

/-! ### The canonical form of a memory -/

/-- The canonical form as a statement: keys strictly rising, and no byte equal to what an unlisted address reads as. -/
theorem Memory.wf_iff (m : Memory) :
    Memory.wf m = true ↔ m.Pairwise (fun a b => a.1 < b.1) ∧ ∀ c ∈ m, c.2 ≠ memDefault := by
  induction m with
  | nil => simp [Memory.wf]
  | cons c r ih =>
    obtain ⟨a, b⟩ := c
    cases r with
    | nil => simp [Memory.wf]
    | cons d q =>
      obtain ⟨a', b'⟩ := d
      simp only [Memory.wf, Bool.and_eq_true, decide_eq_true_eq, bne_iff_ne, ne_eq, ih, List.pairwise_cons,
        List.mem_cons, forall_eq_or_imp]
      constructor
      · rintro ⟨⟨h1, h2⟩, ⟨h3, h4⟩, h5, h6⟩
        exact ⟨⟨⟨h1, fun x hx => Nat.lt_trans h1 (h3 x hx)⟩, h3, h4⟩, h2, h5, h6⟩
      · rintro ⟨⟨⟨h1, -⟩, h3, h4⟩, h2, h5, h6⟩
        exact ⟨⟨h1, h2⟩, ⟨h3, h4⟩, h5, h6⟩

/-- Reading a list whose keys rise: the byte listed, if one is. -/
theorem Memory.read_eq_of_mem {m : Memory} (h : m.Pairwise (fun a b => a.1 < b.1)) {a : Nat} {b : Byte}
    (hm : (a, b) ∈ m) : Memory.read m a = b := by
  induction m with
  | nil => simp at hm
  | cons c r ih =>
    obtain ⟨j, w⟩ := c
    rw [List.pairwise_cons] at h
    simp only [Memory.read, KMap.getD, KMap.get?_cons]
    rcases List.mem_cons.1 hm with e | e
    · cases e; simp
    · have hlt : j < a := h.1 _ e
      have h1 : ¬ j = a := by omega
      have h2 : ¬ a < j := by omega
      simp only [h1, h2, if_false]
      exact ih h.2 e

theorem Memory.read_eq_default {m : Memory} {a : Nat} (h : ∀ c ∈ m, c.1 ≠ a) : Memory.read m a = memDefault := by
  induction m with
  | nil => rfl
  | cons c r ih =>
    obtain ⟨j, w⟩ := c
    have h1 : ¬ j = a := h (j, w) (by simp)
    simp only [Memory.read, KMap.getD, KMap.get?_cons, h1, if_false]
    split
    · rfl
    · exact ih fun c hc => h c (by simp [hc])

theorem Memory.mem_cells {a : Nat} {bs : List Byte} {c : Nat × Byte} :
    c ∈ Memory.cells a bs ↔ a ≤ c.1 ∧ c.1 < a + bs.length ∧ bs[c.1 - a]? = some c.2 ∧ c.2 ≠ memDefault := by
  induction bs generalizing a with
  | nil => simp [Memory.cells]
  | cons b r ih =>
    have key : c ∈ Memory.cells (a + 1) r ↔
        a ≤ c.1 ∧ c.1 ≠ a ∧ c.1 < a + (b :: r).length ∧ (b :: r)[c.1 - a]? = some c.2 ∧ c.2 ≠ memDefault := by
      rw [ih]
      constructor
      · rintro ⟨h1, h2, h3, h4⟩
        obtain ⟨k, hk⟩ : ∃ k, c.1 - a = k + 1 := ⟨c.1 - a - 1, by omega⟩
        refine ⟨by omega, by omega, by simp; omega, ?_, h4⟩
        rw [hk, List.getElem?_cons_succ, ← h3]; congr 1; omega
      · rintro ⟨h1, h2, h3, h4, h5⟩
        obtain ⟨k, hk⟩ : ∃ k, c.1 - a = k + 1 := ⟨c.1 - a - 1, by omega⟩
        simp only [List.length_cons] at h3
        rw [hk, List.getElem?_cons_succ] at h4
        refine ⟨by omega, by omega, ?_, h5⟩
        rw [← h4]; congr 1; omega
    obtain ⟨x, y⟩ := c
    simp only [Memory.cells]
    split
    · next hb =>
      rw [key]
      constructor
      · rintro ⟨h1, -, h2, h3, h4⟩; exact ⟨h1, h2, h3, h4⟩
      · rintro ⟨h1, h2, h3, h4⟩
        refine ⟨h1, ?_, h2, h3, h4⟩
        rintro rfl
        simp at h3
        exact h4 (h3 ▸ hb)
    · next hb =>
      rw [List.mem_cons, key]
      constructor
      · rintro (e | ⟨h1, -, h2, h3, h4⟩)
        · cases e; simp [hb]
        · exact ⟨h1, h2, h3, h4⟩
      · rintro ⟨h1, h2, h3, h4⟩
        by_cases e : x = a
        · subst e; simp at h3; exact .inl (by rw [h3])
        · exact .inr ⟨h1, e, h2, h3, h4⟩

theorem Memory.cells_sorted (a : Nat) (bs : List Byte) : (Memory.cells a bs).Pairwise (fun x y => x.1 < y.1) := by
  induction bs generalizing a with
  | nil => simp [Memory.cells]
  | cons b r ih =>
    simp only [Memory.cells]
    split
    · exact ih _
    · refine List.pairwise_cons.2 ⟨fun c hc => ?_, ih _⟩
      have := (Memory.mem_cells.1 hc).1
      show a < c.1
      omega

/-- A write keeps the canonical form. -/
theorem Memory.writeN_wf {m : Memory} (h : Memory.wf m = true) (a : Nat) (bs : List Byte) :
    Memory.wf (Memory.writeN m a bs) = true := by
  rw [Memory.wf_iff] at h ⊢
  obtain ⟨hs, hd⟩ := h
  constructor
  · simp only [Memory.writeN, List.append_assoc, List.pairwise_append]
    refine ⟨hs.filter _, ⟨Memory.cells_sorted _ _, hs.filter _, ?_⟩, ?_⟩
    · intro x hx y hy
      have h1 := Memory.mem_cells.1 hx
      have h2 := (List.mem_filter.1 hy).2
      simp at h2; omega
    · intro x hx y hy
      have h1 := (List.mem_filter.1 hx).2
      simp at h1
      rcases List.mem_append.1 hy with hy | hy
      · have := (Memory.mem_cells.1 hy).1; omega
      · have h2 := (List.mem_filter.1 hy).2
        simp at h2; omega
  · intro c hc
    simp only [Memory.writeN, List.mem_append, List.mem_filter] at hc
    rcases hc with (⟨hc, -⟩ | hc) | ⟨hc, -⟩
    · exact hd c hc
    · exact (Memory.mem_cells.1 hc).2.2.2
    · exact hd c hc

theorem Memory.write_wf {m : Memory} (h : Memory.wf m = true) (a : Nat) (b : Byte) :
    Memory.wf (Memory.write m a b) = true := Memory.writeN_wf h a [b]

@[simp] theorem Memory.wf_nil : Memory.wf [] = true := rfl

/-- A byte outside the written range reads as before. -/
theorem Memory.read_writeN_out {m : Memory} (h : Memory.wf m = true) {a x : Nat} {bs : List Byte}
    (hx : x < a ∨ a + bs.length ≤ x) : Memory.read (Memory.writeN m a bs) x = Memory.read m x := by
  have hw := ((Memory.wf_iff _).1 (Memory.writeN_wf h a bs)).1
  have hs := ((Memory.wf_iff _).1 h).1
  by_cases e : ∃ b, (x, b) ∈ m
  · obtain ⟨b, hb⟩ := e
    rw [Memory.read_eq_of_mem hs hb]
    refine Memory.read_eq_of_mem hw ?_
    simp only [Memory.writeN, List.mem_append, List.mem_filter]
    rcases hx with hx | hx
    · exact .inl (.inl ⟨hb, by simpa using hx⟩)
    · exact .inr ⟨hb, by simpa using hx⟩
  · rw [Memory.read_eq_default (m := m) (fun c hc hce => e ⟨c.2, by rw [← hce]; exact hc⟩)]
    refine Memory.read_eq_default fun c hc hce => ?_
    simp only [Memory.writeN, List.mem_append, List.mem_filter] at hc
    rcases hc with (⟨hc, -⟩ | hc) | ⟨hc, -⟩
    · exact e ⟨c.2, by rw [← hce]; exact hc⟩
    · have := Memory.mem_cells.1 hc; omega
    · exact e ⟨c.2, by rw [← hce]; exact hc⟩

/-- A byte of the written range reads as written. -/
theorem Memory.read_writeN_in {m : Memory} (h : Memory.wf m = true) {a i : Nat} {bs : List Byte} {b : Byte}
    (hb : bs[i]? = some b) : Memory.read (Memory.writeN m a bs) (a + i) = b := by
  have hi : i < bs.length := by
    by_contra hi
    rw [List.getElem?_eq_none (by omega)] at hb
    cases hb
  have hw := ((Memory.wf_iff _).1 (Memory.writeN_wf h a bs)).1
  by_cases e : b = memDefault
  · subst e
    refine Memory.read_eq_default fun c hc hce => ?_
    simp only [Memory.writeN, List.mem_append, List.mem_filter] at hc
    rcases hc with (⟨-, hc⟩ | hc) | ⟨-, hc⟩
    · simp at hc; omega
    · obtain ⟨-, -, h3, h4⟩ := Memory.mem_cells.1 hc
      rw [hce, show a + i - a = i by omega, hb] at h3
      exact h4 (Option.some.inj h3).symm
    · simp at hc; omega
  · refine Memory.read_eq_of_mem hw ?_
    simp only [Memory.writeN, List.mem_append]
    refine .inl (.inr (Memory.mem_cells.2 ⟨by omega, by simp; omega, ?_, e⟩))
    show bs[a + i - a]? = some b
    rw [show a + i - a = i by omega, hb]

end Sys2Proof.Machine
end

