-- ==== Sys2Proof/Laws/State.lean ====
section
/-! SUPPORT. One lemma for each field of State under each update of it, and the fields of a warp under its register
writes. -/

namespace Sys2Proof.Machine

open Sys2Proof

/-! ### State.setWarp -/

@[simp] theorem State.setWarp_agenda (s : State) (wk : Nat) (w : Warp) : (s.setWarp wk w).agenda = s.agenda := rfl
@[simp] theorem State.setWarp_ticks (s : State) (wk : Nat) (w : Warp) : (s.setWarp wk w).ticks = s.ticks := rfl
@[simp] theorem State.setWarp_free (s : State) (wk : Nat) (w : Warp) : (s.setWarp wk w).free = s.free := rfl
@[simp] theorem State.setWarp_nextUid (s : State) (wk : Nat) (w : Warp) : (s.setWarp wk w).nextUid = s.nextUid := rfl
@[simp] theorem State.setWarp_nextTicket (s : State) (wk : Nat) (w : Warp) : (s.setWarp wk w).nextTicket = s.nextTicket := rfl
@[simp] theorem State.setWarp_ck (s : State) (wk : Nat) (w : Warp) : (s.setWarp wk w).ck = s.ck := rfl
@[simp] theorem State.setWarp_cur (s : State) (wk : Nat) (w : Warp) : (s.setWarp wk w).cur = s.cur := rfl
@[simp] theorem State.setWarp_warps (s : State) (wk : Nat) (w : Warp) : (s.setWarp wk w).warps = KMap.set s.warps wk w := rfl
@[simp] theorem State.setWarp_blocks (s : State) (wk : Nat) (w : Warp) : (s.setWarp wk w).blocks = s.blocks := rfl
@[simp] theorem State.setWarp_launches (s : State) (wk : Nat) (w : Warp) : (s.setWarp wk w).launches = s.launches := rfl
@[simp] theorem State.setWarp_images (s : State) (wk : Nat) (w : Warp) : (s.setWarp wk w).images = s.images := rfl
@[simp] theorem State.setWarp_cores (s : State) (wk : Nat) (w : Warp) : (s.setWarp wk w).cores = s.cores := rfl
@[simp] theorem State.setWarp_clusters (s : State) (wk : Nat) (w : Warp) : (s.setWarp wk w).clusters = s.clusters := rfl
@[simp] theorem State.setWarp_dies (s : State) (wk : Nat) (w : Warp) : (s.setWarp wk w).dies = s.dies := rfl
@[simp] theorem State.setWarp_parts (s : State) (wk : Nat) (w : Warp) : (s.setWarp wk w).parts = s.parts := rfl
@[simp] theorem State.setWarp_hbm (s : State) (wk : Nat) (w : Warp) : (s.setWarp wk w).hbm = s.hbm := rfl
@[simp] theorem State.setWarp_bus (s : State) (wk : Nat) (w : Warp) : (s.setWarp wk w).bus = s.bus := rfl
@[simp] theorem State.setWarp_imgs (s : State) (wk : Nat) (w : Warp) : (s.setWarp wk w).imgs = s.imgs := rfl
@[simp] theorem State.setWarp_dx (s : State) (wk : Nat) (w : Warp) : (s.setWarp wk w).dx = s.dx := rfl
@[simp] theorem State.setWarp_fp (s : State) (wk : Nat) (w : Warp) : (s.setWarp wk w).fp = s.fp := rfl
@[simp] theorem State.setWarp_ptokCap (s : State) (wk : Nat) (w : Warp) : (s.setWarp wk w).ptokCap = s.ptokCap := rfl
@[simp] theorem State.setWarp_mailbox (s : State) (wk : Nat) (w : Warp) : (s.setWarp wk w).mailbox = s.mailbox := rfl
@[simp] theorem State.setWarp_boot (s : State) (wk : Nat) (w : Warp) : (s.setWarp wk w).boot = s.boot := rfl

/-! ### State.modWarp -/

@[simp] theorem State.modWarp_agenda (s : State) (wk : Nat) (f : Warp → Warp) : (s.modWarp wk f).agenda = s.agenda := rfl
@[simp] theorem State.modWarp_ticks (s : State) (wk : Nat) (f : Warp → Warp) : (s.modWarp wk f).ticks = s.ticks := rfl
@[simp] theorem State.modWarp_free (s : State) (wk : Nat) (f : Warp → Warp) : (s.modWarp wk f).free = s.free := rfl
@[simp] theorem State.modWarp_nextUid (s : State) (wk : Nat) (f : Warp → Warp) : (s.modWarp wk f).nextUid = s.nextUid := rfl
@[simp] theorem State.modWarp_nextTicket (s : State) (wk : Nat) (f : Warp → Warp) : (s.modWarp wk f).nextTicket = s.nextTicket := rfl
@[simp] theorem State.modWarp_ck (s : State) (wk : Nat) (f : Warp → Warp) : (s.modWarp wk f).ck = s.ck := rfl
@[simp] theorem State.modWarp_cur (s : State) (wk : Nat) (f : Warp → Warp) : (s.modWarp wk f).cur = s.cur := rfl
@[simp] theorem State.modWarp_warps (s : State) (wk : Nat) (f : Warp → Warp) : (s.modWarp wk f).warps = KMap.modify s.warps wk f := rfl
@[simp] theorem State.modWarp_blocks (s : State) (wk : Nat) (f : Warp → Warp) : (s.modWarp wk f).blocks = s.blocks := rfl
@[simp] theorem State.modWarp_launches (s : State) (wk : Nat) (f : Warp → Warp) : (s.modWarp wk f).launches = s.launches := rfl
@[simp] theorem State.modWarp_images (s : State) (wk : Nat) (f : Warp → Warp) : (s.modWarp wk f).images = s.images := rfl
@[simp] theorem State.modWarp_cores (s : State) (wk : Nat) (f : Warp → Warp) : (s.modWarp wk f).cores = s.cores := rfl
@[simp] theorem State.modWarp_clusters (s : State) (wk : Nat) (f : Warp → Warp) : (s.modWarp wk f).clusters = s.clusters := rfl
@[simp] theorem State.modWarp_dies (s : State) (wk : Nat) (f : Warp → Warp) : (s.modWarp wk f).dies = s.dies := rfl
@[simp] theorem State.modWarp_parts (s : State) (wk : Nat) (f : Warp → Warp) : (s.modWarp wk f).parts = s.parts := rfl
@[simp] theorem State.modWarp_hbm (s : State) (wk : Nat) (f : Warp → Warp) : (s.modWarp wk f).hbm = s.hbm := rfl
@[simp] theorem State.modWarp_bus (s : State) (wk : Nat) (f : Warp → Warp) : (s.modWarp wk f).bus = s.bus := rfl
@[simp] theorem State.modWarp_imgs (s : State) (wk : Nat) (f : Warp → Warp) : (s.modWarp wk f).imgs = s.imgs := rfl
@[simp] theorem State.modWarp_dx (s : State) (wk : Nat) (f : Warp → Warp) : (s.modWarp wk f).dx = s.dx := rfl
@[simp] theorem State.modWarp_fp (s : State) (wk : Nat) (f : Warp → Warp) : (s.modWarp wk f).fp = s.fp := rfl
@[simp] theorem State.modWarp_ptokCap (s : State) (wk : Nat) (f : Warp → Warp) : (s.modWarp wk f).ptokCap = s.ptokCap := rfl
@[simp] theorem State.modWarp_mailbox (s : State) (wk : Nat) (f : Warp → Warp) : (s.modWarp wk f).mailbox = s.mailbox := rfl
@[simp] theorem State.modWarp_boot (s : State) (wk : Nat) (f : Warp → Warp) : (s.modWarp wk f).boot = s.boot := rfl

/-! ### State.dropWarp -/

@[simp] theorem State.dropWarp_agenda (s : State) (wk : Nat) : (s.dropWarp wk).agenda = s.agenda := rfl
@[simp] theorem State.dropWarp_ticks (s : State) (wk : Nat) : (s.dropWarp wk).ticks = s.ticks := rfl
@[simp] theorem State.dropWarp_free (s : State) (wk : Nat) : (s.dropWarp wk).free = s.free := rfl
@[simp] theorem State.dropWarp_nextUid (s : State) (wk : Nat) : (s.dropWarp wk).nextUid = s.nextUid := rfl
@[simp] theorem State.dropWarp_nextTicket (s : State) (wk : Nat) : (s.dropWarp wk).nextTicket = s.nextTicket := rfl
@[simp] theorem State.dropWarp_ck (s : State) (wk : Nat) : (s.dropWarp wk).ck = s.ck := rfl
@[simp] theorem State.dropWarp_cur (s : State) (wk : Nat) : (s.dropWarp wk).cur = s.cur := rfl
@[simp] theorem State.dropWarp_warps (s : State) (wk : Nat) : (s.dropWarp wk).warps = KMap.erase s.warps wk := rfl
@[simp] theorem State.dropWarp_blocks (s : State) (wk : Nat) : (s.dropWarp wk).blocks = s.blocks := rfl
@[simp] theorem State.dropWarp_launches (s : State) (wk : Nat) : (s.dropWarp wk).launches = s.launches := rfl
@[simp] theorem State.dropWarp_images (s : State) (wk : Nat) : (s.dropWarp wk).images = s.images := rfl
@[simp] theorem State.dropWarp_cores (s : State) (wk : Nat) : (s.dropWarp wk).cores = s.cores := rfl
@[simp] theorem State.dropWarp_clusters (s : State) (wk : Nat) : (s.dropWarp wk).clusters = s.clusters := rfl
@[simp] theorem State.dropWarp_dies (s : State) (wk : Nat) : (s.dropWarp wk).dies = s.dies := rfl
@[simp] theorem State.dropWarp_parts (s : State) (wk : Nat) : (s.dropWarp wk).parts = s.parts := rfl
@[simp] theorem State.dropWarp_hbm (s : State) (wk : Nat) : (s.dropWarp wk).hbm = s.hbm := rfl
@[simp] theorem State.dropWarp_bus (s : State) (wk : Nat) : (s.dropWarp wk).bus = s.bus := rfl
@[simp] theorem State.dropWarp_imgs (s : State) (wk : Nat) : (s.dropWarp wk).imgs = s.imgs := rfl
@[simp] theorem State.dropWarp_dx (s : State) (wk : Nat) : (s.dropWarp wk).dx = s.dx := rfl
@[simp] theorem State.dropWarp_fp (s : State) (wk : Nat) : (s.dropWarp wk).fp = s.fp := rfl
@[simp] theorem State.dropWarp_ptokCap (s : State) (wk : Nat) : (s.dropWarp wk).ptokCap = s.ptokCap := rfl
@[simp] theorem State.dropWarp_mailbox (s : State) (wk : Nat) : (s.dropWarp wk).mailbox = s.mailbox := rfl
@[simp] theorem State.dropWarp_boot (s : State) (wk : Nat) : (s.dropWarp wk).boot = s.boot := rfl

/-! ### State.setBlock -/

@[simp] theorem State.setBlock_agenda (s : State) (b : Nat) (x : Block) : (s.setBlock b x).agenda = s.agenda := rfl
@[simp] theorem State.setBlock_ticks (s : State) (b : Nat) (x : Block) : (s.setBlock b x).ticks = s.ticks := rfl
@[simp] theorem State.setBlock_free (s : State) (b : Nat) (x : Block) : (s.setBlock b x).free = s.free := rfl
@[simp] theorem State.setBlock_nextUid (s : State) (b : Nat) (x : Block) : (s.setBlock b x).nextUid = s.nextUid := rfl
@[simp] theorem State.setBlock_nextTicket (s : State) (b : Nat) (x : Block) : (s.setBlock b x).nextTicket = s.nextTicket := rfl
@[simp] theorem State.setBlock_ck (s : State) (b : Nat) (x : Block) : (s.setBlock b x).ck = s.ck := rfl
@[simp] theorem State.setBlock_cur (s : State) (b : Nat) (x : Block) : (s.setBlock b x).cur = s.cur := rfl
@[simp] theorem State.setBlock_warps (s : State) (b : Nat) (x : Block) : (s.setBlock b x).warps = s.warps := rfl
@[simp] theorem State.setBlock_blocks (s : State) (b : Nat) (x : Block) : (s.setBlock b x).blocks = KMap.set s.blocks b x := rfl
@[simp] theorem State.setBlock_launches (s : State) (b : Nat) (x : Block) : (s.setBlock b x).launches = s.launches := rfl
@[simp] theorem State.setBlock_images (s : State) (b : Nat) (x : Block) : (s.setBlock b x).images = s.images := rfl
@[simp] theorem State.setBlock_cores (s : State) (b : Nat) (x : Block) : (s.setBlock b x).cores = s.cores := rfl
@[simp] theorem State.setBlock_clusters (s : State) (b : Nat) (x : Block) : (s.setBlock b x).clusters = s.clusters := rfl
@[simp] theorem State.setBlock_dies (s : State) (b : Nat) (x : Block) : (s.setBlock b x).dies = s.dies := rfl
@[simp] theorem State.setBlock_parts (s : State) (b : Nat) (x : Block) : (s.setBlock b x).parts = s.parts := rfl
@[simp] theorem State.setBlock_hbm (s : State) (b : Nat) (x : Block) : (s.setBlock b x).hbm = s.hbm := rfl
@[simp] theorem State.setBlock_bus (s : State) (b : Nat) (x : Block) : (s.setBlock b x).bus = s.bus := rfl
@[simp] theorem State.setBlock_imgs (s : State) (b : Nat) (x : Block) : (s.setBlock b x).imgs = s.imgs := rfl
@[simp] theorem State.setBlock_dx (s : State) (b : Nat) (x : Block) : (s.setBlock b x).dx = s.dx := rfl
@[simp] theorem State.setBlock_fp (s : State) (b : Nat) (x : Block) : (s.setBlock b x).fp = s.fp := rfl
@[simp] theorem State.setBlock_ptokCap (s : State) (b : Nat) (x : Block) : (s.setBlock b x).ptokCap = s.ptokCap := rfl
@[simp] theorem State.setBlock_mailbox (s : State) (b : Nat) (x : Block) : (s.setBlock b x).mailbox = s.mailbox := rfl
@[simp] theorem State.setBlock_boot (s : State) (b : Nat) (x : Block) : (s.setBlock b x).boot = s.boot := rfl

/-! ### State.modBlock -/

@[simp] theorem State.modBlock_agenda (s : State) (b : Nat) (f : Block → Block) : (s.modBlock b f).agenda = s.agenda := rfl
@[simp] theorem State.modBlock_ticks (s : State) (b : Nat) (f : Block → Block) : (s.modBlock b f).ticks = s.ticks := rfl
@[simp] theorem State.modBlock_free (s : State) (b : Nat) (f : Block → Block) : (s.modBlock b f).free = s.free := rfl
@[simp] theorem State.modBlock_nextUid (s : State) (b : Nat) (f : Block → Block) : (s.modBlock b f).nextUid = s.nextUid := rfl
@[simp] theorem State.modBlock_nextTicket (s : State) (b : Nat) (f : Block → Block) : (s.modBlock b f).nextTicket = s.nextTicket := rfl
@[simp] theorem State.modBlock_ck (s : State) (b : Nat) (f : Block → Block) : (s.modBlock b f).ck = s.ck := rfl
@[simp] theorem State.modBlock_cur (s : State) (b : Nat) (f : Block → Block) : (s.modBlock b f).cur = s.cur := rfl
@[simp] theorem State.modBlock_warps (s : State) (b : Nat) (f : Block → Block) : (s.modBlock b f).warps = s.warps := rfl
@[simp] theorem State.modBlock_blocks (s : State) (b : Nat) (f : Block → Block) : (s.modBlock b f).blocks = KMap.modify s.blocks b f := rfl
@[simp] theorem State.modBlock_launches (s : State) (b : Nat) (f : Block → Block) : (s.modBlock b f).launches = s.launches := rfl
@[simp] theorem State.modBlock_images (s : State) (b : Nat) (f : Block → Block) : (s.modBlock b f).images = s.images := rfl
@[simp] theorem State.modBlock_cores (s : State) (b : Nat) (f : Block → Block) : (s.modBlock b f).cores = s.cores := rfl
@[simp] theorem State.modBlock_clusters (s : State) (b : Nat) (f : Block → Block) : (s.modBlock b f).clusters = s.clusters := rfl
@[simp] theorem State.modBlock_dies (s : State) (b : Nat) (f : Block → Block) : (s.modBlock b f).dies = s.dies := rfl
@[simp] theorem State.modBlock_parts (s : State) (b : Nat) (f : Block → Block) : (s.modBlock b f).parts = s.parts := rfl
@[simp] theorem State.modBlock_hbm (s : State) (b : Nat) (f : Block → Block) : (s.modBlock b f).hbm = s.hbm := rfl
@[simp] theorem State.modBlock_bus (s : State) (b : Nat) (f : Block → Block) : (s.modBlock b f).bus = s.bus := rfl
@[simp] theorem State.modBlock_imgs (s : State) (b : Nat) (f : Block → Block) : (s.modBlock b f).imgs = s.imgs := rfl
@[simp] theorem State.modBlock_dx (s : State) (b : Nat) (f : Block → Block) : (s.modBlock b f).dx = s.dx := rfl
@[simp] theorem State.modBlock_fp (s : State) (b : Nat) (f : Block → Block) : (s.modBlock b f).fp = s.fp := rfl
@[simp] theorem State.modBlock_ptokCap (s : State) (b : Nat) (f : Block → Block) : (s.modBlock b f).ptokCap = s.ptokCap := rfl
@[simp] theorem State.modBlock_mailbox (s : State) (b : Nat) (f : Block → Block) : (s.modBlock b f).mailbox = s.mailbox := rfl
@[simp] theorem State.modBlock_boot (s : State) (b : Nat) (f : Block → Block) : (s.modBlock b f).boot = s.boot := rfl

/-! ### State.setLaunch -/

@[simp] theorem State.setLaunch_agenda (s : State) (l : Nat) (x : Launch) : (s.setLaunch l x).agenda = s.agenda := rfl
@[simp] theorem State.setLaunch_ticks (s : State) (l : Nat) (x : Launch) : (s.setLaunch l x).ticks = s.ticks := rfl
@[simp] theorem State.setLaunch_free (s : State) (l : Nat) (x : Launch) : (s.setLaunch l x).free = s.free := rfl
@[simp] theorem State.setLaunch_nextUid (s : State) (l : Nat) (x : Launch) : (s.setLaunch l x).nextUid = s.nextUid := rfl
@[simp] theorem State.setLaunch_nextTicket (s : State) (l : Nat) (x : Launch) : (s.setLaunch l x).nextTicket = s.nextTicket := rfl
@[simp] theorem State.setLaunch_ck (s : State) (l : Nat) (x : Launch) : (s.setLaunch l x).ck = s.ck := rfl
@[simp] theorem State.setLaunch_cur (s : State) (l : Nat) (x : Launch) : (s.setLaunch l x).cur = s.cur := rfl
@[simp] theorem State.setLaunch_warps (s : State) (l : Nat) (x : Launch) : (s.setLaunch l x).warps = s.warps := rfl
@[simp] theorem State.setLaunch_blocks (s : State) (l : Nat) (x : Launch) : (s.setLaunch l x).blocks = s.blocks := rfl
@[simp] theorem State.setLaunch_launches (s : State) (l : Nat) (x : Launch) : (s.setLaunch l x).launches = KMap.set s.launches l x := rfl
@[simp] theorem State.setLaunch_images (s : State) (l : Nat) (x : Launch) : (s.setLaunch l x).images = s.images := rfl
@[simp] theorem State.setLaunch_cores (s : State) (l : Nat) (x : Launch) : (s.setLaunch l x).cores = s.cores := rfl
@[simp] theorem State.setLaunch_clusters (s : State) (l : Nat) (x : Launch) : (s.setLaunch l x).clusters = s.clusters := rfl
@[simp] theorem State.setLaunch_dies (s : State) (l : Nat) (x : Launch) : (s.setLaunch l x).dies = s.dies := rfl
@[simp] theorem State.setLaunch_parts (s : State) (l : Nat) (x : Launch) : (s.setLaunch l x).parts = s.parts := rfl
@[simp] theorem State.setLaunch_hbm (s : State) (l : Nat) (x : Launch) : (s.setLaunch l x).hbm = s.hbm := rfl
@[simp] theorem State.setLaunch_bus (s : State) (l : Nat) (x : Launch) : (s.setLaunch l x).bus = s.bus := rfl
@[simp] theorem State.setLaunch_imgs (s : State) (l : Nat) (x : Launch) : (s.setLaunch l x).imgs = s.imgs := rfl
@[simp] theorem State.setLaunch_dx (s : State) (l : Nat) (x : Launch) : (s.setLaunch l x).dx = s.dx := rfl
@[simp] theorem State.setLaunch_fp (s : State) (l : Nat) (x : Launch) : (s.setLaunch l x).fp = s.fp := rfl
@[simp] theorem State.setLaunch_ptokCap (s : State) (l : Nat) (x : Launch) : (s.setLaunch l x).ptokCap = s.ptokCap := rfl
@[simp] theorem State.setLaunch_mailbox (s : State) (l : Nat) (x : Launch) : (s.setLaunch l x).mailbox = s.mailbox := rfl
@[simp] theorem State.setLaunch_boot (s : State) (l : Nat) (x : Launch) : (s.setLaunch l x).boot = s.boot := rfl

/-! ### State.modLaunch -/

@[simp] theorem State.modLaunch_agenda (s : State) (l : Nat) (f : Launch → Launch) : (s.modLaunch l f).agenda = s.agenda := rfl
@[simp] theorem State.modLaunch_ticks (s : State) (l : Nat) (f : Launch → Launch) : (s.modLaunch l f).ticks = s.ticks := rfl
@[simp] theorem State.modLaunch_free (s : State) (l : Nat) (f : Launch → Launch) : (s.modLaunch l f).free = s.free := rfl
@[simp] theorem State.modLaunch_nextUid (s : State) (l : Nat) (f : Launch → Launch) : (s.modLaunch l f).nextUid = s.nextUid := rfl
@[simp] theorem State.modLaunch_nextTicket (s : State) (l : Nat) (f : Launch → Launch) : (s.modLaunch l f).nextTicket = s.nextTicket := rfl
@[simp] theorem State.modLaunch_ck (s : State) (l : Nat) (f : Launch → Launch) : (s.modLaunch l f).ck = s.ck := rfl
@[simp] theorem State.modLaunch_cur (s : State) (l : Nat) (f : Launch → Launch) : (s.modLaunch l f).cur = s.cur := rfl
@[simp] theorem State.modLaunch_warps (s : State) (l : Nat) (f : Launch → Launch) : (s.modLaunch l f).warps = s.warps := rfl
@[simp] theorem State.modLaunch_blocks (s : State) (l : Nat) (f : Launch → Launch) : (s.modLaunch l f).blocks = s.blocks := rfl
@[simp] theorem State.modLaunch_launches (s : State) (l : Nat) (f : Launch → Launch) : (s.modLaunch l f).launches = KMap.modify s.launches l f := rfl
@[simp] theorem State.modLaunch_images (s : State) (l : Nat) (f : Launch → Launch) : (s.modLaunch l f).images = s.images := rfl
@[simp] theorem State.modLaunch_cores (s : State) (l : Nat) (f : Launch → Launch) : (s.modLaunch l f).cores = s.cores := rfl
@[simp] theorem State.modLaunch_clusters (s : State) (l : Nat) (f : Launch → Launch) : (s.modLaunch l f).clusters = s.clusters := rfl
@[simp] theorem State.modLaunch_dies (s : State) (l : Nat) (f : Launch → Launch) : (s.modLaunch l f).dies = s.dies := rfl
@[simp] theorem State.modLaunch_parts (s : State) (l : Nat) (f : Launch → Launch) : (s.modLaunch l f).parts = s.parts := rfl
@[simp] theorem State.modLaunch_hbm (s : State) (l : Nat) (f : Launch → Launch) : (s.modLaunch l f).hbm = s.hbm := rfl
@[simp] theorem State.modLaunch_bus (s : State) (l : Nat) (f : Launch → Launch) : (s.modLaunch l f).bus = s.bus := rfl
@[simp] theorem State.modLaunch_imgs (s : State) (l : Nat) (f : Launch → Launch) : (s.modLaunch l f).imgs = s.imgs := rfl
@[simp] theorem State.modLaunch_dx (s : State) (l : Nat) (f : Launch → Launch) : (s.modLaunch l f).dx = s.dx := rfl
@[simp] theorem State.modLaunch_fp (s : State) (l : Nat) (f : Launch → Launch) : (s.modLaunch l f).fp = s.fp := rfl
@[simp] theorem State.modLaunch_ptokCap (s : State) (l : Nat) (f : Launch → Launch) : (s.modLaunch l f).ptokCap = s.ptokCap := rfl
@[simp] theorem State.modLaunch_mailbox (s : State) (l : Nat) (f : Launch → Launch) : (s.modLaunch l f).mailbox = s.mailbox := rfl
@[simp] theorem State.modLaunch_boot (s : State) (l : Nat) (f : Launch → Launch) : (s.modLaunch l f).boot = s.boot := rfl

/-! ### State.modCore -/

@[simp] theorem State.modCore_agenda (s : State) (c : Nat) (f : Core → Core) : (s.modCore c f).agenda = s.agenda := rfl
@[simp] theorem State.modCore_ticks (s : State) (c : Nat) (f : Core → Core) : (s.modCore c f).ticks = s.ticks := rfl
@[simp] theorem State.modCore_free (s : State) (c : Nat) (f : Core → Core) : (s.modCore c f).free = s.free := rfl
@[simp] theorem State.modCore_nextUid (s : State) (c : Nat) (f : Core → Core) : (s.modCore c f).nextUid = s.nextUid := rfl
@[simp] theorem State.modCore_nextTicket (s : State) (c : Nat) (f : Core → Core) : (s.modCore c f).nextTicket = s.nextTicket := rfl
@[simp] theorem State.modCore_ck (s : State) (c : Nat) (f : Core → Core) : (s.modCore c f).ck = s.ck := rfl
@[simp] theorem State.modCore_cur (s : State) (c : Nat) (f : Core → Core) : (s.modCore c f).cur = s.cur := rfl
@[simp] theorem State.modCore_warps (s : State) (c : Nat) (f : Core → Core) : (s.modCore c f).warps = s.warps := rfl
@[simp] theorem State.modCore_blocks (s : State) (c : Nat) (f : Core → Core) : (s.modCore c f).blocks = s.blocks := rfl
@[simp] theorem State.modCore_launches (s : State) (c : Nat) (f : Core → Core) : (s.modCore c f).launches = s.launches := rfl
@[simp] theorem State.modCore_images (s : State) (c : Nat) (f : Core → Core) : (s.modCore c f).images = s.images := rfl
@[simp] theorem State.modCore_cores (s : State) (c : Nat) (f : Core → Core) : (s.modCore c f).cores = KMap.set s.cores c (f (s.core c)) := rfl
@[simp] theorem State.modCore_clusters (s : State) (c : Nat) (f : Core → Core) : (s.modCore c f).clusters = s.clusters := rfl
@[simp] theorem State.modCore_dies (s : State) (c : Nat) (f : Core → Core) : (s.modCore c f).dies = s.dies := rfl
@[simp] theorem State.modCore_parts (s : State) (c : Nat) (f : Core → Core) : (s.modCore c f).parts = s.parts := rfl
@[simp] theorem State.modCore_hbm (s : State) (c : Nat) (f : Core → Core) : (s.modCore c f).hbm = s.hbm := rfl
@[simp] theorem State.modCore_bus (s : State) (c : Nat) (f : Core → Core) : (s.modCore c f).bus = s.bus := rfl
@[simp] theorem State.modCore_imgs (s : State) (c : Nat) (f : Core → Core) : (s.modCore c f).imgs = s.imgs := rfl
@[simp] theorem State.modCore_dx (s : State) (c : Nat) (f : Core → Core) : (s.modCore c f).dx = s.dx := rfl
@[simp] theorem State.modCore_fp (s : State) (c : Nat) (f : Core → Core) : (s.modCore c f).fp = s.fp := rfl
@[simp] theorem State.modCore_ptokCap (s : State) (c : Nat) (f : Core → Core) : (s.modCore c f).ptokCap = s.ptokCap := rfl
@[simp] theorem State.modCore_mailbox (s : State) (c : Nat) (f : Core → Core) : (s.modCore c f).mailbox = s.mailbox := rfl
@[simp] theorem State.modCore_boot (s : State) (c : Nat) (f : Core → Core) : (s.modCore c f).boot = s.boot := rfl

/-! ### State.modCluster -/

@[simp] theorem State.modCluster_agenda (s : State) (c : Nat) (f : Cluster → Cluster) : (s.modCluster c f).agenda = s.agenda := rfl
@[simp] theorem State.modCluster_ticks (s : State) (c : Nat) (f : Cluster → Cluster) : (s.modCluster c f).ticks = s.ticks := rfl
@[simp] theorem State.modCluster_free (s : State) (c : Nat) (f : Cluster → Cluster) : (s.modCluster c f).free = s.free := rfl
@[simp] theorem State.modCluster_nextUid (s : State) (c : Nat) (f : Cluster → Cluster) : (s.modCluster c f).nextUid = s.nextUid := rfl
@[simp] theorem State.modCluster_nextTicket (s : State) (c : Nat) (f : Cluster → Cluster) : (s.modCluster c f).nextTicket = s.nextTicket := rfl
@[simp] theorem State.modCluster_ck (s : State) (c : Nat) (f : Cluster → Cluster) : (s.modCluster c f).ck = s.ck := rfl
@[simp] theorem State.modCluster_cur (s : State) (c : Nat) (f : Cluster → Cluster) : (s.modCluster c f).cur = s.cur := rfl
@[simp] theorem State.modCluster_warps (s : State) (c : Nat) (f : Cluster → Cluster) : (s.modCluster c f).warps = s.warps := rfl
@[simp] theorem State.modCluster_blocks (s : State) (c : Nat) (f : Cluster → Cluster) : (s.modCluster c f).blocks = s.blocks := rfl
@[simp] theorem State.modCluster_launches (s : State) (c : Nat) (f : Cluster → Cluster) : (s.modCluster c f).launches = s.launches := rfl
@[simp] theorem State.modCluster_images (s : State) (c : Nat) (f : Cluster → Cluster) : (s.modCluster c f).images = s.images := rfl
@[simp] theorem State.modCluster_cores (s : State) (c : Nat) (f : Cluster → Cluster) : (s.modCluster c f).cores = s.cores := rfl
@[simp] theorem State.modCluster_clusters (s : State) (c : Nat) (f : Cluster → Cluster) : (s.modCluster c f).clusters = KMap.set s.clusters c (f (s.cluster c)) := rfl
@[simp] theorem State.modCluster_dies (s : State) (c : Nat) (f : Cluster → Cluster) : (s.modCluster c f).dies = s.dies := rfl
@[simp] theorem State.modCluster_parts (s : State) (c : Nat) (f : Cluster → Cluster) : (s.modCluster c f).parts = s.parts := rfl
@[simp] theorem State.modCluster_hbm (s : State) (c : Nat) (f : Cluster → Cluster) : (s.modCluster c f).hbm = s.hbm := rfl
@[simp] theorem State.modCluster_bus (s : State) (c : Nat) (f : Cluster → Cluster) : (s.modCluster c f).bus = s.bus := rfl
@[simp] theorem State.modCluster_imgs (s : State) (c : Nat) (f : Cluster → Cluster) : (s.modCluster c f).imgs = s.imgs := rfl
@[simp] theorem State.modCluster_dx (s : State) (c : Nat) (f : Cluster → Cluster) : (s.modCluster c f).dx = s.dx := rfl
@[simp] theorem State.modCluster_fp (s : State) (c : Nat) (f : Cluster → Cluster) : (s.modCluster c f).fp = s.fp := rfl
@[simp] theorem State.modCluster_ptokCap (s : State) (c : Nat) (f : Cluster → Cluster) : (s.modCluster c f).ptokCap = s.ptokCap := rfl
@[simp] theorem State.modCluster_mailbox (s : State) (c : Nat) (f : Cluster → Cluster) : (s.modCluster c f).mailbox = s.mailbox := rfl
@[simp] theorem State.modCluster_boot (s : State) (c : Nat) (f : Cluster → Cluster) : (s.modCluster c f).boot = s.boot := rfl

/-! ### State.modDie -/

@[simp] theorem State.modDie_agenda (s : State) (d : Nat) (f : Die → Die) : (s.modDie d f).agenda = s.agenda := rfl
@[simp] theorem State.modDie_ticks (s : State) (d : Nat) (f : Die → Die) : (s.modDie d f).ticks = s.ticks := rfl
@[simp] theorem State.modDie_free (s : State) (d : Nat) (f : Die → Die) : (s.modDie d f).free = s.free := rfl
@[simp] theorem State.modDie_nextUid (s : State) (d : Nat) (f : Die → Die) : (s.modDie d f).nextUid = s.nextUid := rfl
@[simp] theorem State.modDie_nextTicket (s : State) (d : Nat) (f : Die → Die) : (s.modDie d f).nextTicket = s.nextTicket := rfl
@[simp] theorem State.modDie_ck (s : State) (d : Nat) (f : Die → Die) : (s.modDie d f).ck = s.ck := rfl
@[simp] theorem State.modDie_cur (s : State) (d : Nat) (f : Die → Die) : (s.modDie d f).cur = s.cur := rfl
@[simp] theorem State.modDie_warps (s : State) (d : Nat) (f : Die → Die) : (s.modDie d f).warps = s.warps := rfl
@[simp] theorem State.modDie_blocks (s : State) (d : Nat) (f : Die → Die) : (s.modDie d f).blocks = s.blocks := rfl
@[simp] theorem State.modDie_launches (s : State) (d : Nat) (f : Die → Die) : (s.modDie d f).launches = s.launches := rfl
@[simp] theorem State.modDie_images (s : State) (d : Nat) (f : Die → Die) : (s.modDie d f).images = s.images := rfl
@[simp] theorem State.modDie_cores (s : State) (d : Nat) (f : Die → Die) : (s.modDie d f).cores = s.cores := rfl
@[simp] theorem State.modDie_clusters (s : State) (d : Nat) (f : Die → Die) : (s.modDie d f).clusters = s.clusters := rfl
@[simp] theorem State.modDie_dies (s : State) (d : Nat) (f : Die → Die) : (s.modDie d f).dies = KMap.set s.dies d (f (s.die d)) := rfl
@[simp] theorem State.modDie_parts (s : State) (d : Nat) (f : Die → Die) : (s.modDie d f).parts = s.parts := rfl
@[simp] theorem State.modDie_hbm (s : State) (d : Nat) (f : Die → Die) : (s.modDie d f).hbm = s.hbm := rfl
@[simp] theorem State.modDie_bus (s : State) (d : Nat) (f : Die → Die) : (s.modDie d f).bus = s.bus := rfl
@[simp] theorem State.modDie_imgs (s : State) (d : Nat) (f : Die → Die) : (s.modDie d f).imgs = s.imgs := rfl
@[simp] theorem State.modDie_dx (s : State) (d : Nat) (f : Die → Die) : (s.modDie d f).dx = s.dx := rfl
@[simp] theorem State.modDie_fp (s : State) (d : Nat) (f : Die → Die) : (s.modDie d f).fp = s.fp := rfl
@[simp] theorem State.modDie_ptokCap (s : State) (d : Nat) (f : Die → Die) : (s.modDie d f).ptokCap = s.ptokCap := rfl
@[simp] theorem State.modDie_mailbox (s : State) (d : Nat) (f : Die → Die) : (s.modDie d f).mailbox = s.mailbox := rfl
@[simp] theorem State.modDie_boot (s : State) (d : Nat) (f : Die → Die) : (s.modDie d f).boot = s.boot := rfl

/-! ### State.modPart -/

@[simp] theorem State.modPart_agenda (s : State) (p : Nat) (f : Part → Part) : (s.modPart p f).agenda = s.agenda := rfl
@[simp] theorem State.modPart_ticks (s : State) (p : Nat) (f : Part → Part) : (s.modPart p f).ticks = s.ticks := rfl
@[simp] theorem State.modPart_free (s : State) (p : Nat) (f : Part → Part) : (s.modPart p f).free = s.free := rfl
@[simp] theorem State.modPart_nextUid (s : State) (p : Nat) (f : Part → Part) : (s.modPart p f).nextUid = s.nextUid := rfl
@[simp] theorem State.modPart_nextTicket (s : State) (p : Nat) (f : Part → Part) : (s.modPart p f).nextTicket = s.nextTicket := rfl
@[simp] theorem State.modPart_ck (s : State) (p : Nat) (f : Part → Part) : (s.modPart p f).ck = s.ck := rfl
@[simp] theorem State.modPart_cur (s : State) (p : Nat) (f : Part → Part) : (s.modPart p f).cur = s.cur := rfl
@[simp] theorem State.modPart_warps (s : State) (p : Nat) (f : Part → Part) : (s.modPart p f).warps = s.warps := rfl
@[simp] theorem State.modPart_blocks (s : State) (p : Nat) (f : Part → Part) : (s.modPart p f).blocks = s.blocks := rfl
@[simp] theorem State.modPart_launches (s : State) (p : Nat) (f : Part → Part) : (s.modPart p f).launches = s.launches := rfl
@[simp] theorem State.modPart_images (s : State) (p : Nat) (f : Part → Part) : (s.modPart p f).images = s.images := rfl
@[simp] theorem State.modPart_cores (s : State) (p : Nat) (f : Part → Part) : (s.modPart p f).cores = s.cores := rfl
@[simp] theorem State.modPart_clusters (s : State) (p : Nat) (f : Part → Part) : (s.modPart p f).clusters = s.clusters := rfl
@[simp] theorem State.modPart_dies (s : State) (p : Nat) (f : Part → Part) : (s.modPart p f).dies = s.dies := rfl
@[simp] theorem State.modPart_parts (s : State) (p : Nat) (f : Part → Part) : (s.modPart p f).parts = KMap.modify s.parts p f := rfl
@[simp] theorem State.modPart_hbm (s : State) (p : Nat) (f : Part → Part) : (s.modPart p f).hbm = s.hbm := rfl
@[simp] theorem State.modPart_bus (s : State) (p : Nat) (f : Part → Part) : (s.modPart p f).bus = s.bus := rfl
@[simp] theorem State.modPart_imgs (s : State) (p : Nat) (f : Part → Part) : (s.modPart p f).imgs = s.imgs := rfl
@[simp] theorem State.modPart_dx (s : State) (p : Nat) (f : Part → Part) : (s.modPart p f).dx = s.dx := rfl
@[simp] theorem State.modPart_fp (s : State) (p : Nat) (f : Part → Part) : (s.modPart p f).fp = s.fp := rfl
@[simp] theorem State.modPart_ptokCap (s : State) (p : Nat) (f : Part → Part) : (s.modPart p f).ptokCap = s.ptokCap := rfl
@[simp] theorem State.modPart_mailbox (s : State) (p : Nat) (f : Part → Part) : (s.modPart p f).mailbox = s.mailbox := rfl
@[simp] theorem State.modPart_boot (s : State) (p : Nat) (f : Part → Part) : (s.modPart p f).boot = s.boot := rfl

/-! ### State.modRegs -/

@[simp] theorem State.modRegs_agenda (s : State) (p : Nat) (f : PartRegs → PartRegs) : (s.modRegs p f).agenda = s.agenda := rfl
@[simp] theorem State.modRegs_ticks (s : State) (p : Nat) (f : PartRegs → PartRegs) : (s.modRegs p f).ticks = s.ticks := rfl
@[simp] theorem State.modRegs_free (s : State) (p : Nat) (f : PartRegs → PartRegs) : (s.modRegs p f).free = s.free := rfl
@[simp] theorem State.modRegs_nextUid (s : State) (p : Nat) (f : PartRegs → PartRegs) : (s.modRegs p f).nextUid = s.nextUid := rfl
@[simp] theorem State.modRegs_nextTicket (s : State) (p : Nat) (f : PartRegs → PartRegs) : (s.modRegs p f).nextTicket = s.nextTicket := rfl
@[simp] theorem State.modRegs_ck (s : State) (p : Nat) (f : PartRegs → PartRegs) : (s.modRegs p f).ck = s.ck := rfl
@[simp] theorem State.modRegs_cur (s : State) (p : Nat) (f : PartRegs → PartRegs) : (s.modRegs p f).cur = s.cur := rfl
@[simp] theorem State.modRegs_warps (s : State) (p : Nat) (f : PartRegs → PartRegs) : (s.modRegs p f).warps = s.warps := rfl
@[simp] theorem State.modRegs_blocks (s : State) (p : Nat) (f : PartRegs → PartRegs) : (s.modRegs p f).blocks = s.blocks := rfl
@[simp] theorem State.modRegs_launches (s : State) (p : Nat) (f : PartRegs → PartRegs) : (s.modRegs p f).launches = s.launches := rfl
@[simp] theorem State.modRegs_images (s : State) (p : Nat) (f : PartRegs → PartRegs) : (s.modRegs p f).images = s.images := rfl
@[simp] theorem State.modRegs_cores (s : State) (p : Nat) (f : PartRegs → PartRegs) : (s.modRegs p f).cores = s.cores := rfl
@[simp] theorem State.modRegs_clusters (s : State) (p : Nat) (f : PartRegs → PartRegs) : (s.modRegs p f).clusters = s.clusters := rfl
@[simp] theorem State.modRegs_dies (s : State) (p : Nat) (f : PartRegs → PartRegs) : (s.modRegs p f).dies = s.dies := rfl
@[simp] theorem State.modRegs_parts (s : State) (p : Nat) (f : PartRegs → PartRegs) : (s.modRegs p f).parts = KMap.modify s.parts p fun x => { x with regs := f x.regs } := rfl
@[simp] theorem State.modRegs_hbm (s : State) (p : Nat) (f : PartRegs → PartRegs) : (s.modRegs p f).hbm = s.hbm := rfl
@[simp] theorem State.modRegs_bus (s : State) (p : Nat) (f : PartRegs → PartRegs) : (s.modRegs p f).bus = s.bus := rfl
@[simp] theorem State.modRegs_imgs (s : State) (p : Nat) (f : PartRegs → PartRegs) : (s.modRegs p f).imgs = s.imgs := rfl
@[simp] theorem State.modRegs_dx (s : State) (p : Nat) (f : PartRegs → PartRegs) : (s.modRegs p f).dx = s.dx := rfl
@[simp] theorem State.modRegs_fp (s : State) (p : Nat) (f : PartRegs → PartRegs) : (s.modRegs p f).fp = s.fp := rfl
@[simp] theorem State.modRegs_ptokCap (s : State) (p : Nat) (f : PartRegs → PartRegs) : (s.modRegs p f).ptokCap = s.ptokCap := rfl
@[simp] theorem State.modRegs_mailbox (s : State) (p : Nat) (f : PartRegs → PartRegs) : (s.modRegs p f).mailbox = s.mailbox := rfl
@[simp] theorem State.modRegs_boot (s : State) (p : Nat) (f : PartRegs → PartRegs) : (s.modRegs p f).boot = s.boot := rfl

/-! ### State.useFree -/

@[simp] theorem State.useFree_agenda (s : State) : (s.useFree).agenda = s.agenda := rfl
@[simp] theorem State.useFree_ticks (s : State) : (s.useFree).ticks = s.ticks := rfl
@[simp] theorem State.useFree_free (s : State) : (s.useFree).free = s.free + 1 := rfl
@[simp] theorem State.useFree_nextUid (s : State) : (s.useFree).nextUid = s.nextUid := rfl
@[simp] theorem State.useFree_nextTicket (s : State) : (s.useFree).nextTicket = s.nextTicket := rfl
@[simp] theorem State.useFree_ck (s : State) : (s.useFree).ck = s.ck := rfl
@[simp] theorem State.useFree_cur (s : State) : (s.useFree).cur = s.cur := rfl
@[simp] theorem State.useFree_warps (s : State) : (s.useFree).warps = s.warps := rfl
@[simp] theorem State.useFree_blocks (s : State) : (s.useFree).blocks = s.blocks := rfl
@[simp] theorem State.useFree_launches (s : State) : (s.useFree).launches = s.launches := rfl
@[simp] theorem State.useFree_images (s : State) : (s.useFree).images = s.images := rfl
@[simp] theorem State.useFree_cores (s : State) : (s.useFree).cores = s.cores := rfl
@[simp] theorem State.useFree_clusters (s : State) : (s.useFree).clusters = s.clusters := rfl
@[simp] theorem State.useFree_dies (s : State) : (s.useFree).dies = s.dies := rfl
@[simp] theorem State.useFree_parts (s : State) : (s.useFree).parts = s.parts := rfl
@[simp] theorem State.useFree_hbm (s : State) : (s.useFree).hbm = s.hbm := rfl
@[simp] theorem State.useFree_bus (s : State) : (s.useFree).bus = s.bus := rfl
@[simp] theorem State.useFree_imgs (s : State) : (s.useFree).imgs = s.imgs := rfl
@[simp] theorem State.useFree_dx (s : State) : (s.useFree).dx = s.dx := rfl
@[simp] theorem State.useFree_fp (s : State) : (s.useFree).fp = s.fp := rfl
@[simp] theorem State.useFree_ptokCap (s : State) : (s.useFree).ptokCap = s.ptokCap := rfl
@[simp] theorem State.useFree_mailbox (s : State) : (s.useFree).mailbox = s.mailbox := rfl
@[simp] theorem State.useFree_boot (s : State) : (s.useFree).boot = s.boot := rfl

/-! ### State.newUid -/

@[simp] theorem State.newUid_agenda (s : State) : (s.newUid).agenda = s.agenda := rfl
@[simp] theorem State.newUid_ticks (s : State) : (s.newUid).ticks = s.ticks := rfl
@[simp] theorem State.newUid_free (s : State) : (s.newUid).free = s.free := rfl
@[simp] theorem State.newUid_nextUid (s : State) : (s.newUid).nextUid = s.nextUid + 1 := rfl
@[simp] theorem State.newUid_nextTicket (s : State) : (s.newUid).nextTicket = s.nextTicket := rfl
@[simp] theorem State.newUid_ck (s : State) : (s.newUid).ck = s.ck := rfl
@[simp] theorem State.newUid_cur (s : State) : (s.newUid).cur = s.cur := rfl
@[simp] theorem State.newUid_warps (s : State) : (s.newUid).warps = s.warps := rfl
@[simp] theorem State.newUid_blocks (s : State) : (s.newUid).blocks = s.blocks := rfl
@[simp] theorem State.newUid_launches (s : State) : (s.newUid).launches = s.launches := rfl
@[simp] theorem State.newUid_images (s : State) : (s.newUid).images = s.images := rfl
@[simp] theorem State.newUid_cores (s : State) : (s.newUid).cores = s.cores := rfl
@[simp] theorem State.newUid_clusters (s : State) : (s.newUid).clusters = s.clusters := rfl
@[simp] theorem State.newUid_dies (s : State) : (s.newUid).dies = s.dies := rfl
@[simp] theorem State.newUid_parts (s : State) : (s.newUid).parts = s.parts := rfl
@[simp] theorem State.newUid_hbm (s : State) : (s.newUid).hbm = s.hbm := rfl
@[simp] theorem State.newUid_bus (s : State) : (s.newUid).bus = s.bus := rfl
@[simp] theorem State.newUid_imgs (s : State) : (s.newUid).imgs = s.imgs := rfl
@[simp] theorem State.newUid_dx (s : State) : (s.newUid).dx = s.dx := rfl
@[simp] theorem State.newUid_fp (s : State) : (s.newUid).fp = s.fp := rfl
@[simp] theorem State.newUid_ptokCap (s : State) : (s.newUid).ptokCap = s.ptokCap := rfl
@[simp] theorem State.newUid_mailbox (s : State) : (s.newUid).mailbox = s.mailbox := rfl
@[simp] theorem State.newUid_boot (s : State) : (s.newUid).boot = s.boot := rfl

/-! ### State.physWrite -/

@[simp] theorem State.physWrite_agenda (s : State) (pa : Nat) (bs : List Byte) : (s.physWrite pa bs).agenda = s.agenda := rfl
@[simp] theorem State.physWrite_ticks (s : State) (pa : Nat) (bs : List Byte) : (s.physWrite pa bs).ticks = s.ticks := rfl
@[simp] theorem State.physWrite_free (s : State) (pa : Nat) (bs : List Byte) : (s.physWrite pa bs).free = s.free := rfl
@[simp] theorem State.physWrite_nextUid (s : State) (pa : Nat) (bs : List Byte) : (s.physWrite pa bs).nextUid = s.nextUid := rfl
@[simp] theorem State.physWrite_nextTicket (s : State) (pa : Nat) (bs : List Byte) : (s.physWrite pa bs).nextTicket = s.nextTicket := rfl
@[simp] theorem State.physWrite_ck (s : State) (pa : Nat) (bs : List Byte) : (s.physWrite pa bs).ck = s.ck := rfl
@[simp] theorem State.physWrite_cur (s : State) (pa : Nat) (bs : List Byte) : (s.physWrite pa bs).cur = s.cur := rfl
@[simp] theorem State.physWrite_warps (s : State) (pa : Nat) (bs : List Byte) : (s.physWrite pa bs).warps = s.warps := rfl
@[simp] theorem State.physWrite_blocks (s : State) (pa : Nat) (bs : List Byte) : (s.physWrite pa bs).blocks = s.blocks := rfl
@[simp] theorem State.physWrite_launches (s : State) (pa : Nat) (bs : List Byte) : (s.physWrite pa bs).launches = s.launches := rfl
@[simp] theorem State.physWrite_images (s : State) (pa : Nat) (bs : List Byte) : (s.physWrite pa bs).images = s.images := rfl
@[simp] theorem State.physWrite_cores (s : State) (pa : Nat) (bs : List Byte) : (s.physWrite pa bs).cores = s.cores := rfl
@[simp] theorem State.physWrite_clusters (s : State) (pa : Nat) (bs : List Byte) : (s.physWrite pa bs).clusters = s.clusters := rfl
@[simp] theorem State.physWrite_dies (s : State) (pa : Nat) (bs : List Byte) : (s.physWrite pa bs).dies = s.dies := rfl
@[simp] theorem State.physWrite_parts (s : State) (pa : Nat) (bs : List Byte) : (s.physWrite pa bs).parts = s.parts := rfl
@[simp] theorem State.physWrite_hbm (s : State) (pa : Nat) (bs : List Byte) : (s.physWrite pa bs).hbm = Memory.writeN s.hbm pa bs := rfl
@[simp] theorem State.physWrite_bus (s : State) (pa : Nat) (bs : List Byte) : (s.physWrite pa bs).bus = s.bus := rfl
@[simp] theorem State.physWrite_imgs (s : State) (pa : Nat) (bs : List Byte) : (s.physWrite pa bs).imgs = s.imgs := rfl
@[simp] theorem State.physWrite_dx (s : State) (pa : Nat) (bs : List Byte) : (s.physWrite pa bs).dx = s.dx := rfl
@[simp] theorem State.physWrite_fp (s : State) (pa : Nat) (bs : List Byte) : (s.physWrite pa bs).fp = s.fp := rfl
@[simp] theorem State.physWrite_ptokCap (s : State) (pa : Nat) (bs : List Byte) : (s.physWrite pa bs).ptokCap = s.ptokCap := rfl
@[simp] theorem State.physWrite_mailbox (s : State) (pa : Nat) (bs : List Byte) : (s.physWrite pa bs).mailbox = s.mailbox := rfl
@[simp] theorem State.physWrite_boot (s : State) (pa : Nat) (bs : List Byte) : (s.physWrite pa bs).boot = s.boot := rfl

/-! ### State.pass -/

@[simp] theorem State.pass_agenda (s : State) (dt : Nat) : (s.pass dt).agenda = s.agenda := rfl
@[simp] theorem State.pass_ticks (s : State) (dt : Nat) : (s.pass dt).ticks = s.ticks := rfl
@[simp] theorem State.pass_free (s : State) (dt : Nat) : (s.pass dt).free = s.free := rfl
@[simp] theorem State.pass_nextUid (s : State) (dt : Nat) : (s.pass dt).nextUid = s.nextUid := rfl
@[simp] theorem State.pass_nextTicket (s : State) (dt : Nat) : (s.pass dt).nextTicket = s.nextTicket := rfl
@[simp] theorem State.pass_ck (s : State) (dt : Nat) : (s.pass dt).ck = s.ck + dt := rfl
@[simp] theorem State.pass_cur (s : State) (dt : Nat) : (s.pass dt).cur = .idle := rfl
@[simp] theorem State.pass_warps (s : State) (dt : Nat) : (s.pass dt).warps = s.warps := rfl
@[simp] theorem State.pass_blocks (s : State) (dt : Nat) : (s.pass dt).blocks = s.blocks := rfl
@[simp] theorem State.pass_launches (s : State) (dt : Nat) : (s.pass dt).launches = s.launches := rfl
@[simp] theorem State.pass_images (s : State) (dt : Nat) : (s.pass dt).images = s.images := rfl
@[simp] theorem State.pass_cores (s : State) (dt : Nat) : (s.pass dt).cores = s.cores := rfl
@[simp] theorem State.pass_clusters (s : State) (dt : Nat) : (s.pass dt).clusters = s.clusters := rfl
@[simp] theorem State.pass_dies (s : State) (dt : Nat) : (s.pass dt).dies = s.dies := rfl
@[simp] theorem State.pass_parts (s : State) (dt : Nat) : (s.pass dt).parts = s.parts := rfl
@[simp] theorem State.pass_hbm (s : State) (dt : Nat) : (s.pass dt).hbm = s.hbm := rfl
@[simp] theorem State.pass_bus (s : State) (dt : Nat) : (s.pass dt).bus = s.bus := rfl
@[simp] theorem State.pass_imgs (s : State) (dt : Nat) : (s.pass dt).imgs = s.imgs := rfl
@[simp] theorem State.pass_dx (s : State) (dt : Nat) : (s.pass dt).dx = s.dx := rfl
@[simp] theorem State.pass_fp (s : State) (dt : Nat) : (s.pass dt).fp = s.fp := rfl
@[simp] theorem State.pass_ptokCap (s : State) (dt : Nat) : (s.pass dt).ptokCap = s.ptokCap := rfl
@[simp] theorem State.pass_mailbox (s : State) (dt : Nat) : (s.pass dt).mailbox = s.mailbox := rfl
@[simp] theorem State.pass_boot (s : State) (dt : Nat) : (s.pass dt).boot = s.boot := rfl

/-! ### Warp.setV -/

@[simp] theorem Warp.setV_uid (w : Warp) (r l : Nat) (x : Word) : (w.setV r l x).uid = w.uid := rfl
@[simp] theorem Warp.setV_st (w : Warp) (r l : Nat) (x : Word) : (w.setV r l x).st = w.st := rfl
@[simp] theorem Warp.setV_launch (w : Warp) (r l : Nat) (x : Word) : (w.setV r l x).launch = w.launch := rfl
@[simp] theorem Warp.setV_blk (w : Warp) (r l : Nat) (x : Word) : (w.setV r l x).blk = w.blk := rfl
@[simp] theorem Warp.setV_warpid (w : Warp) (r l : Nat) (x : Word) : (w.setV r l x).warpid = w.warpid := rfl
@[simp] theorem Warp.setV_child (w : Warp) (r l : Nat) (x : Word) : (w.setV r l x).child = w.child := rfl
@[simp] theorem Warp.setV_depth (w : Warp) (r l : Nat) (x : Word) : (w.setV r l x).depth = w.depth := rfl
@[simp] theorem Warp.setV_nregs (w : Warp) (r l : Nat) (x : Word) : (w.setV r l x).nregs = w.nregs := rfl
@[simp] theorem Warp.setV_threads (w : Warp) (r l : Nat) (x : Word) : (w.setV r l x).threads = w.threads := rfl
@[simp] theorem Warp.setV_vreg (w : Warp) (r l : Nat) (x : Word) : (w.setV r l x).vreg = KMap.set w.vreg (32 * r + l) x := rfl
@[simp] theorem Warp.setV_sreg (w : Warp) (r l : Nat) (x : Word) : (w.setV r l x).sreg = w.sreg := rfl
@[simp] theorem Warp.setV_preg (w : Warp) (r l : Nat) (x : Word) : (w.setV r l x).preg = w.preg := rfl
@[simp] theorem Warp.setV_hreg (w : Warp) (r l : Nat) (x : Word) : (w.setV r l x).hreg = w.hreg := rfl
@[simp] theorem Warp.setV_fcsr (w : Warp) (r l : Nat) (x : Word) : (w.setV r l x).fcsr = w.fcsr := rfl
@[simp] theorem Warp.setV_sdraw (w : Warp) (r l : Nat) (x : Word) : (w.setV r l x).sdraw = w.sdraw := rfl
@[simp] theorem Warp.setV_srep (w : Warp) (r l : Nat) (x : Word) : (w.setV r l x).srep = w.srep := rfl
@[simp] theorem Warp.setV_srepSave (w : Warp) (r l : Nat) (x : Word) : (w.setV r l x).srepSave = w.srepSave := rfl
@[simp] theorem Warp.setV_sq (w : Warp) (r l : Nat) (x : Word) : (w.setV r l x).sq = w.sq := rfl
@[simp] theorem Warp.setV_wroteG (w : Warp) (r l : Nat) (x : Word) : (w.setV r l x).wroteG = w.wroteG := rfl
@[simp] theorem Warp.setV_wroteH (w : Warp) (r l : Nat) (x : Word) : (w.setV r l x).wroteH = w.wroteH := rfl
@[simp] theorem Warp.setV_pend (w : Warp) (r l : Nat) (x : Word) : (w.setV r l x).pend = w.pend := rfl
@[simp] theorem Warp.setV_fault (w : Warp) (r l : Nat) (x : Word) : (w.setV r l x).fault = w.fault := rfl
@[simp] theorem Warp.setV_lastBuf (w : Warp) (r l : Nat) (x : Word) : (w.setV r l x).lastBuf = w.lastBuf := rfl
@[simp] theorem Warp.setV_yielded (w : Warp) (r l : Nat) (x : Word) : (w.setV r l x).yielded = w.yielded := rfl
@[simp] theorem Warp.setV_q1 (w : Warp) (r l : Nat) (x : Word) : (w.setV r l x).q1 = w.q1 := rfl
@[simp] theorem Warp.setV_q3 (w : Warp) (r l : Nat) (x : Word) : (w.setV r l x).q3 = w.q3 := rfl
@[simp] theorem Warp.setV_q5 (w : Warp) (r l : Nat) (x : Word) : (w.setV r l x).q5 = w.q5 := rfl
@[simp] theorem Warp.setV_code (w : Warp) (r l : Nat) (x : Word) : (w.setV r l x).code = w.code := rfl
@[simp] theorem Warp.setV_tcode (w : Warp) (r l : Nat) (x : Word) : (w.setV r l x).tcode = w.tcode := rfl
@[simp] theorem Warp.setV_tregs (w : Warp) (r l : Nat) (x : Word) : (w.setV r l x).tregs = w.tregs := rfl
@[simp] theorem Warp.setV_barSeen (w : Warp) (r l : Nat) (x : Word) : (w.setV r l x).barSeen = w.barSeen := rfl
@[simp] theorem Warp.setV_f64 (w : Warp) (r l : Nat) (x : Word) : (w.setV r l x).f64 = w.f64 := rfl
@[simp] theorem Warp.setV_lwake (w : Warp) (r l : Nat) (x : Word) : (w.setV r l x).lwake = w.lwake := rfl
@[simp] theorem Warp.setV_mxreset (w : Warp) (r l : Nat) (x : Word) : (w.setV r l x).mxreset = w.mxreset := rfl
@[simp] theorem Warp.setV_landing (w : Warp) (r l : Nat) (x : Word) : (w.setV r l x).landing = w.landing := rfl
@[simp] theorem Warp.setV_shipped (w : Warp) (r l : Nat) (x : Word) : (w.setV r l x).shipped = w.shipped := rfl
@[simp] theorem Warp.setV_away (w : Warp) (r l : Nat) (x : Word) : (w.setV r l x).away = w.away := rfl
@[simp] theorem Warp.setV_acqScope (w : Warp) (r l : Nat) (x : Word) : (w.setV r l x).acqScope = w.acqScope := rfl

/-! ### Warp.setS -/

@[simp] theorem Warp.setS_uid (w : Warp) (r : Nat) (x : Word) : (w.setS r x).uid = w.uid := rfl
@[simp] theorem Warp.setS_st (w : Warp) (r : Nat) (x : Word) : (w.setS r x).st = w.st := rfl
@[simp] theorem Warp.setS_launch (w : Warp) (r : Nat) (x : Word) : (w.setS r x).launch = w.launch := rfl
@[simp] theorem Warp.setS_blk (w : Warp) (r : Nat) (x : Word) : (w.setS r x).blk = w.blk := rfl
@[simp] theorem Warp.setS_warpid (w : Warp) (r : Nat) (x : Word) : (w.setS r x).warpid = w.warpid := rfl
@[simp] theorem Warp.setS_child (w : Warp) (r : Nat) (x : Word) : (w.setS r x).child = w.child := rfl
@[simp] theorem Warp.setS_depth (w : Warp) (r : Nat) (x : Word) : (w.setS r x).depth = w.depth := rfl
@[simp] theorem Warp.setS_nregs (w : Warp) (r : Nat) (x : Word) : (w.setS r x).nregs = w.nregs := rfl
@[simp] theorem Warp.setS_threads (w : Warp) (r : Nat) (x : Word) : (w.setS r x).threads = w.threads := rfl
@[simp] theorem Warp.setS_vreg (w : Warp) (r : Nat) (x : Word) : (w.setS r x).vreg = w.vreg := rfl
@[simp] theorem Warp.setS_sreg (w : Warp) (r : Nat) (x : Word) : (w.setS r x).sreg = KMap.set w.sreg r x := rfl
@[simp] theorem Warp.setS_preg (w : Warp) (r : Nat) (x : Word) : (w.setS r x).preg = w.preg := rfl
@[simp] theorem Warp.setS_hreg (w : Warp) (r : Nat) (x : Word) : (w.setS r x).hreg = w.hreg := rfl
@[simp] theorem Warp.setS_fcsr (w : Warp) (r : Nat) (x : Word) : (w.setS r x).fcsr = w.fcsr := rfl
@[simp] theorem Warp.setS_sdraw (w : Warp) (r : Nat) (x : Word) : (w.setS r x).sdraw = w.sdraw := rfl
@[simp] theorem Warp.setS_srep (w : Warp) (r : Nat) (x : Word) : (w.setS r x).srep = w.srep := rfl
@[simp] theorem Warp.setS_srepSave (w : Warp) (r : Nat) (x : Word) : (w.setS r x).srepSave = w.srepSave := rfl
@[simp] theorem Warp.setS_sq (w : Warp) (r : Nat) (x : Word) : (w.setS r x).sq = w.sq := rfl
@[simp] theorem Warp.setS_wroteG (w : Warp) (r : Nat) (x : Word) : (w.setS r x).wroteG = w.wroteG := rfl
@[simp] theorem Warp.setS_wroteH (w : Warp) (r : Nat) (x : Word) : (w.setS r x).wroteH = w.wroteH := rfl
@[simp] theorem Warp.setS_pend (w : Warp) (r : Nat) (x : Word) : (w.setS r x).pend = w.pend := rfl
@[simp] theorem Warp.setS_fault (w : Warp) (r : Nat) (x : Word) : (w.setS r x).fault = w.fault := rfl
@[simp] theorem Warp.setS_lastBuf (w : Warp) (r : Nat) (x : Word) : (w.setS r x).lastBuf = w.lastBuf := rfl
@[simp] theorem Warp.setS_yielded (w : Warp) (r : Nat) (x : Word) : (w.setS r x).yielded = w.yielded := rfl
@[simp] theorem Warp.setS_q1 (w : Warp) (r : Nat) (x : Word) : (w.setS r x).q1 = w.q1 := rfl
@[simp] theorem Warp.setS_q3 (w : Warp) (r : Nat) (x : Word) : (w.setS r x).q3 = w.q3 := rfl
@[simp] theorem Warp.setS_q5 (w : Warp) (r : Nat) (x : Word) : (w.setS r x).q5 = w.q5 := rfl
@[simp] theorem Warp.setS_code (w : Warp) (r : Nat) (x : Word) : (w.setS r x).code = w.code := rfl
@[simp] theorem Warp.setS_tcode (w : Warp) (r : Nat) (x : Word) : (w.setS r x).tcode = w.tcode := rfl
@[simp] theorem Warp.setS_tregs (w : Warp) (r : Nat) (x : Word) : (w.setS r x).tregs = w.tregs := rfl
@[simp] theorem Warp.setS_barSeen (w : Warp) (r : Nat) (x : Word) : (w.setS r x).barSeen = w.barSeen := rfl
@[simp] theorem Warp.setS_f64 (w : Warp) (r : Nat) (x : Word) : (w.setS r x).f64 = w.f64 := rfl
@[simp] theorem Warp.setS_lwake (w : Warp) (r : Nat) (x : Word) : (w.setS r x).lwake = w.lwake := rfl
@[simp] theorem Warp.setS_mxreset (w : Warp) (r : Nat) (x : Word) : (w.setS r x).mxreset = w.mxreset := rfl
@[simp] theorem Warp.setS_landing (w : Warp) (r : Nat) (x : Word) : (w.setS r x).landing = w.landing := rfl
@[simp] theorem Warp.setS_shipped (w : Warp) (r : Nat) (x : Word) : (w.setS r x).shipped = w.shipped := rfl
@[simp] theorem Warp.setS_away (w : Warp) (r : Nat) (x : Word) : (w.setS r x).away = w.away := rfl
@[simp] theorem Warp.setS_acqScope (w : Warp) (r : Nat) (x : Word) : (w.setS r x).acqScope = w.acqScope := rfl

/-! ### Warp.setH -/

@[simp] theorem Warp.setH_uid (w : Warp) (r : Nat) (x : BitVec 256) : (w.setH r x).uid = w.uid := rfl
@[simp] theorem Warp.setH_st (w : Warp) (r : Nat) (x : BitVec 256) : (w.setH r x).st = w.st := rfl
@[simp] theorem Warp.setH_launch (w : Warp) (r : Nat) (x : BitVec 256) : (w.setH r x).launch = w.launch := rfl
@[simp] theorem Warp.setH_blk (w : Warp) (r : Nat) (x : BitVec 256) : (w.setH r x).blk = w.blk := rfl
@[simp] theorem Warp.setH_warpid (w : Warp) (r : Nat) (x : BitVec 256) : (w.setH r x).warpid = w.warpid := rfl
@[simp] theorem Warp.setH_child (w : Warp) (r : Nat) (x : BitVec 256) : (w.setH r x).child = w.child := rfl
@[simp] theorem Warp.setH_depth (w : Warp) (r : Nat) (x : BitVec 256) : (w.setH r x).depth = w.depth := rfl
@[simp] theorem Warp.setH_nregs (w : Warp) (r : Nat) (x : BitVec 256) : (w.setH r x).nregs = w.nregs := rfl
@[simp] theorem Warp.setH_threads (w : Warp) (r : Nat) (x : BitVec 256) : (w.setH r x).threads = w.threads := rfl
@[simp] theorem Warp.setH_vreg (w : Warp) (r : Nat) (x : BitVec 256) : (w.setH r x).vreg = w.vreg := rfl
@[simp] theorem Warp.setH_sreg (w : Warp) (r : Nat) (x : BitVec 256) : (w.setH r x).sreg = w.sreg := rfl
@[simp] theorem Warp.setH_preg (w : Warp) (r : Nat) (x : BitVec 256) : (w.setH r x).preg = w.preg := rfl
@[simp] theorem Warp.setH_hreg (w : Warp) (r : Nat) (x : BitVec 256) : (w.setH r x).hreg = KMap.set w.hreg r x := rfl
@[simp] theorem Warp.setH_fcsr (w : Warp) (r : Nat) (x : BitVec 256) : (w.setH r x).fcsr = w.fcsr := rfl
@[simp] theorem Warp.setH_sdraw (w : Warp) (r : Nat) (x : BitVec 256) : (w.setH r x).sdraw = w.sdraw := rfl
@[simp] theorem Warp.setH_srep (w : Warp) (r : Nat) (x : BitVec 256) : (w.setH r x).srep = w.srep := rfl
@[simp] theorem Warp.setH_srepSave (w : Warp) (r : Nat) (x : BitVec 256) : (w.setH r x).srepSave = w.srepSave := rfl
@[simp] theorem Warp.setH_sq (w : Warp) (r : Nat) (x : BitVec 256) : (w.setH r x).sq = w.sq := rfl
@[simp] theorem Warp.setH_wroteG (w : Warp) (r : Nat) (x : BitVec 256) : (w.setH r x).wroteG = w.wroteG := rfl
@[simp] theorem Warp.setH_wroteH (w : Warp) (r : Nat) (x : BitVec 256) : (w.setH r x).wroteH = w.wroteH := rfl
@[simp] theorem Warp.setH_pend (w : Warp) (r : Nat) (x : BitVec 256) : (w.setH r x).pend = w.pend := rfl
@[simp] theorem Warp.setH_fault (w : Warp) (r : Nat) (x : BitVec 256) : (w.setH r x).fault = w.fault := rfl
@[simp] theorem Warp.setH_lastBuf (w : Warp) (r : Nat) (x : BitVec 256) : (w.setH r x).lastBuf = w.lastBuf := rfl
@[simp] theorem Warp.setH_yielded (w : Warp) (r : Nat) (x : BitVec 256) : (w.setH r x).yielded = w.yielded := rfl
@[simp] theorem Warp.setH_q1 (w : Warp) (r : Nat) (x : BitVec 256) : (w.setH r x).q1 = w.q1 := rfl
@[simp] theorem Warp.setH_q3 (w : Warp) (r : Nat) (x : BitVec 256) : (w.setH r x).q3 = w.q3 := rfl
@[simp] theorem Warp.setH_q5 (w : Warp) (r : Nat) (x : BitVec 256) : (w.setH r x).q5 = w.q5 := rfl
@[simp] theorem Warp.setH_code (w : Warp) (r : Nat) (x : BitVec 256) : (w.setH r x).code = w.code := rfl
@[simp] theorem Warp.setH_tcode (w : Warp) (r : Nat) (x : BitVec 256) : (w.setH r x).tcode = w.tcode := rfl
@[simp] theorem Warp.setH_tregs (w : Warp) (r : Nat) (x : BitVec 256) : (w.setH r x).tregs = w.tregs := rfl
@[simp] theorem Warp.setH_barSeen (w : Warp) (r : Nat) (x : BitVec 256) : (w.setH r x).barSeen = w.barSeen := rfl
@[simp] theorem Warp.setH_f64 (w : Warp) (r : Nat) (x : BitVec 256) : (w.setH r x).f64 = w.f64 := rfl
@[simp] theorem Warp.setH_lwake (w : Warp) (r : Nat) (x : BitVec 256) : (w.setH r x).lwake = w.lwake := rfl
@[simp] theorem Warp.setH_mxreset (w : Warp) (r : Nat) (x : BitVec 256) : (w.setH r x).mxreset = w.mxreset := rfl
@[simp] theorem Warp.setH_landing (w : Warp) (r : Nat) (x : BitVec 256) : (w.setH r x).landing = w.landing := rfl
@[simp] theorem Warp.setH_shipped (w : Warp) (r : Nat) (x : BitVec 256) : (w.setH r x).shipped = w.shipped := rfl
@[simp] theorem Warp.setH_away (w : Warp) (r : Nat) (x : BitVec 256) : (w.setH r x).away = w.away := rfl
@[simp] theorem Warp.setH_acqScope (w : Warp) (r : Nat) (x : BitVec 256) : (w.setH r x).acqScope = w.acqScope := rfl

/-! ### Warp.flag -/

@[simp] theorem Warp.flag_uid (w : Warp) (f : Nat) : (w.flag f).uid = w.uid := rfl
@[simp] theorem Warp.flag_st (w : Warp) (f : Nat) : (w.flag f).st = w.st := rfl
@[simp] theorem Warp.flag_launch (w : Warp) (f : Nat) : (w.flag f).launch = w.launch := rfl
@[simp] theorem Warp.flag_blk (w : Warp) (f : Nat) : (w.flag f).blk = w.blk := rfl
@[simp] theorem Warp.flag_warpid (w : Warp) (f : Nat) : (w.flag f).warpid = w.warpid := rfl
@[simp] theorem Warp.flag_child (w : Warp) (f : Nat) : (w.flag f).child = w.child := rfl
@[simp] theorem Warp.flag_depth (w : Warp) (f : Nat) : (w.flag f).depth = w.depth := rfl
@[simp] theorem Warp.flag_nregs (w : Warp) (f : Nat) : (w.flag f).nregs = w.nregs := rfl
@[simp] theorem Warp.flag_threads (w : Warp) (f : Nat) : (w.flag f).threads = w.threads := rfl
@[simp] theorem Warp.flag_vreg (w : Warp) (f : Nat) : (w.flag f).vreg = w.vreg := rfl
@[simp] theorem Warp.flag_sreg (w : Warp) (f : Nat) : (w.flag f).sreg = w.sreg := rfl
@[simp] theorem Warp.flag_preg (w : Warp) (f : Nat) : (w.flag f).preg = w.preg := rfl
@[simp] theorem Warp.flag_hreg (w : Warp) (f : Nat) : (w.flag f).hreg = w.hreg := rfl
@[simp] theorem Warp.flag_fcsr (w : Warp) (f : Nat) : (w.flag f).fcsr = w.fcsr ||| BitVec.ofNat 64 (f % 64) := rfl
@[simp] theorem Warp.flag_sdraw (w : Warp) (f : Nat) : (w.flag f).sdraw = w.sdraw := rfl
@[simp] theorem Warp.flag_srep (w : Warp) (f : Nat) : (w.flag f).srep = w.srep := rfl
@[simp] theorem Warp.flag_srepSave (w : Warp) (f : Nat) : (w.flag f).srepSave = w.srepSave := rfl
@[simp] theorem Warp.flag_sq (w : Warp) (f : Nat) : (w.flag f).sq = w.sq := rfl
@[simp] theorem Warp.flag_wroteG (w : Warp) (f : Nat) : (w.flag f).wroteG = w.wroteG := rfl
@[simp] theorem Warp.flag_wroteH (w : Warp) (f : Nat) : (w.flag f).wroteH = w.wroteH := rfl
@[simp] theorem Warp.flag_pend (w : Warp) (f : Nat) : (w.flag f).pend = w.pend := rfl
@[simp] theorem Warp.flag_fault (w : Warp) (f : Nat) : (w.flag f).fault = w.fault := rfl
@[simp] theorem Warp.flag_lastBuf (w : Warp) (f : Nat) : (w.flag f).lastBuf = w.lastBuf := rfl
@[simp] theorem Warp.flag_yielded (w : Warp) (f : Nat) : (w.flag f).yielded = w.yielded := rfl
@[simp] theorem Warp.flag_q1 (w : Warp) (f : Nat) : (w.flag f).q1 = w.q1 := rfl
@[simp] theorem Warp.flag_q3 (w : Warp) (f : Nat) : (w.flag f).q3 = w.q3 := rfl
@[simp] theorem Warp.flag_q5 (w : Warp) (f : Nat) : (w.flag f).q5 = w.q5 := rfl
@[simp] theorem Warp.flag_code (w : Warp) (f : Nat) : (w.flag f).code = w.code := rfl
@[simp] theorem Warp.flag_tcode (w : Warp) (f : Nat) : (w.flag f).tcode = w.tcode := rfl
@[simp] theorem Warp.flag_tregs (w : Warp) (f : Nat) : (w.flag f).tregs = w.tregs := rfl
@[simp] theorem Warp.flag_barSeen (w : Warp) (f : Nat) : (w.flag f).barSeen = w.barSeen := rfl
@[simp] theorem Warp.flag_f64 (w : Warp) (f : Nat) : (w.flag f).f64 = w.f64 := rfl
@[simp] theorem Warp.flag_lwake (w : Warp) (f : Nat) : (w.flag f).lwake = w.lwake := rfl
@[simp] theorem Warp.flag_mxreset (w : Warp) (f : Nat) : (w.flag f).mxreset = w.mxreset := rfl
@[simp] theorem Warp.flag_landing (w : Warp) (f : Nat) : (w.flag f).landing = w.landing := rfl
@[simp] theorem Warp.flag_shipped (w : Warp) (f : Nat) : (w.flag f).shipped = w.shipped := rfl
@[simp] theorem Warp.flag_away (w : Warp) (f : Nat) : (w.flag f).away = w.away := rfl
@[simp] theorem Warp.flag_acqScope (w : Warp) (f : Nat) : (w.flag f).acqScope = w.acqScope := rfl

/-! ### Warp.addScalarDraw -/

@[simp] theorem Warp.addScalarDraw_uid (w : Warp) (n : Nat) : (w.addScalarDraw n).uid = w.uid := rfl
@[simp] theorem Warp.addScalarDraw_st (w : Warp) (n : Nat) : (w.addScalarDraw n).st = w.st := rfl
@[simp] theorem Warp.addScalarDraw_launch (w : Warp) (n : Nat) : (w.addScalarDraw n).launch = w.launch := rfl
@[simp] theorem Warp.addScalarDraw_blk (w : Warp) (n : Nat) : (w.addScalarDraw n).blk = w.blk := rfl
@[simp] theorem Warp.addScalarDraw_warpid (w : Warp) (n : Nat) : (w.addScalarDraw n).warpid = w.warpid := rfl
@[simp] theorem Warp.addScalarDraw_child (w : Warp) (n : Nat) : (w.addScalarDraw n).child = w.child := rfl
@[simp] theorem Warp.addScalarDraw_depth (w : Warp) (n : Nat) : (w.addScalarDraw n).depth = w.depth := rfl
@[simp] theorem Warp.addScalarDraw_nregs (w : Warp) (n : Nat) : (w.addScalarDraw n).nregs = w.nregs := rfl
@[simp] theorem Warp.addScalarDraw_threads (w : Warp) (n : Nat) : (w.addScalarDraw n).threads = w.threads := rfl
@[simp] theorem Warp.addScalarDraw_vreg (w : Warp) (n : Nat) : (w.addScalarDraw n).vreg = w.vreg := rfl
@[simp] theorem Warp.addScalarDraw_sreg (w : Warp) (n : Nat) : (w.addScalarDraw n).sreg = w.sreg := rfl
@[simp] theorem Warp.addScalarDraw_preg (w : Warp) (n : Nat) : (w.addScalarDraw n).preg = w.preg := rfl
@[simp] theorem Warp.addScalarDraw_hreg (w : Warp) (n : Nat) : (w.addScalarDraw n).hreg = w.hreg := rfl
@[simp] theorem Warp.addScalarDraw_fcsr (w : Warp) (n : Nat) : (w.addScalarDraw n).fcsr = w.fcsr := rfl
@[simp] theorem Warp.addScalarDraw_sdraw (w : Warp) (n : Nat) : (w.addScalarDraw n).sdraw = w.sdraw + BitVec.ofNat 32 n := rfl
@[simp] theorem Warp.addScalarDraw_srep (w : Warp) (n : Nat) : (w.addScalarDraw n).srep = w.srep := rfl
@[simp] theorem Warp.addScalarDraw_srepSave (w : Warp) (n : Nat) : (w.addScalarDraw n).srepSave = w.srepSave := rfl
@[simp] theorem Warp.addScalarDraw_sq (w : Warp) (n : Nat) : (w.addScalarDraw n).sq = w.sq := rfl
@[simp] theorem Warp.addScalarDraw_wroteG (w : Warp) (n : Nat) : (w.addScalarDraw n).wroteG = w.wroteG := rfl
@[simp] theorem Warp.addScalarDraw_wroteH (w : Warp) (n : Nat) : (w.addScalarDraw n).wroteH = w.wroteH := rfl
@[simp] theorem Warp.addScalarDraw_pend (w : Warp) (n : Nat) : (w.addScalarDraw n).pend = w.pend := rfl
@[simp] theorem Warp.addScalarDraw_fault (w : Warp) (n : Nat) : (w.addScalarDraw n).fault = w.fault := rfl
@[simp] theorem Warp.addScalarDraw_lastBuf (w : Warp) (n : Nat) : (w.addScalarDraw n).lastBuf = w.lastBuf := rfl
@[simp] theorem Warp.addScalarDraw_yielded (w : Warp) (n : Nat) : (w.addScalarDraw n).yielded = w.yielded := rfl
@[simp] theorem Warp.addScalarDraw_q1 (w : Warp) (n : Nat) : (w.addScalarDraw n).q1 = w.q1 := rfl
@[simp] theorem Warp.addScalarDraw_q3 (w : Warp) (n : Nat) : (w.addScalarDraw n).q3 = w.q3 := rfl
@[simp] theorem Warp.addScalarDraw_q5 (w : Warp) (n : Nat) : (w.addScalarDraw n).q5 = w.q5 := rfl
@[simp] theorem Warp.addScalarDraw_code (w : Warp) (n : Nat) : (w.addScalarDraw n).code = w.code := rfl
@[simp] theorem Warp.addScalarDraw_tcode (w : Warp) (n : Nat) : (w.addScalarDraw n).tcode = w.tcode := rfl
@[simp] theorem Warp.addScalarDraw_tregs (w : Warp) (n : Nat) : (w.addScalarDraw n).tregs = w.tregs := rfl
@[simp] theorem Warp.addScalarDraw_barSeen (w : Warp) (n : Nat) : (w.addScalarDraw n).barSeen = w.barSeen := rfl
@[simp] theorem Warp.addScalarDraw_f64 (w : Warp) (n : Nat) : (w.addScalarDraw n).f64 = w.f64 := rfl
@[simp] theorem Warp.addScalarDraw_lwake (w : Warp) (n : Nat) : (w.addScalarDraw n).lwake = w.lwake := rfl
@[simp] theorem Warp.addScalarDraw_mxreset (w : Warp) (n : Nat) : (w.addScalarDraw n).mxreset = w.mxreset := rfl
@[simp] theorem Warp.addScalarDraw_landing (w : Warp) (n : Nat) : (w.addScalarDraw n).landing = w.landing := rfl
@[simp] theorem Warp.addScalarDraw_shipped (w : Warp) (n : Nat) : (w.addScalarDraw n).shipped = w.shipped := rfl
@[simp] theorem Warp.addScalarDraw_away (w : Warp) (n : Nat) : (w.addScalarDraw n).away = w.away := rfl
@[simp] theorem Warp.addScalarDraw_acqScope (w : Warp) (n : Nat) : (w.addScalarDraw n).acqScope = w.acqScope := rfl

/-! ### Warp.modLanes -/

@[simp] theorem Warp.modLanes_uid (w : Warp) (m : LaneMask) (f : Nat → Thread → Thread) : (w.modLanes m f).uid = w.uid := rfl
@[simp] theorem Warp.modLanes_st (w : Warp) (m : LaneMask) (f : Nat → Thread → Thread) : (w.modLanes m f).st = w.st := rfl
@[simp] theorem Warp.modLanes_launch (w : Warp) (m : LaneMask) (f : Nat → Thread → Thread) : (w.modLanes m f).launch = w.launch := rfl
@[simp] theorem Warp.modLanes_blk (w : Warp) (m : LaneMask) (f : Nat → Thread → Thread) : (w.modLanes m f).blk = w.blk := rfl
@[simp] theorem Warp.modLanes_warpid (w : Warp) (m : LaneMask) (f : Nat → Thread → Thread) : (w.modLanes m f).warpid = w.warpid := rfl
@[simp] theorem Warp.modLanes_child (w : Warp) (m : LaneMask) (f : Nat → Thread → Thread) : (w.modLanes m f).child = w.child := rfl
@[simp] theorem Warp.modLanes_depth (w : Warp) (m : LaneMask) (f : Nat → Thread → Thread) : (w.modLanes m f).depth = w.depth := rfl
@[simp] theorem Warp.modLanes_nregs (w : Warp) (m : LaneMask) (f : Nat → Thread → Thread) : (w.modLanes m f).nregs = w.nregs := rfl
@[simp] theorem Warp.modLanes_threads (w : Warp) (m : LaneMask) (f : Nat → Thread → Thread) : (w.modLanes m f).threads = w.threads.mapIdx fun i t => if m.getLsbD i then f i t else t := rfl
@[simp] theorem Warp.modLanes_vreg (w : Warp) (m : LaneMask) (f : Nat → Thread → Thread) : (w.modLanes m f).vreg = w.vreg := rfl
@[simp] theorem Warp.modLanes_sreg (w : Warp) (m : LaneMask) (f : Nat → Thread → Thread) : (w.modLanes m f).sreg = w.sreg := rfl
@[simp] theorem Warp.modLanes_preg (w : Warp) (m : LaneMask) (f : Nat → Thread → Thread) : (w.modLanes m f).preg = w.preg := rfl
@[simp] theorem Warp.modLanes_hreg (w : Warp) (m : LaneMask) (f : Nat → Thread → Thread) : (w.modLanes m f).hreg = w.hreg := rfl
@[simp] theorem Warp.modLanes_fcsr (w : Warp) (m : LaneMask) (f : Nat → Thread → Thread) : (w.modLanes m f).fcsr = w.fcsr := rfl
@[simp] theorem Warp.modLanes_sdraw (w : Warp) (m : LaneMask) (f : Nat → Thread → Thread) : (w.modLanes m f).sdraw = w.sdraw := rfl
@[simp] theorem Warp.modLanes_srep (w : Warp) (m : LaneMask) (f : Nat → Thread → Thread) : (w.modLanes m f).srep = w.srep := rfl
@[simp] theorem Warp.modLanes_srepSave (w : Warp) (m : LaneMask) (f : Nat → Thread → Thread) : (w.modLanes m f).srepSave = w.srepSave := rfl
@[simp] theorem Warp.modLanes_sq (w : Warp) (m : LaneMask) (f : Nat → Thread → Thread) : (w.modLanes m f).sq = w.sq := rfl
@[simp] theorem Warp.modLanes_wroteG (w : Warp) (m : LaneMask) (f : Nat → Thread → Thread) : (w.modLanes m f).wroteG = w.wroteG := rfl
@[simp] theorem Warp.modLanes_wroteH (w : Warp) (m : LaneMask) (f : Nat → Thread → Thread) : (w.modLanes m f).wroteH = w.wroteH := rfl
@[simp] theorem Warp.modLanes_pend (w : Warp) (m : LaneMask) (f : Nat → Thread → Thread) : (w.modLanes m f).pend = w.pend := rfl
@[simp] theorem Warp.modLanes_fault (w : Warp) (m : LaneMask) (f : Nat → Thread → Thread) : (w.modLanes m f).fault = w.fault := rfl
@[simp] theorem Warp.modLanes_lastBuf (w : Warp) (m : LaneMask) (f : Nat → Thread → Thread) : (w.modLanes m f).lastBuf = w.lastBuf := rfl
@[simp] theorem Warp.modLanes_yielded (w : Warp) (m : LaneMask) (f : Nat → Thread → Thread) : (w.modLanes m f).yielded = w.yielded := rfl
@[simp] theorem Warp.modLanes_q1 (w : Warp) (m : LaneMask) (f : Nat → Thread → Thread) : (w.modLanes m f).q1 = w.q1 := rfl
@[simp] theorem Warp.modLanes_q3 (w : Warp) (m : LaneMask) (f : Nat → Thread → Thread) : (w.modLanes m f).q3 = w.q3 := rfl
@[simp] theorem Warp.modLanes_q5 (w : Warp) (m : LaneMask) (f : Nat → Thread → Thread) : (w.modLanes m f).q5 = w.q5 := rfl
@[simp] theorem Warp.modLanes_code (w : Warp) (m : LaneMask) (f : Nat → Thread → Thread) : (w.modLanes m f).code = w.code := rfl
@[simp] theorem Warp.modLanes_tcode (w : Warp) (m : LaneMask) (f : Nat → Thread → Thread) : (w.modLanes m f).tcode = w.tcode := rfl
@[simp] theorem Warp.modLanes_tregs (w : Warp) (m : LaneMask) (f : Nat → Thread → Thread) : (w.modLanes m f).tregs = w.tregs := rfl
@[simp] theorem Warp.modLanes_barSeen (w : Warp) (m : LaneMask) (f : Nat → Thread → Thread) : (w.modLanes m f).barSeen = w.barSeen := rfl
@[simp] theorem Warp.modLanes_f64 (w : Warp) (m : LaneMask) (f : Nat → Thread → Thread) : (w.modLanes m f).f64 = w.f64 := rfl
@[simp] theorem Warp.modLanes_lwake (w : Warp) (m : LaneMask) (f : Nat → Thread → Thread) : (w.modLanes m f).lwake = w.lwake := rfl
@[simp] theorem Warp.modLanes_mxreset (w : Warp) (m : LaneMask) (f : Nat → Thread → Thread) : (w.modLanes m f).mxreset = w.mxreset := rfl
@[simp] theorem Warp.modLanes_landing (w : Warp) (m : LaneMask) (f : Nat → Thread → Thread) : (w.modLanes m f).landing = w.landing := rfl
@[simp] theorem Warp.modLanes_shipped (w : Warp) (m : LaneMask) (f : Nat → Thread → Thread) : (w.modLanes m f).shipped = w.shipped := rfl
@[simp] theorem Warp.modLanes_away (w : Warp) (m : LaneMask) (f : Nat → Thread → Thread) : (w.modLanes m f).away = w.away := rfl
@[simp] theorem Warp.modLanes_acqScope (w : Warp) (m : LaneMask) (f : Nat → Thread → Thread) : (w.modLanes m f).acqScope = w.acqScope := rfl

end Sys2Proof.Machine
end

