-- ==== Sys2Proof/Laws/Warp.lean ====
section
/-! SUPPORT. What the shared operations on a warp do: how a word ends (`finish`), how results are written, and the two
ways a V-format word executes. -/

namespace Sys2Proof.Machine

open Sys2Proof Claims

/-! ### Lanes -/

theorem mem_lanesOf {m : LaneMask} {l : Nat} : l ∈ lanesOf m ↔ l < 32 ∧ m.getLsbD l = true := by
  simp [lanesOf]

theorem lanesOf_nodup (m : LaneMask) : (lanesOf m).Nodup := List.Nodup.filter _ List.nodup_range

theorem lanesOf_sorted (m : LaneMask) : (lanesOf m).Pairwise (· < ·) :=
  List.Pairwise.filter _ List.pairwise_lt_range

theorem lanesOf_ne_nil {m : LaneMask} (h : m ≠ 0) : lanesOf m ≠ [] := by
  intro e
  apply h
  apply BitVec.eq_of_getLsbD_eq
  intro i hi
  have : i ∉ lanesOf m := by simp [e]
  simpa [mem_lanesOf, hi] using this

theorem modNth_length {α : Type} (l : List α) (i : Nat) (f : α → α) : (modNth l i f).length = l.length := by
  induction l generalizing i with
  | nil => rfl
  | cons x r ih => cases i <;> simp [modNth, ih]

theorem modNth_getD {α : Type} (l : List α) (i j : Nat) (f : α → α) (hj : j < l.length) {d : α} :
    (modNth l i f).getD j d = if j = i then f (l.getD j d) else l.getD j d := by
  induction l generalizing i j with
  | nil => simp at hj
  | cons x r ih =>
    cases i with
    | zero => cases j <;> simp [modNth]
    | succ k =>
      cases j with
      | zero => simp [modNth]
      | succ m =>
        have := ih k m (by simpa using hj)
        simpa [modNth] using this

/-! ### Threads -/

theorem Thread.advance_st (iss : Issue) (t : Thread) : (t.advance iss).st = t.st := by
  unfold Thread.advance
  split
  · rfl
  · dsimp only; split <;> rfl

theorem Thread.advance_runnable (iss : Issue) (t : Thread) : (t.advance iss).runnable = t.runnable := by
  simp [Thread.runnable, Thread.advance_st]

theorem Thread.advance_draw (iss : Issue) (t : Thread) : (t.advance iss).draw = t.draw := by
  unfold Thread.advance
  split
  · rfl
  · dsimp only; split <;> rfl

/-- The draw counter takes no part in where a thread goes. -/
theorem Thread.advance_addDraw (iss : Issue) (t : Thread) (n : BitVec 32) :
    ({ t with draw := t.draw + n } : Thread).advance iss = { t.advance iss with draw := t.draw + n } := by
  unfold Thread.advance
  dsimp only
  split
  · rfl
  · split <;> rfl

theorem Warp.thread_modLanes (w : Warp) (m : LaneMask) (f : Nat → Thread → Thread) (l : Nat)
    (hl : l < w.threads.length) :
    (w.modLanes m f).thread l = if m.getLsbD l then f l (w.thread l) else w.thread l := by
  simp only [Warp.modLanes, Warp.thread, List.getD_eq_getElem?_getD, List.getElem?_mapIdx]
  rw [List.getElem?_eq_getElem hl]
  simp

theorem Warp.thread_default (w : Warp) (l : Nat) (hl : w.threads.length ≤ l) : w.thread l = {} := by
  simp [Warp.thread, List.getD_eq_getElem?_getD, List.getElem?_eq_none hl]

/-- Regrouping changes nothing but the states of runnable threads, which stay runnable. -/
theorem Warp.regroup_spec (w : Warp) (code : List Word) :
    ∃ ths, w.regroup code = { w with threads := ths } ∧ ths.length = w.threads.length ∧
      ∀ l < w.threads.length,
        ths.getD l {} = { w.thread l with st := (ths.getD l {}).st } ∧
        (ths.getD l {}).runnable = (w.thread l).runnable := by
  refine ⟨_, rfl, by simp, ?_⟩
  intro l hl
  simp only [Warp.thread, List.getD_eq_getElem?_getD, List.getElem?_mapIdx]
  rw [List.getElem?_eq_getElem hl]
  simp only [Option.map_some, Option.getD_some]
  generalize w.threads[l] = t
  have hr : w.mayIssue t = true → t.runnable = true := by
    simp only [Warp.mayIssue, Bool.and_eq_true]; exact fun h => h.1
  by_cases hm : w.mayIssue t = true
  · have := hr hm
    simp only [hm, if_true]
    unfold Thread.runnable at this ⊢
    repeat' split
    all_goals simp_all
    all_goals (cases t; simp_all)
  · simp [hm]

theorem Warp.retireIfDone_of_runnable {w : Warp} {l : Nat} (hl : l < w.threads.length)
    (h : (w.thread l).runnable = true) : w.retireIfDone = w := by
  unfold Warp.retireIfDone
  rw [if_pos]
  rw [List.any_eq_true]
  exact ⟨w.threads[l], List.getElem_mem hl, by
    simpa [Warp.thread, List.getD_eq_getElem?_getD, List.getElem?_eq_getElem hl] using h⟩

/-- What ends a word at which every active lane goes on: nothing but the threads and the pending word changes, and the
threads go on as `ThreadsWentOn` says. -/
theorem Warp.finish_spec {w : Warp} {iss : Issue} (code : List Word) (hlen : w.threads.length = 32)
    (hne : iss.lanes ≠ 0) (hr : ∀ l ∈ lanesOf iss.lanes, (w.thread l).runnable = true) :
    w.finish iss code = { w with threads := (w.finish iss code).threads, pend := none } ∧
      (w.finish iss code).threads.length = 32 ∧
      ∀ l < 32,
        (w.finish iss code).thread l =
          { (if iss.lanes.getLsbD l then (w.thread l).advance iss else w.thread l) with
            st := ((w.finish iss code).thread l).st } ∧
        ((w.finish iss code).thread l).runnable = (w.thread l).runnable := by
  obtain ⟨a, ha⟩ := List.exists_mem_of_ne_nil _ (lanesOf_ne_nil hne)
  have ha' := mem_lanesOf.1 ha
  unfold Warp.finish
  set w1 := ({ w with pend := none } : Warp).modLanes iss.lanes (fun _ t => t.advance iss) with hw1
  have hlen1 : w1.threads.length = 32 := by simp [hw1, Warp.modLanes, hlen]
  obtain ⟨ths, he, hl, hth⟩ := Warp.regroup_spec w1 code
  have hthread : ∀ l < 32, w1.thread l = if iss.lanes.getLsbD l then (w.thread l).advance iss else w.thread l := by
    intro l hl
    rw [hw1, Warp.thread_modLanes _ _ _ _ (by simpa [hlen] using hl)]
    rfl
  have hrun : ∀ l < 32, (w1.thread l).runnable = (w.thread l).runnable := by
    intro l hl
    rw [hthread l hl]
    split
    · exact Thread.advance_runnable _ _
    · rfl
  have hret : (w1.regroup code).retireIfDone = w1.regroup code := by
    apply Warp.retireIfDone_of_runnable (l := a)
    · rw [he]; simpa [hl, hlen1] using ha'.1
    · rw [he]
      show (ths.getD a {}).runnable = true
      rw [(hth a (by omega)).2, hrun a ha'.1, hr a ha]
  rw [hret, he]
  refine ⟨?_, by simpa [hlen1] using hl, ?_⟩
  · simp [hw1, Warp.modLanes]
  · intro l hl32
    have h := hth l (by omega)
    rw [hthread l hl32] at h
    refine ⟨h.1, ?_⟩
    show (ths.getD l {}).runnable = _
    rw [h.2]
    have := hrun l hl32
    rw [hthread l hl32] at this
    exact this

/-- What `finish` makes of the state. -/
theorem State.finish_setWarp (s : State) (iss : Issue) (w : Warp) :
    (s.setWarp iss.wk w).finish iss =
      s.setWarp iss.wk (w.finish iss ((s.setWarp iss.wk w).codeOf w.activeCode)) := by
  have h : (s.setWarp iss.wk w).warp iss.wk = some w := by simp [State.warp, State.setWarp]
  unfold State.finish
  rw [h]
  simp only [State.setWarp, KMap.set_set]

/-! ### Results of a word in the vector pipe -/

theorem vkey_inj {r l r' l' : Nat} (hl : l < 32) (hl' : l' < 32) : 32 * r + l = 32 * r' + l' ↔ r = r' ∧ l = l' := by
  omega

theorem Warp.v_setV (w : Warp) (r l : Nat) (x : Word) (r' l' : Nat) (hl : l < 32) (hl' : l' < 32) :
    (w.setV r l x).v r' l' = if r' = r ∧ l' = l then x else w.v r' l' := by
  unfold Warp.v Warp.setV
  dsimp only
  rw [KMap.getD_set]
  by_cases h : r' = r ∧ l' = l
  · rw [if_pos h, if_pos (by omega)]
  · rw [if_neg h, if_neg (by omega)]

/-- Writing results changes vector register `d` in their lanes, sets their flags, and advances their draw counters. -/
theorem Warp.putResults_spec (d : BitVec 8) (rs : List (Nat × Word × Nat × Nat)) (w : Warp)
    (hl : ∀ r ∈ rs, r.1 < 32) (hnd : (rs.map Prod.fst).Nodup) (hlen : w.threads.length = 32) :
    let w' := w.putResults (.v d) rs
    w' = { w with vreg := w'.vreg, threads := w'.threads, fcsr := w'.fcsr } ∧
    (∀ r < 256, ∀ l < 32, w'.v r l =
      if r = d.toNat then ((rs.find? (fun x => x.1 == l)).map (·.2.1)).getD (w.v r l) else w.v r l) ∧
    w'.fcsr = rs.foldl (fun f r => f ||| BitVec.ofNat 64 (r.2.2.1 % 64)) w.fcsr ∧
    w'.threads.length = 32 ∧
    (∀ l < 32, w'.thread l = { w.thread l with
      draw := (w.thread l).draw + BitVec.ofNat 32 (((rs.find? (fun x => x.1 == l)).map (·.2.2.2)).getD 0) }) := by
  induction rs generalizing w with
  | nil => simp [Warp.putResults, hlen]
  | cons x rs ih =>
    obtain ⟨k, y, fl, n⟩ := x
    simp only [List.map_cons, List.nodup_cons, List.mem_map, not_exists, not_and] at hnd
    have hk : k < 32 := hl (k, y, fl, n) (by simp)
    set w1 : Warp := ((w.setV d.toNat k y).flag fl).addDraw k n with hw1
    have hlen1 : w1.threads.length = 32 := by
      simp [hw1, Warp.addDraw, Warp.flag, Warp.setV, modNth_length, hlen]
    have hput : w.putResults (.v d) ((k, y, fl, n) :: rs) = w1.putResults (.v d) rs := rfl
    have hv1 : ∀ r' l', l' < 32 → w1.v r' l' = if r' = d.toNat ∧ l' = k then y else w.v r' l' := by
      intro r' l' hl'
      have := Warp.v_setV w d.toNat k y r' l' hk hl'
      simpa [hw1, Warp.v, Warp.addDraw, Warp.flag] using this
    have hth1 : ∀ l < 32, w1.thread l =
        { w.thread l with draw := (w.thread l).draw + BitVec.ofNat 32 (if l = k then n else 0) } := by
      intro l hl'
      simp only [hw1, Warp.thread, Warp.addDraw, Warp.flag, Warp.setV]
      rw [modNth_getD _ _ _ _ (by omega)]
      split <;> simp
    obtain ⟨h1, h2, h3, h4, h5⟩ := ih w1 (fun r hr => hl r (by simp [hr])) hnd.2 hlen1
    have hno : rs.find? (fun x => x.1 == k) = none := by
      rw [List.find?_eq_none]
      intro x hx
      simpa using fun e => hnd.1 x hx e
    rw [hput]
    refine ⟨?_, ?_, ?_, h4, ?_⟩
    · rw [h1]; simp [hw1, Warp.addDraw, Warp.flag, Warp.setV]
    · intro r hr l hl'
      rw [h2 r hr l hl', hv1 r l hl']
      by_cases e : r = d.toNat
      · by_cases e2 : k = l
        · subst e2; simp [e, hno]
        · have : ¬ l = k := fun h => e2 h.symm
          simp [e, e2, this]
      · simp [e]
    · rw [h3]; simp [hw1, Warp.addDraw, Warp.flag, Warp.setV]
    · intro l hl'
      rw [h5 l hl', hth1 l hl']
      by_cases e2 : k = l
      · subst e2; simp [hno]
      · have : ¬ l = k := fun h => e2 h.symm
        simp [e2, this]

/-! ### How a word runs -/

/-- A kernel word that a warp issues ends as `endWord` says of its body. -/
theorem runRaw_issues {s : State} {iss : Issue} {w : Warp} (h : Issues s iss w) (word : Instr)
    (body : State → Issue → Warp → Res) : runRaw s word body = endWord iss word (body s iss w) := by
  obtain ⟨h1, h2, -⟩ := h
  simp [runRaw, h1, h2]

theorem memorySame_setWarp (s : State) (k : Nat) (w : Warp) : MemorySame s (s.setWarp k w) := by
  simp [MemorySame, State.block]

theorem memorySame_finish (s : State) (iss : Issue) (w : Warp) :
    MemorySame s ((s.setWarp iss.wk w).finish iss) := by
  rw [State.finish_setWarp]; exact memorySame_setWarp _ _ _

/-- A warp's registers written, then the word ended: what `WroteV` says. -/
theorem wroteV_of_finish {s : State} {iss : Issue} {w w1 : Warp} {d : BitVec 8} {m : LaneMask} {x : Nat → Word}
    {fl n : Nat → Nat} (hi : Issues s iss w)
    (h1 : w1 = { w with vreg := w1.vreg, threads := w1.threads, fcsr := w1.fcsr })
    (hv : ∀ r < 256, ∀ l < 32, w1.v r l = if r = d.toNat ∧ m.getLsbD l then x l else w.v r l)
    (hf : w1.fcsr = flagged w.fcsr m fl) (hlen : w1.threads.length = 32)
    (ht : ∀ l < 32, w1.thread l = { w.thread l with
      draw := (w.thread l).draw + BitVec.ofNat 32 (if m.getLsbD l then n l else 0) }) :
    WroteV s ((s.setWarp iss.wk w1).finish iss) iss w d m x fl n := by
  obtain ⟨-, -, hne, -, hr⟩ := hi
  have hrun : ∀ l < 32, (w1.thread l).runnable = (w.thread l).runnable := by
    intro l hl; rw [ht l hl]; rfl
  have hr1 : ∀ l ∈ lanesOf iss.lanes, (w1.thread l).runnable = true := by
    intro l hl; rw [hrun l (mem_lanesOf.1 hl).1]; exact hr l hl
  rw [State.finish_setWarp]
  obtain ⟨g1, g2, g3⟩ := Warp.finish_spec (w := w1) (iss := iss)
    ((s.setWarp iss.wk w1).codeOf w1.activeCode) hlen hne hr1
  set w' := w1.finish iss ((s.setWarp iss.wk w1).codeOf w1.activeCode)
  have hreg : ∀ r l, w'.v r l = w1.v r l := by
    intro r l; rw [g1]; rfl
  have hfc : w'.fcsr = w1.fcsr := by rw [g1]
  refine ⟨w', ⟨rfl, memorySame_setWarp _ _ _⟩, ?_, ?_, ?_, g2, ?_⟩
  · rw [g1, h1]
  · intro r hr' l hl; rw [hreg]; exact hv r hr' l hl
  · rw [hfc, hf]
  · intro l hl
    obtain ⟨e1, e2⟩ := g3 l hl
    refine ⟨?_, by rw [e2, hrun l hl]⟩
    rw [e1, ht l hl]
    by_cases hb : iss.lanes.getLsbD l
    · simp only [hb, if_true]
      rw [Thread.advance_addDraw]
    · simp [hb]

theorem queueOf_none {o : Opnd} (h : o.isQ = false) : queueOf o = none := by
  cases o <;> simp_all [queueOf, Opnd.isQ]

theorem takeFifo_none (s : State) (iss : Issue) (w : Warp) (lanes : List Nat) :
    s.takeFifo iss w none none lanes = .ok (s, []) := by
  unfold State.takeFifo State.fifoOk
  cases s.block w.blk <;> simp

theorem find?_mapIdx_fst {β : Type} (l : List Nat) (f : Nat → Nat → β) (hn : l.Nodup) {x : Nat} (hx : x ∈ l) :
    ∃ k < l.length, l[k]? = some x ∧
      (l.mapIdx fun k y => (y, f k y)).find? (fun e => e.1 == x) = some (x, f k x) := by
  obtain ⟨k, hk, e⟩ := List.getElem_of_mem hx
  refine ⟨k, hk, by simp [e, List.getElem?_eq_getElem hk], ?_⟩
  rw [List.find?_eq_some_iff_getElem]
  refine ⟨by simp, k, by simpa using hk, by simp [e], ?_⟩
  intro j hj
  simp only [List.getElem_mapIdx, Bool.not_eq_true', beq_eq_false_iff_ne, ne_eq]
  intro e2
  have : l[j] = l[k] := by rw [e2, e]
  rw [List.Nodup.getElem_inj_iff hn] at this
  omega

/-- What a word's spec gives a lane whose sources hold no queue element. -/
def laneOut (s : State) (iss : Issue) (w : Warp) (i : VIns) (sp : VSpec) (d : BitVec 8) (l : Nat) : Word × Nat × Nat :=
  sp.fn (fun n => s.draw w l ((w.thread l).draw.toNat + n)) (s.vArgs iss.wk w i sp l 0 (w.v d.toNat l))

/-- A word in the vector pipe with a v destination and no queue operand, that issues over one visit: it completes, and
`WroteV` says what it leaves behind. -/
theorem vectorBody_plain {s : State} {iss : Issue} {w : Warp} {i : VIns} {sp : VSpec} {d : BitVec 8}
    (hi : Issues s iss w) (hd : i.d = .v d) (hq : NoQueue i) (h2 : sp.two = false) :
    ∃ t, vectorBody i sp s iss w = .ok t ∧
      WroteV s t iss w d (w.partLanes iss i.g) (fun l => (laneOut s iss w i sp d l).1)
        (fun l => (laneOut s iss w i sp d l).2.1) (fun l => (laneOut s iss w i sp d l).2.2) := by
  have hp : popQueue i = none := by simp [popQueue, queueOf_none hq.2.1, queueOf_none hq.2.2.1, queueOf_none hq.2.2.2]
  have hdq : queueOf i.d = none := queueOf_none hq.1
  set m := w.partLanes iss i.g
  set rs := s.laneResults iss.wk w i sp (lanesOf m) [] with hrs
  have hbody : vectorBody i sp s iss w = .ok ((s.setWarp iss.wk (w.putResults i.d rs)).finish iss) := by
    unfold vectorBody
    simp only [hp, hdq, takeFifo_none]
    simp only [Except.bind, hq.1, h2, State.pushResults, hdq, Bool.and_false, Bool.false_eq_true, if_false]
    rfl
  have hlane : rs = (lanesOf m).map fun l => (l, laneOut s iss w i sp d l) := by
    rw [hrs]; unfold State.laneResults laneOut
    rw [List.mapIdx_eq_iff]
    intro k
    simp [hd]
  have hfst : rs.map Prod.fst = lanesOf m := by rw [hlane]; simp [Function.comp_def]
  have hfind : ∀ l < 32, rs.find? (fun x => x.1 == l) =
      if m.getLsbD l then some (l, laneOut s iss w i sp d l) else none := by
    intro l hl
    rw [hlane, List.find?_map]
    by_cases hb : m.getLsbD l
    · have hmem : l ∈ lanesOf m := mem_lanesOf.2 ⟨hl, hb⟩
      have : (lanesOf m).find? ((fun x : Nat × Word × Nat × Nat => x.1 == l) ∘
          fun l => (l, laneOut s iss w i sp d l)) = some l := by
        rw [List.find?_eq_some_iff_getElem]
        obtain ⟨k, hk, e⟩ := List.getElem_of_mem hmem
        refine ⟨by simp, k, hk, e, ?_⟩
        intro j hj
        simp only [Function.comp_apply, Bool.not_eq_true', beq_eq_false_iff_ne, ne_eq]
        intro e2
        have : (lanesOf m)[j] = (lanesOf m)[k] := by rw [e2, e]
        rw [List.Nodup.getElem_inj_iff (lanesOf_nodup m)] at this
        omega
      rw [this]; simp [hb]
    · have : (lanesOf m).find? ((fun x : Nat × Word × Nat × Nat => x.1 == l) ∘
          fun l => (l, laneOut s iss w i sp d l)) = none := by
        rw [List.find?_eq_none]
        intro x hx
        simp only [Function.comp_apply, beq_iff_eq]
        rintro rfl
        exact hb (mem_lanesOf.1 hx).2
      rw [this]; simp [hb]
  refine ⟨_, hbody, ?_⟩
  rw [hd]
  obtain ⟨p1, p2, p3, p4, p5⟩ := Warp.putResults_spec d rs w
    (fun r hr => (mem_lanesOf.1 (by rw [← hfst]; exact List.mem_map_of_mem hr)).1)
    (by rw [hfst]; exact lanesOf_nodup m) hi.2.2.2.1
  apply wroteV_of_finish hi p1
  · intro r hr l hl
    rw [p2 r hr l hl, hfind l hl]
    by_cases e : r = d.toNat <;> by_cases hb : m.getLsbD l <;> simp [e, hb]
  · rw [p3, hlane]; simp only [flagged, List.foldl_map]
  · exact p4
  · intro l hl
    rw [p5 l hl, hfind l hl]
    by_cases hb : m.getLsbD l <;> simp [hb]

/-- The end of a word that has changed scalar registers, FCSR and the scalar draw counter. -/
theorem finish_scalar {s : State} {iss : Issue} {w : Warp} (hi : Issues s iss w) (sr : KMap Word) (fc : Word)
    (sd : BitVec 32) (n : Nat) :
    ∃ w', (s.setWarp iss.wk { w with sreg := sr, fcsr := fc, sdraw := sd, srep := n }).finish iss = s.setWarp iss.wk w' ∧
      w' = { w with sreg := sr, threads := w'.threads, fcsr := fc, sdraw := sd, srep := n, pend := none } ∧
      ThreadsWentOn iss w w' fun _ => 0 := by
  obtain ⟨g1, g2, g3⟩ := Warp.finish_spec (w := { w with sreg := sr, fcsr := fc, sdraw := sd, srep := n }) (iss := iss)
    ((s.setWarp iss.wk { w with sreg := sr, fcsr := fc, sdraw := sd, srep := n }).codeOf
      ({ w with sreg := sr, fcsr := fc, sdraw := sd, srep := n } : Warp).activeCode) hi.2.2.2.1 hi.2.2.1 hi.2.2.2.2
  refine ⟨_, State.finish_setWarp _ _ _, g1, g2, ?_⟩
  intro l hl
  obtain ⟨e1, e2⟩ := g3 l hl
  refine ⟨?_, e2⟩
  rw [e1]
  simp only [Warp.thread]
  split
  · simp [Thread.advance_draw]
  · simp

/-- A word on the scalar unit completes, and `WroteS` says what it leaves behind. -/
theorem scalarBody_spec {s : State} {iss : Issue} {w : Warp} {i : VIns} {sp : VSpec} {d : BitVec 6}
    (hi : Issues s iss w) (hd : i.d = .s d) :
    ∃ t, scalarBody i sp s iss w = .ok t ∧
      let o := sp.fn (fun k => s.draw w scalarLane (w.sdraw.toNat + k)) (s.vArgs iss.wk w i sp iss.elected 0 (w.s d.toNat))
      WroteS s t iss w d (w.electedGuard iss i.g) o.1 o.2.1 o.2.2 := by
  unfold scalarBody
  by_cases hg : w.electedGuard iss i.g
  · have hg' : ({ w with srep := w.repLeft iss } : Warp).electedGuard iss i.g = true := hg
    simp only [hg', hd, if_true]
    refine ⟨_, rfl, ?_⟩
    set o := sp.fn (fun k => s.draw w scalarLane (w.sdraw.toNat + k)) (s.vArgs iss.wk w i sp iss.elected 0 (w.s d.toNat))
    obtain ⟨w', e1, e2, e3⟩ := finish_scalar hi (KMap.set w.sreg d.toNat o.1) (w.fcsr ||| BitVec.ofNat 64 (o.2.1 % 64))
      (w.sdraw + BitVec.ofNat 32 o.2.2) (w.repLeft iss)
    refine ⟨w', ⟨e1, memorySame_finish _ _ _⟩, ?_, ?_, ?_, ?_, e3⟩
    · rw [e2]
    · intro r hr
      rw [e2]
      simp only [Warp.s, hg, and_true]
      rw [KMap.getD_set]
    · rw [e2]; simp only [hg, if_true]
    · rw [e2]; simp only [hg, if_true]
  · have hg' : ({ w with srep := w.repLeft iss } : Warp).electedGuard iss i.g = false := Bool.eq_false_iff.2 hg
    simp only [hg', Bool.false_eq_true, if_false]
    refine ⟨_, rfl, ?_⟩
    obtain ⟨w', e1, e2, e3⟩ := finish_scalar hi w.sreg w.fcsr w.sdraw (w.repLeft iss)
    refine ⟨w', ⟨e1, memorySame_finish _ _ _⟩, ?_, ?_, ?_, ?_, e3⟩
    · rw [e2]
    · intro r hr
      rw [e2]; simp [Warp.s, hg]
    · rw [e2]; simp [hg]
    · rw [e2]; simp [hg]

end Sys2Proof.Machine
end

