-- ==== Sys2Proof/Tests/Slice0.lean ====
section
/-! SUPPORT. Tests of single definitions and steps on small states, and for every statement states and operands that meet
its hypotheses. Expected values come from the spec's own text, worked by hand from the rule that the docstring names. -/

namespace Sys2Proof.Tests

open Sys2Proof Machine Machine.Claims

set_option Elab.async false

/-! ## Builders -/

/-- A V-format word without guard. -/
def vi (d a b c : Opnd) (ty : VTy) (sh : Shape) (sub : BitVec 4 := 0) (rnd : Rnd := .rne) (sat : Bool := false)
    (g : Guard := open_) : VIns := { g, d, a, b, c, ty, sh, rnd, sat, sub }

/-- An I-format word without guard. -/
def ii (d a : Opnd) (imm : BitVec 32) (g : Guard := open_) : IIns := { g, d, a, imm }

/-- An M-format word without guard. -/
def mi (data base idx : Opnd) (off : BitVec 10) (size : BitVec 3) (scope : BitVec 3 := 0) (ord : BitVec 2 := 0)
    (space : BitVec 3 := 1) (hint : BitVec 2 := 0) (g : Guard := open_) : MIns :=
  { g, data, base, idx, off, size, scope, ord, space, hint }

/-- A B-format word without guard. -/
def bi (off : BitVec 26) (a b : Opnd) (lo : BitVec 6 := 0) (g : Guard := open_) : BIns := { g, off, a, b, lo }

/-- An X-format word without guard. -/
def xi (q a b : Opnd) (t : BitVec 9) (fa fb : BitVec 4) (lad fl : BitVec 3) (g : Guard := open_) : XIns :=
  { g, q, a, b, t, fa, fb, lad, fl }

/-- A guard that no lane passes: `@!p0`. -/
def never : Guard := { mark := 0, pred := 0, neg := true }

/-- The visit of the tests: lanes 0 and 2 of the warp in slot 0 of core 0, at the word behind the header at 0. -/
def iss : Issue := { wk := 0, lanes := 5, pc := 1, hdr := 0 }

/-- A thread behind the header at 0. -/
def thr : Thread := { st := .sub, pos := { pc := 1, hdr := some 0 } }

/-- The warp of the tests. Lane 0 holds 3 in v1 and 5 in v2, lane 2 holds 7 in v1 and 9 in v2; s1 is 64. -/
def bw : Warp :=
  { uid := 1, st := .run, nregs := 255, code := .resid 0, tcode := .resid 0, threads := List.replicate 32 thr,
    vreg := [(32, 3), (34, 7), (64, 5), (66, 9)], sreg := [(1, 64)] }

/-- The block of the tests. -/
def bb : Block := { aSize := 4096, wSize := 65536, cSize := 65536, nbar := 4 }

/-- The launch of the tests, on residual code of three words. -/
def bl : Launch := { nblocks := 1, image := 0x5000, argPage := 0x6000, resid := some { code := [0x20000010, 0, 0, 0] } }

/-- The partition of the tests. Virtual addresses below 2 MiB are the physical ones of the same number, and those of the
second GiB lie on the host bus. -/
def bp : Part :=
  { clusters := [0, 1], tdi := 2, ctxs := [(0, { slice := 100, tvbase := 0x4000 })],
    regs := { ptRoot := [(0, 0x1000)], frameBase := 0x100000, frameCnt := 2, fqBase := 0x20000, fqSize := 64 } }

/-- Page tables at 0x1000, 0x2000, 0x3000 and 0x9000, an owner byte at 0x8000, and vectors at 0x4000: causes 1, 3 to 7, 0x10, 0x11 and
trap number 0 enter at PC 2 under MODE 1. -/
def bm : Memory :=
  [(0x1000, 1), (0x1001, 0x20), (0x2000, 1), (0x2001, 0x30), (0x3000, 1), (0x3001, 0x90), (0x3008, 7), (0x300F, 4)] ++
  [(0x4008, 2), (0x400F, 0x40), (0x4018, 2), (0x401F, 0x40), (0x4020, 2), (0x4027, 0x40), (0x4038, 2), (0x403F, 0x40)] ++
  [(0x4080, 2), (0x4087, 0x40), (0x4088, 2), (0x408F, 0x40), (0x4100, 2), (0x4107, 0x40), (0x8000, 1), (0x9000, 7),
    (0x9007, 2)]

/-- The state of the tests: the warp issues on die 0, which runs. -/
def base : State :=
  { cur := .warp iss, nextUid := 10, warps := [(0, bw)], blocks := [(0, bb)], launches := [(0, bl)],
    dies := [(0, { boot := .running })], parts := [(0, bp)], hbm := bm,
    boot := { present := 1, up := true, ownBase := 0x8000 } }

/-- The state of the tests with another warp in the slot. -/
def withWarp (w : Warp) : State := { base with warps := [(0, w)] }

/-- The state of the tests with another block. -/
def withBlock (b : Block) : State := { base with blocks := [(0, b)] }

/-- The state of the tests with another partition. -/
def withPart (p : Part) : State := { base with parts := [(0, p)] }

/-- An answer that is there has an answer. -/
theorem some_ok {ε α : Type} {f : Except ε α} {P : α → Prop} [DecidablePred P]
    (h : (match f with | .ok a => decide (P a) | .error _ => false) = true) : ∃ a, f = .ok a ∧ P a := by
  cases f with
  | ok a => exact ⟨a, rfl, by simpa using h⟩
  | error e => simp at h

/-- A pair whose second part is an answer. -/
theorem pair_ok {σ ε α : Type} {f : σ × Except ε α} {P : σ → α → Prop} [∀ s a, Decidable (P s a)]
    (h : (match f with | (s, .ok a) => decide (P s a) | _ => false) = true) : ∃ s a, f = (s, .ok a) ∧ P s a := by
  rcases f with ⟨s, a | a⟩
  · simp at h
  · exact ⟨s, a, rfl, by simpa using h⟩

/-- A pair whose second part is a fault. -/
theorem pair_err {σ ε α : Type} {f : σ × Except ε α} {P : σ → ε → Prop} [∀ s a, Decidable (P s a)]
    (h : (match f with | (s, .error a) => decide (P s a) | _ => false) = true) : ∃ s a, f = (s, .error a) ∧ P s a := by
  rcases f with ⟨s, a | a⟩
  · exact ⟨s, a, rfl, by simpa using h⟩
  · simp at h

/-- The state that an outcome goes on to, or the empty one. -/
def next (o : Host.Outcome State Fault Refusal) : State :=
  match o with
  | .next t => t
  | _ => {}

/-- The warp in slot 0 of core 0 after an instruction at the state of the tests. -/
def after (i : Instr) (s : State := base) : Warp := ((next (exec i s)).warp 0).getD {}

/-- The warp in slot 0 of core 0 after the steps of a word that takes several. -/
def afterRuns (i : Instr) (n : Nat) (s : State := base) : Warp := ((next (runs i n s)).warp 0).getD {}

theorem test_witness_issues : Issues base iss bw := by decide +kernel

/-! ## The static checks of a word (R173): each refuses a term that breaks it -/

/-- v1, v2, v3, s1. -/
abbrev v1 : Opnd := .v 1
abbrev v2 : Opnd := .v 2
abbrev v3 : Opnd := .v 3
abbrev s1 : Opnd := .s 1

/-- The IADD that the refused words differ from in one point. -/
theorem test_wf_iadd : (Instr.iadd (vi v3 v1 v2 .none .u32 .w32)).wf = true := by decide
/-- R163: an unused field holds 0x000. -/
theorem test_wf_unusedField : (Instr.iadd (vi v3 v1 v2 v1 .u32 .w32)).wf = false := by decide
/-- R165: a destination is no `%` value. -/
theorem test_wf_destination : (Instr.iadd (vi (.sp .zero) v1 v2 .none .u32 .w32)).wf = false := by decide
/-- R164: q0 to q7 are no data operands. -/
theorem test_wf_engineQueue : (Instr.iadd (vi v3 (.q 7) v2 .none .u32 .w32)).wf = false := by decide
/-- R170: the shape is the type's width. -/
theorem test_wf_shape : (Instr.iadd (vi v3 v1 v2 .none .u32 .w16)).wf = false := by decide
/-- R194: IADD takes an integer type. -/
theorem test_wf_intType : (Instr.iadd (vi v3 v1 v2 .none .f32 .w32)).wf = false := by decide
/-- R194: IABS takes a signed type. -/
theorem test_wf_signedType : (Instr.iabs (vi v3 v1 .none .none .u32 .w32)).wf = false := by decide
/-- R194: DOT4I takes S32 or U32. -/
theorem test_wf_dot4Type : (Instr.dot4i (vi v3 v1 v2 v1 .u64 .w64)).wf = false := by decide
/-- R197: LEA takes U32 or U64. -/
theorem test_wf_leaType : (Instr.lea (vi v3 v1 v2 (.imm 2) .s64 .w64)).wf = false := by decide
/-- R198: FADD takes a float type. -/
theorem test_wf_floatType : (Instr.fadd (vi v3 v1 v2 .none .u32 .w32)).wf = false := by decide
/-- R101: SIN does not take F64. -/
theorem test_wf_transType : (Instr.sin (vi v3 v1 .none .none .f64 .w64)).wf = false := by decide
/-- R101: RCP takes no tapered type. -/
theorem test_wf_rootType : (Instr.rcp (vi v3 v1 .none .none .t8 .w8)).wf = false := by decide
/-- R196: MOV is of type U64. -/
theorem test_wf_movType : (Instr.mov (vi v3 v1 .none .none .u32 .w32)).wf = false := by decide
/-- R203: PACK is of type U8. -/
theorem test_wf_packType : (Instr.pack (vi v3 v1 v2 .none .u64 .w64)).wf = false := by decide
/-- R208: PLOP has type 0 and shape 0. -/
theorem test_wf_plopType : (Instr.plop (vi (.pred 1) (.pred 2) (.pred 3) .none .u8 .w8)).wf = false := by decide
/-- R171: an integer word rounds nothing. -/
theorem test_wf_rounding : (Instr.iadd (vi v3 v1 v2 .none .u32 .w32 0 .rtz)).wf = false := by decide
/-- R90: a tapered result rounds to nearest even alone. -/
theorem test_wf_taperedRounding : (Instr.fadd (vi v3 v1 v2 .none .t8 .w8 0 .sr)).wf = false := by decide
/-- R171: CVT between integers rounds nothing. -/
theorem test_wf_cvtRounding : (Instr.cvt (vi v3 v1 (.imm 0) .none .u32 .w32 4 .rtz)).wf = false := by decide
/-- R214: an integer XRED rounds nothing. -/
theorem test_wf_foldRounding : (Instr.xred (vi v3 v1 .none (.imm 0) .u32 .w32 0 .rup)).wf = false := by decide
/-- R172: IMULH does not saturate. -/
theorem test_wf_saturate : (Instr.imulh (vi v3 v1 v2 .none .u32 .w32 0 .rne true)).wf = false := by decide
/-- R216: XRED saturates under `.add` alone. -/
theorem test_wf_foldSaturate : (Instr.xred (vi v3 v1 .none (.imm 0) .u32 .w32 1 .rne true)).wf = false := by decide
/-- R179: a word without a sub-op holds 0. -/
theorem test_wf_subOp : (Instr.iadd (vi v3 v1 v2 .none .u32 .w32 1)).wf = false := by decide
/-- Table 16: comparison codes 0 to 5. -/
theorem test_wf_condition : (Instr.icmp (vi v3 v1 v2 .none .u32 .w32 6)).wf = false := by decide
/-- R214: a logical fold takes an integer type. -/
theorem test_wf_fold : (Instr.xred (vi v3 v1 .none (.imm 0) .f32 .w32 3)).wf = false := by decide
/-- R214: XVOTE has three modes. -/
theorem test_wf_vote : (Instr.xvote (vi (.pred 1) (.pred 2) .none .none .u8 .w64 3)).wf = false := by decide
/-- R203: PACK has nine formats. -/
theorem test_wf_packFormat : (Instr.pack (vi v3 v1 .none .none .u8 .w8 9)).wf = false := by decide
/-- R204: QNT has no format 5. -/
theorem test_wf_quantFormat : (Instr.qnt (vi v3 v1 .none .none .f32 .w32 5)).wf = false := by decide
/-- R188: an s destination has uniform sources. -/
theorem test_wf_scalarDestination : (Instr.iadd (vi s1 v1 (.imm 1) .none .u32 .w32)).wf = false := by decide
/-- R167: one queue code at most among the sources. -/
theorem test_wf_twoQueues : (Instr.iadd (vi v3 (.q 8) (.q 9) .none .u32 .w32)).wf = false := by decide
/-- R167: a source queue is not the destination's. -/
theorem test_wf_sameQueue : (Instr.iadd (vi (.q 8) (.q 8) v1 .none .u32 .w32)).wf = false := by decide
/-- R199: FDOT2's pair stays in its file. -/
theorem test_wf_pair : (Instr.fdot2 (vi v3 (.v 255) v2 v1 .f32 .w32)).wf = false := by decide
/-- R201: F16 to F32 has parts 0 and 1. -/
theorem test_wf_cvtPart : (Instr.cvt (vi v3 v1 (.imm 2) .none .f32 .w32 8)).wf = false := by decide
/-- R203: UNPACK of a 6-bit format has part 0 alone. -/
theorem test_wf_unpackPart : (Instr.unpack (vi v3 v1 (.imm 1) .none .u8 .w8 1)).wf = false := by decide
/-- R203: PACK of a 6-bit format has no srcB. -/
theorem test_wf_packSource : (Instr.pack (vi v3 v1 v2 .none .u8 .w8 1)).wf = false := by decide
/-- R208: PLOP's second predicate is 0 under `.not`. -/
theorem test_wf_plopSource : (Instr.plop (vi (.pred 1) (.pred 2) (.pred 3) .none .u8 .w64 4)).wf = false := by decide
/-- R178: MOVI has no source. -/
theorem test_wf_movi : (Instr.movi (ii v3 v1 5)).wf = false := by decide
/-- R180: REP uses 14 bits. -/
theorem test_wf_repImmediate : (Instr.rep (ii .none .none 0x4000)).wf = false := by decide
/-- R237: with IDR the number field is zero. -/
theorem test_wf_barrierNumber : (Instr.barsync (ii .none s1 0x83)).wf = false := by decide
/-- R237: without IDR there is no source. -/
theorem test_wf_barrierSource : (Instr.barsync (ii .none s1 0x03)).wf = false := by decide
/-- R298: TRET uses one bit. -/
theorem test_wf_tret : (Instr.tret (ii .none .none 2)).wf = false := by decide
/-- R218: LD has sizes 0 to 6. -/
theorem test_wf_size : (Instr.ld (mi v3 v1 v2 0 7)).wf = false := by decide
/-- R218: a group stays in its file. -/
theorem test_wf_group : (Instr.ld (mi (.v 250) v1 v2 0 6)).wf = false := by decide
/-- R136: a plain load has scope 0. -/
theorem test_wf_plainScope : (Instr.ld (mi v3 v1 v2 0 3 1 0)).wf = false := by decide
/-- R136: no load releases. -/
theorem test_wf_loadOrder : (Instr.ld (mi v3 v1 v2 0 3 1 2)).wf = false := by decide
/-- R136: no store acquires. -/
theorem test_wf_storeOrder : (Instr.st (mi v3 v1 v2 0 3 1 1)).wf = false := by decide
/-- R136: an atomic has a scope. -/
theorem test_wf_atomScope : (Instr.atom (mi v3 v1 v2 0 3 0 0)).wf = false := by decide
/-- R136: FENCE has an order. -/
theorem test_wf_fenceOrder : (Instr.fence (mi .none .none .none 0 0 1 0 0)).wf = false := by decide
/-- R59: spaces 2, 3, 6 and 7 are no address spaces of a word. -/
theorem test_wf_space : (Instr.ld (mi v3 v1 v2 0 3 0 0 2)).wf = false := by decide
/-- R73: a scratch access has a scope up to cluster. -/
theorem test_wf_scratchScope : (Instr.ld (mi v3 v1 v2 0 3 4 1 1)).wf = false := by decide
/-- R224: an atomic addition has no size of 2 bytes. -/
theorem test_wf_atomSize : (Instr.atom (mi v3 v1 v2 0 1 1)).wf = false := by decide
/-- R224: RED does not exchange. -/
theorem test_wf_redOperation : (Instr.red (mi v3 v1 v2 0x100 3 1)).wf = false := by decide
/-- R225: ATOM64B exchanges or compares alone. -/
theorem test_wf_atom64 : (Instr.atom64b (mi v3 v1 v2 0 6 1)).wf = false := by decide
/-- R234: WAITADDR has six comparisons. -/
theorem test_wf_waitaddr : (Instr.waitaddr (mi s1 s1 s1 0xC0 3)).wf = false := by decide
/-- R230: BIND has no size. -/
theorem test_wf_bind : (Instr.bind (mi s1 s1 s1 0 3)).wf = false := by decide
/-- R278: BRX alone of the branches has a source. -/
theorem test_wf_branchSource : (Instr.bra (bi 4 v1 .none)).wf = false := by decide
/-- R278: LOOP's body has two words at least. -/
theorem test_wf_loopOffset : (Instr.loop (bi 1 v1 .none)).wf = false := by decide
/-- R278: SPAWN's payload is of 0 to 6 or 8 registers. -/
theorem test_wf_spawnPayload : (Instr.spawn (bi 4 s1 (.v 1) 0x38)).wf = false := by decide
/-- R278: JOIN uses one low bit. -/
theorem test_wf_join : (Instr.join (bi 0 s1 .none 1)).wf = false := by decide
/-- R247: a matrix word names q0. -/
theorem test_wf_matrixQueue : (Instr.mma (xi (.q 2) (.h 1) (.h 2) 0 0 0 0 0)).wf = false := by decide
/-- R92: formats 0 to 10. -/
theorem test_wf_matrixFormat : (Instr.mma (xi (.q 0) (.h 1) (.h 2) 0 11 0 0 0)).wf = false := by decide
/-- R247: ARR 3 is reserved. -/
theorem test_wf_array : (Instr.mma (xi (.q 0) (.h 1) (.h 2) 0 0 0 0 3)).wf = false := by decide
/-- R260: without a B operand there is no B format. -/
theorem test_wf_latchFormat : (Instr.mma (xi (.q 0) (.h 1) (.sp .zero) 0 0 1 0 0)).wf = false := by decide
/-- R259: format 10 is both operands' or neither's. -/
theorem test_wf_splitFormat : (Instr.mma (xi (.q 0) (.h 1) (.h 2) 0 10 0 0 0)).wf = false := by decide
/-- R266: MZERO's srcA is 0 to 4. -/
theorem test_wf_mzero : (Instr.mzero (xi (.q 0) (.imm 5) .none 0 0 0 0 0)).wf = false := by decide
/-- R267: MWR has bit 0 set. -/
theorem test_wf_mwr : (Instr.mwr (xi v1 s1 .none 0 0 0 0 0)).wf = false := by decide
/-- R268: TXCOMMIT in order names an object. -/
theorem test_wf_txcommit : (Instr.txcommit (xi .none (.sp .zero) .none 0 0 0 0 1)).wf = false := by decide
/-- R253: HMAKE takes four scalars. -/
theorem test_wf_hmake : (Instr.hmake (xi (.h 1) (.s 61) .none 0 0 0 0 0)).wf = false := by decide
/-- R275: COLL has five kinds. -/
theorem test_wf_coll : (Instr.coll (xi (.q 4) (.h 1) (.h 2) 0 0 0 0 5)).wf = false := by decide
/-- R314: PKW uses three bits of its immediate. -/
theorem test_wf_bytecodeImmediate : (Instr.qpPkw { d := 1, a := 0, imm := 8 }).wf = false := by decide
/-- R314: REPT repeats something. -/
theorem test_wf_rept : (Instr.qpRept { d := 0, a := 0, imm := 0x0200 }).wf = false := by decide

/-! ## Decoding: words written out field by field from the formats of R160 to R162 and the codes of Tables 6, 9 and 12 -/

/-- R162, R194: v1 := v1 × 3 + s2 of type U64 (the word of the spec's example). -/
theorem test_decode_imad : decodeWord
    0b00000101_00_000_0_000000001_000000001_110000011_100000010_0110_00_000_0_0000#64 =
    some (.imad { g := open_, d := .v 1, a := .v 1, b := .imm 3, c := .s 2, ty := .u64, sh := .w64, rnd := .rne, sat := false, sub := 0 }) := by decide

/-- R195: v0 := %laneid << 5. -/
theorem test_decode_shl : decodeWord
    0b00010101_00_000_0_000000000_101100010_110000101_000000000_0110_00_000_0_0000#64 =
    some (.shl { g := open_, d := .v 0, a := .sp .laneid, b := .imm 5, c := .none, ty := .u64, sh := .w64, rnd := .rne, sat := false, sub := 0 }) := by decide

/-- R197: s8 := s8 + (s1 << 12). -/
theorem test_decode_lea : decodeWord
    0b00100000_00_000_0_100001000_100001000_100000001_110001100_0110_00_000_0_0000#64 =
    some (.lea { g := open_, d := .s 8, a := .s 8, b := .s 1, c := .imm 12, ty := .u64, sh := .w64, rnd := .rne, sat := false, sub := 0 }) := by decide

/-- R178: s4 := 0x12345678. -/
theorem test_decode_movi : decodeWord
    0b00110000_00_000_0_100000100_000000000_00010010001101000101011001111000#64 =
    some (.movi { g := open_, d := .s 4, a := .none, imm := 0x12345678 }) := by decide

/-- R198: v8 := v4 × s4 + v8 of type F32. -/
theorem test_decode_ffma : decodeWord
    0b01000010_00_000_0_000001000_000000100_100000100_000001000_1010_01_000_0_0000#64 =
    some (.ffma { g := open_, d := .v 8, a := .v 4, b := .s 4, c := .v 8, ty := .f32, sh := .w32, rnd := .rne, sat := false, sub := 0 }) := by decide

/-- R94, R160, R171: FADD.bf16.sr.sat under @!p2, mark .sta. -/
theorem test_decode_fadd : decodeWord
    0b01000000_01_010_1_000001001_000001010_101001000_000000000_1001_10_101_1_0000#64 =
    some (.fadd { g := { mark := 1, pred := 2, neg := true }, d := .v 9, a := .v 10, b := .q 8, c := .none, ty := .bf16, sh := .w16, rnd := .sr, sat := true, sub := 0 }) := by decide

/-- R212: v4 := lane v3 of v2, else -1. -/
theorem test_decode_xpull : decodeWord
    0b10001000_00_000_0_000000100_000000010_000000011_110111111_0110_00_000_0_0000#64 =
    some (.xpull { g := open_, d := .v 4, a := .v 2, b := .v 3, c := .imm 63, ty := .u64, sh := .w64, rnd := .rne, sat := false, sub := 0 }) := by decide

/-- R180: REP of 4 with steps 1, 1, 1 and 0. -/
theorem test_decode_rep : decodeWord
    0b10011000_00_000_0_000000000_000000000_00000000000000000001010100000011#64 =
    some (.rep { g := open_, d := .none, a := .none, imm := 0x1503 }) := by decide

/-- R217: v5 := 4 bytes at v2 + 4 of the A-buffer. -/
theorem test_decode_ld : decodeWord
    0b10100000_00_000_0_000000101_000000010_101100000_0000000100_010_000_00_001_00#64 =
    some (.ld { g := open_, data := .v 5, base := .v 2, idx := .sp .zero, off := 4, size := 2, scope := 0, ord := 0, space := 1, hint := 0 }) := by decide

/-- R224: ATOM.xor (operation 9) at offset 0. -/
theorem test_decode_atom : decodeWord
    0b10100100_00_000_0_000001000_100000100_000000110_0100100000_011_011_01_000_00#64 =
    some (.atom { g := open_, data := .v 8, base := .s 4, idx := .v 6, off := 0x120, size := 3, scope := 3, ord := 1, space := 0, hint := 0 }) := by decide

/-- R278, R279: BRA of 5 words ahead under p1, mark .sta. -/
theorem test_decode_bra : decodeWord
    0b11000000_01_001_0_00000000000000000000000101_000000000_000000000_000000#64 =
    some (.bra { g := { mark := 1, pred := 1, neg := false }, off := 5, a := .none, b := .none, lo := 0 }) := by decide

/-- R286: SPAWN under p1 with counter at s5 and one register from v0. -/
theorem test_decode_spawn : decodeWord
    0b11001010_00_001_0_00000000000000000000000100_100000101_000000000_001000#64 =
    some (.spawn { g := if_ 1, off := 4, a := .s 5, b := .v 0, lo := 8 }) := by decide

/-- R237: BARSYNC of barrier 3. -/
theorem test_decode_barsync : decodeWord
    0b11010010_00_000_0_000000000_000000000_00000000000000000000000000000011#64 =
    some (.barsync { g := open_, d := .none, a := .none, imm := 3 }) := by decide

/-- R234: WAITADDR of 8 bytes at s2 + 1 against s3. -/
theorem test_decode_waitaddr : decodeWord
    0b11010011_00_000_0_100000011_100000010_101100000_0000000001_011_010_01_001_00#64 =
    some (.waitaddr { g := open_, data := .s 3, base := .s 2, idx := .sp .zero, off := 1, size := 3, scope := 2, ord := 1, space := 1, hint := 0 }) := by decide

/-- R241: v10 := the head of q9, under p2. -/
theorem test_decode_qpop : decodeWord
    0b11011001_00_010_0_000001010_101001001_000000000_000000000_0110_00_000_0_0000#64 =
    some (.qpop { g := if_ 2, d := .v 10, a := .q 9, b := .none, c := .none, ty := .u64, sh := .w64, rnd := .rne, sat := false, sub := 0 }) := by decide

/-- R247: MMA of tile 4, h1 by h2, both of format 3. -/
theorem test_decode_mma : decodeWord
    0b11100001_00_000_0_101000000_101010001_101010010_000000100_0011_0011_000_000#64 =
    some (.mma { g := open_, q := .q 0, a := .h 1, b := .h 2, t := 4, fa := 3, fb := 3, lad := 0, fl := 0 }) := by decide

/-- R253: h1 := s8 to s11. -/
theorem test_decode_hmake : decodeWord
    0b11101100_00_000_0_101010001_100001000_000000000_000000000_0000_0000_000_000#64 =
    some (.hmake { g := open_, q := .h 1, a := .s 8, b := .none, t := 0, fa := 0, fb := 0, lad := 0, fl := 0 }) := by decide

/-- R271: CPY of h3 to h4 with s8 up. -/
theorem test_decode_cpy : decodeWord
    0b11101110_00_000_0_101000010_101010011_101010100_000001000_0000_0000_000_000#64 =
    some (.cpy { g := open_, q := .q 2, a := .h 3, b := .h 4, t := 8, fa := 0, fb := 0, lad := 0, fl := 0 }) := by decide

/-- R299: v3 := FCSR. -/
theorem test_decode_rdsr : decodeWord
    0b11110011_00_000_0_000000011_000000000_00000000000000000000000000000000#64 =
    some (.rdsr { g := open_, d := .v 3, a := .none, imm := 0 }) := by decide

/-- R298: TRET with SKIP. -/
theorem test_decode_tret : decodeWord
    0b11110010_00_000_0_000000000_000000000_00000000000000000000000000000001#64 =
    some (.tret { g := open_, d := .none, a := .none, imm := 1 }) := by decide

/-- R155, R156: a header of origin 12, wait mask 0x12, class 1 and three words. -/
theorem test_decode_header : decodeHeader 0b000000000000000000001100_0000000000000000_0000000000010010_0001_0011#64 =
    some { origin := 12, wait := 0x12, cls := 1, nwords := 3 } := by decide

/-- R314: ADD k3, k1, k2. -/
theorem test_decode_bytecode_add : decodeBytecode 0b00000100_0011_0001_0000000000000010#32 =
    some (.qpAdd { d := 3, a := 1, imm := 2 }) := by decide

/-- R314: LAUNCH through window 5 at k7. -/
theorem test_decode_bytecode_launch : decodeBytecode 0b00001011_0000_0111_0000000000000101#32 =
    some (.qpLaunch { d := 0, a := 7, imm := 5 }) := by decide

/-- R314: no bytecode has OP 0x10. -/
theorem test_decode_bytecode_none : decodeBytecode 0x10000000 = none := by decide

/-- R173: opcode 0x00 is no word. -/
theorem test_decode_none : decodeWord 0 = none := by decide

/-! ## One step on the state of the tests -/

/-- Vector register `r` of a lane after an instruction, with values of v1 and v2 in lane 0. -/
def lane0 (i : Instr) (a b : Word) (r : Nat := 3) : Word :=
  (after i (withWarp { bw with vreg := [(32, a), (64, b)] })).v r 0

/-- R194: 0xFFFFFFFF + 2 of U32 wraps to 1; the upper half is its own sum. -/
theorem test_iadd_wraps : lane0 (.iadd (vi v3 v1 v2 .none .u32 .w32)) 0x00000001FFFFFFFF 0x0000000100000002 =
    0x0000000200000001 := by decide +kernel
/-- R194: 100 + 100 of S8 saturates at 127 in every byte. -/
theorem test_iadd_saturates : lane0 (.iadd (vi v3 v1 v2 .none .s8 .w8 0 .rne true)) 0x6464646464646464
    0x6464646464646464 = 0x7F7F7F7F7F7F7F7F := by decide +kernel
/-- R190: lane 1 is not active and keeps its register. -/
theorem test_iadd_other_lane : (after (.iadd (vi v3 v1 v2 .none .u64 .w64))).v 3 1 = 0 := by decide +kernel
/-- R187: lane 2 has its own sources: 7 − 9 of U64. -/
theorem test_isub_lane2 : (after (.isub (vi v3 v1 v2 .none .u64 .w64))).v 3 2 = 0xFFFFFFFFFFFFFFFE := by decide +kernel
/-- R192: a false guard leaves the destination. -/
theorem test_guard : (after (.iadd (vi v1 v1 v2 .none .u64 .w64 0 .rne false never))).v 1 0 = 3 := by decide +kernel
/-- R194: the upper half of 2^63 × 4. -/
theorem test_imulh : lane0 (.imulh (vi v3 v1 v2 .none .u64 .w64)) 0x8000000000000000 4 = 2 := by decide +kernel
/-- R194: −1 < 1 as S32, in the low half; 0 is not below 0. -/
theorem test_icmp_signed : lane0 (.icmp (vi v3 v1 v2 .none .s32 .w32 2)) 0x00000000FFFFFFFF 1 = 0x00000000FFFFFFFF := by
  decide +kernel
/-- R195: −8 >> 1 arithmetically. -/
theorem test_sar : lane0 (.sar (vi v3 v1 v2 .none .u64 .w64)) 0xFFFFFFFFFFFFFFF8 1 = 0xFFFFFFFFFFFFFFFC := by decide +kernel
/-- R195: a shift by 33 of 32 bits is one by 1. -/
theorem test_shl_modulo : lane0 (.shl (vi v3 v1 v2 .none .u32 .w32)) 3 33 = 6 := by decide +kernel
/-- R194: leading zeros of 0 are the width. -/
theorem test_clz_zero : lane0 (.clz (vi v3 v1 .none .none .u32 .w32)) 0x0000000100000000 0 = 0x0000001F00000020 := by
  decide +kernel
/-- R178: MOVI extends the sign. -/
theorem test_movi : (after (.movi (ii v3 .none 0xFFFFFFFE))).v 3 0 = 0xFFFFFFFFFFFFFFFE := by decide +kernel
/-- R178: MOVI.hi keeps the lower half. -/
theorem test_movi_hi : (after (.moviHi (ii v1 .none 0x12345678))).v 1 0 = 0x1234567800000003 := by decide +kernel
/-- R198: 1.0 + 2.0 = 3.0 in F32. -/
theorem test_fadd : lane0 (.fadd (vi v3 v1 v2 .none .f32 .w32)) 0x3F800000 0x40000000 = 0x40400000 := by decide +kernel
/-- R97: ∞ − ∞ is the canonical NaN, and invalid. -/
theorem test_fadd_invalid : (after (.fadd (vi v3 v1 v2 .none .f32 .w32))
    (withWarp { bw with vreg := [(32, 0x7F800000), (64, 0xFF800000)] })).fcsr.getLsbD 0 = true := by decide +kernel
/-- R94: 1 + 2^−24 rounds to the even 1.0, and towards +∞ to the next number. -/
theorem test_fadd_rounds :
    lane0 (.fadd (vi v3 v1 v2 .none .f32 .w32)) 0x3F800000 0x33800000 = 0x3F800000 ∧
    lane0 (.fadd (vi v3 v1 v2 .none .f32 .w32 0 .rup)) 0x3F800000 0x33800000 = 0x3F800001 := by decide +kernel
/-- R101: the reciprocal of −0 is −∞, with DZ. -/
theorem test_rcp_zero : lane0 (.rcp (vi v3 v1 .none .none .f32 .w32)) 0x80000000 0 &&& 0xFFFFFFFF = 0xFF800000 := by
  decide +kernel
/-- R98: 3.5 of F32 to S32 towards zero is 3. -/
theorem test_cvt : lane0 (.cvt (vi v3 v1 (.imm 0) .none .s32 .w32 10 .rtz)) 0x40600000 0 = 3 := by decide +kernel
/-- R215: XBALLOT of p0 gives the participating lanes. -/
theorem test_xballot : (after (.xballot (vi s1 (.pred 0) .none .none .u8 .w64))).s 1 = 5 := by decide +kernel
/-- R216: XRED.add of 3 and 7 from 100. -/
theorem test_xred : (after (.xred (vi s1 v1 .none (.s 2) .u64 .w64)) (withWarp { bw with sreg := [(2, 100)] })).s 1 = 110 := by
  decide +kernel
/-- R207: PSET of 3 < 4 in lane 0 and 7 < 4 in lane 2. -/
theorem test_pset : (after (.pset (vi (.pred 1) v1 (.imm 4) .none .u64 .w64 2))).pred 1 = 1 := by decide +kernel
/-- R280: BRA of 2 from PC 1 goes to 3. -/
theorem test_bra : ((after (.bra (bi 2 .none .none))).thread 0).pos = { pc := 3 } := by decide +kernel
/-- R281: LOOP of 3 over two words. -/
theorem test_loop : ((after (.loop (bi 2 (.imm 3) .none))).thread 0).loops = [{ lc := 3, ls := 2, le := 3 }] := by
  decide +kernel
/-- R25, R284: lanes 0 and 2 exit, and the others go on. -/
theorem test_exit : ((after (.exit (bi 0 .none .none))).thread 2).st = .done ∧
    ((after (.exit (bi 0 .none .none))).thread 1).st = .sub := by decide +kernel
/-- R217: LD of 4 bytes of the A-buffer at 8, byte 0 lowest. -/
theorem test_ld : (afterRuns (.ld (mi v3 (.imm 8) (.sp .zero) 0 2)) 2
    (withBlock { bb with aMem := [(8, 0x78), (9, 0x56), (10, 0x34), (11, 0x12)] })).v 3 0 = 0x12345678 := by decide +kernel
/-- R132: a store of lanes 0 and 2 waits in the store queue, lane 0 first. -/
theorem test_st : (after (.st (mi v1 v2 (.sp .zero) 0 0))).sq.map (fun e => (e.addr, e.bytes)) = [(5, [3]), (9, [7])] := by
  decide +kernel
/-- R224: ATOM.add at 0 by lane 0, then lane 2: the second sees the first's sum. -/
theorem test_atom : (afterRuns (.atom (mi v1 (.sp .zero) (.sp .zero) 0 3 1)) 2).v 1 2 = 3 ∧
    ((next (runs (.atom (mi v1 (.sp .zero) (.sp .zero) 0 3 1)) 2 base)).block 0).map (fun b => Memory.readN b.aMem 0 2) =
      some [10, 0] := by decide +kernel
/-- R220: an atomic at an odd address is ALIGN, with its warp saved to frame 0. -/
theorem test_atom_align : (next (exec (.atom (mi v3 (.imm 1) (.sp .zero) 0 3 1)) base)).warp 0 = none := by decide +kernel
/-- R240: the one warp's BARSYNC ends the phase. -/
theorem test_barsync : ((next (exec (.barsync (ii .none .none 3)) base)).block 0).map (fun b => (b.bar 3).phase) = some 1 := by
  decide +kernel
/-- R241: QPUSH of lanes 0 and 2 to q8, in that order. -/
theorem test_qpush : ((next (exec (.qpush (vi (.q 8) v1 .none .none .u64 .w64)) base)).block 0).map (·.fifo 8) =
    some [3, 7] := by decide +kernel
/-- R299: RDSR of FCSR. -/
theorem test_rdsr : (after (.rdsr (ii s1 .none 0)) (withWarp { bw with fcsr := 0x20 })).s 1 = 0x20 := by decide +kernel
/-- R96: reserved bits store zero, and an RMODE of 7 stores 0. -/
theorem test_wrsr_reserved : (after (.wrsr (ii .none (.imm (-1)) 0))).fcsr = 0x3F3F := by decide +kernel
/-- R353, R355: TRAP 0 enters at PC 2, with cause 0x10 and the trapped lanes. -/
theorem test_trap : (after (.trap (ii .none .none 0))).tregs.tcause = 0x10 ∧
    (after (.trap (ii .none .none 0))).tregs.tmask = 5 ∧ ((after (.trap (ii .none .none 0))).thread 2).pos.pc = 2 := by
  decide +kernel
/-- R169, R355: v255 is above a register count of 255, and cause 1 enters at PC 2. -/
theorem test_illegal : (after (.mov (vi (.v 255) v1 .none .none .u64 .w64))).tregs.tcause = 1 := by decide +kernel
/-- R253: HMAKE puts s1 in the second word of a handle. -/
theorem test_hmake : (after (.hmake (xi (.h 1) (.s 0) .none 0 0 0 0 0))).h 1 = 64 * 2 ^ 64 := by decide +kernel
/-- R266: MZERO joins the engine's queue. -/
theorem test_mzero : ((next (exec (.mzero (xi (.q 0) (.imm 0) .none 0 0 0 0 0)) base)).core 0).q0.map (·.op) = [.mzero] := by
  decide +kernel
/-- R391: no die runs at reset. -/
theorem test_reset : (State.reset.die 0).boot = .reset := by decide
/-- A word placed at reset is the first to run: MOVI s4, 0x12345678. -/
theorem test_step_movi : (((next (step (State.reset.withFetchWord 64 0x3002080012345678))).warp 0).getD {}).s 4 = 0x12345678 := by
  decide +kernel
/-- A bytecode placed at reset is the first to run: LDI k1, 0x1234. -/
theorem test_step_ldi : (((next (step (State.reset.withFetchWord 32 0x02101234))).queue 0 0).bind (·.run)).map (·.k 1) =
    some 0x1234 := by decide +kernel
/-- A word that is no instruction raises ILLEGAL; without a vector that is a double fault (R358). -/
theorem test_step_illegal : (next (step (State.reset.withFetchWord 64 0))).mailbox.length = 1 := by decide +kernel

/-! ## Witnesses: operands and states that meet the hypotheses of the statements -/

/-- The claim of number `k` is about a word that is well formed, and whose registers the warp has. -/
abbrev claimFits (c : VIns → Rnd → List VClaim) (i : VIns) (k : Nat) : Bool :=
  ((c i (modeI bw i))[k]?).any fun p => p.ins.wf && bw.codesOk p.need

/-- v3 := v1, v2, s1 of U32. -/
abbrev u32a : VIns := vi v3 v1 .none .none .u32 .w32
abbrev u32ab : VIns := vi v3 v1 v2 .none .u32 .w32
abbrev u32abc : VIns := vi v3 v1 v2 s1 .u32 .w32
abbrev u64a : VIns := vi v3 v1 .none .none .u64 .w64
abbrev u64abc : VIns := vi v3 v1 v2 s1 .u64 .w64
abbrev f32a : VIns := vi v3 v1 .none .none .f32 .w32
abbrev f32ab : VIns := vi v3 v1 v2 .none .f32 .w32
abbrev f32abc : VIns := vi v3 v1 v2 s1 .f32 .w32
abbrev f64a : VIns := vi v3 v1 .none .none .f64 .w64
abbrev f64ab : VIns := vi v3 v1 v2 .none .f64 .w64
abbrev f64abc : VIns := vi v3 v1 v2 s1 .f64 .w64

/-- The words of each family that the statements' `c` lists, in its order. -/
abbrev intWords : List VIns :=
  [u32ab, u32ab, u32ab, u32ab, u32abc, u32ab, u32ab, vi v3 v1 .none .none .s32 .w32, u32abc, u32ab, u32abc]
abbrev bitWords : List VIns := [u32ab, u32ab, u32ab, u32ab, u32a, u32ab, u32ab, u32ab, u32ab, u32ab, u32abc, u32a]
abbrev moveWords : List VIns :=
  [u32a, u32a, u32a, u32abc, u64a, vi v3 v1 v2 (.pred 1) .u64 .w64, u64abc, vi v3 v1 v2 .none .u8 .w8,
   vi v3 v1 (.imm 1) .none .u8 .w8]
abbrev orderWords : List VIns := [f32ab, f32ab, f32a, f32a, f32ab, vi v3 v1 (.imm 5) .none .f32 .w32]
abbrev roundWords : List VIns := [f32a, f32ab, f32ab, f32abc, f32abc, f32ab]
abbrev transWords : List VIns := List.replicate 9 f32a
abbrev convWords : List VIns := [vi v3 v1 (.imm 0) .none .s32 .w32 10, f32ab]

/-- For every word of IntegerArithmeticByLane, LogicAndShiftsByLane, MovesAndCountsByLane, FloatOrderByLane,
FloatRoundedByLane, TranscendentalsByLane and ConversionsByLane: a visit and operands that meet its hypotheses. -/
theorem test_witness_vectorForms : Issues base iss bw ∧
    (∀ i ∈ intWords ++ bitWords ++ moveWords ++ orderWords ++ roundWords ++ transWords ++ convWords,
      i.d = .v 3 ∧ NoQueue i) ∧
    (∀ k < 11, claimFits intClaims (intWords.getD k default) k = true) ∧
    (∀ k < 12, claimFits bitClaims (bitWords.getD k default) k = true) ∧
    (∀ k < 9, claimFits moveClaims (moveWords.getD k default) k = true) ∧
    (∀ k < 6, claimFits orderClaims (orderWords.getD k default) k = true) ∧
    (∀ k < 6, claimFits roundClaims (roundWords.getD k default) k = true) ∧
    (∀ k < 9, claimFits transClaims (transWords.getD k default) k = true) ∧
    ∀ k < 2, claimFits convClaims (convWords.getD k default) k = true := by decide +kernel

/-- ScalarUnitForms: s3 := s1 + 1 of U64, and an F64 sum. -/
theorem test_witness_ScalarUnitForms : Issues base iss bw ∧
    vScalar (vi (.s 3) s1 (.imm 1) .none .u64 .w64) = true ∧
    claimFits intClaims (vi (.s 3) s1 (.imm 1) .none .u64 .w64) 0 = true ∧
    vScalar (vi (.s 3) s1 (.imm 1) .none .f64 .w64) = true ∧
    claimFits sumClaims (vi (.s 3) s1 (.imm 1) .none .f64 .w64) 0 = true := by decide +kernel

/-- A block with two elements in q8 and an empty q9. -/
def fifoBlock : Block := { bb with fifos := [(8, [1, 2])] }

/-- QueueOperands: q9 := q8 + v1 has elements and room; v3 := q9 + v1 has no element, for its two lanes. -/
theorem test_witness_QueueOperands :
    let s := withBlock fifoBlock
    let ready := vi (.q 9) (.q 8) v1 .none .u32 .w32
    let waits := vi v3 (.q 9) v1 .none .u32 .w32
    Issues s iss bw ∧ ready.d.isS = false ∧ (popQueue ready).isSome = true ∧ (queueOf ready.d).isSome = true ∧
    s.atHome iss.wk bw = true ∧ (lanesOf (bw.partLanes iss ready.g)).length = 2 ∧
    s.fifoOk iss.wk bw (popQueue ready) (queueOf ready.d) 2 = true ∧ claimFits intClaims ready 0 = true ∧
    (popQueue waits).isSome = true ∧ s.fifoOk iss.wk bw (popQueue waits) (queueOf waits.d) 2 = false ∧
    claimFits intClaims waits 0 = true := by decide +kernel

/-- F64TakesTwoVisits: each of its five words of type F64. -/
theorem test_witness_F64TakesTwoVisits : Issues base iss bw ∧ (∀ e ∈ bw.f64, e.iss ≠ iss) ∧
    (∀ i ∈ [f64ab, f64ab, f64abc, f64abc, f64ab], i.d = .v 3 ∧ NoQueue i ∧ i.ty = .f64) ∧
    ∀ k < 5, claimFits sumClaims ([f64ab, f64ab, f64abc, f64abc, f64ab].getD k default) k = true := by decide +kernel

/-- CodesAboveNAreIllegal: v255 of a warp of 255 registers. -/
theorem test_witness_CodesAboveNAreIllegal : Issues base iss bw ∧
    ((intClaims (vi (.v 255) v1 v2 .none .u32 .w32) .rne)[0]?).any (fun p => p.ins.wf && !bw.codesOk p.need) = true := by
  decide +kernel

/-- ImmediateForms: each word with a v destination, and MOVI with an s destination. -/
theorem test_witness_ImmediateForms : Issues base iss bw ∧
    (∀ k < 8, ((immClaims[k]?).any fun p =>
      (p.1 (if k = 0 ∨ k = 6 ∨ k = 7 then ii v3 .none 7 else ii v3 v1 7)).wf) = true) ∧
    (Instr.movi (ii (.s 3) .none 7)).wf = true ∧ bw.codesOk [(v3, 1), (v1, 1)] = true ∧
    bw.codesOk [(.s 3, 1), (.none, 1)] = true := by decide +kernel

/-- UniformMovesAndPredicates: no lane, equal values and different ones for MOV.u; PSET, PLOP and XVOTE. -/
theorem test_witness_UniformMovesAndPredicates :
    let u := fun (a : Opnd) (g : Guard) => vi (.s 3) a .none .none .u64 .w64 1 .rne false g
    let val := fun (i : VIns) l => base.src iss.wk bw .u64 i.a l 0
    Issues base iss bw ∧ (∀ i ∈ [u v1 never, u s1 open_, u v1 open_], (Instr.movU i).wf = true ∧
      bw.codesOk (needs i) = true ∧ popQueue i = none) ∧
    lanesOf (bw.partLanes iss never) = [] ∧ lanesOf (bw.partLanes iss open_) = [0, 2] ∧
    val (u s1 open_) 0 = val (u s1 open_) 2 ∧ val (u v1 open_) 0 ≠ val (u v1 open_) 2 ∧
    (Instr.pset (vi (.pred 1) v1 v2 .none .u32 .w32 2)).wf = true ∧
    bw.codesOk (needs (vi (.pred 1) v1 v2 .none .u32 .w32 2)) = true ∧
    (Instr.plop (vi (.pred 1) (.pred 2) (.pred 3) .none .u8 .w64 0)).wf = true ∧
    (Instr.plop (vi (.pred 1) (.pred 2) (.pred 0) .none .u8 .w64 4)).wf = true ∧
    (Instr.xvote (vi (.pred 1) (.pred 2) .none .none .u8 .w64 2)).wf = true := by decide +kernel

/-- Quantise: v4 and v5 from v1 of F32. -/
theorem test_witness_Quantise :
    let i := vi (.v 4) v1 .none .none .f32 .w32 3
    Issues base iss bw ∧ (Instr.qnt i).wf = true ∧ i.d = .v 4 ∧ bw.codesOk [(i.d, 2), (i.a, 1)] = true ∧
    popQueue i = none := by decide +kernel

/-- CrossLaneMoves: each word, with a v destination, and XBALLOT with an s destination. -/
theorem test_witness_CrossLaneMoves : Issues base iss bw ∧
    (let at_ := fun (i : VIns) k => ((crossClaims i)[k]?).any fun p =>
      p.1.wf && bw.codesOk (needs i) && (popQueue i).isNone && (queueOf i.d).isNone
     at_ u32abc 0 = true ∧ at_ (vi v3 v1 (.imm 1) s1 .u32 .w32) 1 = true ∧ at_ (vi v3 v1 (.imm 1) s1 .u32 .w32) 2 = true ∧
     at_ u32ab 3 = true ∧ at_ (vi (.s 3) (.pred 1) .none .none .u8 .w64) 4 = true ∧ at_ u64a 5 = true) := by
  decide +kernel

/-- CrossLaneFolds: a stochastic sum of BF16, and an exclusive scan. -/
theorem test_witness_CrossLaneFolds : Issues base iss bw ∧
    (∀ i ∈ [vi v3 v1 .none (.imm 0) .bf16 .w16 0 .sr, vi v3 v1 .none (.imm 0) .u32 .w32 1], (Instr.xred i).wf = true ∧
      bw.codesOk (needs i) = true ∧ popQueue i = none ∧ queueOf i.d = none) ∧
    (Instr.xscan (vi v3 v1 .none (.imm 0) .u32 .w32 8)).wf = true := by decide +kernel

/-- RepeatWord: the word behind is a MOV of v3 that may repeat; at the last word of a clause REP may not stand. -/
theorem test_witness_RepeatWord :
    let s : State := { base with launches := [(0, { bl with resid := some { code := [0x10, 0, encode (.mov u64a), 0] } })] }
    let last := { iss with last := true }
    let s' := { s with cur := .warp last }
    (Issues s iss bw ∧ (!iss.last && repLegal ((s.codeOf bw.activeCode).getD (iss.pc.toNat + 1) 0) 0x1503) = true) ∧
    Issues s' last bw ∧ (!last.last && repLegal ((s.codeOf bw.activeCode).getD (iss.pc.toNat + 1) 0) 0x1503) = false := by
  decide +kernel

/-- NextPosition: a thread with repeats left, one within a loop, one at its last word with iterations left, and one in the
last iteration. -/
theorem test_witness_NextPosition :
    let v : LoopLevel := { lc := 2, ls := 1, le := 1 }
    let t := fun (n : Nat) (l : List LoopLevel) => ({ thr with pos := { thr.pos with rep := n }, loops := l } : Thread)
    1 < (t 2 []).pos.rep ∧ ((t 1 [{ v with le := 9 }]).pos.rep ≤ 1 ∧ (t 1 [{ v with le := 9 }]).loops.head?.all (fun v => v.le != iss.pc) = true) ∧
    ((t 0 [v]).loops = v :: [] ∧ v.le = iss.pc ∧ v.lc ≠ 1) ∧
    (t 0 [{ v with lc := 1 }]).loops = { v with lc := 1 } :: [] := by decide +kernel

/-- TransfersAndLoops: every transfer; LOOP of lanes with levels left, and LOOP of a lane that has four. -/
theorem test_witness_TransfersAndLoops :
    let v : LoopLevel := { lc := 2, ls := 1, le := 9 }
    let w4 := { bw with threads := List.replicate 32 { thr with loops := [v, v, v, v] } }
    let l := bi 2 v1 .none
    Issues base iss bw ∧ (Instr.bra (bi 4 .none .none)).wf = true ∧ (Instr.brx (bi 4 v1 .none)).wf = true ∧
    (Instr.call (bi 4 v1 .none)).wf = true ∧ (Instr.ret (bi 0 v1 .none)).wf = true ∧
    (Instr.loopx (bi 4 .none .none)).wf = true ∧ bw.codesOk [(v1, 1)] = true ∧ (Instr.loop l).wf = true ∧
    (∀ i ∈ lanesOf (bw.partLanes iss l.g), (bw.thread i).loops.length < 4) ∧
    Issues (withWarp w4) iss w4 ∧ ∃ i ∈ lanesOf (w4.partLanes iss l.g),
      ((withWarp w4).opnd iss.wk w4 l.a i).setWidth 32 ≠ 0 ∧ 4 ≤ (w4.thread i).loops.length := by
  decide +kernel

/-- The warp of the tests with its lanes 0 and 2 alone runnable. -/
def twoLanes : Warp :=
  { bw with threads := (List.range 32).map fun l => if l = 0 ∨ l = 2 then thr else { thr with st := .done } }

/-- OneSlotWords: ELECT of p1; EXIT with threads left and without. -/
theorem test_witness_OneSlotWords :
    Issues base iss bw ∧ (Instr.elect (bi 0 (.pred 1) .none)).wf = true ∧
    (∀ p ∈ [(base, bw), (withWarp twoLanes, twoLanes)], Issues p.1 iss p.2 ∧ p.2.inTrap = false ∧
      p.1.isDet p.2.blk = false ∧ p.2.owedJoins (p.2.partLanes iss open_) = [] ∧
      (p.1.block p.2.blk).map (·.tx.begun) = some []) ∧
    (bw.thread 1).runnable = true ∧ ∀ l < 32, l ≠ 0 → l ≠ 2 → (twoLanes.thread l).runnable = false := by decide +kernel

/-- A warp in trap mode: the threads of lanes 0 and 2 are the trapped set; `t0` and `t2` say which have executed TRET. -/
def trapWarp (t0 t2 : Option Bool) : Warp :=
  let t := { thr with trapped := true, save := some { pos := { pc := 1, hdr := some 0 }, loops := [] } }
  { bw with
    tregs := { tcause := 0x10 }
    threads := (List.range 32).map fun l =>
      if l = 0 then { t with tret := t0 } else if l = 2 then { t with tret := t2 } else thr }

/-- SystemRegisters: each register of Table 7 out of trap mode and in it, and a number that is none. -/
theorem test_witness_SystemRegisters :
    let w := trapWarp none none
    Issues base iss bw ∧ Issues (withWarp w) iss w ∧ bw.inTrap = false ∧ w.inTrap = true ∧
    (∀ n ∈ [0x000, 0x001, 0x002, 0x003, 0x010, 0x015, 0x005, 0x016, 0xFFF], (Instr.rdsr (ii v3 .none (BitVec.ofNat 32 n))).wf = true ∧
      (Instr.wrsr (ii .none s1 (BitVec.ofNat 32 n))).wf = true) ∧
    bw.codesOk [(v3, 1)] = true ∧ bw.electedGuard iss open_ = true ∧ bw.electedGuard iss never = false ∧
    dieOfWk iss.wk < 4 := by decide +kernel

/-- ClockSleepAndFlagFence: CLOCK, SLEEP of nothing and of 5 ck, its end at that count; TFENCE with nothing outstanding, and
with a command in q0. -/
theorem test_witness_ClockSleepAndFlagFence :
    let none_ := ii .none (.sp .zero) 0
    let five := ii .none (.sp .zero) 5
    let s : State := { base with cores := [(0, { q0 := [{ uid := 1 }] })] }
    let asleep := next (exec (.sleep five) base)
    Issues base iss bw ∧ bw.electedGuard iss open_ = true ∧ (Instr.clock (ii v3 .none 0)).wf = true ∧
    bw.codesOk [(v3, 1)] = true ∧ (Instr.sleep none_).wf = true ∧ (base.uni iss.wk bw none_.a).toNat = 0 ∧
    (Instr.sleep five).wf = true ∧
    (∃ w, asleep.warp iss.wk = some w ∧ w.pend.isSome = true ∧ w.threads = bw.threads ∧
      ({ asleep with ck := 5 } : State).coreIssues iss.wk w = true) ∧
    base.matrixLeft bw = false ∧ bw.fcsr = 0 ∧ Issues s iss bw ∧ bw.partLanes iss open_ ≠ 0 ∧ s.matrixLeft bw = true := by
  and_intros <;> decide +kernel

/-- SoftAndArithTraps: TRAP 0 with and without a lane, and TFENCE with IV enabled and set. -/
theorem test_witness_SoftAndArithTraps :
    let w := { bw with fcsr := 0x101 }
    Issues base iss bw ∧ bw.inTrap = false ∧ bw.partLanes iss never = 0 ∧ bw.partLanes iss open_ ≠ 0 ∧
    vectorMode (vectorWord base iss.wk bw 0x20) = 1 ∧ Issues (withWarp w) iss w ∧ (withWarp w).matrixLeft w = false ∧
    w.fcsr.toNat % 64 &&& w.fcsr.toNat / 256 % 64 ≠ 0 ∧ vectorMode (vectorWord (withWarp w) iss.wk w 0x11) = 1 := by
  decide +kernel

/-- FaultsAndDoubleFaults: ILLEGAL with a vector, LOOPDEPTH without one, and a warp in trap mode. -/
theorem test_witness_FaultsAndDoubleFaults :
    let w := trapWarp none none
    Issues base iss bw ∧ bw.inTrap = false ∧ vectorMode (vectorWord base iss.wk bw 0x01) = 1 ∧
    vectorMode (vectorWord base iss.wk bw 0x0B) = 0 ∧ Issues (withWarp w) iss w ∧ w.inTrap = true ∧
    w.partLanes iss open_ ≠ 0 := by decide +kernel

/-- TrapReturn: a false guard, TRET out of trap mode, one of lane 0 while lane 2 has not executed it, and one of both. -/
theorem test_witness_TrapReturn :
    let i := ii .none .none 1
    let one := { iss with lanes := 1 }
    let s : State := { withWarp (trapWarp none none) with cur := .warp one }
    Issues base iss bw ∧ (Instr.tret i).wf = true ∧ bw.tregs.tcause.toNat ≠ 9 ∧ bw.electedGuard iss never = false ∧
    bw.electedGuard iss i.g = true ∧ bw.inTrap = false ∧
    (Issues s one (trapWarp none none) ∧ (trapWarp none none).inTrap = true ∧
      ((trapWarp none none).thread 2).trapped = true ∧ ((trapWarp none none).thread 2).tret = none) ∧
    Issues (withWarp (trapWarp none none)) iss (trapWarp none none) ∧
    ∀ l < 32, ((trapWarp none none).thread l).trapped = true →
      iss.lanes.getLsbD l = true ∧ ((trapWarp none none).thread l).save.isSome = true := by decide +kernel

/-- LocalLoads: LD of two lanes, LDU, and an acquiring LD. -/
theorem test_witness_LocalLoads :
    let ok := fun (i : MIns) (uni : Bool) =>
      bw.codesOk [(i.data, (2 ^ i.size.toNat + 7) / 8), (i.base, 1), (i.idx, 1)] = true ∧
      LocalOk base iss bw bb (loadMask bw iss i uni) (fun l => base.ea iss.wk bw i false l) (2 ^ i.size.toNat)
    Issues base iss bw ∧ bw.unfinished = none ∧ (Instr.ld (mi v3 v2 (.sp .zero) 0 3)).wf = true ∧ ok (mi v3 v2 (.sp .zero) 0 3) false ∧
    (Instr.ld (mi v3 v2 (.sp .zero) 0 3 3 1)).wf = true ∧ ok (mi v3 v2 (.sp .zero) 0 3 3 1) false ∧
    (Instr.ldu (mi (.s 3) s1 (.sp .zero) 0 4)).wf = true ∧ ok (mi (.s 3) s1 (.sp .zero) 0 4) true := by decide +kernel

/-- The access of a word of the tests, all its checks ahead. -/
abbrev accessOf (s : State) (i : MIns) (acc : Nat) (place : Nat → Option Nat := fun _ => none)
    (w : Warp := bw) : Access :=
  { space := i.space.toNat, size := 2 ^ i.size.toNat, acc,
    lanes := (lanesOf (w.partLanes iss i.g)).map fun l => (l, s.ea iss.wk w i false l), place }

/-- A warp whose s1 is 2^30, where the host bus lies. -/
def hostWarp : Warp := { bw with sreg := [(1, BitVec.ofNat 64 (2 ^ 30))] }

/-- LoadsByPieces: LD of 8 bytes of global space at 69, which takes more than one piece, and of host space. -/
theorem test_witness_LoadsByPieces :
    let i := mi v3 v2 (.s 1) 0 3 0 0 0
    let h := { i with space := 5 }
    Issues base iss bw ∧ bw.unfinished = none ∧ (Instr.ld i).wf = true ∧
    bw.codesOk [(i.data, 1), (i.base, 1), (i.idx, 1)] = true ∧ loadMask bw iss i false ≠ 0 ∧
    (∃ r, base.checkAccess iss.wk bw (accessOf base i 0) = .ok r ∧ 2 < r.2.length) ∧
    Issues (withWarp hostWarp) iss hostWarp ∧ hostWarp.unfinished = none ∧ (Instr.ld h).wf = true ∧
    ∃ r, (withWarp hostWarp).checkAccess iss.wk hostWarp (accessOf (withWarp hostWarp) h 0 (w := hostWarp)) = .ok r ∧ 0 < r.2.length := by
  and_intros <;> first | decide +kernel | exact some_ok (by decide +kernel)

/-- StoresEnterTheQueue: ST of global space, of the A-buffer, its whole range there, and of host space; a lane-less one. -/
theorem test_witness_StoresEnterTheQueue :
    let g := mi v1 v2 (.s 1) 0 3 0 0 0
    let l := mi v1 v2 (.s 1) 0 3
    let h := { g with space := 5 }
    Issues base iss bw ∧ (Instr.st g).wf = true ∧ (Instr.st l).wf = true ∧
    bw.codesOk [(v1, 1), (v2, 1), (.s 1, 1)] = true ∧ g.ord ≠ 2 ∧ bw.partLanes iss g.g ≠ 0 ∧ bw.partLanes iss never = 0 ∧
    LocalOk base iss bw bb (bw.partLanes iss l.g) (fun l' => base.ea iss.wk bw l false l') 8 ∧
    (∃ r, base.checkAccess iss.wk bw (accessOf base g 1 (base.argPlace bw 0 8)) = .ok r ∧ 0 < r.2.length) ∧
    (∃ r, base.checkAccess iss.wk bw (accessOf base l 1 (base.argPlace bw 1 8)) = .ok r ∧ 0 < r.2.length) ∧
    let s := withWarp hostWarp
    Issues s iss hostWarp ∧ (Instr.st h).wf = true ∧
    ∃ r, s.checkAccess iss.wk hostWarp (accessOf s h 1 (s.argPlace hostWarp 5 8) hostWarp) = .ok r ∧ 0 < r.2.length := by
  and_intros <;> first | decide +kernel | exact some_ok (by decide +kernel)

/-- A store-queue entry of one byte. -/
def entry (space addr : Nat) : SqEntry := { space, addr, bytes := [7], attr := { pa := addr } }

/-- StoresAndMemorySystem, the stores: an entry of the A-buffer, the C-buffer, global and host space each, and a bypass store
of a line that the slice does not hold; and an entry of a member whose transaction is open no more. -/
theorem test_witness_StoreDrains :
    (∀ e ∈ [entry 1 8, entry 4 8, entry 0 8, { entry 0 8 with hint := 3 }, entry 5 8],
      let w := { bw with sq := [e] }
      let s := withWarp w
      s.warp 0 = some w ∧ w.sq[0]? = some e ∧ s.warpLives 0 w = true ∧ (∀ x ∈ w.sq.take 0, x.overlaps e = false) ∧
      e.member = false ∧ s.isDet w.blk = false ∧ s.block e.blk = some bb ∧ Memory.wf bb.aMem = true ∧
      e.attr.pa % 64 + e.bytes.length ≤ 64 ∧ e.bytes ≠ []) ∧ (base.sliceLine 0 0).isNone = true ∧
    let e := { entry 1 8 with member := true }
    let w := { bw with sq := [e] }
    (withWarp w).warp 0 = some w ∧ (withWarp w).warpLives 0 w = true ∧ (withWarp w).isMember 0 w = false ∧
    bb.txOpen = false := by decide +kernel

/-- LocalAtomics: ATOM.add, RED.add and ATOM64B.exch of lanes at aligned places. -/
theorem test_witness_LocalAtomics :
    let a := mi v3 (.sp .zero) (.s 1) 0 3 1
    let x := mi (.v 8) (.sp .zero) (.s 1) 0x100 6 1
    Issues base iss bw ∧ bw.sq = [] ∧ bw.unfinished = none ∧ bb.txOpen = false ∧ Memory.wf bb.aMem = true ∧ (Instr.atom a).wf = true ∧
    (Instr.red a).wf = true ∧ (Instr.atom64b x).wf = true ∧
    bw.codesOk [(a.data, MKind.group .atom a), (a.base, 1), (a.idx, 1)] = true ∧
    bw.codesOk [(x.data, MKind.group .atom64 x), (x.base, 1), (x.idx, 1)] = true ∧
    LocalOk base iss bw bb (bw.partLanes iss a.g) (fun l => base.ea iss.wk bw a true l) 8 ∧
    LocalOk base iss bw bb (bw.partLanes iss x.g) (fun l => base.ea iss.wk bw x true l) 64 ∧
    ∀ l ∈ lanesOf (bw.partLanes iss a.g), base.ea iss.wk bw a true l % 8 = 0 ∧ base.ea iss.wk bw x true l % 64 = 0 := by
  decide +kernel

/-- AccessChecks: misaligned atomics, atomics and loads beyond the allocation. -/
theorem test_witness_AccessChecks :
    let odd := mi v3 v2 (.sp .zero) 0 3 1
    let far := mi v3 (.sp .zero) (.s 1) 0 3 1
    let w := { bw with sreg := [(1, 4096)] }
    let s := withWarp w
    Issues base iss bw ∧ bw.unfinished = none ∧ base.atHome iss.wk bw = true ∧ w.unfinished = none ∧ s.atHome iss.wk w = true ∧
    (Instr.atom odd).wf = true ∧ bw.codesOk [(v3, 1), (v2, 1), (.sp .zero, 1)] = true ∧
    (lanesOf (bw.partLanes iss odd.g)).filter (fun l => base.ea iss.wk bw odd true l % 8 ≠ 0) = [0, 2] ∧
    Issues s iss w ∧ s.block w.blk = some bb ∧ (Instr.atom far).wf = true ∧ (Instr.red far).wf = true ∧
    (lanesOf (w.partLanes iss far.g)).filter (fun l => s.ea iss.wk w far true l % 8 ≠ 0) = [] ∧
    (lanesOf (w.partLanes iss far.g)).filter (fun l => bb.aSize < s.ea iss.wk w far true l + 8) = [0, 2] ∧
    (Instr.ld (mi v3 (.sp .zero) (.s 1) 0 3)).wf = true ∧ (Instr.st (mi v1 (.sp .zero) (.s 1) 0 3)).wf = true := by
  decide +kernel

/-- FaultsSaveTheWarp: a partition with no frame, and one with frame 0 free and room in its ring. -/
theorem test_witness_FaultsSaveTheWarp :
    let none_ := withPart { bp with regs := { bp.regs with frameCnt := 0 } }
    Issues base iss bw ∧ Issues none_ iss bw ∧ bw.inTrap = false ∧ (none_.part 0).isSome = true ∧
    (none_.partD 0).regs.frameCnt.toNat = 0 ∧ base.partOf bw = 0 ∧ 0 < min (base.partD 0).regs.frameCnt.toNat 32768 ∧
    (KMap.get? (base.partD 0).frames 0).isNone = true ∧ base.ringRoom 0 1 = true ∧
    (base.die (dieOfWk iss.wk)).waitEv.all (·.part != 0) = true := by decide +kernel

/-- BindingWords: BIND of 64 bytes at 64 to the object at 64 of the A-buffer, while the entry is not there, is there, and with 64
others; to one in global space; of a region past the end; UNBIND, also with length 0; an object off its line, a region off its
line, and one of 2^40 bytes and a line more; and a warp away from its block's core. -/
theorem test_witness_BindingWords :
    let i := mi s1 s1 s1 1 0
    let odd := mi (.imm 8) s1 s1 1 0
    let e : Binding := { blk := 0, oab := true, obj := 64, space := 1, base := 64, len := 64 }
    let full : State := { base with cores := [(0, { binds := (List.range 64).map fun k => { e with base := 128 + k } })] }
    let had : State := { base with cores := [(0, { binds := [e] })] }
    let end_ := withWarp { bw with sreg := [(1, 64), (2, 4096)] }
    let long := withWarp { bw with sreg := [(1, 64), (2, BitVec.ofNat 64 (2 ^ 40 + 64))] }
    let away := withBlock { bb with core := 5 }
    Issues base iss bw ∧ base.block bw.blk = some bb ∧ base.atHome iss.wk bw = true ∧ bw.electedGuard iss i.g = true ∧
    bw.electedGuard iss never = false ∧ (Instr.bind i).wf = true ∧ (Instr.unbind i).wf = true ∧
    (Instr.bind { i with off := 0 }).wf = true ∧ (Instr.unbind { i with idx := .sp .zero }).wf = true ∧
    (base.uni iss.wk bw s1).toNat = 64 ∧ (base.uni iss.wk bw (.sp .zero)).toNat = 0 ∧ 64 + 64 ≤ bb.aSize ∧
    LocalOk base iss bw bb (maskOf [iss.elected]) (fun _ => 64) 64 ∧
    (∃ u a, base.translate 0 0 64 0 0 = (u, .ok a) ∧ u.reach 0 (dieOfPa a.pa) = true) ∧
    e ∉ (base.core 0).binds ∧ (base.core 0).binds.length < 64 ∧ Issues had iss bw ∧ e ∈ (had.core 0).binds ∧
    Issues full iss bw ∧ e ∉ (full.core 0).binds ∧ 64 ≤ (full.core 0).binds.length ∧
    bb.aSize < (end_.uni 0 { bw with sreg := [(1, 64), (2, 4096)] } (.s 2)).toNat + 64 ∧
    (Instr.bind { i with base := .s 2 }).wf = true ∧ (Instr.bind { i with idx := .s 2 }).wf = true ∧
    2 ^ 40 < (long.uni 0 { bw with sreg := [(1, 64), (2, BitVec.ofNat 64 (2 ^ 40 + 64))] } (.s 2)).toNat ∧
    (Instr.bind odd).wf = true ∧ (base.uni iss.wk bw odd.data).toNat % 64 ≠ 0 ∧
    (Instr.bind { i with base := .imm 8 }).wf = true ∧ Issues away iss bw ∧ away.atHome iss.wk bw = false := by
  and_intros <;> first | decide +kernel | exact pair_ok (by decide +kernel)

/-- AcquireReleaseAndFence: ACQ and REL of the object at 64, in the A-buffer, and in global space at cluster and at stack
scope; REL by a member of an open transaction; FENCE of each order. -/
theorem test_witness_AcquireReleaseAndFence :
    let near := mi (.s 3) s1 (.sp .zero) 0 0 3
    let glob := mi (.s 3) s1 (.sp .zero) 0 0 4 0 0
    let member := withBlock { bb with tx := { phase := .open, begun := [1] } }
    Issues base iss bw ∧ base.isDet bw.blk = false ∧ bw.electedGuard iss open_ = true ∧ bw.electedGuard iss never = false ∧
    base.block bw.blk = some bb ∧ (base.uni iss.wk bw s1 + base.uni iss.wk bw (.sp .zero)).toNat = 64 ∧
    LocalOk base iss bw bb (maskOf [iss.elected]) (fun _ => 64) 64 ∧ (Instr.acq near).wf = true ∧ (Instr.acq glob).wf = true ∧
    (Instr.acq { glob with scope := 3 }).wf = true ∧ (Instr.rel { near with data := .none }).wf = true ∧
    (Instr.rel { glob with data := .none }).wf = true ∧ (Instr.rel { glob with data := .none, scope := 3 }).wf = true ∧
    (∃ u a, base.translate 0 0 64 0 0 = (u, .ok a) ∧ u.reach 0 (dieOfPa a.pa) = true ∧ a.pa % 64 = 0) ∧
    (∃ u a, base.translate 0 0 64 0 2 = (u, .ok a) ∧ u.reach 0 (dieOfPa a.pa) = true ∧ a.pa % 64 = 0 ∧ a.cmp = 0 ∧
      a.ace = false ∧ Memory.wf ((u.writeBack 0 (a.pa / 64)).deliverAll 0 (stackOfPa a.pa)).hbm = true) ∧
    base.argPlace bw 0 64 64 = none ∧ base.isMember iss.wk bw = false ∧ NothingToRelease bw ∧ bb.txOpen = false ∧
    Memory.wf bb.aMem = true ∧ Issues member iss bw ∧ member.isMember iss.wk bw = true ∧
    (∀ o < 3, (Instr.fence (mi .none .none .none 0 0 7 (BitVec.ofNat 2 (o + 1)) 0)).wf = true) ∧
    (Instr.fence (mi .none .none .none 0 0 3 1 0)).wf = true ∧ bb.dirty = [] ∧ bb.mapFixup = [] ∧ RisingKeys base.dx := by
  and_intros <;> first | decide +kernel | exact pair_ok (by decide +kernel)

/-- The access of WAITADDR for 8 bytes at 64. -/
abbrev pollOf (s : State) (i : MIns) : Access :=
  { space := i.space.toNat, size := 8, acc := 0, aligned := true, home := true,
    lanes := [(iss.elected, s.ea iss.wk bw i true iss.elected)],
    place := fun _ => if i.space.toNat = 5 then some 0 else none }

/-- WaitAndPrefetch: WAITADDR for equality with 0 holds and with 64 does not, at a place that passes the checks; at the visit
after a poll that held, and Blocked before it; PREFETCH of a global line by one lane, and of another space. -/
theorem test_witness_WaitAndPrefetch :
    let eq0 := mi (.sp .zero) s1 (.sp .zero) 0 3
    let eq64 := mi s1 s1 (.sp .zero) 0 3
    let p := mi .none s1 (.sp .zero) 0 3 0 0 0
    let one := { iss with lanes := 1 }
    let s : State := { base with cur := .warp one }
    let waits := fun (met : Bool) =>
      ({ bw with pend := some { iss, word := .waitaddr eq0, why := .waitaddr, ticket := 0, since := 0, met } } : Warp)
    Issues base iss bw ∧ bw.waitMet = false ∧ (Instr.waitaddr eq0).wf = true ∧ (Instr.waitaddr eq64).wf = true ∧
    bw.electedGuard iss open_ = true ∧ bw.electedGuard iss never = false ∧
    (∃ r, base.checkAccess iss.wk bw (pollOf base eq0) = .ok r ∧ r.2.length = 1 ∧
      (r.1.pollRead 0 bw 1 { (r.2.getD 0 default) with n := 8 }).2 = List.replicate 8 0) ∧
    (eq0.aop = 0 ∧ (0 : Nat) = (base.uni iss.wk bw eq0.data).toNat) ∧ (0 : Nat) ≠ (base.uni iss.wk bw eq64.data).toNat ∧
    Issues (withWarp (waits true)) iss (waits true) ∧ (waits true).waitMet = true ∧
    Issues (withWarp (waits false)) iss (waits false) ∧ (waits false).waitMet = false ∧ (waits false).st = .run ∧
    ((withWarp (waits false)).setWarp 0 { (waits false) with st := .blocked }).coreIssues iss.wk (waits false) = true ∧
    Issues s one bw ∧ (Instr.prefetch p).wf = true ∧ (Instr.prefetch { p with space := 1 }).wf = true ∧
    bw.codesOk [(p.base, 1), (p.idx, 1)] = true ∧ lanesOf (bw.partLanes one p.g) = [0] ∧
    ∃ u a, s.translate (dieOfWk iss.wk) (s.partOf bw) (s.ea iss.wk bw p false 0 / 64 * 64) 0 0 = (u, .ok a) ∧
      u.reach (dieOfWk iss.wk) (dieOfPa a.pa) = true := by
  and_intros <;> first | decide +kernel | exact some_ok (by decide +kernel) | exact pair_ok (by decide +kernel)

/-- BarrierWords: a barrier that this arrival ends, one that it does not, one that has ended, and a number at B. -/
theorem test_witness_BarrierWords :
    let i := ii .none .none 3
    let two := ii .none .none 0x203
    let b1 : Block := { bb with bars := [(3, { phase := 1 })] }
    let w1 : Warp := { bw with barSeen := [(3, 0)] }
    let s1 : State := { withBlock b1 with warps := [(0, w1)] }
    Issues base iss bw ∧ base.block bw.blk = some bb ∧ bw.sq = [] ∧ bw.barWaits = none ∧ bw.electedGuard iss i.g = true ∧
    bw.electedGuard iss never = false ∧ bb.nbar ≤ 4 ∧ 3 < bb.nbar ∧ bw.child = false ∧ (bb.bar 3).cnt = none ∧
    (base.ownLive bw.blk).length ≤ (bb.bar 3).count + 1 ∧ two.imm.toNat / 256 % 64 = 2 ∧
    ¬ 2 ≤ (bb.bar 3).count + 1 ∧ Issues s1 iss w1 ∧ s1.block w1.blk = some b1 ∧
    KMap.getD w1.barSeen 3 (b1.bar 3).phase < (b1.bar 3).phase ∧
    (bb.bar 3).phase ≤ KMap.getD bw.barSeen 3 (bb.bar 3).phase := by decide +kernel

/-- QueueWords: QPUSH with room, QPOP and QPEEK of q8 with two elements, of q1 with two records and with none, QCOUNT. -/
theorem test_witness_QueueWords :
    let s := withBlock { bb with fifos := [(8, [1, 2])] }
    let w := { bw with q1 := [1, 2] }
    Issues s iss bw ∧ s.atHome iss.wk bw = true ∧ bw.codesOk [(v3, 1)] = true ∧ bw.codesOk [(.q 9, 1)] = true ∧
    (Instr.qpush (vi (.q 9) v1 .none .none .u64 .w64)).wf = true ∧ s.fifoOk iss.wk bw none (some 9) 2 = true ∧
    (∀ q ∈ [8, 1], (Instr.qpop (vi v3 (.q (BitVec.ofNat 4 q)) .none .none .u64 .w64)).wf = true ∧
      (Instr.qpeek (vi v3 (.q (BitVec.ofNat 4 q)) .none .none .u64 .w64)).wf = true ∧
      (Instr.qcount (vi v3 (.q (BitVec.ofNat 4 q)) .none .none .u64 .w64)).wf = true) ∧
    s.fifoOk iss.wk bw (some 8) none 2 = true ∧ Issues (withWarp w) iss w ∧ (withWarp w).atHome iss.wk w = true ∧
    2 ≤ w.q1.length ∧ (lanesOf (bw.partLanes iss open_)).length = 2 ∧ bw.q1.length < 2 := by decide +kernel

/-- The eight bytes at 64 lie in the block's allocation. -/
abbrev counterAt (s : State) (w : Warp) (b : Block) : Prop := LocalOk s iss w b (maskOf [0]) (fun _ => 64) 8

/-- SpawnAndJoin: no lane, two lanes with a counter in the A-buffer and in global space, depth 255; SPAWNFL; JOIN of a counter
that reads zero and of one that does not, Blocked at one, and at the visit after its poll. -/
theorem test_witness_SpawnAndJoin :
    let i := bi 2 s1 (.v 0)
    let g := { i with lo := 4 }
    let j := bi 0 s1 .none
    let img : Image := { spawns := [{ entry := 3, regs := 16 }] }
    let l : Launch := { bl with resid := none, image := 0x5000 }
    let w : Warp := { bw with code := .orig 0x5000, tcode := .orig 0x5000 }
    let s : State := { withWarp w with launches := [(0, l)], images := [(0x5000, img)] }
    let deep : Warp := { w with depth := 255 }
    let one : State := withBlock { bb with aMem := [(64, 1)] }
    let waits := fun (st : WarpSt) (met : Bool) =>
      ({ bw with st, pend := some { iss, word := .join j, why := .join, ticket := 0, since := 0, met } } : Warp)
    Issues s iss w ∧ (Instr.spawn i).wf = true ∧ (Instr.spawn g).wf = true ∧ w.codesOk [(i.a, 1), (.none, 0)] = true ∧
    w.partLanes iss never = 0 ∧ NothingToRelease w ∧ (s.uni iss.wk w i.a).toNat = 64 ∧ s.isMember iss.wk w = false ∧
    s.spawnEntry w (iss.pc + i.off.signExtend 32) = some { entry := 3, regs := 16 } ∧ w.depth < 255 ∧ counterAt s w bb ∧
    (∀ x ∈ [i, g], ∃ r, s.spawnCounter iss w x 0 64 = .ok r ∧ r.1.spawnRoomOk 0 w.launch 2 = true ∧
      (r.1.performAtomic iss.wk w (if x.lo = 4 then 0 else 1) (if x.lo = 4 then 6 else 3) r.2
        (fun bs => leBytes 8 (leNat bs + 2))).2.2 = true) ∧
    (s.core 0).spillQ = [] ∧ (s.core 0).queued + 2 ≤ 1024 ∧ Issues { s with warps := [(0, deep)] } iss deep ∧
    deep.depth = 255 ∧ (Instr.spawnfl (bi 0 .none .none)).wf = true ∧ (Instr.join j).wf = true ∧ bw.joins = false ∧
    bw.waitMet = false ∧ bw.electedGuard iss open_ = true ∧ counterAt base bw bb ∧
    numAt (Memory.read bb.aMem) 64 8 = 0 ∧ Issues one iss bw ∧ counterAt one bw { bb with aMem := [(64, 1)] } ∧
    numAt (Memory.read [(64, (1 : Byte))]) 64 8 ≠ 0 ∧ Issues (withWarp (waits .run true)) iss (waits .run true) ∧
    (waits .run true).waitMet = true ∧ Issues (withWarp (waits .blocked false)) iss (waits .blocked false) ∧
    (withWarp (waits .blocked false)).coreIssues iss.wk (waits .blocked false) = true := by
  and_intros <;> first | decide +kernel | exact fun x hx => some_ok (by revert x; decide +kernel)

/-- A handle: SPACE, BASE, PITCH, ROWBYTES and ROWS. -/
def hnd (space base pitch rowBytes rows : Nat) : BitVec 256 :=
  BitVec.ofNat 256 (base + space * 2 ^ 52 + (rowBytes + pitch * 2 ^ 24) * 2 ^ 64 + rows * 2 ^ 128)

/-- EmitMigrateWake: a record node with room, one without, and a member's block; MIGRATE to its own die and to another whose
link is up; LWAKE. -/
theorem test_witness_EmitMigrateWake :
    let i := bi 0 (.sp .zero) (.v 0)
    let graph := fun (q : Nat) => ({ nodes := [{ isRec := true, qcap := q, recw := 1 }], runs := [{}] } : Graph)
    let at_ := fun (q : Nat) => ({ withPart { bp with graphs := [(2, graph q)] } with
      launches := [(0, { bl with graph := some (2, 1) })] } : State)
    let mem : State := { at_ 9 with blocks := [(0, { bb with tx := { phase := .open } })] }
    let far : State := { base with
      dies := [(0, { boot := .running, port0 := { st := .full } }), (1, { boot := .running, port1 := { st := .full } })]
      boot := { base.boot with present := 3 }
      hbm := Memory.writeN (Memory.writeN bm 0x9000 [7, 0, 0, 0, 0x20, 0, 0, 2]) (0x8000 + 2 * 24576) [1] }
    Issues (at_ 9) iss bw ∧ (Instr.emit i).wf = true ∧ bw.codesOk [(i.a, 1), (i.b, 1)] = true ∧
    lanesOf (bw.partLanes iss never) = [] ∧ ((at_ 9).launchOf bw).graph = some (2, 1) ∧ NothingToRelease bw ∧
    (at_ 9).isDet bw.blk = false ∧ (at_ 9).emitPerm bw 0 1 = false ∧ (at_ 0).emitPerm bw 0 1 = false ∧
    (at_ 9).isMember iss.wk bw = false ∧ (at_ 9).nodeRoom 0 2 0 2 = true ∧ (at_ 0).nodeRoom 0 2 0 2 = false ∧
    (let v := (at_ 9).modRun 0 2 0 fun r => { r with recs := r.recs ++ [[0], [0]] }
     v.graphAct 0 2 = none ∧ (v.graph 0 2).all (fun x => !x.over) = true) ∧ Issues mem iss bw ∧ mem.isMember iss.wk bw = true ∧
    2 * 2 ≤ mem.freeA { bb with poolA := 64, tx := { phase := .open } } ∧
    (Instr.migrate (bi 0 s1 .none)).wf = true ∧ (Instr.lwake (bi 0 s1 .none)).wf = true ∧
    bw.electedGuard iss open_ = true ∧ bw.electedGuard iss never = false ∧ bw.pend = none ∧
    base.landingAsked bw = false ∧ base.migratePerm iss.wk bw = false ∧
    (∃ u a, base.translate 0 0 64 0 0 = (u, .ok a) ∧ dieOfPa a.pa = 0) ∧ Issues far iss bw ∧
    far.landingAsked bw = false ∧ far.migratePerm iss.wk bw = false ∧
    (∃ u a, far.translate 0 0 64 0 0 = (u, .ok a) ∧ dieOfPa a.pa = 1 ∧ u.reach 0 1 = true ∧ u.waitOk bw 0x1F = true) ∧
    bw.q1 = [] ∧ bw.q3 = [] ∧ bw.q5 = [] := by
  and_intros <;> first | decide +kernel | exact pair_ok (by decide +kernel)

/-- A warp with handles of a weight group at 0 of the W-buffer, and in the A-buffer of 16 rows of 256 bytes at 0, of 16 rows
of 512 bytes at one place, and of rows that a list of 16 at 0 names. -/
def matrixWarp : Warp :=
  { bw with hreg := [(1, hnd 1 0 256 256 16), (2, hnd 2 0 16384 0 1), (3, hnd 1 0 0 512 16),
                     (4, hnd 1 0 256 256 16 + BitVec.ofNat 256 (16 * 2 ^ 240))] }

/-- A state in which 16 commands wait for the matrix engine. -/
def fullEngine (s : State) : State := { s with cores := [(0, { q0 := List.replicate 16 { uid := 9 } })] }

/-- MatrixPushes: MLDW, MZERO, MMA, MMAS and MMAG with room, with a full queue, under a false guard, and outside a
transaction. -/
theorem test_witness_MatrixPushes :
    let w := matrixWarp
    let s := withWarp w
    let ld := xi (.q 0) .none (.h 2) 0 0 3 0 1
    let mz := xi (.q 0) (.imm 0) .none 4 0 0 0 1
    let mm := fun a => xi (.q 0) (.h a) (.h 2) 4 3 3 0 1
    let hB := handleOf (hnd 2 0 16384 0 1)
    Issues s iss w ∧ s.block w.blk = some bb ∧ s.atHome iss.wk w = true ∧ w.electedGuard iss open_ = true ∧
    w.electedGuard iss never = false ∧ s.isMember iss.wk w = false ∧ (Instr.mldw ld).wf = true ∧ (Instr.mzero mz).wf = true ∧
    (Instr.mma (mm 1)).wf = true ∧ (Instr.mmas (mm 3)).wf = true ∧ (Instr.mmag (mm 4)).wf = true ∧
    hB.reserved = false ∧ hB.space = 2 ∧ mxOk 3 0 = true ∧ hB.base % 16384 = 0 ∧ hB.pitch % 16384 = 0 ∧
    rangesFit (groupRanges hB 1 1 0 (mElems 3) false) bb.wSize = true ∧ (s.core 0).q0.length < 16 ∧
    (s.core 0).mxReset = none ∧ 1024 * mz.t.toNat + 512 * 16 ≤ bb.cSize ∧ Issues (fullEngine s) iss w ∧
    16 ≤ ((fullEngine s).core 0).q0.length ∧
    ∀ p ∈ [((1 : BitVec 4), false, false), (3, true, false), (4, false, true)],
      let hA := handleOf (w.h p.1.toNat)
      let n := if p.2.2 then hA.gRows else hA.rows
      let b : BSide := { fmt := 3, scl := 0, cover := mElems 3 * if p.2.1 then 2 else 1 }
      n = 16 ∧ s.bSide iss w (mm p.1) p.2.1 = some b ∧ mmaIllegal hA (some hB) 3 0 (some b) n p.2.1 = false ∧
      mmaMisaligned hA (some hB) = none ∧ (p.2.2 = true → hA.base + hA.xOff + 2 * n ≤ bb.aSize) ∧
      rangesFit (groupRanges hB hB.rows 1 0 (mElems 3 * if p.2.1 then 2 else 1) p.2.1) bb.wSize = true ∧
      ∃ r, s.gatherRows iss w hA p.2.2 n = .ok r ∧ (∀ k ∈ r.2, p.2.2 = true → k < hA.rows) ∧
        rangesFit (aRanges hA r.2 0 (stepShape 3 3 hA.rowBytes p.2.1).2.2) bb.aSize = true := by
  and_intros <;> try decide +kernel
  intro p hp
  and_intros <;> first | (revert p; decide +kernel) | exact some_ok (by revert p; decide +kernel)

/-- HandleAndTileWords: HMAKE, HSET, MRD and MWR of 16 and of 8 bytes a lane within the C-buffer, MRD of no lane, and a tile
beyond it. -/
theorem test_witness_HandleAndTileWords :
    let w := { bw with sreg := [(1, 200)] }
    Issues base iss bw ∧ (Instr.hmake (xi (.h 1) (.s 4) .none 0 0 0 0 0)).wf = true ∧
    (Instr.hset (xi (.h 1) s1 .none 0 0 0 0 2)).wf = true ∧ (∀ k < 2,
      (Instr.mrd (xi v3 (.sp .zero) .none 4 0 0 0 (BitVec.ofNat 3 (2 * k)))).wf = true ∧
      (Instr.mwr (xi v3 (.sp .zero) .none 4 0 0 0 (BitVec.ofNat 3 (2 * k + 1)))).wf = true) ∧
    bw.codesOk [(v3, 2)] = true ∧ bw.partLanes iss never = 0 ∧ bw.partLanes iss open_ ≠ 0 ∧
    base.block bw.blk = some bb ∧ base.atHome iss.wk bw = true ∧
    1024 * 4 + 512 * ((base.uni iss.wk bw (.sp .zero)).toNat % 256) + 512 ≤ bb.cSize ∧
    base.isMember iss.wk bw = false ∧ Memory.wf bb.cMem = true ∧ Issues (withWarp w) iss w ∧
    bb.cSize < 1024 * 4 + 512 * (((withWarp w).uni iss.wk w s1).toNat % 256) + 512 := by decide +kernel

/-- The state of the tests with a block in a phase of its transaction, and an image of two rungs. -/
def txState (tx : Tx) : State :=
  { withBlock { bb with tx, specA := [(1, 5)] } with
    images := [(0x5000, { rungs := List.replicate 12 0 })], launches := [(0, { bl with image := 0x5000 })] }

/-- TransactionWords: each word outside and inside a transaction, TXBEGIN that opens and one that waits for another warp,
TXCOMMIT that waits, one that commits and one after its transaction has closed, TXABORT below the top rung. -/
theorem test_witness_TransactionWords :
    let idle := txState {}
    let two : State := { idle with warps := [(0, bw), (1, { bw with uid := 2 })] }
    let op : State := txState { phase := .open, begun := [1] }
    let b : Block := { bb with tx := { phase := .open, begun := [1] }, specA := [(1, 5)] }
    let opTwo : State := { op with warps := [(0, bw), (1, { bw with uid := 2 })] }
    let closed := txState { phase := .closed, arrived := [1] }
    let none_ := xi .none .none .none 0 0 0 0 0
    let un := xi .none (.sp .zero) .none 0 0 0 0 0
    let rd := xi v3 .none .none 0 0 0 0 0
    Issues idle iss bw ∧ Issues two iss bw ∧ Issues op iss bw ∧ Issues opTwo iss bw ∧ bw.pend = none ∧
    bw.electedGuard iss open_ = true ∧ bw.electedGuard iss never = false ∧ (Instr.txbegin none_).wf = true ∧
    (Instr.txcommit un).wf = true ∧ (Instr.txabort none_).wf = true ∧ (Instr.monset un).wf = true ∧
    (Instr.txstat rd).wf = true ∧ (Instr.monrd rd).wf = true ∧ bw.codesOk [(v3, 1)] = true ∧ bw.child = false ∧
    idle.rungsOf (idle.launchOf bw) = 2 ∧
    (WithBlock idle 0 { bb with tx := { begun := [1] }, specA := [(1, 5)] }).canOpen 0 = true ∧
    (WithBlock two 0 { bb with tx := { begun := [1] }, specA := [(1, 5)] }).canOpen 0 = false ∧
    op.block bw.blk = some b ∧ op.childrenLeft 0 = false ∧ op.isDet 0 = false ∧ op.commandsLeft 0 = false ∧
    b.reserved = false ∧ b.ended = false ∧ b.tx.arrived.contains 1 = false ∧ b.tx.named = false ∧ b.tx.topTrip = false ∧
    b.heldG = [] ∧ b.heldH = [] ∧ b.heldR = [] ∧ b.heldRecs = [] ∧ (∀ p ∈ op.parts, p.2.frames = []) ∧
    (∀ e ∈ op.blockPlaces 0, e.2.sq = []) ∧ Issues closed iss bw ∧ (closed.block 0).map (·.tx.arrived) = some [1] ∧
    (closed.launch 0).isSome = true ∧ (∀ e ∈ op.warps, e.2.sq = []) ∧ (∀ v ∈ op.ownLive 0, [1].contains v.uid = true) ∧
    (∃ v ∈ opTwo.ownLive 0, [1].contains v.uid = false) ∧ Memory.wf b.aMem = true ∧ Memory.wf b.cMem = true ∧
    op.isMember iss.wk bw = true ∧ idle.isMember iss.wk bw = false ∧ b.rung < op.topRung b := by
  and_intros <;> decide +kernel

/-- A warp with a global handle of one row of 64 bytes at 64 in h1, and the same row of the A-buffer in h2. -/
def copyWarp : Warp := { bw with hreg := [(1, hnd 0 64 64 64 1), (2, hnd 1 64 64 64 1), (3, hnd 0 128 64 64 1)] }

/-- A state whose partition has a communicator of one rank. -/
def commState : State :=
  { withWarp copyWarp with
    parts := [(0, { bp with regs := { bp.regs with commBase := 0x6000, commCnt := 1 } })]
    hbm := Memory.writeN bm 0x6000 [0, 0, 0, 0, 8, 0, 0, 0] }

/-- CopyAndCollectivePushes: a load, a gather of one row, a load with an acquire and a completion word, with room and with a
full queue; an all-reduce of one rank with room and with a full queue. -/
theorem test_witness_CopyAndCollectivePushes :
    let w := copyWarp
    let s := withWarp w
    let cpy := fun (k : BitVec 3) => xi (.q 2) (.h 1) (.h 2) 8 0 0 0 k
    let co := xi (.q 4) (.h 1) (.h 3) 8 0 0 0 0
    let hS := handleOf (hnd 0 64 64 64 1)
    let hD := handleOf (hnd 1 64 64 64 1)
    let c : TwCmd := { uid := 1, kind := 0, hS := hnd 0 64 64 64 1, hD := hnd 1 64 64 64 1, rows := [0] }
    let a : Warp := { w with sreg := [(8, BitVec.ofNat 64 (2 ^ 23 + 2 ^ 22 + 256 + 2 ^ 24 + 2 ^ 27)), (10, 128)] }
    let ca : TwCmd := { c with ctl := a.s 8, acq := some (true, 128, 1) }
    let fullTw : State := { s with clusters := [(0, { q2 := List.replicate 32 { uid := 9 } })] }
    let t := { w with sreg := [(8, BitVec.ofNat 64 (10 * 16 + 0xFFFF * 2 ^ 32))] }
    let cs : State := { commState with warps := [(0, t)] }
    let fullCo : State := { cs with dies := [(0, { boot := .running, q4 := List.replicate 64 { uid := 9 } })] }
    (Issues s iss w ∧ w.electedGuard iss open_ = true ∧ w.electedGuard iss never = false ∧ (Instr.cpy (cpy 0)).wf = true ∧
      (Instr.cpy (cpy 2)).wf = true ∧ s.isMember iss.wk w = false ∧ cpyIllegal 0 hS hD = false ∧
      cpyIllegal 2 hS hD = false ∧ hS.misaligned 16 = false ∧ hD.misaligned 16 = false ∧ s.scratchOk iss.wk w c = true ∧
      c.globFits = true ∧ s.cwOk c = true ∧ w.q3.length + s.owedCopies w < 64 ∧
      (∃ v, s.copyObject iss w c = .ok v ∧ (v.cluster 0).q2.length < 32) ∧
      ∃ r, s.gatherList iss w (w.s 11).toNat hD.rows = .ok r ∧ ∀ k ∈ r.2, k < hS.rows) ∧
    (Issues (withWarp a) iss a ∧ (a.s 8).field 26 24 = 1 ∧ (a.s 10).toNat % 64 = 0 ∧ ca.cwe = true ∧ ca.cwOff % 8 = 0 ∧
      ca.recd = true ∧ (withWarp a).cwOk ca = true ∧
      ∃ v, (withWarp a).copyObject iss a ca = .ok v ∧ (v.cluster 0).q2.length < 32) ∧
    (Issues fullTw iss w ∧ ∃ v, fullTw.copyObject iss w c = .ok v ∧ 32 ≤ (v.cluster 0).q2.length) ∧
    Issues cs iss t ∧ (Instr.coll co).wf = true ∧ cs.isDet t.blk = false ∧ NothingToRelease t ∧
    cs.communicator 0 0 = some (1, 0) ∧ collShapeBad 0 1 hS (handleOf (hnd 0 128 64 64 1)) = false ∧
    hS.misaligned 64 = false ∧ hS.passes = false ∧ t.q5.length + cs.owedColl t < 64 ∧ (cs.die 0).q4.length < 64 ∧
    cs.collPerm { ctl := t.s 8, kind := 0 } (some (1, 0)) = false ∧ Issues fullCo iss t ∧
    64 ≤ (fullCo.die 0).q4.length := by
  and_intros <;> first | decide +kernel | exact some_ok (by decide +kernel)

/-- A pair by its second part. -/
theorem pair_snd {σ α : Type} {f : σ × α} {a : α} (h : f.2 = a) : ∃ y, f = (y, a) := ⟨f.1, by rw [← h]⟩

/-- A queue at work on its program's first bytecode, with windows at 0x7000 and 2^32, and k1 = `k`. -/
def theQueue (k : Word) : Queue :=
  { prog := [0x02101234], wins := [{ base := 0x7000, size := 64, writable := true }, { base := 2 ^ 32, size := 64, writable := true }],
    ringBase := 0x7000, ringLen := 1, bell := 1, run := some { packet := List.replicate 8 5, regs := [(1, k)] } }

/-- The state of the tests with the front end at work on queue 3, with one argument page, and a descriptor at 0x7000 of the
image at 0x5000 with one block and its record at 0x7C00. -/
def queueState (p : Part → Part := id) (x : Queue → Queue := id) : State :=
  { base with
    cur := .queue 0 3
    parts := [(0, p { bp with queues := [(3, x (theQueue 0))], regs := { bp.regs with argPool := 0xA000, argPoolN := 1 } })]
    hbm := Memory.writeN bm 0x7000 ([0x5000, 0x7800, 1, 0, 1, 0x7C00, 0, 0].flatMap fun n => leBytes 8 n) }

/-- The image of the descriptor: one warp of 8 registers, and no specialisation. -/
def theImage : Image := { code := [0x10, 0], roles := [{ warps := 1, regs := 8, entry := 0 }], nospec := true }

/-- QueuesAndBytecodes: the bytecodes that compute; RDW, WRW that writes and WRW that faults; LAUNCH held back, refused, without a
page, and started; GRAPH of no table, of a running one, without pages, and started. -/
theorem test_witness_QueuesAndBytecodes :
    let s := queueState
    let r : QRun := { packet := List.replicate 8 5, regs := [(1, 0)] }
    let ev : Event := { who := .front (.word 3 0 0) }
    let held := queueState (x := fun x => { x with ordered := true, pendingIds := [7] })
    let img : State := { s with images := [(0x5000, theImage)] }
    let full : State := { queueState (p := fun p => { p with pages := [0xA000] }) with images := [(0x5000, theImage)] }
    let tbl := fun (b : Bool) (n : Nat) => queueState (p := fun p =>
      { p with graphs := [(0, { nodes := List.replicate n { desc := 0x7000, pred := 1 }, running := b })] })
    let d := parseDesc (s.feWords 0 0x7000 8).2
    QueueRuns s 0 3 (theQueue 0) r ∧ r.pc = 0 ∧
    (theQueue 0).wins[0]? = some { base := 0x7000, size := 64, writable := true } ∧
    KMap.get? (s.partD 0).events (0xFFC0 + 3) = none ∧
    KMap.get? ((queueState (p := fun p => { p with events := [(0xFFC3, ev)] })).partD 0).events (0xFFC0 + 3) ≠ none ∧
    (∃ u, s.feWrite 0 0x7000 1 (wordBytes (r.k 1)) = (u, none)) ∧
    (∃ p a, s.feTranslate 0 0x7000 1 = (p, .ok a) ∧ a.pa % 8 = 0 ∧ a.mtype ≤ 1 ∧ a.cmp = 0 ∧ Memory.wf p.hbm = true) ∧
    (∃ f, (s.feWrite 0 (2 ^ 32) 1 (wordBytes (r.k 1))).2 = some f) ∧
    HeldBack held { theQueue 0 with ordered := true, pendingIds := [7] } ∧
    QueueRuns held 0 3 { theQueue 0 with ordered := true, pendingIds := [7] } r ∧
    ¬ HeldBack s (theQueue 0) ∧ launchStatus d (s.image (imageKey 0 d.image)) s.ptokCap.toNat = 6 ∧ d.seed ≠ 0 ∧
    s.nextUid ∉ (theQueue 0).pendingIds ∧
    (∃ y, ((s.feWords 0 0x7000 8).1.addLaunch
      { part := 0, ctx := (theQueue 0).ctx, queue := 3, image := d.image, argPage := 2 ^ 52, nblocks := 0, clusg := d.clusg,
        stackg := d.stackg, dieg := d.dieg, det := d.det, prio := d.prio, seed := d.seed, doneVa := d.done,
        spillVa := d.spill, status := 6, phase := .finishing }).1.feWrite 0 d.done 1
          (recordBytes 6 0 0 0 d.det false d.seed 0) = (y, none)) ∧
    launchStatus d (img.image (imageKey 0 d.image)) img.ptokCap.toNat = 0 ∧ full.freePage 0 = none ∧
    QueueRuns img 0 3 (theQueue 0) r ∧ QueueRuns full 0 3 (theQueue 0) r ∧
    (img.feWords 0 0x7000 8).1.freePage 0 = some 0xA000 ∧
    (∃ y, (img.feWords 0 0x7000 8).1.capture 0 0xA000 d.args d.arglen = (y, none)) ∧
    img.image (imageKey 0 d.image) = some theImage ∧ theImage.nospec = true ∧
    s.graph 0 0 = none ∧ ((tbl true 1).graph 0 0).any (·.running) = true ∧
    (tbl false 2).freePages 0 < 2 ∧ 1 ≤ (tbl false 1).freePages 0 ∧
    ∃ u rs, (tbl false 1).captureNodes 0 [{ desc := 0x7000, pred := 1 }] = (u, .ok rs) ∧ rs.length = 1 := by
  and_intros <;> first
    | decide +kernel
    | exact pair_snd (by decide +kernel)
    | exact pair_ok (by decide +kernel)
    | exact Option.isSome_iff_exists.mp (by decide +kernel)

/-- QueuesAndBytecodes, the steps of queues: a doorbell in RUN and out of it, a packet to take and none, waiting bytecodes that
may go on and may not, a program that is loaded and one that is refused, tables to unload and to load. -/
theorem test_witness_QueueSteps :
    let idle := queueState (x := fun x => { x with run := none })
    let x := { theQueue 0 with run := none }
    let waits := fun (w : QWait) => queueState (x := fun x => { x with run := some { wait := w } })
    let tbl := fun (b : Bool) => queueState (p := fun p => { p with graphs := [(0, { running := b })] })
    let load : State := { base with hbm := Memory.writeN bm 0x7000 ([0x7C00, 1].flatMap fun n => leBytes 8 n) }
    (idle.part 0).isSome = true ∧ idle.queue 0 3 = some x ∧ (idle.partD 0).tdi = 2 ∧ (idle.partD 0).progress = true ∧
    (queueState (p := fun p => { p with tdi := 1 }) |>.partD 0).tdi ≠ 2 ∧ x.head < x.bell ∧ x.ringLen ≠ 0 ∧ x.prog ≠ [] ∧
    ((waits .argPage).freePage 0 ≠ none ∧ ((waits .order).partD 0).progress = true) ∧
    ((queueState (p := fun p => { p with pages := [0xA000] })).freePage 0 = none) ∧
    (∃ u, idle.windowsMapped 0 [{ base := 0x7000, size := 64, writable := true }] = (u, true)) ∧
    programOk [0x02101234, 0x0F000000] [{ base := 0x7000, size := 64, writable := true }] = true ∧
    programOk [0x10000000] [] = false ∧
    (((tbl true).graph 0 0).any (·.running) = true ∧ ((tbl false).graph 0 0).any (fun g => !g.running) = true) ∧
    (load.feWords 0 0x7000 8).2.take 2 = [0x7C00, 1] ∧ (base.feWords 0 0x7000 8).2.getD 1 0 = 0 ∧
    ((load.feWords 0 0x7000 8).1.readNode 0 (0x7000 + 64) 1).2.isSome = true := by
  and_intros <;> first | decide +kernel | exact pair_snd (by decide +kernel)

/-- StoresAndMemorySystem, the lines: a fill, a write-back and an eviction of a dirty and of a clean line. -/
theorem test_witness_SliceSteps :
    let dirty : SliceLine := { valid := 3, dirty := 1, data := 7 }
    let clean : SliceLine := { valid := 3 }
    let s := fun (x : SliceLine) => ({ base with clusters := [(0, { lines := [(4, x)] })] } : State)
    base.clusterOf 0 0 = true ∧
    (∃ u a, base.translate 0 0 256 0 0 = (u, .ok a) ∧ u.reach 0 (dieOfPa a.pa) = true ∧ a.ace = false ∧
      (lineIn (u.deliverAll 0 (stackOfPa a.pa)).hbm bp.regs a.pa a.cmp).isSome = true) ∧
    (s dirty).sliceLine 0 4 = some dirty ∧ dirty.dirty ≠ 0 ∧ dirty.attr.ace = false ∧ (s clean).sliceLine 0 4 = some clean ∧
    clean.dirty = 0 ∧ ∀ e ∈ ((s clean).cluster 0).lines, evictRank clean.hint = evictRank e.2.hint ∧ clean.used ≤ e.2.used := by
  and_intros <;> first | decide +kernel | exact pair_ok (by decide +kernel)

/-- StoresAndMemorySystem, the paths: a message that is delivered, one returned by a failed link, one whose link sleeps, and a
write for the host. -/
theorem test_witness_DeliverySteps :
    let m : Msg := { line := 4, mask := 1, data := 7 }
    let away : Msg := { m with line := 2 ^ 31 }
    let s := fun (m : Msg) => ({ base with dx := [(0, [m])] } : State)
    let f : State := { base with fp := [(0, { q := [{ addr := 8, bytes := [some 1] }] })] }
    let sleeps : State :=
      { base with dx := [(2, [away])], boot := { base.boot with present := 3 }
                  dies := [(0, { boot := .running, port0 := { st := .sleep } }), (1, { boot := .running, port1 := { st := .sleep } })] }
    (s m).path 0 0 = m :: [] ∧ m.nak = false ∧ (s m).reach ((s m).srcDie 0) 0 = true ∧ (s m).routeLinks 0 0 = [] ∧
    m.attr.cmp = 0 ∧ Memory.wf (s m).hbm = true ∧ (s { m with nak := true }).path 0 0 = { m with nak := true } :: [] ∧
    sleeps.path 0 2 = away :: [] ∧ sleeps.srcDie 0 = 0 ∧ dieOfPa (away.line * 64) = 1 ∧ sleeps.reach 0 1 = true ∧
    sleeps.routeLinks 0 1 = [0] ∧ (sleeps.die (ringDie 0)).port0.st = .sleep ∧
    (f.fpQueue 0).q = { addr := 8, bytes := [some 1] } :: [] ∧ Memory.wf f.bus = true := by
  and_intros <;> decide +kernel

/-- A warp blocked at a JOIN for a reason. -/
def blockedWarp (why : WaitKind) : Warp :=
  { bw with st := .blocked, pend := some { iss, word := .join (bi 0 s1 .none), why, ticket := 0, since := 0 } }

/-- SlotStepsAndBadWords: a warp that starts; blocked warps that go on and that do not; a warp that retires with another left,
and the last of its block; a warp parked, put back, and one that stays; a warp whose fault is answered; a word beyond its code, and on a page that is not
there. -/
theorem test_witness_SlotSteps :
    let starts : Warp := { bw with st := .start, acqScope := 6 }
    let done : Warp := { bw with st := .retire }
    let room := blockedWarp (.engine .matrix)
    let two : State := { withWarp done with warps := [(0, done), (1, { bw with uid := 2 })] }
    let all : State := { base with warps := (List.range 30).map fun k => (k, blockedWarp .join) }
    let parked : Frame := { w := blockedWarp .join, core := 0, ctx := 0, slot := 0, parked := true }
    let fr := fun (b : Block) => ({ withPart { bp with frames := [(1, parked)] } with warps := [], blocks := [(0, b)] } : State)
    ((withWarp starts).warp 0 = some starts ∧ starts.st = .start ∧ (withWarp starts).coreIssues 0 starts = true) ∧
    ((withWarp room).warp 0 = some room ∧ room.fault = none ∧ (withWarp room).coreIssues 0 room = true ∧
      (withWarp room).unblocks 0 room { iss, word := .join (bi 0 s1 .none), why := .engine .matrix, ticket := 0, since := 0 } = true ∧
      (fullEngine (withWarp room)).unblocks 0 room
        { iss, word := .join (bi 0 s1 .none), why := .engine .matrix, ticket := 0, since := 0 } = false) ∧
    ((withWarp done).warpLives 0 done = true ∧ done.sq = [] ∧ done.wroteG = [] ∧ done.wroteH = [] ∧ bb.group = none ∧
      bb.tx.phase = .idle ∧ bb.dirty = [] ∧ bb.mapFixup = [] ∧ (withWarp done).launch 0 = some bl ∧ bl.graph = none ∧
      bb.ended = false ∧ bb.reserved = false ∧ bb.endDue = false ∧ ((withWarp done).dropWarp 0).blockWarps 0 = [] ∧
      (withWarp done).childrenLeft 0 = false ∧ (withWarp done).commandsLeft 0 = false) ∧
    (two.dropWarp 0).blockWarps 0 ≠ [] ∧
    ((∀ k < 30, ((all.warp k).any fun v => v.st == .blocked) = true) ∧ all.coreIssues 0 (blockedWarp .join) = true ∧
      (all.partD 0).freeFrame = some 0 ∧ Memory.wf all.hbm = true) ∧
    (bp.progress = true ∧ parked.w.st ≠ .frozen ∧ ({ parked with parked := false, ready := true } : Frame).deliver = none ∧
      (fr bb).restoreSlot { parked with parked := false, ready := true } = some 0 ∧ (fr bb).restoreSlot parked = some 0 ∧ (fr bb).parkOver parked 0 = true ∧
      (fr { bb with aMem := [(64, 1)] }).restoreSlot parked = some 0 ∧
      (fr { bb with aMem := [(64, 1)] }).parkOver parked 0 = false) := by
  and_intros <;> decide +kernel

/-- SlotStepsAndBadWords, the child warps: a launched one of two records that has a slot, also while its block's transaction is
open; and a record in the spill area. -/
theorem test_witness_ChildSteps :
    let e : SpawnEntry := { entry := 3, regs := 16 }
    let img : Image := { spawns := [e] }
    let rec_ : SpawnRec := { entry := 3, blk := 0, depth := 1, join := { glob := false, addr := 64 }, payload := [5], parent := 1, parentSlot := 0, lane := 0, ck := 0 }
    let g : Gather := { entry := 3, blk := 0, recs := [rec_, { rec_ with lane := 2 }], firstCk := 0, launched := true }
    let s : State := { base with cores := [(0, { gather := [g] })], images := [(0x5000, img)] }
    ((s.gather 0).core 0).gather[0]? = some g ∧ g.launched = true ∧ g.recs ≠ [] ∧ g.recs.length ≤ 32 ∧
    (s.gather 0).block 0 = some bb ∧ bb.ended = false ∧ (s.gather 0).launch 0 = some bl ∧
    (s.gather 0).image (imageKey bl.part bl.image) = some img ∧ img.spawns.find? (fun x => x.entry == 3) = some e ∧
    ((s.gather 0).core 0).ctxCur = bl.ctx ∧ (∀ home : Bool, (s.gather 0).childSlot 0 0 0 (charge 16) home = some (0, 1)) ∧
    let far : SpawnRec := { rec_ with spillAt := some { pa := 0x7000 } }
    let q : State := { base with cores := [(0, { spillQ := [far] })] }
    (((q.gather 0).core 0).spillQ.take (1024 - ((q.gather 0).core 0).queued))[0]? = some far ∧ min 6 far.payload.length = 1 := by
  and_intros <;> decide +kernel

/-- SlotStepsAndBadWords: a PC beyond the code, and a PC on a page that is not there. -/
theorem test_witness_WordsThatCannotRun :
    let far := { iss with pc := 9 }
    let w : Warp := { bw with code := .orig (2 ^ 32) }
    let s : State := { withWarp w with images := [(2 ^ 32, { code := [0x10, 0] })] }
    Issues { base with cur := .warp far } far bw ∧ (base.codeOf bw.activeCode).length ≤ far.pc.toNat ∧ Issues s iss w ∧
    iss.pc.toNat < (s.codeOf w.activeCode).length ∧ w.activeCode = .orig (2 ^ 32) ∧
    ∃ u e, s.translate (dieOfWk iss.wk) (s.partOf w) (2 ^ 32 % 2 ^ 52 + 8 * iss.pc.toNat) 0 3 = (u, .error e) ∧ e.cause = 3 := by
  and_intros <;> first | decide +kernel | exact pair_err (by decide +kernel)

/-- A block whose ordered commit waits for a sync object at 64, of its A-buffer or of HBM. -/
def orderedBlock (oab : Bool) (next : Byte) : Block :=
  { bb with
    tx := { phase := .ordered, begun := [1], arrived := [1], obj := some (oab, 64), objAttr := { pa := 64 }, ord := true }
    aMem := if next = 0 ∨ oab = false then [] else [(72, next)], specA := [(2, 5)] }

/-- A state with such a block, and blocks of its launch that have ended. -/
def orderedState (oab : Bool) (next : Byte) (ended : List Nat) : State :=
  { withBlock (orderedBlock oab next) with
    launches := [(0, { bl with endedIdx := ended })], hbm := if oab then bm else Memory.writeN bm 72 [next] }

/-- CommitAndMergeSteps: an ordered commit that is due, with nothing held and with a held line, one that is not, a skip that is
due and one that is not; objects in the A-buffer and in HBM. -/
theorem test_witness_OrderedCommits : ∀ oab : Bool,
    let s := orderedState oab
    let x := orderedBlock oab 0
    let next := fun (n : Byte) => objField (if oab then Memory.read (orderedBlock oab n).aMem else Memory.read (s n []).hbm) 64 1
    let held : Block := { x with heldG := [(4, { mask := 1, data := 7 })] }
    (s 0 []).block 0 = some x ∧ (s 0 []).launch x.launch = some bl ∧ x.tx.phase = .ordered ∧ x.tx.ord = true ∧
    ObjectAt x oab 64 64 ∧ Memory.wf x.aMem = true ∧ Memory.wf x.cMem = true ∧ Memory.wf (s 0 []).hbm = true ∧
    RisingKeys x.specA ∧ RisingKeys x.specC ∧ next 0 = x.idx ∧ next 7 ≠ x.idx ∧ (s 7 []).block 0 = some (orderedBlock oab 7) ∧
    CommitFree (s 0 []) 0 x bl ∧ x.tx.synced = false ∧ x.tx.topTrip = false ∧ x.heldG = [] ∧ x.heldH = [] ∧ x.heldR = [] ∧
    x.heldRecs = [] ∧ CommitFree { s 0 [] with blocks := [(0, held)] } 0 held bl ∧ held.unsent ≠ [] ∧ bl.recNode = false ∧
    next 0 < bl.nblocks ∧ (s 0 [0]).launch 0 = some { bl with endedIdx := [0] } ∧
    (∀ e ∈ bl.ordDone, e ≠ (next 0, (oab, 64, if oab then 0 else 0))) ∧ next 0 ∉ bl.endedIdx := by
  intro oab
  and_intros <;> (revert oab; decide +kernel)

/-- CommitAndMergeSteps, what a commit holds: a global, a host and a cluster-remote line; nothing; and records of a node with
room and without. -/
theorem test_witness_RecordRelease :
    let x := fun (r : List (Nat × List (List Word))) =>
      ({ bb with tx := { phase := .releasing, begun := [1] }, heldRecs := r } : Block)
    let h : HeldLine := { mask := 1, data := 7, blk := 1 }
    let lines := [{ x [] with heldG := [(4, h)] }, { x [] with heldH := [(4, h)] }, { x [] with heldR := [(4, h)] }]
    let graph := fun (q : Nat) => ({ nodes := [{ isRec := true, qcap := q, recw := 1, coal := 7 }], runs := [{ counter := 1 }], running := true } : Graph)
    let g := { bl with graph := some (2, 1) }
    let s := fun (q : Nat) => ({ withPart { bp with graphs := [(2, graph q)] } with
      blocks := [(0, x [(0, [[5], [6]])])], launches := [(0, g)] } : State)
    let u := ((s 9).modBlock 0 fun b => { b with heldRecs := [] }).modRun 0 2 0 fun y => { y with recs := y.recs ++ [[5], [6]] }
    (∀ y ∈ lines, (withBlock y).block 0 = some y ∧ (withBlock y).launch 0 = some bl ∧ y.tx.phase = .releasing ∧
      y.tx.begun ≠ [] ∧ y.reserved = false ∧ (withBlock y).blockWarps 0 ≠ [] ∧ y.unsent ≠ []) ∧ bl.graph = none ∧
    h.attr.ace = false ∧ ({ withBlock (x []) with blocks := [(0, x []), (1, bb)] } : State).block h.blk = some bb ∧
    Memory.wf bb.aMem = true ∧ (withBlock (x [])).block 0 = some (x []) ∧ (x []).unsent = [] ∧ (x []).tx.obj = none ∧
    (x []).tx.topTrip = false ∧ (s 9).block 0 = some (x [(0, [[5], [6]])]) ∧ (s 9).launch 0 = some g ∧
    (s 9).blockWarps 0 ≠ [] ∧ (s 0).nodeRoom 0 2 0 2 = false ∧ (s 9).nodeRoom 0 2 0 2 = true ∧ g.det = false ∧
    u.graphAct 0 2 = none ∧ ((u.graph 0 2).all fun y => !y.over) = true := by
  and_intros <;> decide +kernel

/-- CommitAndMergeSteps, the merges: a block at a sync point whose lower blocks have closed and whose bytes agree, one whose
byte clashes, and one with a lower block that has not closed; and a block that a discard has ended. -/
theorem test_witness_DeltaMerges :
    let p : Pend := { iss, word := .join (bi 0 s1 .none), why := .delta, ticket := 0, since := 0 }
    let w : Warp := { bw with st := .blocked, pend := some p }
    let d : DeltaByte := { host := false, addr := 64, va := 64, val := 5 }
    let x : Block := { bb with idx := 1, delta := [d] }
    let l := fun (v : Byte) (c : KMap Nat) => ({ bl with det := true, nblocks := 2, closed := c, merged := [(0, 0, [{ d with val := v }])] } : Launch)
    let s := fun (v : Byte) (c : KMap Nat) => ({ withWarp w with blocks := [(0, x)], launches := [(0, l v c)] } : State)
    (s 5 [(0, 1)]).block 0 = some x ∧ (s 5 [(0, 1)]).launch 0 = some (l 5 [(0, 1)]) ∧ (s 5 [(0, 1)]).deltaWaiter 0 = some (0, w, p) ∧
    (s 5 [(0, 1)]).warp 0 = some w ∧ (s 5 [(0, 1)]).exitWaits 0 p = false ∧ (s 5 [(0, 1)]).coreIssues 0 w = true ∧
    (∀ e ∈ (s 5 [(0, 1)]).warps, e.2.sq = []) ∧ (∀ j < x.idx, x.round < KMap.getD (l 5 [(0, 1)]).closed j 0) ∧
    (l 5 [(0, 1)]).conflict x = none ∧ (l 6 [(0, 1)]).conflict x = some 64 ∧ deltaFinal x.delta = [d] ∧
    0 < x.idx ∧ KMap.getD (l 5 []).closed 0 0 ≤ x.round ∧ 0 ∉ (l 5 []).endedIdx ∧ commitWaits x (.txcommit (xi .none .none .none 0 0 0 0 0)) ∧
    RisingKeys (s 5 []).warps ∧
    let y : Block := { x with tx := { phase := .closed }, endDue := true }
    let e := fun (c : KMap Nat) => ({ base with warps := [], blocks := [(0, y)], launches := [(0, l 5 c)] } : State)
    ∀ c ∈ [[], [(0, 1)]], (e c).block 0 = some y ∧ (e c).deltaWaiter 0 = none ∧ y.ended = false ∧ y.reserved = false ∧
      (e c).blockWarps 0 = [] ∧ (e c).childrenLeft 0 = false ∧ (e c).commandsLeft 0 = false ∧ y.group = none ∧
      y.mapFixup = [] ∧ (l 5 c).graph = none := by
  and_intros <;> first | decide +kernel | exact .inl ⟨_, rfl⟩

/-- A state whose core's engine has one command. -/
def engineState (c : MCmd) (b : Block := bb) (west : Latch := {}) : State :=
  { txState {} with cores := [(0, { q0 := [c], west })], blocks := [(0, b)] }

/-- MatrixEngine: MLDW, MZERO and MMA at the head of the engine's queue, and a monitored MMA that trips below the top rung. -/
theorem test_witness_MatrixRetirement :
    let ld : MCmd := { uid := 1, op := .mldw, arr := 1, fb := 3, hB := some (hnd 2 0 16384 0 1) }
    let mz : MCmd := { uid := 1, op := .mzero, arr := 1, rows := [0] }
    let mm : MCmd := { uid := 1, op := .mma, arr := 1, fa := 3, fb := 3, hA := hnd 1 0 32 32 1, rows := [0], k := 32 }
    let nan : Block := { bb with aMem := (List.range 32).map fun i => (i, 0xFF) }
    let west : Latch := { valid := true, fmt := 3, cover := 32, wt := [(0, 0xFF)] }
    let trip : MCmd := { mm with mon := true, thr := 8 * 2 ^ 24 }
    let s := engineState trip nan west
    PlainCommand (engineState ld) 0 ld [] bb ∧ PlainCommand (engineState mz) 0 mz [] bb ∧ PlainCommand (engineState mm) 0 mm [] bb ∧
    mm.globalB = false ∧ (s.core 0).q0 = [trip] ∧ s.block 0 = some nan ∧ (s.launch 0).isSome = true ∧ trip.hB = none ∧
    tripBits trip.thr.toNat (trip.compute nan fun a => [(s.core 0).latch a]).2 ≠ 0 ∧ nan.rung ≠ s.topRung nan := by
  and_intros <;> decide +kernel

/-- MatrixEngine, the troubles: a held command whose weights lie on a page that is not there, an engine without progress for
long and one for a short while, one of a member's command, pushes held back and let go, and a warp that owes MXRESET in
and out of trap mode. -/
theorem test_witness_MatrixTroubles :
    let held : MCmd := { uid := 1, op := .mma, arr := 1, lanes := 1, held := true, fb := 3, hB := some (hnd 0 (2 ^ 32) 16384 0 1) }
    let s := engineState held
    let plain : MCmd := { uid := 1, op := .mzero }
    let late := fun (c : MCmd) => ({ engineState c with ck := 2 ^ 24 } : State)
    let wait : State := { base with cores := [(0, { mxReset := some 5 })], ck := 517 }
    let w : Warp := { bw with mxreset := some (1, 5) }
    (s.fetchFaults 0 held).2 ≠ [] ∧ (s.core 0).q0 = [held] ∧ ((late plain).core 0).steps = false ∧ ((late { plain with op := .mma }).core 0).steps = true ∧ s.findUid 1 = some (0, bw) ∧
    ((late plain).core 0).q0 = [plain] ∧ ((late plain).core 0).mxSince + 2 ^ 24 ≤ (late plain).ck ∧
    (engineState plain).ck < ((engineState plain).core 0).mxSince + 2 ^ 24 ∧ (late plain).block 0 = some bb ∧
    bb.tx.phase = .idle ∧ (late plain).blockWarps 0 ≠ [] ∧ ((late { plain with member := true }).core 0).q0 = [{ plain with member := true }] ∧
    ((late plain).launch 0).isSome = true ∧ (wait.core 0).mxReset = some 5 ∧ 5 + 512 ≤ wait.ck ∧
    (withWarp w).warp 0 = some w ∧ w.threads.length = 32 ∧ (∀ l ∈ lanesOf 5, (w.thread l).runnable = true) ∧ w.inTrap = false ∧
    vectorMode (vectorWord (withWarp w) 0 w 7) = 1 ∧
    { w with threads := List.replicate 32 { thr with trapped := true } }.inTrap = true := by
  and_intros <;> decide +kernel

/-- A copy of the row of `copyWarp`'s handles. -/
def theCopy (kind : Nat) : TwCmd :=
  { id := 4, uid := 1, kind, hS := if kind = 1 then hnd 1 64 64 64 1 else hnd 0 64 64 64 1,
    hD := if kind = 1 then hnd 0 64 64 64 1 else hnd 1 64 64 64 1, rows := [0] }

/-- A state whose cluster's engine has one copy. -/
def copyState (c : TwCmd) : State := { withWarp copyWarp with clusters := [(0, { q2 := [c] })] }

/-- CopyAndCollectiveEngines, copies: in, out, and one with every byte moved, with a completion word and without. -/
theorem test_witness_CopiesMove :
    let done := { theCopy 0 with moved := [(0, 0, 64)] }
    let word := { done with ctl := BitVec.ofNat 64 (2 ^ 22) }
    (∀ k < 2, CopyRuns (copyState (theCopy k)) 0 4 (theCopy k) ∧ (theCopy k).out = (k == 1) ∧
      (theCopy k).toMove 0 = [(0, 64)] ∧ (theCopy k).gAddr 0 = 64 ∧ (theCopy k).glob.space = 0 ∧ (theCopy k).scr.space = 1 ∧
      (copyState (theCopy k)).isDet 0 = false ∧ (copyState (theCopy k)).block 0 = some bb ∧ (theCopy k).frozen = []) ∧
    (∃ u, (copyState (theCopy 0)).twReach 0 (theCopy 0) 0 0 64 = (u, none)) ∧
    (∃ u, (copyState (theCopy 1)).twReach 0 (theCopy 1) 0 0 64 = (u, none)) ∧
    (∃ v a, ((copyState (theCopy 0)).twReach 0 (theCopy 0) 0 0 64).1.translate 0 0 64 0 0 = (v, .ok a) ∧
      (v.sliceRead 0 0 64 64 0 a).2.length = 64) ∧
    (∃ v a, ((copyState (theCopy 1)).twReach 0 (theCopy 1) 0 0 64).1.translate 0 0 64 0 1 = (v, .ok a) ∧ a.pa % 64 = 0) ∧
    bb.regions = [] ∧ bb.specA = [] ∧ Memory.wf bb.aMem = true ∧ (∀ c ∈ [done, word], CopyRuns (copyState c) 0 4 c ∧
      c.fixup = [] ∧ (∀ k < 1, c.unmoved k = []) ∧ (c.cwe = true → c.cwPos = posOfCore bb.core)) ∧ done.cwe = false ∧
    word.cwe = true ∧ bb.tx.phase = .idle ∧ (copyState (theCopy 0)).blockWarps 0 ≠ [] ∧ bb.group = none ∧
    RisingKeys (copyState (theCopy 0)).dx := by
  and_intros <;> first | decide +kernel | exact pair_snd (by decide +kernel) | exact pair_ok (by decide +kernel)

/-- CopyAndCollectiveEngines, segments: a copy and a collective whose global page is not there. -/
theorem test_witness_SegmentsFault :
    let c := { theCopy 0 with hS := hnd 0 (2 ^ 32) 64 64 1 }
    let k : CollCmd := { id := 4, uid := 1, hS := hnd 0 (2 ^ 32) 64 64 1, hD := hnd 0 128 64 64 1 }
    let s : State := { commState with dies := [(0, { boot := .running, q4 := [k] })] }
    let again := { c with posted := [(3, 2 ^ 20)] }
    (∀ x ∈ [c, again], CopyRuns (copyState x) 0 4 x ∧ x.rows.length = 1 ∧ x.toMove 0 = [(0, 64)] ∧ x.gAddr 0 = 2 ^ 32 ∧
      x.fixup = [] ∧ ((copyState x).part 0).isSome = true ∧
      (((copyState x).twReach 0 x 0 0 64).2.map fun r => (r.client, r.addr / 4096)) = some (3, 2 ^ 20)) ∧
    (∃ r, ((copyState c).twReach 0 c 0 0 64).2 = some r) ∧ s.collCmd 0 4 = some k ∧ k.fixup = [] ∧
    k.side false = handleOf (hnd 0 (2 ^ 32) 64 64 1) ∧ (s.part k.part).isSome = true ∧
    ∃ r, (s.collReach 0 k 0 (2 ^ 32) 64).2 = some r := by
  and_intros <;> first | decide +kernel | exact Option.isSome_iff_exists.mp (by decide +kernel)

/-- CopyAndCollectiveEngines, the folds: an all-reduce of one rank that is ready; lists for the sums. -/
theorem test_witness_Collectives :
    let k : CollCmd := { id := 4, uid := 1, hS := hnd 0 64 64 64 1, hD := hnd 0 128 64 64 1, ctl := BitVec.ofNat 64 (0xFFFF * 2 ^ 32) }
    let s : State := { commState with dies := [(0, { boot := .running, q4 := [k] })] }
    let u := (s.collReady 0 k).1
    s.collCmd 0 4 = some k ∧ (∃ u, s.collReady 0 k = (u, true)) ∧ s.collFirst k = true ∧ (s.partD 0).progress = true ∧
    k.fixup = [] ∧ k.g = 1 ∧ k.rank = 0 ∧ k.step = 0xFFFF ∧
    ((handleOf (hnd 0 64 64 64 1)).ranges.foldl (fun (a : State × List Byte) r =>
      ((a.1.collRead 0 k r.1 r.2).1, a.2 ++ (a.1.collRead 0 k r.1 r.2).2)) (u, [])).2.length = 64 ∧
    (s.part 0).isSome = true ∧ (∀ e < 2, e ≠ 0xFFFF ∧ KMap.getD (s.partD 0).stepCounts e 0 + 1 = 1) ∧
    (let p := { bp with regs := { bp.regs with stepBase := 0xC000 } }
     let t : State := { withPart p with hbm := Memory.writeN bm 0xC000 [2] }
     (t.physWord (p.regs.stepBase.toNat + 32 * 0)).toNat % 65536 = 2 ∧
     (t.physWord (p.regs.stepBase.toNat + 32 * 0)).toNat % 65536 = KMap.getD { p with stepCounts := [(0, 1)] }.stepCounts 0 0 + 1) ∧
    ([leBytes 4 5, leBytes 4 7].all fun x => x.length == 4) = true := by
  and_intros <;> first | decide +kernel | exact pair_snd (by decide +kernel)

/-- FaultAnswers, the ring: room for a waiting event's record, and none. -/
theorem test_witness_EventsPosted :
    let e : WaitEvent := { part := 0, tag := 3, recs := [[1, 2, 3, 4]] }
    let s := fun (h : BitVec 16) => ({ withPart { bp with regs := { bp.regs with fqHead := h } } with
      dies := [(0, { boot := .running, waitEv := [e] })] } : State)
    ((s 0).part 0).isSome = true ∧ (∀ r ∈ e.recs, r.length = 4) ∧ ((s 0).die 0).waitEv.find? (fun x => x.part == 0) = some e ∧
    bp.regs.fqSize.toNat = 2 ^ 6 ∧ e.recs.length ≤ placesFree 64 0 0 ∧ placesFree 64 1 0 < e.recs.length ∧
    Memory.wf (s 0).hbm = true := by decide +kernel

/-- A warp in a frame with a page fault, and a state in which its event is posted or not. -/
def faultedFrame : Frame :=
  { w := { bw with st := .blocked, fault := some { info := { cause := 3, info := 64 }, iss, opc := 1, rpc := 1, iter := 0 } },
    core := 0, ctx := 0, slot := 0, parked := false }

/-- The partition with an event under tag 1. -/
def eventPart (ev : Event) : Part := { bp with events := [(1, ev)], frames := [(1, faultedFrame)] }

/-- The state after a warp of 8 registers has faulted on a page at 64 and is saved to frame 0, its event posted. -/
def savedState : State :=
  (withWarp { bw with nregs := 8 }).takeFault iss { cause := 3, info := 64, recs := [{ cause := 3, lanes := 5, addr := 64 }] }

/-- FaultAnswers, warps: a posted event of a page fault with a free slot and without, of a frozen warp, and one that is not
posted; the warp that comes back holds what its frame does, and its cause has a vector. -/
theorem test_witness_WarpAnswers :
    let s := savedState
    let p := s.partD 0
    let ev := (KMap.get? p.events 0).getD { who := .warp }
    let f := (KMap.get? p.frames 0).getD faultedFrame
    let full : State := { s with warps := (List.range 26).map fun k => (k, bw) }
    let v := ((s.unframe 0 0 0 f).warp 0).getD {}
    Posted s 0 0 p ev ∧ ev.who = .warp ∧ KMap.get? p.frames 0 = some f ∧ s.restoreSlot f = some 0 ∧
    full.restoreSlot f = none ∧ full.part 0 = some p ∧ f.w.st ≠ .frozen ∧
    (withPart { p with frames := [(0, { f with w := { f.w with st := .frozen } })] }).part 0 =
      some { p with frames := [(0, { f with w := { f.w with st := .frozen } })] } ∧
    (f.w.fault.map fun wf => wf.iss.lanes) = some 5 ∧ ev.first.cause = 3 ∧ v.inTrap = false ∧ v.threads.length = 32 ∧
    (∀ l ∈ lanesOf 5, (v.thread l).runnable = true) ∧ (v.v 1 2 = 7 ∧ v.s 1 = 64) ∧ vectorMode (vectorWord s 0 v 3) = 1 ∧
    let ev' : Event := { ev with posted := false }
    (withPart (eventPart ev')).part 0 = some (eventPart ev') ∧ KMap.get? (eventPart ev').events 1 = some ev' := by
  and_intros <;> decide +kernel

/-- FaultAnswers, the others: an engine's delivery and retry, a dropped record, and a partition swapped out. -/
theorem test_witness_OtherAnswers :
    let g : Segment := { row := 0, off := 0, len := 64, dst := false }
    let c : TwCmd := { theCopy 0 with fixup := [g] }
    let k : CollCmd := { id := 4, uid := 1, hS := hnd 0 64 64 64 1, hD := hnd 0 128 64 64 1, fixup := [g] }
    let tw : Event := { who := .tilewalk 0 4, posted := true, first := { cause := 3 } }
    let co : Event := { who := .collective 0 4, posted := true, first := { cause := 3 } }
    let fe : Event := { who := .front (.launchDone 0), posted := true, first := { cause := 3 } }
    let s : State := { copyState c with parts := [(0, { bp with events := [(1, tw)] })] }
    let sc : State := { commState with dies := [(0, { boot := .running, q4 := [k] })], parts := [(0, { bp with events := [(1, co)] })] }
    let sf : State := { withPart { bp with events := [(0xFFC0, fe)] } with launches := [(0, { bl with phase := .finishing })] }
    let out : Part := { bp with events := [(1, tw)], swap := .out }
    let t : TwCmd := { c with fixup := [], posted := [] }
    let u := ((withoutEvent s 0 1).modTw 0 4 fun c => { c with fixup := [], posted := [] }).twReach 0 t 0 0 64
    Posted s 0 1 { bp with events := [(1, tw)] } tw ∧ s.twCmd 0 4 = some c ∧
    s.block 0 = some bb ∧ s.launch 0 = some bl ∧ bl.phase = .running ∧ c.unmoved 0 = [(0, 64)] ∧
    u.2 = none ∧ (∃ v, u.1.twMove 0 t 0 0 64 = (v, true)) ∧
    Posted sc 0 1 { bp with events := [(1, co)] } co ∧ sc.collCmd 0 4 = some k ∧
    (∃ u, (withoutEvent sc 0 1).collReach 0 k g.dst.toNat (k.segAddr g) g.len = (u, none)) ∧
    Posted sf 0 0xFFC0 { bp with events := [(0xFFC0, fe)] } fe ∧ sf.launch 0 = some { bl with phase := .finishing } ∧
    bp.graphs = [] ∧ RisingKeys sf.launches ∧ (withPart out).part 0 = some out ∧ out.progress = false ∧
    KMap.get? out.events 1 = some tw := by
  and_intros <;> first | decide +kernel | exact pair_snd (by decide +kernel)

/-- FaultAnswers, pages: a page asked for with no event, by a warp in its slot or by none, and with a saved warp's event; one
not asked for, and an order above 18; an invalidation under way, one that is done, and one that a store holds up. -/
theorem test_witness_PagesAndInvalidation :
    let ev : Event := { who := .warp, pris := [9], first := { cause := 3 } }
    let p := { bp with priOut := [9] }
    let pw := { eventPart ev with priOut := [9] }
    let s : State := { withPart pw with warps := [] }
    let inv : Part := { bp with regs := { bp.regs with invDone := false } }
    let busy : State := { withPart inv with warps := [(0, { bw with sq := [{ space := 0, addr := 64, bytes := [1] }] })] }
    let wf : WarpFault :=
      { info := { cause := 3, info := 64, recs := [{ cause := 3, addr := 64, hostpri := some 9 }] }, iss, opc := 1, rpc := 1, iter := 0 }
    let asks := withWarp { bw with st := .blocked, fault := some wf }
    (withPart p).part 0 = some p ∧ 9 ∈ p.priOut.take 512 ∧ 8 ∉ p.priOut.take 512 ∧ p.events = [] ∧
    asks.warp 0 = some { bw with st := .blocked, fault := some wf } ∧ asks.partOf bw = 0 ∧
    (∃ r ∈ wf.info.recs, r.hostpri = some 9) ∧ bw.fault = none ∧ s.part 0 = some pw ∧ s.warps = [] ∧ pw.progress = true ∧
    pw.events = [(1, ev)] ∧ 9 ∈ ev.pris ∧ ev.failed = false ∧ KMap.get? pw.frames 1 = some faultedFrame ∧
    faultedFrame.w.st ≠ .frozen ∧ s.restoreSlot faultedFrame = some 0 ∧ (withPart inv).part 0 = some inv ∧
    (withPart inv).inFlight 0 0 0 = false ∧ busy.inFlight 0 0 0 = true ∧ bp.regs.invDone = true ∧
    (withPart p).atsInFlight 0 0 0 = false ∧
    ({ withPart pw with parts := [(0, { pw with frames := pw.frames.mapVals fun (f : Frame) =>
        { f with w := { f.w with sq := [{ space := 5, addr := 64, bytes := [1] }] } } })] } : State).atsInFlight 0 0 0 = true ∧
    (withPart pw).atsInFlight 0 0 0 = false := by
  and_intros <;> decide +kernel

/-- A state with one unplaced block of the launch of `theImage`. -/
def toPlace : State :=
  { base with warps := [], blocks := [], images := [(0x5000, theImage)], launches := [(0, { bl with unplaced := [{ idx := 0 }] })] }

/-- PlacementAndLaunchEnds: a block that can be placed on core 0, and a partition that does not run. -/
theorem test_witness_Placing :
    let x : PlaceUnit := { launch := 0, prio := 0, replay := false, members := [{ idx := 0 }] }
    (toPlace.partD 0).progress = true ∧ toPlace.placeList 0 = [] ++ x :: [] ∧
    toPlace.placeOf 0 x = some [({ idx := 0 }, 0, [0])] ∧
    toPlace.launch 0 = some { bl with unplaced := [{ idx := 0 }] } ∧ bl.clusg = 0 ∧
    toPlace.image (imageKey 0 0x5000) = some theImage ∧ theImage.warps = 1 ∧ [0].Nodup ∧
    theImage.maps = [] ∧ ({ bp with swap := .out } : Part).progress = false ∧ ({ toPlace with launches := [] } : State).placeList 0 = [] := by
  and_intros <;> decide +kernel

/-- A die with an empty cache cannot free room for an entry of more than its 4 MiB. -/
theorem install_full (s : State) (e : CacheEntry) (h : 2 ^ 22 < e.bytes) (hp : s.presentDies = [0])
    (hc : (s.die 0).cache = []) : s.install e = none := by
  have : ¬ e.bytes ≤ 2 ^ 22 := by omega
  simp_all [State.install, State.evictFor]

/-- The bytes of an entry by its code (R53). -/
theorem code_bytes (n : Nat) :
    ({ key := 0, identity := [], res := { code := List.replicate n 0 } } : CacheEntry).bytes = 64 + 16 * n := by
  simp [CacheEntry.bytes]

/-- PlacementAndLaunchEnds, launches: an entry that no die has room for. -/
theorem test_witness_LaunchEnds_noRoom :
    base.install { key := 0, identity := [], res := { code := List.replicate (2 ^ 18) 0 } } = none := by
  apply install_full
  · rw [code_bytes]; decide
  all_goals decide +kernel

/-- PlacementAndLaunchEnds, launches: one whose evaluation ends, with room in every die's cache, and refused, with its record
written and with an event in the way; one with no block left and one with a block; one with a Frozen warp and one
without. -/
theorem test_witness_LaunchEnds :
    let l := { bl with phase := .evaluating, readyCk := 5 }
    let r := { l with refuse := true, doneVa := 0x7C00 }
    let s : State := { base with launches := [(0, l)], ck := 5 }
    let e : CacheEntry := { key := l.key, identity := [], res := l.resid.getD {} }
    let l' : Launch := { r with status := 2, unplaced := [], resid := none, phase := .finishing }
    let ev : Event := { who := .front (.word 0 0 0) }
    let done : State := { base with blocks := [], warps := [] }
    let frozen := withWarp { bw with st := .frozen }
    s.launch 0 = some l ∧ l.graph = none ∧ (s.partD 0).progress = true ∧ (∃ u, s.install e = some u) ∧
    ({ s with ck := 4 } : State).ck < l.readyCk ∧ l.refuse = false ∧ r.refuse = true ∧
    KMap.get? (s.partD 0).events 0xFFC0 = none ∧
    KMap.get? { bp with events := [(0xFFC0, ev)] }.events 0xFFC0 ≠ none ∧
    (∃ v, (s.setLaunch 0 l').feWrite 0 r.doneVa 1 l'.record = (v, none)) ∧
    done.launch 0 = some bl ∧ done.blocksLeft 0 bl = false ∧ base.blocksLeft 0 bl = true ∧ bl.recNode = false ∧
    bl.det = false ∧ bl.wroteG = [] ∧ bl.wroteH = [] ∧ KMap.get? (done.partD 0).events 0xFFC0 = none ∧
    (∃ v, (done.modLaunch 0 fun l => { l with phase := .finishing }).feWrite 0 bl.doneVa 1 bl.record = (v, none)) ∧
    base.hasFrozen 0 = false ∧ frozen.hasFrozen 0 = true ∧ RisingKeys frozen.launches := by
  and_intros <;> first
    | decide +kernel
    | exact pair_snd (by decide +kernel)
    | exact Option.isSome_iff_exists.mp (by decide +kernel)

/-- A store of a warp that waits in a frame drains to the fabric port (R132, R342). -/
theorem test_framed_store_drains :
    let pw := { eventPart { who := .warp, first := { cause := 3 } } with
      frames := [(1, { faultedFrame with w := { bw with sq := [{ space := 5, addr := 64, attr := { pa := 64 }, bytes := [7] }] } })] }
    let t := ({ withPart pw with warps := [] } : State).frameDrain 0 1 0
    (t.fpQueue (fpDest {})).q = [{ addr := 64, bytes := [some 7], va := 64 }] ∧
    ((KMap.get? (t.partD 0).frames 1).map fun f => f.w.sq.length) = some 0 := by decide +kernel

/-- A state whose core 0 is as given. -/
def coreState (c : Core) : State := { base with cores := [(0, c)] }

/-- ContextsAndPartitions: CTXNEXT of a context and of none, a preload that is done before and behind the drain, also of a
context with a warp that its image holds, and CTXSTOP
with no warp, with one that sleeps and with one that asks for a landing slot. -/
theorem test_witness_ContextStop :
    let sleeps := blockedWarp (.sleep 99)
    let lands := blockedWarp .landing
    let held : State :=
      { coreState { ctxNext := some 1 } with
        warps := [(wkOf 0 1 0, bw)], imgs := [(wkOf 0 1 0, { uid := 1, area := List.replicate 8192 0, regs := [] })] }
    (RisingKeys held.warps ∧ held.partOfCore 0 = some (0, bp) ∧ (held.core 0).ctxNext = some 1 ∧ coreOfWk (wkOf 0 1 0) = 0 ∧
      ctxOfWk (wkOf 0 1 0) = 1 ∧ held.warp (wkOf 0 1 0) = some bw ∧
      (KMap.get? held.imgs (wkOf 0 1 0)).map (·.uid) = some bw.uid) ∧
    (base.partOfCore 0 = some (0, bp) ∧ KMap.get? bp.ctxs 0 ≠ none ∧ KMap.get? bp.ctxs 9 = none) ∧
    ((coreState { ctxNext := some 1 }).partOfCore 0 = some (0, bp) ∧ ((coreState { ctxNext := some 1 }).core 0).ctxNext = some 1 ∧
      ((coreState { ctxNext := some 1 }).core 0).preloaded = false ∧ ((coreState { ctxNext := some 1 }).core 0).spillDone = true ∧
      ((coreState { ctxNext := some 1 }).core 0).exchange = none) ∧
    ((coreState { draining := true }).core 0).draining = true ∧ NoLanding base ∧
    ({ base with warps := [] } : State).running 0 = [] ∧ ((withWarp sleeps).running 0 = [(0, sleeps)] ∧
      (withWarp sleeps).warp 0 = some sleeps ∧ NoLanding (withWarp sleeps)) ∧
    (sleeps.pend = some { iss, word := .join (bi 0 s1 .none), why := .sleep 99, ticket := 0, since := 0 } ∧ iss.wk = 0 ∧
      iss.lanes ≠ 0 ∧ sleeps.threads.length = 32 ∧ ∀ l ∈ lanesOf iss.lanes, (sleeps.thread l).runnable = true) ∧
    ((withWarp lands).running 0 = [(0, lands)] ∧ lands.landing = none ∧
      ∀ e ∈ (withWarp lands).warps, e.2.uid = lands.uid → e = (0, lands)) := by
  unfold NoLanding; and_intros <;> decide +kernel

/-- ContextsAndPartitions, the switch: a drain that ends with and without a next context, one held up by a store, and an
exchange that ends and one that does not; and a context to spill. -/
theorem test_witness_ContextSwitch :
    let d : Core := { draining := true }
    let n : Core := { draining := true, ctxNext := some 1, preloaded := true }
    let busy := withWarp { bw with sq := [{ space := 0, addr := 64, bytes := [1] }] }
    ((coreState d).partOfCore 0 = some (0, bp) ∧ KMap.get? bp.ctxs ((coreState d).core 0).ctxCur = some { slice := 100, tvbase := 0x4000 } ∧
      bp.swap = .resident ∧ (coreState d).isDrained 0 = true) ∧
    ((coreState n).isDrained 0 = true ∧ ((coreState n).core 0).ctxNext = some 1 ∧ ((coreState n).core 0).exchange = none) ∧
    busy.isDrained 0 = false ∧ (∃ x ∈ busy.running 0, x.2.sq ≠ []) ∧ ((fullEngine base).core 0).q0 ≠ [] ∧
    (({ base with warps := [] } : State).running 0 = [] ∧ (({ base with warps := [] } : State).core 0).q0 = [] ∧
      (({ base with warps := [] } : State).cluster (clusterOfCore 0)).q2 = []) ∧
    (((coreState { exchange := some 0 }).core 0).exchange = some 0 ∧ 0 ≤ (coreState { exchange := some 0 }).ck) ∧
    (coreState { exchange := some 9 }).ck < 9 ∧ ((coreState { spilling := some 0 }).core 0).spilling = some 0 ∧
    RisingKeys (coreState { spilling := some 0 }).warps ∧ RisingKeys base.imgs ∧ coreOfWk 0 = 0 ∧ ctxOfWk 0 = 0 ∧
    (coreState { spilling := some 0 }).warp 0 = some bw := by
  and_intros <;> decide +kernel

/-- ContextsAndPartitions, the swap of a partition in each of its states, with a dirty line on the way out. -/
theorem test_witness_PartitionSwap :
    let p := fun (x : SwapSt) => ({ bp with swap := x } : Part)
    let s : State := { withPart (p .halting) with clusters := [(0, { lines := [(4, { valid := 3, dirty := 1 })] })] }
    (∀ x : Fin 5, let y := [SwapSt.resident, .halting, .copying, .out, .restoring].getD x.val .out
      (withPart (p y)).part 0 = some (p y) ∧ (p y).swap = y ∧ (p y).resolved = []) ∧
    (∀ c ∈ (p .halting).cores, s.isDrained c = true ∧ (s.core c).exchange = none ∧ (s.core c).spilling = none) ∧
    (∃ c ∈ (p .halting).cores, ({ fullEngine s with clusters := [] } : State).isDrained c = false) ∧ bp.clusters.Nodup ∧
    (∃ x, s.sliceLine 0 4 = some x ∧ x.dirty ≠ 0) ∧
    (∀ q ∈ (withPart (p .out)).parts, q.1 = 0 ∨ q.2.swap = .out ∨ ∀ c ∈ q.2.clusters, c ∉ bp.clusters) ∧
    RisingKeys (p .out).saved.warps ∧ RisingKeys (p .out).saved.cores ∧ RisingKeys (p .out).saved.blocks := by
  and_intros <;> decide +kernel

/-- ContextsAndPartitions, what creates them: a context that is new and one that is not, a partition of free clusters and one
of clusters that another holds. -/
theorem test_witness_Creation :
    base.part 0 = some bp ∧ KMap.get? bp.ctxs 9 = none ∧ KMap.get? bp.ctxs 0 ≠ none ∧ base.boot.up = true ∧ base.part 1 = none ∧
    (∀ q ∈ base.parts, q.2.vf ≠ 1) ∧ (∀ cl ∈ [2, 3], cl < 56 ∧ base.boot.present.getLsbD (dieOfCluster cl) = true) ∧
    [2, 3].Nodup ∧ (∀ q ∈ base.parts, q.1 = 1 ∨ q.2.swap = .out ∨ ∀ c ∈ q.2.clusters, c ∉ [2, 3]) ∧
    ¬ (∀ q ∈ base.parts, q.1 = 1 ∨ q.2.swap = .out ∨ ∀ c ∈ q.2.clusters, c ∉ [1]) := by decide +kernel

/-- Two dies, their one link with its ends in a state. -/
def linkState (p : Port) : State :=
  { base with ck := 5000, dies := [(0, { boot := .running, port0 := p, lnkIdle := 0x00200010 }), (1, { boot := .running, port1 := p })] }

/-- LinksAndLanding: a link that is up and fails, one that is down with and without another route, one that may narrow, sleep
and wake, in time and late, and one that comes up again. -/
theorem test_witness_LinkStates :
    let up : Port := { st := .full }
    let missed := fun (z : Port) (now : Nat) => ∃ ck, z.waking = some ck ∧ ck + (if z.st = .narrow then 175 else 1400) < now
    let ring : State := { linkState up with dies := [(0, { port1 := up }), (1, { port0 := up }), (2, { port0 := up, port1 := up }), (3, { port0 := up, port1 := up })] }
    linkOf 0 0 = 0 ∧ ringDie 0 = 0 ∧ ringDie 1 = 1 ∧ (linkState up).linkUp 0 = true ∧ (linkState {}).linkUp 0 = false ∧
    (∀ e ∈ (linkState up).warps, (linkState up).landingDie e.2 = none) ∧ (ring.linkUp 0 = false ∧ ring.reach 0 1 = true) ∧
    (linkState {}).reach 0 1 = false ∧ ((linkState up).die 0).lnkIdle.toNat % 65536 = 16 ∧
    ((linkState up).die 0).lnkIdle.toNat / 65536 = 32 ∧ max (max up.since up.since) (max up.used up.used) + 16 * 32 ≤ (linkState up).ck ∧
    (linkState { st := .narrow }).linkUp 0 = true ∧ ¬ missed { st := .sleep, waking := some 4000 } 5000 ∧
    missed { st := .sleep, waking := some 3000 } 5000 ∧ (linkState up).dx = [] ∧ ((linkState { st := .sleep, waking := some 4000 }).die 0).port0.st = .sleep ∧
    (∀ e ∈ (linkState up).dx, 0 ∉ (linkState up).routeLinks ((linkState up).srcDie (e.1 / 8)) (e.1 % 8 / 2)) ∧
    (({} : Port).held = false ∧ ((linkState {}).die 0).boot = .running ∧ ((linkState {}).die 1).boot = .running) := by
  and_intros <;> decide +kernel

/-- LinksAndLanding, landing: a request that arrives at its die with a core to take it, and behind a listed one; a listed one;
a warp that has the grant and one that has been shipped. -/
theorem test_witness_Landing :
    let r : LandReq := { uid := 1, wk := 0, domain := 0, charge := 16 }
    let w := blockedWarp .landing
    let g : Warp := { w with landing := some 4 }
    let s := fun (d : Die) => ({ withWarp w with dies := [(0, d)] } : State)
    let new : Die := { boot := .running, landNew := [r] }
    let old : Die := { boot := .running, landReqs := [{ r with uid := 2 }], landNew := [r] }
    let listed : Die := { boot := .running, landReqs := [r] }
    (((s new).die 0).landNew = r :: [] ∧ (s new).warp 0 = some w ∧ w.uid = r.uid ∧ w.st = .blocked ∧ w.landing = none ∧
      (s new).landingLive r = true) ∧
    (s new).landingCore r = some 0 ∧ ({ s new with dies := KMap.set (s new).dies 0 { new with landNew := [] } } : State).landingCore r = some 0 ∧
    (s { new with landNew := [{ r with uid := 7 }] }).landingLive { r with uid := 7 } = false ∧
    (∃ q ∈ [{ r with domain := 1 }], (s { old with landReqs := [{ r with domain := 1 }] }).landingLive q = true) ∧
    (((s listed).die 0).landReqs.filter (s listed).landingLive = r :: [] ∧ (s listed).landingCore r = some 0) ∧
    ((withWarp g).warp 0 = some g ∧ g.pend ≠ none ∧ g.shipped = false) ∧
    ((withWarp { g with shipped := true }).freeSlots 4 (ctxOfWk 0) landingSlots = 30 :: [31] ∧
      (withWarp { g with shipped := true }).reach (dieOfCore 4) (dieOfWk 0) = true ∧
      RisingKeys (withWarp { g with shipped := true }).warps ∧ ∀ l ∈ lanesOf iss.lanes, (g.thread l).runnable = true) := by
  and_intros <;> decide +kernel

/-- BootAndIdentity: a boot image without a PUF seed is no image to boot from. (That some image is one rests on the opaque
signature check of the configuration, so no state shows it.) -/
theorem test_witness_Booting (c f m : SignedObj) :
    bootOk 2 { cfg := c, firmware := f, microcode := m, puf := none, trained := 0 } = false := by simp [bootOk]

/-- BootAndIdentity, microcode and reports: an object that the leader can read and one that lies elsewhere; a load that waits
and one that does not; a request for a report that is answered, and ones that are not; an exchange with a report outstanding. -/
theorem test_witness_MeasuredAndReported :
    let o : SignedObj := { kind := 1, version := 0, signer := [], body := [], sig := [] }
    let e : CacheEntry := { key := 0, identity := [], res := {} }
    let s : State := { base with boot := { base.boot with cfg := some o, mcload := some o }, parts := [] }
    let used : State := { s with
      launches := [(0, { bl with spec := true })], images := [(0x5000, {})], dies := [(0, { boot := .running, cache := [e] })] }
    let keyed : State := { base with dies := [(0, { boot := .running, privKey := some [7] })] }
    let reported : State := { keyed with boot := { base.boot with reports := [{ part := 0, key := 3, bytes := [1] }] } }
    ({ base with boot := { base.boot with cfg := some o } } : State).boot.cfg = some o ∧ Machine.objOk o 3 o = false ∧
    ObjectThere base 0xD000 ∧ ¬ ObjectThere base (2 ^ 39 - 1) ∧ s.boot.mcload = some o ∧
    (∃ e' ∈ (used.die 0).cache, used.pinned e' = true) ∧ used.boot.present.getLsbD 0 = true ∧ (∀ d < 4, (s.die d).cache = []) ∧
    base.part 0 = some bp ∧ LeaderRuns keyed ∧ (keyed.die keyed.boot.leader).privKey = some [7] ∧
    (base.die base.boot.leader).privKey = none ∧ (List.replicate 32 (7 : Byte)).length = 32 ∧ base.part 1 = none ∧
    reported.boot.reports = [{ part := 0, key := 3, bytes := [1] }] ∧ (List.replicate 1568 (7 : Byte)).length = 1568 := by
  unfold ObjectThere LeaderRuns
  and_intros <;> decide +kernel

/-- HostAccess: a function out of RUN and in it, a page that translates and one that does not; an AtomicOp on its boundary and
one off it; a change in RUN with a launch and without. -/
theorem test_witness_HostAccess :
    (withPart { bp with tdi := 1 }).part 0 = some { bp with tdi := 1 } ∧ base.part 0 = some bp ∧ bp.tdi = 2 ∧
    (∃ u e, base.translate base.boot.leader 0 (2 ^ 32) 0 0 = (u, .error e) ∧ e.cause = 3) ∧
    (∃ u a, base.translate base.boot.leader 0 64 0 1 = (u, .ok a) ∧ u.reach u.boot.leader (dieOfPa a.pa) = true ∧
      a.pa % 64 + 8 ≤ 64 ∧ a.cmp = 0 ∧ Memory.wf (u.deliverAll 60 (stackOfPa a.pa)).hbm = true) ∧
    (64 % 4096 + 8 ≤ 4096 ∧ 64 % 8 = 0 ∧ (List.replicate 16 (1 : Byte)).length / 2 = 8 ∧ 68 % 8 ≠ 0) ∧
    (∀ e ∈ ({ base with launches := [] } : State).launches, e.2.part ≠ 0) ∧ base.launches = [(0, bl)] ∧ bl.part = 0 ∧
    bl.graph = none := by
  and_intros <;> first | decide +kernel | exact pair_ok (by decide +kernel) | exact pair_err (by decide +kernel)

/-- PrivilegedRegisters: the partition and the context that a write names, and words that name a privileged register. -/
theorem test_witness_PrivilegedRegisters :
    let i := fun (d a : Opnd) => ii d a 0x803
    base.part 0 = some bp ∧ KMap.get? bp.ctxs 0 = some { slice := 100, tvbase := 0x4000 } ∧ base.boot.leader < 4 ∧
    Issues base iss bw ∧ bw.electedGuard iss open_ = true ∧ 0x800 ≤ (i v3 .none).imm.toNat % 4096 ∧
    (Instr.rdsr (i v3 .none)).wf = true ∧ bw.codesOk [(v3, 1)] = true ∧ (Instr.wrsr (i .none s1)).wf = true := by decide +kernel

/-- A warp of threads that all stand at the header at 0, of one IADD. -/
def together : Warp := { bw with threads := List.replicate 32 { st := .sub, pos := { pc := 0 } } }

/-- A state whose agenda has one choice. -/
def agendaState (a : Act) : State :=
  { base with
    agenda := [{ dt := 1, act := a }], cur := .idle, warps := [(0, together)]
    launches := [(0, { bl with resid := some { code := [0x01, encode (.iadd (vi v3 v1 v2 .none .u32 .w32))] } })] }

/-- StepRunsTheDecodedWord: an issue visit of a warp whose threads stand together, on residual and on original code, a
bytecode, a device step and an empty agenda; a slot that has issued at its die's last ck. -/
theorem test_witness_StepRunsTheDecodedWord :
    let s := agendaState (.issue 0)
    let i := Instr.iadd (vi v3 v1 v2 .none .u32 .w32)
    let code := s.codeOf together.code
    let q : State := { queueState with agenda := [{ dt := 0, act := .bytecode 0 3 }] }
    s.agenda = [{ dt := 1, act := .issue 0 }] ∧ s.warp 0 = some together ∧ Together together 0 ∧
    s.coreIssues 0 together = true ∧ s.hasHeld 0 together = false ∧ code[0]? = some 0x01 ∧ code[1]? = some (encode i) ∧
    decodeWord (encode i) = some i ∧ s.tileBusy 0 together i = false ∧ together.code = .resid 0 ∧
    (decodeHeader 0x01).any (fun h => placeOk h.cls i.opcode (h.nwords == 1) ((code.getD 2 0).toNat / 2 ^ 56) &&
      s.waitOk together h.wait) = true ∧
    (∀ p < 2, ∃ u a, (acting s 1 []).translate 0 0 (0x5000 % 2 ^ 52 + 8 * p) 0 3 = (u, .ok a) ∧ a.mtype = 1) ∧
    ((acting s 1 []).planVisit 0).2.length = 1 ∧ (s.die 0).clk0 ≤ s.ck ∧
    ({ s with cores := [(0, { slotCk := [(0, 16)] })], ck := 16 } : State).nextVisitCk 0 = 32 ∧
    (q.part 0).isSome = true ∧ bp.progress = true ∧ (q.queue 0 3).isSome = true ∧
    ((theQueue 0).prog[0]?.bind decodeBytecode).isSome = true ∧ (Instr.spillDone 0).isEvent = true ∧
    visitOnly (.spillDone 0) = false ∧ base.agenda = [] := by
  unfold Together
  and_intros <;> first
    | decide +kernel
    | exact fun p hp => pair_ok (by revert p; decide +kernel)

/-- EncodingRoundTrip: a well-formed word and a well-formed bytecode. -/
theorem test_witness_EncodingRoundTrip :
    (Instr.iadd (vi v3 v1 v2 .none .u64 .w64)).isWord = true ∧ (Instr.iadd (vi v3 v1 v2 .none .u64 .w64)).wf = true ∧
    (decodeWord (encode (.iadd (vi v3 v1 v2 .none .u64 .w64)))).isSome = true ∧ (decodeBytecode 0x02101234).isSome = true := by
  decide +kernel

/-- MemoryKeepsItsForm, at reset: nothing is listed. -/
theorem test_reset_canonical : Canonical State.reset := by unfold Canonical; decide +kernel

/-- MemoryKeepsItsForm: the state of a step. -/
theorem test_witness_MemoryKeepsItsForm : Canonical (agendaState (.issue 0)) ∧ TablesRise (agendaState (.issue 0)) := by
  unfold Canonical TablesRise BlockForm
  and_intros <;> decide +kernel

end Sys2Proof.Tests
end

/-! PROOFS. The immediate words of row 0x3_ (R178, Table 15): how their shared body ends with a v and with an s
destination, and what each of the eight words computes. -/

namespace Sys2Proof.Machine

open Sys2Proof Claims

/-! ### Writes to a v destination -/

/-- Writing one vector register in a list of lanes changes no other part of the warp. -/
theorem Warp.foldl_setV_frame (r : Nat) (f : Nat → Word) (ls : List Nat) (w : Warp) :
    let w' := ls.foldl (fun w l => w.setV r l (f l)) w
    w' = { w with vreg := w'.vreg } := by
  induction ls generalizing w with
  | nil => rfl
  | cons l ls ih =>
    rw [List.foldl_cons]
    exact ih (w.setV r l (f l))

/-- What the vector registers hold after one of them is written in a list of lanes. -/
theorem Warp.v_foldl_setV (r : Nat) (f : Nat → Word) (ls : List Nat) (hls : ∀ l ∈ ls, l < 32) (w : Warp)
    (r' l' : Nat) (hl' : l' < 32) :
    (ls.foldl (fun w l => w.setV r l (f l)) w).v r' l' = if r' = r ∧ l' ∈ ls then f l' else w.v r' l' := by
  induction ls generalizing w with
  | nil => simp
  | cons l ls ih =>
    rw [List.foldl_cons, ih (fun k hk => hls k (List.mem_cons_of_mem _ hk)),
      Warp.v_setV _ _ _ _ _ _ (hls l List.mem_cons_self) hl']
    by_cases hr : r' = r
    · by_cases hmem : l' ∈ ls
      · simp [hr, hmem]
      · by_cases hl : l' = l <;> simp [hr, hmem, hl]
    · simp [hr]

/-- `setDst` of a v code changes no other part of the warp than the vector registers. -/
theorem Warp.setDst_v_frame (w : Warp) (d : BitVec 8) (m : LaneMask) (f : Nat → Word) :
    w.setDst (.v d) m f = { w with vreg := (w.setDst (.v d) m f).vreg } :=
  Warp.foldl_setV_frame d.toNat f (lanesOf m) w

/-- `setDst` of a v code writes that register in the lanes of the mask. -/
theorem Warp.v_setDst_v (w : Warp) (d : BitVec 8) (m : LaneMask) (f : Nat → Word) (r l : Nat) (hl : l < 32) :
    (w.setDst (.v d) m f).v r l = if r = d.toNat ∧ m.getLsbD l then f l else w.v r l := by
  have hv := Warp.v_foldl_setV d.toNat f (lanesOf m) (fun k hk => (mem_lanesOf.1 hk).1) w r l hl
  simp only [mem_lanesOf, hl, true_and] at hv
  exact hv

/-! ### Words that set no flag -/

/-- No flag set leaves FCSR as it was. -/
@[simp] theorem flagged_zero (fcsr : Word) (m : LaneMask) : flagged fcsr m (fun _ => 0) = fcsr := by
  simp [flagged]

/-- Lanes of predicate 0 always read true (R161). -/
theorem Warp.pred_zero_getLsbD (w : Warp) {l : Nat} (hl : l < 32) : (w.pred 0).getLsbD l = true := by
  have hones : w.pred 0 = BitVec.allOnes 32 := rfl
  rw [hones, BitVec.getLsbD_allOnes, decide_eq_true hl]

/-- A word in the vector pipe that sets no flag and draws nothing, said as what it writes. -/
theorem completes_of_wroteV {s t : State} {iss : Issue} {w : Warp} {d : BitVec 8} {m : LaneMask} {x : Nat → Word}
    (h : WroteV s t iss w d m x (fun _ => 0) fun _ => 0) : Completes s t iss w (writeTo (.v d) m x) := by
  obtain ⟨w', honly, hw', hv, hf, hth⟩ := h
  have hpred : ∀ q, w'.pred q = w.pred q := by intro q; rw [hw']; rfl
  refine ⟨w', honly, ?_, ⟨?_, ?_, ?_, ?_⟩, ?_, ?_⟩
  · rw [hw']
  · intro r hr l hl
    rw [hv r hr l hl]
    by_cases hx : r = d.toNat ∧ m.getLsbD l = true <;> simp [writeTo, hx]
  · intro r _
    rw [hw']
    rfl
  · intro q _ l hl
    rw [hpred]
    split
    · next hq => rw [hq]; exact w.pred_zero_getLsbD hl
    · rfl
  · intro r _
    rw [hw']
    rfl
  · rw [hf, flagged_zero]
    exact (flagged_zero _ _).symm
  · simp only [ite_self] at hth
    exact hth

/-! ### The body of an immediate word -/

/-- An immediate word with a v destination completes; it writes its effect in the participating lanes. -/
theorem immBody_v {s : State} {iss : Issue} {w : Warp} {i : IIns} {d : BitVec 8}
    (f : Word → Word → BitVec 32 → Word) (hi : Issues s iss w) (hd : i.d = .v d)
    (hok : w.codesOk [(i.d, 1), (i.a, 1)] = true) :
    ∃ t, immBody i f s iss w = .ok t ∧
      Completes s t iss w (writeTo i.d (w.partLanes iss i.g) fun l =>
        f (s.opnd iss.wk w i.a l) (w.v d.toNat l) i.imm) := by
  have ⟨_, _, _, hlen, _⟩ := hi
  set m := w.partLanes iss i.g
  set x := fun l => f (s.opnd iss.wk w i.a l) (w.v d.toNat l) i.imm
  have hbody : immBody i f s iss w = .ok ((s.setWarp iss.wk (w.setDst (.v d) m x)).finish iss) := by
    rw [hd] at hok
    simp only [immBody, hok, hd, Bool.not_true, Bool.false_eq_true, if_false]
    rfl
  refine ⟨_, hbody, ?_⟩
  rw [hd]
  have hframe := w.setDst_v_frame d m x
  have hthreads : (w.setDst (.v d) m x).threads = w.threads := by rw [hframe]
  refine completes_of_wroteV (wroteV_of_finish hi ?_ ?_ ?_ ?_ ?_)
  · rw [hframe]
  · intro r _ l hl
    exact w.v_setDst_v d m x r l hl
  · rw [hframe, flagged_zero]
  · rw [hthreads, hlen]
  · intro l _
    simp [Warp.thread, hthreads]

/-- An immediate word with an s destination completes; it writes its effect once under the elected lane's guard (R187). -/
theorem immBody_s {s : State} {iss : Issue} {w : Warp} {i : IIns} {d : BitVec 6}
    (f : Word → Word → BitVec 32 → Word) (hi : Issues s iss w) (hd : i.d = .s d)
    (hok : w.codesOk [(i.d, 1), (i.a, 1)] = true) :
    ∃ t, immBody i f s iss w = .ok t ∧
      WroteS s t iss w d (w.electedGuard iss i.g)
        (f (s.opnd iss.wk w i.a iss.elected) (w.s d.toNat) i.imm) 0 0 := by
  set x := f (s.opnd iss.wk w i.a iss.elected) (w.s d.toNat) i.imm
  set sr := if w.electedGuard iss i.g then KMap.set w.sreg d.toNat x else w.sreg with hsr
  have hbody : immBody i f s iss w =
      .ok ((s.setWarp iss.wk { w with sreg := sr, fcsr := w.fcsr, sdraw := w.sdraw, srep := w.repLeft iss }).finish iss) := by
    have hguard : ({ w with srep := w.repLeft iss } : Warp).electedGuard iss i.g = w.electedGuard iss i.g := rfl
    rw [hd] at hok
    simp only [immBody, hok, hd, hguard, hsr, Bool.not_true, Bool.false_eq_true, if_false]
    cases w.electedGuard iss i.g with
    | true => rfl
    | false => rfl
  obtain ⟨w', hfin, hw', hth⟩ := finish_scalar hi sr w.fcsr w.sdraw (w.repLeft iss)
  refine ⟨_, hbody, w', ⟨hfin, memorySame_finish _ _ _⟩, ?_, ?_, ?_, ?_, hth⟩
  · rw [hw']
  · intro r _
    rw [hw']
    by_cases hg : w.electedGuard iss i.g = true
    · simp [Warp.s, hsr, hg, KMap.getD_set]
    · simp [Warp.s, hsr, hg]
  · rw [hw']; simp
  · rw [hw']; simp

/-! ### What each word computes (Table 15) -/

/-- The sum with a sign-extended immediate wraps modulo 2^64. -/
theorem add_signExtend_eq_ofInt (a : Word) (m : BitVec 32) :
    a + m.signExtend 64 = BitVec.ofInt 64 (a.toInt + m.toInt) := by
  rw [BitVec.ofInt_add, BitVec.ofInt_toInt]
  rfl

/-- The product with a sign-extended immediate wraps modulo 2^64. -/
theorem mul_signExtend_eq_ofInt (a : Word) (m : BitVec 32) :
    a * m.signExtend 64 = BitVec.ofInt 64 (a.toInt * m.toInt) := by
  rw [BitVec.ofInt_mul, BitVec.ofInt_toInt]
  rfl

/-- Bit k of a sign-extended immediate: its own, and above bit 31 its sign. -/
theorem getLsbD_signExtend_imm (m : BitVec 32) {k : Nat} (hk : k < 64) :
    (m.signExtend 64).getLsbD k = m.getLsbD (min k 31) := by
  rw [BitVec.getLsbD_signExtend, decide_eq_true hk, Bool.true_and]
  split
  · next h => rw [Nat.min_eq_left (by omega)]
  · next h => rw [Nat.min_eq_right (by omega), BitVec.msb_eq_getLsbD_last]

/-- A word with an immediate in its upper half and a number below 2^32 in its lower half. -/
theorem toNat_upperHalf_or (m : BitVec 32) (y : Word) (hy : y.toNat < 2 ^ 32) :
    ((m.zeroExtend 64) <<< 32 ||| y).toNat = 2 ^ 32 * m.toNat + y.toNat := by
  have hm : m.toNat < 2 ^ 32 := m.isLt
  have hshift : m.toNat <<< 32 % 2 ^ 64 = 2 ^ 32 * m.toNat := by rw [Nat.shiftLeft_eq]; omega
  rw [BitVec.toNat_or, BitVec.toNat_shiftLeft, BitVec.toNat_setWidth_of_le (by decide), hshift]
  exact (Nat.two_pow_add_eq_or_of_lt hy m.toNat).symm

/-- The lower half of a word, as a number. -/
theorem toNat_and_lowerHalf (y : Word) : (y &&& 0xFFFFFFFF).toNat = y.toNat % 2 ^ 32 := by
  rw [BitVec.toNat_and]
  exact Nat.and_two_pow_sub_one_eq_mod y.toNat 32

/-- The word runs as an immediate word whose effect on srcA, the destination's old value and imm32 meets `rel`. -/
def RunsImm (word : IIns → Instr) (rel : Word → Word → BitVec 32 → Word → Prop) : Prop :=
  ∃ f : Word → Word → BitVec 32 → Word,
    (∀ i s, exec (word i) s = runRaw s (word i) (immBody i f)) ∧ ∀ a old m, rel a old m (f a old m)

/-- Every word of Table 15 runs as an immediate word with the table's effect. -/
theorem runsImm_of_mem_immClaims : ∀ p ∈ immClaims, RunsImm p.1 p.2 := by
  simp only [immClaims, List.forall_mem_cons, List.not_mem_nil, false_implies, implies_true, and_true]
  refine ⟨?movi, ?iadd, ?imul, ?and, ?or, ?xor, ?moviHi, ?moviX2⟩
  case movi => exact ⟨_, fun _ _ => rfl, fun _ _ m => BitVec.toInt_signExtend_of_le (by decide)⟩
  case iadd => exact ⟨_, fun _ _ => rfl, fun a _ m => add_signExtend_eq_ofInt a m⟩
  case imul => exact ⟨_, fun _ _ => rfl, fun a _ m => mul_signExtend_eq_ofInt a m⟩
  case and =>
    refine ⟨_, fun _ _ => rfl, fun a _ m k hk => ?_⟩
    rw [BitVec.getLsbD_and, getLsbD_signExtend_imm m hk]
  case or =>
    refine ⟨_, fun _ _ => rfl, fun a _ m k hk => ?_⟩
    rw [BitVec.getLsbD_or, getLsbD_signExtend_imm m hk]
  case xor =>
    refine ⟨_, fun _ _ => rfl, fun a _ m k hk => ?_⟩
    rw [BitVec.getLsbD_xor, getLsbD_signExtend_imm m hk]
  case moviHi =>
    refine ⟨_, fun _ _ => rfl, fun _ old m => ?_⟩
    have hlow := toNat_and_lowerHalf old
    exact (toNat_upperHalf_or m _ (by omega)).trans (by rw [hlow])
  case moviX2 =>
    refine ⟨_, fun _ _ => rfl, fun _ _ m => ?_⟩
    have hlow : (m.zeroExtend 64).toNat = m.toNat := BitVec.toNat_setWidth_of_le (by decide)
    exact (toNat_upperHalf_or m _ (by omega)).trans (by rw [hlow])

/-! ### The statement -/

/-- A field that a word leaves unused holds no operand (R163). -/
theorem eq_none_of_zero_ok {o : Opnd} (h : FieldUse.zero.ok o = true) : o = .none := by
  cases o with
  | none => rfl
  | _ => cases h

/-- MOVI, MOVI.hi and MOVI.x2 have no srcA (R178). -/
theorem srcA_eq_none_of_fMovi_ok {i : IIns} (h : fMovi.ok i = true) : i.a = .none := by
  simp only [IForm.ok, Bool.and_eq_true] at h
  obtain ⟨⟨⟨⟨-, ha⟩, -⟩, -⟩, -⟩ := h
  exact eq_none_of_zero_ok ha

/-- Settles O11: every word of Table 15 runs the shared body, whose end `immBody_v` and `immBody_s` say. -/
theorem immediateForms : Obligations.ImmediateForms := by
  intro s iss w i hi p hp hwf hok
  obtain ⟨f, hexec, hrel⟩ := runsImm_of_mem_immClaims p hp
  have hrun : exec (p.1 i) s = endWord iss (p.1 i) (immBody i f s iss w) := by
    rw [hexec, runRaw_issues hi]
  refine ⟨?vector, ?scalar, ?noSource⟩
  case vector =>
    intro d hd
    obtain ⟨t, hbody, hdone⟩ := immBody_v f hi hd hok
    exact ⟨t, _, by rw [hrun, hbody]; rfl, hdone, fun l _ => hrel _ _ _⟩
  case scalar =>
    intro d hd
    obtain ⟨t, hbody, hdone⟩ := immBody_s f hi hd hok
    exact ⟨t, _, by rw [hrun, hbody]; rfl, hdone, hrel _ _ _⟩
  case noSource =>
    rintro (h | h | h) <;> (rw [h] at hwf; exact srcA_eq_none_of_fMovi_ok hwf)

end Sys2Proof.Machine

/-! PROOFS. The logic, shift and bit-field words (R194, R195): how a word that sets no flag and draws nothing runs in
the vector pipe, and what each of the twelve computes, bit by bit. -/

namespace Sys2Proof.Machine

open Sys2Proof Claims

/-! ### Words of the vector pipe that set no flag and draw nothing -/

/-- The word runs the shared V-format body on a function of its three sources that sets no flag and draws nothing, and
that function meets the claim's relation. -/
def RunsPure (i : VIns) (p : VClaim) : Prop :=
  ∃ f : Word → Word → Word → Word,
    (∀ s, exec p.ins s = runRaw s p.ins (vBody i (pureSpec i fun x => f x.a x.b x.c))) ∧
    p.need = needs i ∧ p.ty = i.ty ∧ ∀ u x, p.rel u x (f x.a x.b x.c) 0 0

/-- A word whose body ends in a state goes on there. -/
theorem exec_eq_next {s t : State} {iss : Issue} {w : Warp} {word : Instr} {body : State → Issue → Warp → Res}
    (hexec : exec word s = runRaw s word body) (hi : Issues s iss w) (hbody : body s iss w = .ok t) :
    exec word s = .next t := by
  rw [hexec, runRaw_issues hi, hbody]
  rfl

/-- A family all of whose words run as `RunsPure` says does in the vector pipe what `VectorForms` claims. -/
theorem vectorForms_of_runsPure {c : VIns → Rnd → List VClaim}
    (h : ∀ i mode, ∀ p ∈ c i mode, p.ins.wf = true → RunsPure i p) : VectorForms c := by
  intro s iss w i d hi hd hq p hp hwf hok
  obtain ⟨f, hexec, hneed, hty, hrel⟩ := h i _ p hp hwf
  obtain ⟨t, hbody, hwrote⟩ := vectorBody_plain (sp := pureSpec i fun x => f x.a x.b x.c) hi hd hq rfl
  have hcodes : w.codesOk (needs i) = true := hneed ▸ hok
  have hpipe : vScalar i = false := by simp [vScalar, hd, Opnd.isS]
  have hword : vBody i (pureSpec i fun x => f x.a x.b x.c) s iss w = .ok t := by
    simp only [vBody, pureSpec, hcodes, hpipe, Bool.not_true, Bool.false_eq_true, if_false]
    exact hbody
  exact ⟨t, _, _, _, exec_eq_next (hexec s) hi hword, hwrote, fun l _ => by rw [hty]; exact hrel _ _⟩

theorem Shape.width_pos (sh : Shape) : 0 < sh.width := by cases sh <;> decide

/-! ### Words given bit by bit -/

section BitWords

variable {i : VIns} {ins : Instr} {g : Nat → Nat → Nat → Nat → Nat → Bool}

/-- A word of one bit pattern. -/
theorem runsPure_bit1 {f : Nat → Nat} (hexec : ∀ s, exec ins s = runRaw s ins (vBody i (bit1 i f)))
    (hbits : ∀ a b c j, a < 2 ^ i.sh.width → j < i.sh.width → (f a).testBit j = g i.sh.width j a b c) :
    RunsPure i (bitClaim i ins g) := by
  refine ⟨fun a _ _ => map1 i.sh.width f a, hexec, rfl, rfl, fun _ x => ⟨fun k hk j hj => ?_, rfl, rfl⟩⟩
  rw [elem_map1 hk, Nat.testBit_mod_two_pow, decide_eq_true hj, Bool.true_and]
  exact hbits _ _ _ j (elem_lt _ _ _) hj

/-- A word of two bit patterns. -/
theorem runsPure_bit2 {f : Nat → Nat → Nat} (hexec : ∀ s, exec ins s = runRaw s ins (vBody i (bit2 i f)))
    (hbits : ∀ a b c j, a < 2 ^ i.sh.width → b < 2 ^ i.sh.width → j < i.sh.width →
      (f a b).testBit j = g i.sh.width j a b c) :
    RunsPure i (bitClaim i ins g) := by
  refine ⟨fun a b _ => map2 i.sh.width f a b, hexec, rfl, rfl, fun _ x => ⟨fun k hk j hj => ?_, rfl, rfl⟩⟩
  rw [elem_map2 hk, Nat.testBit_mod_two_pow, decide_eq_true hj, Bool.true_and]
  exact hbits _ _ _ j (elem_lt _ _ _) (elem_lt _ _ _) hj

/-- A word of three bit patterns. -/
theorem runsPure_bit3 {f : Nat → Nat → Nat → Nat}
    (hexec : ∀ s, exec ins s = runRaw s ins (vBody i (pureSpec i fun x => map3 i.sh.width f x.a x.b x.c)))
    (hbits : ∀ a b c j, j < i.sh.width → (f a b c).testBit j = g i.sh.width j a b c) :
    RunsPure i (bitClaim i ins g) := by
  refine ⟨fun a b c => map3 i.sh.width f a b c, hexec, rfl, rfl, fun _ x => ⟨fun k hk j hj => ?_, rfl, rfl⟩⟩
  rw [elem_map3 hk, Nat.testBit_mod_two_pow, decide_eq_true hj, Bool.true_and]
  exact hbits _ _ _ j hj

end BitWords

/-! ### The bits of each function (R194, R195) -/

/-- The complement of a number of w bits. -/
theorem testBit_complement {w a j : Nat} (ha : a < 2 ^ w) (hj : j < w) :
    (2 ^ w - 1 - a).testBit j = !a.testBit j := by
  rw [Nat.sub_sub, Nat.add_comm, Nat.testBit_two_pow_sub_succ ha, decide_eq_true hj, Bool.true_and]

/-- SHR: no bit comes in from above the width. -/
theorem testBit_shr {w a j n : Nat} (ha : a < 2 ^ w) :
    (a / 2 ^ n).testBit j = (decide (j + n < w) && a.testBit (j + n)) := by
  rw [Nat.testBit_div_two_pow]
  by_cases h : j + n < w
  · simp [h]
  · have hclear : a.testBit (j + n) = false :=
      Nat.testBit_lt_two_pow (ha.trans_le (Nat.pow_le_pow_right (by decide) (by omega)))
    rw [hclear, Bool.and_false]

/-- A signed pattern of w bits stands for the integer of its bit vector. -/
theorem intOf_true_eq_toInt {w : Nat} (hw : 0 < w) (a : Nat) : intOf true w a = (BitVec.ofNat w a).toInt := by
  have hhalf : 2 ^ w = 2 * 2 ^ (w - 1) := by rw [← Nat.pow_succ']; congr 1; omega
  rw [BitVec.toInt_eq_toNat_cond, BitVec.toNat_ofNat]
  simp only [intOf, Bool.true_and, decide_eq_true_eq]
  by_cases h : 2 ^ (w - 1) ≤ a % 2 ^ w
  · rw [if_pos h, if_neg (by omega)]; norm_cast
  · rw [if_neg h, if_pos (by omega)]

/-- An unsigned pattern of w bits stands for itself. -/
theorem intOf_false (w a : Nat) : intOf false w a = (a % 2 ^ w : Nat) := by simp [intOf]

/-- The wrapped value of an integer is its bit vector's. -/
theorem wrapInt_eq_toNat_ofInt (w : Nat) (x : Int) : wrapInt w x = (BitVec.ofInt w x).toNat := by
  rw [BitVec.toNat_ofInt, wrapInt]; norm_cast

/-- SAR: the sign comes in from above the width. -/
theorem testBit_sar {w a j n : Nat} (hj : j < w) :
    (wrapInt w (intOf true w a / 2 ^ n)).testBit j = a.testBit (min (j + n) (w - 1)) := by
  have hshift : BitVec.ofInt w (intOf true w a / 2 ^ n) = (BitVec.ofNat w a).sshiftRight n := by
    rw [intOf_true_eq_toInt (by omega), BitVec.sshiftRight, Int.shiftRight_eq_div_pow]; norm_cast
  rw [wrapInt_eq_toNat_ofInt, hshift, BitVec.testBit_toNat, BitVec.getLsbD_sshiftRight, decide_eq_false (by omega),
    Bool.not_false, Bool.true_and]
  split
  · next h => rw [BitVec.getLsbD_ofNat, decide_eq_true h, Bool.true_and, Nat.min_eq_left (by omega), Nat.add_comm]
  · next h =>
    rw [BitVec.msb_eq_getLsbD_last, BitVec.getLsbD_ofNat, decide_eq_true (by omega), Bool.true_and,
      Nat.min_eq_right (by omega)]

/-- ROT: bit j comes from n places below it, around the width. -/
theorem testBit_rotl {w a j n : Nat} (ha : a < 2 ^ w) (hn : n < w) (hj : j < w) :
    (rotl w a n).testBit j = a.testBit ((j + (w - n)) % w) := by
  have hsum : rotl w a n = 2 ^ n * (a % 2 ^ (w - n)) + a / 2 ^ (w - n) := by
    have hw : 2 ^ w = 2 ^ n * 2 ^ (w - n) := by rw [← Nat.pow_add]; congr 1; omega
    rw [rotl, hw, Nat.mul_comm a, Nat.mul_mod_mul_left]
  have hlow : a / 2 ^ (w - n) < 2 ^ n := by
    rw [Nat.div_lt_iff_lt_mul (by positivity), ← Nat.pow_add]
    simpa [Nat.add_sub_cancel' hn.le] using ha
  rw [hsum, Nat.testBit_two_pow_mul_add _ hlow]
  split
  · next h => rw [Nat.testBit_div_two_pow, Nat.mod_eq_of_lt (by omega)]
  · next h =>
    have hfrom : (j + (w - n)) % w = j - n := by
      rw [show j + (w - n) = j - n + w by omega, Nat.add_mod_right, Nat.mod_eq_of_lt (by omega)]
    rw [hfrom, Nat.testBit_mod_two_pow, decide_eq_true (by omega), Bool.true_and]

/-- The field of BFE and BFI: the model's length is the statement's. -/
theorem fieldOf_eq (w c : Nat) : fieldOf w c = (c % 256, fieldLen w (c % 256) (c / 256 % 256)) := rfl

/-- A field of `len` bits widened to w bits, with its sign or with zeros. -/
theorem testBit_wrapInt_intOf {signed : Bool} {w len x j : Nat} (hlen : 0 < len) (hj : j < w) :
    (wrapInt w (intOf signed len x)).testBit j =
      if j < len then x.testBit j else signed && x.testBit (len - 1) := by
  rw [wrapInt_eq_toNat_ofInt, BitVec.testBit_toNat]
  cases signed with
  | true =>
    rw [intOf_true_eq_toInt hlen]
    change ((BitVec.ofNat len x).signExtend w).getLsbD j = _
    rw [BitVec.getLsbD_signExtend, decide_eq_true hj, Bool.true_and, BitVec.msb_eq_getLsbD_last]
    simp only [BitVec.getLsbD_ofNat, Bool.true_and]
    rw [decide_eq_true (by omega : len - 1 < len), Bool.true_and]
    split
    · next h => rw [decide_eq_true h, Bool.true_and]
    · rfl
  | false =>
    rw [intOf_false, BitVec.ofInt_natCast, BitVec.getLsbD_ofNat, decide_eq_true hj, Bool.true_and,
      Nat.testBit_mod_two_pow]
    split
    · next h => rw [decide_eq_true h, Bool.true_and]
    · next h => rw [decide_eq_false h, Bool.false_and, Bool.false_and]

/-- BFE: the field at the bottom, with its sign or zeros above. -/
theorem testBit_bfeElem {signed : Bool} {w a b j : Nat} (hj : j < w) :
    (bfeElem signed w a b).testBit j =
      let (pos, len) := fieldOf w b
      if j < len then a.testBit (pos + j) else signed && decide (0 < len) && a.testBit (pos + len - 1) := by
  rw [fieldOf_eq]
  simp only [bfeElem]
  generalize fieldLen w (b % 256) (b / 256 % 256) = len
  generalize b % 256 = pos
  by_cases hlen : len = 0
  · simp [hlen]
  · have hpos : 0 < len := by omega
    rw [if_neg hlen, testBit_wrapInt_intOf hpos hj, Nat.testBit_div_two_pow, Nat.testBit_div_two_pow,
      decide_eq_true hpos, Bool.and_true, Nat.add_comm j, Nat.add_comm (len - 1), Nat.add_sub_assoc hpos]

/-- BFI: the field's bits from the bottom of `a`, the others from `b`. -/
theorem testBit_bfiElem {w a b c j : Nat} :
    (bfiElem w a b c).testBit j =
      let (pos, len) := fieldOf w c
      if pos ≤ j ∧ j < pos + len then a.testBit (j - pos) else b.testBit j := by
  rw [fieldOf_eq]
  simp only [bfiElem]
  generalize fieldLen w (c % 256) (c / 256 % 256) = len
  generalize c % 256 = pos
  by_cases hlen : len = 0
  · rw [if_pos hlen, if_neg (by omega)]
  · have hsum : b % 2 ^ pos + a % 2 ^ len * 2 ^ pos + b / 2 ^ (pos + len) * 2 ^ (pos + len) =
        2 ^ pos * (2 ^ len * (b / 2 ^ (pos + len)) + a % 2 ^ len) + b % 2 ^ pos := by
      rw [Nat.pow_add]; ring
    rw [if_neg hlen, hsum, Nat.testBit_two_pow_mul_add _ (Nat.mod_lt _ (by positivity))]
    by_cases hbelow : j < pos
    · rw [if_pos hbelow, if_neg (by omega), Nat.testBit_mod_two_pow, decide_eq_true hbelow, Bool.true_and]
    · rw [if_neg hbelow, Nat.testBit_two_pow_mul_add _ (Nat.mod_lt _ (by positivity))]
      by_cases hin : j < pos + len
      · rw [if_pos (by omega), if_pos (by omega), Nat.testBit_mod_two_pow, decide_eq_true (by omega), Bool.true_and]
      · rw [if_neg (by omega), if_neg (by omega), Nat.testBit_div_two_pow]
        congr 1; omega

/-- Reversing one bit more doubles what was reversed and puts the new bit at the bottom. -/
theorem reverseBits_succ (w a : Nat) : reverseBits (w + 1) a = 2 * reverseBits w a + (a.testBit w).toNat := by
  have hdouble : ((List.range w).map fun k => if a.testBit k then 2 ^ (w + 1 - 1 - k) else 0) =
      ((List.range w).map fun k => if a.testBit k then 2 ^ (w - 1 - k) else 0).map (2 * ·) := by
    rw [List.map_map]
    refine List.map_congr_left fun k hk => ?_
    have hk : k < w := List.mem_range.1 hk
    have hexp : w + 1 - 1 - k = w - 1 - k + 1 := by omega
    rw [Function.comp_apply, hexp, Nat.pow_succ']
    split <;> rfl
  unfold reverseBits
  rw [List.range_succ, List.map_append, List.sum_append, hdouble, List.sum_map_mul_left, List.map_id']
  cases h : a.testBit w <;> simp [h]

/-- BREV: bit j comes from bit w − 1 − j. -/
theorem testBit_reverseBits {w a j : Nat} (hj : j < w) : (reverseBits w a).testBit j = a.testBit (w - 1 - j) := by
  induction w generalizing j with
  | zero => omega
  | succ w ih =>
    rw [reverseBits_succ]
    cases j with
    | zero => cases h : a.testBit w <;> simp [h, Nat.testBit_zero]
    | succ j =>
      rw [Nat.testBit_succ]
      have hhalf : (2 * reverseBits w a + (a.testBit w).toNat) / 2 = reverseBits w a := by
        have := Bool.toNat_lt (a.testBit w)
        omega
      rw [hhalf, ih (by omega)]
      congr 1; omega

/-- Each word of R194 and R195 that is given bit by bit runs as `RunsPure` says. -/
theorem runsPure_of_mem_bitClaims (i : VIns) (mode : Rnd) : ∀ p ∈ bitClaims i mode, RunsPure i p := by
  have hw := Shape.width_pos i.sh
  simp only [bitClaims, List.forall_mem_cons, List.not_mem_nil, false_implies, implies_true, and_true]
  refine ⟨?and, ?or, ?xor, ?andn, ?not, ?shl, ?shr, ?sar, ?rot, ?bfe, ?bfi, ?brev⟩
  case and => exact runsPure_bit2 (fun _ => rfl) fun a b _ j _ _ _ => Nat.testBit_and a b j
  case or => exact runsPure_bit2 (fun _ => rfl) fun a b _ j _ _ _ => Nat.testBit_or a b j
  case xor => exact runsPure_bit2 (fun _ => rfl) fun a b _ j _ _ _ => Nat.testBit_xor a b j
  case andn =>
    refine runsPure_bit2 (fun _ => rfl) fun a b _ j _ hb hj => ?_
    rw [Nat.testBit_and, testBit_complement hb hj]
  case not => exact runsPure_bit1 (fun _ => rfl) fun _ _ _ _ ha hj => testBit_complement ha hj
  case shl => exact runsPure_bit2 (fun _ => rfl) fun a b _ j _ _ _ => Nat.testBit_mul_two_pow a j (b % i.sh.width)
  case shr => exact runsPure_bit2 (fun _ => rfl) fun _ _ _ _ ha _ _ => testBit_shr ha
  case sar => exact runsPure_bit2 (fun _ => rfl) fun _ _ _ _ _ _ hj => testBit_sar hj
  case rot => exact runsPure_bit2 (fun _ => rfl) fun _ b _ _ ha _ hj => testBit_rotl ha (Nat.mod_lt b hw) hj
  case bfe => exact runsPure_bit2 (fun _ => rfl) fun _ _ _ _ _ _ hj => testBit_bfeElem hj
  case bfi => exact runsPure_bit3 (fun _ => rfl) fun _ _ _ _ _ => testBit_bfiElem
  case brev => exact runsPure_bit1 (fun _ => rfl) fun _ _ _ _ _ hj => testBit_reverseBits hj

/-- Settles O2: every word of the family is the shared body on a function whose bits the lemmas above give. -/
theorem logicAndShiftsByLane : Obligations.LogicAndShiftsByLane :=
  vectorForms_of_runsPure fun i mode p hp _ => runsPure_of_mem_bitClaims i mode p hp

end Sys2Proof.Machine

/-! PROOFS. Words over lanes that name queues (R191, R242): what taking and appending elements leaves of the block's
queues, what writing registers leaves of the warp, and the end of such a word. -/

namespace Sys2Proof.Machine

open Sys2Proof Claims

/-! ### Masks of lanes -/

theorem getLsbD_maskOf (ls : List Nat) (j : Nat) : (maskOf ls).getLsbD j = decide (j < 32 ∧ j ∈ ls) := by
  have hfold : ∀ m : LaneMask, (ls.foldl (fun m i => m ||| ((1 : LaneMask) <<< i)) m).getLsbD j =
      (m.getLsbD j || decide (j < 32 ∧ j ∈ ls)) := by
    induction ls with
    | nil => simp
    | cons l ls ih =>
      intro m
      have hbit : ((1 : LaneMask) <<< l).getLsbD j = decide (j < 32 ∧ j = l) := by
        rw [BitVec.ofNat_eq_ofNat, ← BitVec.twoPow_eq, BitVec.getLsbD_twoPow]
        grind
      rw [List.foldl_cons, ih, BitVec.getLsbD_or, hbit]
      grind
  simpa [maskOf] using hfold 0

/-! ### The queues of a block -/

theorem Block.fifo_setFifo (b : Block) (q : Nat) (l : List Word) (q' : Nat) :
    (b.setFifo q l).fifo q' = if q' = q then l else b.fifo q' := by
  unfold Block.fifo Block.setFifo
  by_cases h7 : q = 7
  · by_cases h : q' = 7 <;> simp [h7, h]
  · by_cases h : q' = q
    · simp [h, h7]
    · by_cases h' : q' = 7
      · simp [h7, h', Ne.symm h7]
      · simp [h7, h, h', KMap.getD_set_ne _ _ _ h]

/-- Setting a queue of a block changes nothing but its queues. -/
theorem Block.setFifo_frame (b : Block) (q : Nat) (l : List Word) :
    b.setFifo q l = { b with fifos := (b.setFifo q l).fifos, q7 := (b.setFifo q l).q7 } := by
  unfold Block.setFifo
  split <;> rfl

/-- From `s` to `t` nothing of the blocks has changed but the queues of block `k`, of which queue q holds `g q` of what it
held. -/
def QueuesBecame (k : Nat) (s t : State) (g : Nat → List Word → List Word) : Prop :=
  (∀ b ≠ k, t.block b = s.block b) ∧
  ∀ b, s.block k = some b → ∃ b', t.block k = some b' ∧ b' = { b with fifos := b'.fifos, q7 := b'.q7 } ∧
    ∀ q, b'.fifo q = g q (b.fifo q)

theorem QueuesBecame.of_blocks_eq {s t : State} (k : Nat) (h : t.blocks = s.blocks) :
    QueuesBecame k s t fun _ l => l := by
  have hblock : ∀ b, t.block b = s.block b := fun b => by rw [State.block, State.block, h]
  exact ⟨fun b _ => hblock b, fun b hb => ⟨b, (hblock k).trans hb, rfl, fun _ => rfl⟩⟩

theorem QueuesBecame.trans {k : Nat} {s t u : State} {g h : Nat → List Word → List Word}
    (hst : QueuesBecame k s t g) (htu : QueuesBecame k t u h) : QueuesBecame k s u fun q l => h q (g q l) := by
  refine ⟨fun b hb => (htu.1 b hb).trans (hst.1 b hb), fun b hb => ?_⟩
  obtain ⟨b1, hb1, hframe1, hfifo1⟩ := hst.2 b hb
  obtain ⟨b2, hb2, hframe2, hfifo2⟩ := htu.2 b1 hb1
  refine ⟨b2, hb2, ?_, fun q => by rw [hfifo2, hfifo1]⟩
  rw [hframe2, hframe1]

/-- Changing one queue of a block. -/
theorem queuesBecame_modBlock (s : State) (k q : Nat) (f : List Word → List Word) :
    QueuesBecame k s (s.modBlock k fun b => b.setFifo q (f (b.fifo q))) fun q' l => if q' = q then f l else l := by
  have hget : ∀ b, (s.modBlock k fun b => b.setFifo q (f (b.fifo q))).block b =
      if b = k then (s.block k).map fun b => b.setFifo q (f (b.fifo q)) else s.block b := fun b =>
    KMap.get?_modify _ _ _ _
  refine ⟨fun b hb => by rw [hget, if_neg hb], fun b hb => ?_⟩
  refine ⟨b.setFifo q (f (b.fifo q)), by rw [hget, if_pos rfl, hb]; rfl, b.setFifo_frame _ _, fun q' => ?_⟩
  rw [Block.fifo_setFifo]
  by_cases h : q' = q <;> simp [h]

/-- The state once a word has taken `n` elements of the queue it pops; with no lane it takes nothing (R243). -/
def State.tookFrom (s : State) (blk : Nat) (pop : Option Nat) (n : Nat) : State :=
  match pop with
  | some q => if n = 0 then s else s.popFifo blk q n
  | none => s

/-- Taking elements changes nothing but the blocks. -/
theorem State.tookFrom_frame (s : State) (blk : Nat) (pop : Option Nat) (n : Nat) :
    s.tookFrom blk pop n = { s with blocks := (s.tookFrom blk pop n).blocks } := by
  cases pop with
  | none => rfl
  | some q => by_cases h : n = 0 <;> simp [State.tookFrom, h, State.popFifo, State.modBlock]

theorem queuesBecame_tookFrom (s : State) (blk : Nat) (pop : Option Nat) (n : Nat) :
    QueuesBecame blk s (s.tookFrom blk pop n) fun q l => if pop = some q then l.drop n else l := by
  cases pop with
  | none => exact QueuesBecame.of_blocks_eq blk rfl
  | some q =>
    by_cases h : n = 0
    · simpa [State.tookFrom, h] using QueuesBecame.of_blocks_eq (s := s) blk rfl
    · simpa [State.tookFrom, h, State.popFifo, eq_comm] using queuesBecame_modBlock s blk q (List.drop n)

theorem queuesBecame_pushResults (s : State) (blk : Nat) (d : Opnd) (vals : List Word) :
    QueuesBecame blk s (s.pushResults blk d vals) fun q l => l ++ if queueOf d = some q then vals else [] := by
  unfold State.pushResults
  cases queueOf d with
  | none => simpa using QueuesBecame.of_blocks_eq (s := s) blk rfl
  | some q =>
    have h := queuesBecame_modBlock s blk q (· ++ vals)
    refine ⟨h.1, fun b hb => ?_⟩
    obtain ⟨b', hb', hframe, hfifo⟩ := h.2 b hb
    refine ⟨b', hb', hframe, fun q' => ?_⟩
    rw [hfifo]
    by_cases hq : q' = q
    · simp [hq]
    · simp [hq, Ne.symm hq]

/-- Appending results changes nothing but the blocks. -/
theorem State.pushResults_frame (s : State) (blk : Nat) (d : Opnd) (vals : List Word) :
    s.pushResults blk d vals = { s with blocks := (s.pushResults blk d vals).blocks } := by
  unfold State.pushResults
  split <;> rfl

/-! ### Sources read once elements are taken -/

@[simp] theorem Block.setFifo_idx (b : Block) (q : Nat) (l : List Word) : (b.setFifo q l).idx = b.idx := by
  rw [Block.setFifo_frame]

@[simp] theorem Block.setFifo_rung (b : Block) (q : Nat) (l : List Word) : (b.setFifo q l).rung = b.rung := by
  rw [Block.setFifo_frame]

@[simp] theorem Block.setFifo_txseq (b : Block) (q : Nat) (l : List Word) : (b.setFifo q l).txseq = b.txseq := by
  rw [Block.setFifo_frame]

/-- No `%` value reads a queue. -/
theorem State.special_popFifo (s : State) (blk q n wk : Nat) (w : Warp) (lane : Nat) (x : Special) :
    (s.popFifo blk q n).special wk w lane x = s.special wk w lane x := by
  have hget : (s.popFifo blk q n).block w.blk =
      if w.blk = blk then (s.block blk).map fun b => b.setFifo q ((b.fifo q).drop n) else s.block w.blk :=
    KMap.get?_modify _ _ _ _
  unfold State.special
  rw [hget]
  split
  · next hblk => rw [hblk]; cases s.block blk <;> cases x <;> simp <;> rfl
  · rfl

theorem State.src_tookFrom (s : State) (blk : Nat) (pop : Option Nat) (n wk : Nat) (w : Warp) (t : VTy) (o : Opnd)
    (lane : Nat) (popped : Word) : (s.tookFrom blk pop n).src wk w t o lane popped = s.src wk w t o lane popped := by
  cases o with
  | sp x =>
    have hspecial : (s.tookFrom blk pop n).special wk w lane x = s.special wk w lane x := by
      unfold State.tookFrom
      split
      · split
        · rfl
        · exact s.special_popFifo ..
      · rfl
    rw [State.src, hspecial]; rfl
  | _ => rfl

/-- A word whose queues are ready takes one element for each of its lanes, in their order. -/
theorem takeFifo_ready {s : State} {iss : Issue} {w : Warp} {pop push : Option Nat} {lanes : List Nat}
    (h : QueuesReady s iss w pop push lanes.length) :
    ∃ els, s.takeFifo iss w pop push lanes = .ok (s.tookFrom w.blk pop lanes.length, els) ∧
      ∀ k < lanes.length, els.getD k 0 = taken s w pop k := by
  rcases h with ⟨rfl, rfl⟩ | ⟨hhome, hfit⟩
  · exact ⟨[], takeFifo_none s iss w lanes, fun _ _ => rfl⟩
  · by_cases hn : lanes.length = 0
    · refine ⟨[], ?_, fun k hk => by omega⟩
      cases pop <;> simp [State.takeFifo, State.tookFrom, hn]
    · obtain ⟨b, hb⟩ : ∃ b, s.block w.blk = some b := by
        cases hb : s.block w.blk with
        | none => simp [State.atHome, hb] at hhome
        | some b => exact ⟨b, rfl⟩
      cases pop with
      | none => exact ⟨[], by simp [State.takeFifo, State.tookFrom, hn, hhome, hfit], fun _ _ => rfl⟩
      | some q =>
        refine ⟨(b.fifo q).take lanes.length, ?_, fun k hk => ?_⟩
        · simp [State.takeFifo, State.tookFrom, hn, hhome, hfit, hb]
        · simp [taken, hb, List.getD_eq_getElem?_getD, List.getElem?_take_of_lt hk]

/-! ### The warp after its registers are written -/

/-- `w1` is `w` but for its vector and scalar registers, its predicates and its handles. -/
abbrev RegsChanged (w w1 : Warp) : Prop :=
  w1 = { w with vreg := w1.vreg, sreg := w1.sreg, preg := w1.preg, hreg := w1.hreg }

/-- Ending a word that has written registers alone, and sets no flag and draws nothing. -/
theorem warpAfter_finish {s : State} {iss : Issue} {w w1 : Warp} {x : Writes} (hi : Issues s iss w) (code : List Word)
    (hframe : RegsChanged w w1)
    (hregs : RegsAfter w w1 x) (hfl : x.fl = fun _ => 0) (hn : x.n = fun _ => 0) :
    WarpAfter iss w (w1.finish iss code) x := by
  obtain ⟨-, -, hne, hlen, hrun⟩ := hi
  have hthreads : w1.threads = w.threads := by rw [hframe]
  have hfcsr : w1.fcsr = w.fcsr := by rw [hframe]
  have hthread : ∀ l, w1.thread l = w.thread l := fun l => by rw [Warp.thread, hthreads]; rfl
  obtain ⟨hend, hlen', hgo⟩ := Warp.finish_spec (w := w1) (iss := iss) code (by rw [hthreads, hlen]) hne
    (fun l hl => by rw [hthread]; exact hrun l hl)
  refine ⟨?_, ?_, ?_, hlen', fun l hl => ?_⟩
  · rw [hend, hframe]
  · rw [hend]; exact hregs
  · rw [hend, hfl, flagged_zero]; exact hfcsr
  · obtain ⟨hth, hrunnable⟩ := hgo l hl
    rw [hthread] at hth hrunnable
    refine ⟨?_, hrunnable⟩
    rw [hn, hth]
    split <;> simp [Thread.advance_draw]

/-- Registers of which nothing is written. -/
theorem Warp.regsAfter_refl (w : Warp) : RegsAfter w w {} := by
  refine ⟨fun _ _ _ _ => rfl, fun _ _ => rfl, fun q _ l hl => ?_, fun _ _ => rfl⟩
  split
  · next hq => rw [hq]; exact w.pred_zero_getLsbD hl
  · rfl

/-- `setDst` changes nothing but the vector and the scalar registers. -/
theorem Warp.setDst_frame (w : Warp) (d : Opnd) (m : LaneMask) (f : Nat → Word) :
    w.setDst d m f = { w with vreg := (w.setDst d m f).vreg, sreg := (w.setDst d m f).sreg } := by
  cases d with
  | v r => rw [w.setDst_v_frame]
  | s r => unfold Warp.setDst; cases lanesOf m <;> rfl
  | _ => rfl

/-- What `setDst` leaves in the registers of the warp: what `writeTo` says, for a v or an s code. -/
theorem Warp.regsAfter_setDst (w : Warp) (d : Opnd) (m : LaneMask) (f : Nat → Word) :
    RegsAfter w (w.setDst d m f) (writeTo d m f) := by
  obtain ⟨-, -, hp, -⟩ := w.regsAfter_refl
  have hpred : ∀ q, (w.setDst d m f).pred q = w.pred q := fun q => by rw [w.setDst_frame]; rfl
  refine ⟨fun r _ l hl => ?v, fun r _ => ?s, fun q hq l hl => by rw [hpred]; exact hp q hq l hl, fun r _ => ?h⟩
  case v =>
    cases d with
    | v k =>
      rw [w.v_setDst_v _ _ _ _ _ hl]
      by_cases h : r = k.toNat ∧ m.getLsbD l = true <;> simp [writeTo, h]
    | s k => unfold Warp.setDst; cases lanesOf m <;> rfl
    | _ => rfl
  case s =>
    cases d with
    | v k => rw [w.setDst_v_frame]; rfl
    | s k =>
      unfold Warp.setDst
      cases hm : lanesOf m with
      | nil => simp [writeTo, hm]
      | cons l ls => by_cases h : r = k.toNat <;> simp [writeTo, hm, h, Warp.s, Warp.setS, KMap.getD_set]
    | _ => rfl
  case h => rw [w.setDst_frame]; rfl

/-- A word that has written registers alone completes on its queues. -/
theorem completesOnQueues_finish {s : State} {iss : Issue} {w w1 : Warp} {x : Writes} (hi : Issues s iss w)
    (hframe : RegsChanged w w1)
    (hregs : RegsAfter w w1 x) (hfl : x.fl = fun _ => 0) (hn : x.n = fun _ => 0)
    (pop : Option Nat) (n free : Nat) (d : Opnd) (vals : List Word) :
    CompletesOnQueues s
      (((({ s.tookFrom w.blk pop n with free }).setWarp iss.wk w1).pushResults w.blk d vals).finish iss)
      iss w pop (queueOf d) n vals x := by
  set s1 : State := { s.tookFrom w.blk pop n with free } with hs1
  set s2 := s1.pushResults w.blk d vals with hs2
  have hcomm : (s1.setWarp iss.wk w1).pushResults w.blk d vals = s2.setWarp iss.wk w1 := by
    rw [hs2, State.pushResults, State.pushResults]
    split <;> rfl
  have hframe2 : s2 = { s with blocks := s2.blocks, free } := by
    rw [hs2, State.pushResults_frame, hs1, State.tookFrom_frame]
  have hqueues : QueuesBecame w.blk s s2 _ :=
    ((queuesBecame_tookFrom s w.blk pop n).trans (QueuesBecame.of_blocks_eq (t := s1) w.blk rfl)).trans
      (queuesBecame_pushResults s1 w.blk d vals)
  rw [hcomm, State.finish_setWarp]
  refine ⟨w1.finish iss ((s2.setWarp iss.wk w1).codeOf w1.activeCode), ?_, fun j => ?_,
    warpAfter_finish hi _ hframe hregs hfl hn, hqueues.1, hqueues.2⟩
  · rw [hframe2]; rfl
  · rw [State.warp, State.setWarp_warps, KMap.get?_set, hframe2]; rfl

/-- A word that has written registers alone, and appends nothing, completes on the queue it pops. -/
theorem completesOnQueues_finish_pop {s : State} {iss : Issue} {w w1 : Warp} {x : Writes} (hi : Issues s iss w)
    (hframe : RegsChanged w w1)
    (hregs : RegsAfter w w1 x) (hfl : x.fl = fun _ => 0) (hn : x.n = fun _ => 0) (pop : Option Nat) (n : Nat) :
    CompletesOnQueues s (((s.tookFrom w.blk pop n).setWarp iss.wk w1).finish iss) iss w pop none n [] x :=
  completesOnQueues_finish hi hframe hregs hfl hn pop n (s.tookFrom w.blk pop n).free .none []

/-- A word that has written registers alone, and names no queue, completes. -/
theorem completes_finish {s : State} {iss : Issue} {w w1 : Warp} {x : Writes} (hi : Issues s iss w)
    (hframe : RegsChanged w w1)
    (hregs : RegsAfter w w1 x) (hfl : x.fl = fun _ => 0) (hn : x.n = fun _ => 0) :
    Completes s ((s.setWarp iss.wk w1).finish iss) iss w x :=
  ⟨_, ⟨s.finish_setWarp iss w1, memorySame_finish s iss w1⟩, warpAfter_finish hi _ hframe hregs hfl hn⟩

/-- A warp written as it was changes nothing of the word's end. -/
theorem State.finish_eq_finish_setWarp {s : State} {iss : Issue} {w : Warp} (h : s.warp iss.wk = some w) :
    s.finish iss = (s.setWarp iss.wk w).finish iss := by
  rw [State.finish_setWarp, State.finish, h]
  rfl

end Sys2Proof.Machine

/-! PROOFS. The cross-lane words without a fold (R190, R191, R212 to R215): their shared body, and what each of the six
gives a lane. -/

namespace Sys2Proof.Machine

open Sys2Proof Claims

/-! ### The body of a cross-lane word without a fold -/

/-- The sources of a lane. -/
def Claims.Lanes.args (x : Lanes) (l : Nat) : VArgs := { a := x.a l, b := x.b l, c := x.c l, old := x.old l }

/-- The sources of the participating lanes, as the model's body reads them. -/
def Claims.Lanes.laneArgs (x : Lanes) : LaneArgs := x.ls.map fun l => (l, x.args l)

/-- What the destination of each lane holds before a cross-lane word: of a destination that is no v code a free value. -/
def crossOld (s : State) (iss : Issue) (w : Warp) (i : VIns) (l : Nat) : Word :=
  match i.d with
  | .v r => w.v r.toNat l
  | _ => Config.freeBits (s.free + (lanesOf (w.partLanes iss i.g)).findIdx (· == l))

/-- The lanes of a cross-lane word, with the old values that the model takes. -/
abbrev crossLanes (s : State) (iss : Issue) (w : Warp) (i : VIns) : Lanes :=
  lanesAt s iss w i (crossOld s iss w i)

/-- A lane stands in the list of lanes at one place. -/
theorem findIdx_lanesOf {m : LaneMask} {k l : Nat} (h : (lanesOf m)[k]? = some l) :
    (lanesOf m).findIdx (· == l) = k := by
  obtain ⟨hk, rfl⟩ := List.getElem?_eq_some_iff.1 h
  exact (lanesOf_nodup m).idxOf_getElem k hk

theorem mapIdx_eq_map {α β : Type} {ls : List α} {f : Nat → α → β} {g : α → β}
    (h : ∀ k l, ls[k]? = some l → f k l = g l) : ls.mapIdx f = ls.map g := by
  refine List.ext_getElem? fun k => ?_
  rw [List.getElem?_mapIdx, List.getElem?_map]
  cases hl : ls[k]? with
  | none => rfl
  | some l => rw [Option.map_some, Option.map_some, h k l hl]

theorem modNth_id {α : Type} (l : List α) (k : Nat) : modNth l k (fun x => x) = l := by
  induction l generalizing k with
  | nil => rfl
  | cons x r ih => cases k <;> simp [modNth, ih]

/-- A result without flags and draws leaves FCSR and the draw counters as they were. -/
theorem Warp.flag_addDraw_zero (w : Warp) (l : Nat) : (w.flag 0).addDraw l 0 = w := by
  have hthreads : modNth w.threads l (fun t => { t with draw := t.draw + BitVec.ofNat 32 0 }) = w.threads := by
    simp only [BitVec.add_zero]
    exact modNth_id _ _
  simp only [Warp.flag, Warp.addDraw, hthreads]
  simp

/-- Results without flags and draws for a v code are written as `setDst` does. -/
theorem Warp.putResults_plain_v (w : Warp) (r : BitVec 8) (x : Nat → Word) (m : LaneMask) :
    w.putResults (.v r) ((lanesOf m).map fun l => plain l (x l)) = w.setDst (.v r) m x := by
  rw [Warp.putResults, List.foldl_map]
  exact congrArg (fun f => (lanesOf m).foldl f w) (funext₂ fun _ _ => Warp.flag_addDraw_zero _ _)

/-- Results without flags and draws for another code leave the warp as it was. -/
theorem Warp.putResults_plain_of_ne (w : Warp) {d : Opnd} (hd : ∀ r, d ≠ .v r) (x : Nat → Word) (ls : List Nat) :
    w.putResults d (ls.map fun l => plain l (x l)) = w := by
  rw [Warp.putResults, List.foldl_map]
  refine List.foldl_fixed' (fun l => ?_) ls
  cases d with
  | v r => exact absurd rfl (hd r)
  | _ => exact Warp.flag_addDraw_zero _ _

/-- What the body of a cross-lane word reads for a lane, once its elements are taken, is what `crossLanes` holds. -/
theorem vArgs_crossLanes {s : State} {iss : Issue} {w : Warp} {i : VIns} {k l n : Nat} {popped old : Word}
    (hl : (lanesOf (w.partLanes iss i.g))[k]? = some l) (hpopped : popped = taken s w (popQueue i) k)
    (hold : old = crossOld s iss w i l) :
    (s.tookFrom w.blk (popQueue i) n).vArgs iss.wk w i { need := [], ty := i.ty, fn := fun _ _ => (0, 0, 0) } l popped
      old = (crossLanes s iss w i).args l := by
  simp only [State.vArgs, State.src_tookFrom, Claims.Lanes.args, lanesAt, findIdx_lanesOf hl, hpopped, hold,
    Bool.false_eq_true, if_false]

/-- A cross-lane word that sets no flag and draws nothing completes: it writes its results, or appends them. -/
theorem crossBody_plain {s : State} {iss : Issue} {w : Warp} {i : VIns} (f : LaneArgs → Nat × VArgs → Word)
    (hi : Issues s iss w) (hok : w.codesOk (needs i) = true)
    (hq : QueuesReady s iss w (popQueue i) (queueOf i.d) (lanesOf (w.partLanes iss i.g)).length)
    {x : Nat → Word} (hx : ∀ l, x l = f (crossLanes s iss w i).laneArgs (l, (crossLanes s iss w i).args l)) :
    ∃ t, crossBody i (fun _ _ l => l.map fun e => plain e.1 (f l e)) s iss w = .ok t ∧
      CompletesOnQueues s t iss w (popQueue i) (queueOf i.d) (lanesOf (w.partLanes iss i.g)).length
        ((lanesOf (w.partLanes iss i.g)).map x) (writeTo i.d (w.partLanes iss i.g) x) := by
  obtain ⟨els, htake, hels⟩ := takeFifo_ready hq
  generalize hm : w.partLanes iss i.g = m at *
  have hlanes : (lanesOf m).map (fun l => (l, (crossLanes s iss w i).args l)) = (crossLanes s iss w i).laneArgs := by
    rw [← hm]; rfl
  have hres : (((lanesOf m).map fun l => (l, (crossLanes s iss w i).args l)).map fun e =>
      plain e.1 (f ((lanesOf m).map fun l => (l, (crossLanes s iss w i).args l)) e)) =
      (lanesOf m).map fun l => plain l (x l) := by
    rw [List.map_map, hlanes]
    exact List.map_congr_left fun l _ => by rw [hx]; rfl
  have hvals : (((lanesOf m).map fun l => plain l (x l)).map valueOf) = (lanesOf m).map x := by
    rw [List.map_map]; rfl
  set s1 := s.tookFrom w.blk (popQueue i) (lanesOf m).length with hs1
  have hbody : crossBody i (fun _ _ l => l.map fun e => plain e.1 (f l e)) s iss w =
      .ok (((({ s1 with free := (if i.d.isQ then { s1 with free := s1.free + (lanesOf m).length } else s1).free }).setWarp
        iss.wk (w.setDst i.d m x)).pushResults w.blk i.d ((lanesOf m).map x)).finish iss) := by
    simp only [crossBody, hok, hm, htake, Except.bind, Bool.not_true, Bool.false_eq_true, if_false]
    rw [mapIdx_eq_map (g := fun l => (l, (crossLanes s iss w i).args l)) ?lane, hres, hvals]
    case lane =>
      intro k l hl
      refine congrArg (Prod.mk l) (vArgs_crossLanes (hm ▸ hl) (hels k (List.getElem?_eq_some_iff.1 hl).1) ?_)
      have hfree : s1.free = s.free := by rw [hs1, State.tookFrom_frame]
      cases hd : i.d with
      | v r => simp only [crossOld, hd]
      | _ => simp only [crossOld, hd, hm, findIdx_lanesOf hl, hfree]
    generalize i.d = d
    have hblk : (w.setDst d m x).blk = w.blk := by rw [w.setDst_frame]
    cases d with
    | v r => simp only [Warp.putResults_plain_v, hblk]; rfl
    | s r =>
      rw [Warp.putResults_plain_of_ne w (by simp)]
      unfold Warp.setDst
      cases lanesOf m <;> rfl
    | _ => rw [Warp.putResults_plain_of_ne w (by simp)]; rfl
  exact ⟨_, hbody, completesOnQueues_finish hi (by rw [w.setDst_frame]) (w.regsAfter_setDst i.d m x) rfl rfl ..⟩

/-! ### What each word gives a lane (R212 to R215) -/

theorem elem_crossWord {w k : Nat} (f : Nat → Nat) (hk : k < 64 / w) : elem w k (crossWord w f) = f k % 2 ^ w := by
  rw [crossWord, elem_ofElems (by simpa using hk) (by simpa using Nat.mul_div_le 64 w)]
  simp

theorem crossIndex_eq_indexOf (i : VIns) (k : Nat) (b : Word) : crossIndex i k b = indexOf i b k := by
  unfold crossIndex indexOf
  cases i.b <;> rfl

/-- A sub-element delivered as a result fits its width. -/
theorem sixBits_elem_lt (t : VTy) (w k : Nat) (x : Word) : sixBits t (elem w k x) < 2 ^ w := by
  have hle : sixBits t (elem w k x) ≤ elem w k x := by
    unfold sixBits
    split
    · exact Nat.mod_le _ _
    · exact le_rfl
  exact hle.trans_lt (elem_lt w k x)

/-- The nearest participating lane at or below `j`, with its sources. -/
theorem find?_laneArgs_reverse (x : Lanes) (j : Nat) :
    (x.laneArgs.reverse.find? fun y => y.1 ≤ j) = (x.ls.filter (· ≤ j)).getLast?.map fun j' => (j', x.args j') := by
  rw [Claims.Lanes.laneArgs, ← List.map_reverse, List.find?_map, List.getLast?_filter]
  rfl

/-- The model's read of an element is the statement's. -/
theorem crossRead_eq_readElem (t : VTy) (w : Nat) (x : Lanes) (e l : Nat) :
    crossRead t w x.laneArgs (crossElem (64 / w) e) (x.args l) = readElem t w x e l := by
  unfold crossRead readElem crossElem
  rw [find?_laneArgs_reverse]
  dsimp only
  cases (x.ls.filter (· ≤ e % (32 * (64 / w)) / (64 / w))).getLast? <;> rfl

theorem readElem_lt (t : VTy) (w : Nat) (x : Lanes) (e l : Nat) : readElem t w x e l < 2 ^ w := by
  unfold readElem
  dsimp only
  split <;> exact sixBits_elem_lt _ _ _ _

/-- The word that the reads of a lane make up. -/
theorem elem_crossWord_read (t : VTy) {w k : Nat} (x : Lanes) (e : Nat → Nat) (l : Nat) (hk : k < 64 / w) :
    elem w k (crossWord w fun k => crossRead t w x.laneArgs (crossElem (64 / w) (e k)) (x.args l)) =
      readElem t w x (e k) l := by
  rw [elem_crossWord _ hk, crossRead_eq_readElem, Nat.mod_eq_of_lt (readElem_lt ..)]

/-- The bits of a word of lanes that meet a condition. -/
theorem getLsbD_laneBits (x : Lanes) (hls : ∀ l ∈ x.ls, l < 32) (p : VArgs → Bool) {j : Nat} (hj : j < 64) :
    (laneBits x.laneArgs p).getLsbD j = true ↔ j ∈ x.ls ∧ p (x.args j) = true := by
  have hmem : j ∈ (x.laneArgs.filter fun e => p e.2).map Prod.fst ↔ j ∈ x.ls ∧ p (x.args j) = true := by
    simp [Claims.Lanes.laneArgs]
  rw [laneBits, BitVec.getLsbD_ofNat, BitVec.testBit_toNat, getLsbD_maskOf, decide_eq_true hj, Bool.true_and,
    decide_eq_true_iff, hmem]
  exact ⟨And.right, fun h => ⟨hls j h.1, h⟩⟩

/-! ### Pushes (R215) -/

/-- In an ascending list, the last place with a value gives the search from behind its value. -/
theorem findSome?_reverse_of_last {β : Type} {l : List Nat} (hl : l.Pairwise (· < ·)) {f : Nat → Option β} {j : Nat}
    (hj : j ∈ l) (hlast : ∀ j' ∈ l, j < j' → f j' = none) {v : β} (hv : f j = some v) :
    l.reverse.findSome? f = some v := by
  obtain ⟨before, behind, rfl⟩ := List.append_of_mem hj
  have hbehind : behind.reverse.findSome? f = none := by
    rw [List.findSome?_eq_none_iff]
    intro j' hj'
    have hlt : j < j' := List.rel_of_pairwise_cons (List.pairwise_append.1 hl).2.1 (List.mem_reverse.1 hj')
    exact hlast j' (by simp [List.mem_reverse.1 hj']) hlt
  simp [List.findSome?_append, hbehind, hv]

/-- Sub-element m of lane j's indices names element k of lane l (R212, R215). -/
def PushNames (i : VIns) (x : Lanes) (l k j m : Nat) : Prop :=
  m < 64 / i.sh.width ∧ indexOf i (x.b j) m % (32 * (64 / i.sh.width)) = l * (64 / i.sh.width) + k

/-- The model's element of an index is the lane and sub-element that the statement names. -/
theorem crossElem_eq_iff {n e l k : Nat} (hk : k < n) : crossElem n e = (l, k) ↔ e % (32 * n) = l * n + k := by
  have hsub : e % n = e % (32 * n) % n := (Nat.mod_mul_left_mod e 32 n).symm
  rw [crossElem, hsub, Prod.mk.injEq]
  constructor
  · rintro ⟨rfl, rfl⟩
    exact (Nat.div_add_mod' _ _).symm
  · intro h
    rw [h, Nat.mul_comm, Nat.mul_add_div (by omega), Nat.mul_add_mod, Nat.div_eq_of_lt hk, Nat.mod_eq_of_lt hk]
    exact ⟨rfl, rfl⟩

/-- What lane j pushes to an element: the sub-element that the search of `pushedTo` finds in it. -/
def pushOf (i : VIns) (x : Lanes) (e : Nat × Nat) (j : Nat) : Option Nat :=
  ((List.range (64 / i.sh.width)).reverse.find? fun m => crossElem (64 / i.sh.width) (indexOf i (x.b j) m) == e).map
    fun m => sixBits i.ty (elem i.sh.width m (x.a j))

theorem pushedTo_eq (i : VIns) (x : Lanes) (e : Nat × Nat) :
    pushedTo i x.laneArgs e = x.ls.reverse.findSome? (pushOf i x e) := by
  simp only [pushedTo, Claims.Lanes.laneArgs, ← List.map_reverse, List.findSome?_map, crossIndex_eq_indexOf]
  rfl

/-- A lane none of whose indices names an element pushes nothing to it. -/
theorem pushOf_eq_none {i : VIns} {x : Lanes} {l k j : Nat} (hk : k < 64 / i.sh.width)
    (hnone : ∀ m, ¬ PushNames i x l k j m) : pushOf i x (l, k) j = none := by
  rw [pushOf, Option.map_eq_none_iff, List.find?_eq_none]
  intro m hm
  rw [beq_iff_eq, crossElem_eq_iff hk]
  exact fun h => hnone m ⟨by simpa using hm, h⟩

/-- Within one lane the highest sub-element that names an element is pushed to it. -/
theorem pushOf_eq_some {i : VIns} {x : Lanes} {l k j m : Nat} (hk : k < 64 / i.sh.width)
    (hm : PushNames i x l k j m) (hlast : ∀ m', PushNames i x l k j m' → m' ≤ m) :
    pushOf i x (l, k) j = some (sixBits i.ty (elem i.sh.width m (x.a j))) := by
  have hfind : ((List.range (64 / i.sh.width)).reverse.find? fun m =>
      crossElem (64 / i.sh.width) (indexOf i (x.b j) m) == (l, k)) = some m := by
    rw [List.find?_eq_findSome?_guard]
    refine findSome?_reverse_of_last List.pairwise_lt_range (List.mem_range.2 hm.1) (fun m' hm' hlt => ?_) ?_
    · have hno : ¬ PushNames i x l k j m' := fun h => by have := hlast m' h; omega
      simpa [Option.guard, crossElem_eq_iff hk] using fun h => hno ⟨List.mem_range.1 hm', h⟩
    · simpa [Option.guard, crossElem_eq_iff hk] using hm.2
  rw [pushOf, hfind]; rfl

/-- The push of the highest lane, and within it of the highest sub-element, reaches the element (R215). -/
theorem pushedTo_eq_some {i : VIns} {x : Lanes} (hx : x.ls.Pairwise (· < ·)) {l k j m : Nat}
    (hk : k < 64 / i.sh.width) (hj : j ∈ x.ls) (hm : PushNames i x l k j m)
    (hlast : ∀ j' ∈ x.ls, ∀ m', PushNames i x l k j' m' → j' < j ∨ (j' = j ∧ m' ≤ m)) :
    pushedTo i x.laneArgs (l, k) = some (sixBits i.ty (elem i.sh.width m (x.a j))) := by
  rw [pushedTo_eq]
  refine findSome?_reverse_of_last hx hj (fun j' hj' hlt => pushOf_eq_none hk fun m' h => ?_)
    (pushOf_eq_some hk hm fun m' h => ?_)
  · have := hlast j' hj' m' h
    omega
  · have := hlast j hj m' h
    omega

/-- An element that no push names receives none. -/
theorem pushedTo_eq_none {i : VIns} {x : Lanes} {l k : Nat} (hk : k < 64 / i.sh.width)
    (hnone : ∀ j ∈ x.ls, ∀ m, ¬ PushNames i x l k j m) : pushedTo i x.laneArgs (l, k) = none := by
  rw [pushedTo_eq, List.findSome?_eq_none_iff]
  exact fun j hj => pushOf_eq_none hk (hnone j (List.mem_reverse.1 hj))

/-! ### The statement -/

/-- The word runs the shared body of cross-lane words, and gives each participating lane what the claim says. -/
def RunsCross (i : VIns) (p : Instr × (Lanes → Nat → Word → Prop)) : Prop :=
  ∃ f : LaneArgs → Nat × VArgs → Word,
    (∀ s, exec p.1 s = runRaw s p.1 (crossBody i fun _ _ l => l.map fun e => plain e.1 (f l e))) ∧
    ∀ x : Lanes, x.ls.Pairwise (· < ·) → (∀ l ∈ x.ls, l < 32) → ∀ l ∈ x.ls, p.2 x l (f x.laneArgs (l, x.args l))

theorem runsCross_of_mem_crossClaims (i : VIns) : ∀ p ∈ crossClaims i, RunsCross i p := by
  simp only [crossClaims, List.forall_mem_cons, List.not_mem_nil, false_implies, implies_true, and_true]
  refine ⟨?xpull, ?xshuf, ?xbcast, ?xpush, ?xballot, ?xmatch⟩
  case xpull =>
    refine ⟨_, fun _ => rfl, fun x _ _ l _ k hk => ?_⟩
    simp only [subCount, crossIndex_eq_indexOf]
    exact elem_crossWord_read i.ty x (fun k => indexOf i (x.b l) k) l hk
  case xshuf =>
    refine ⟨_, fun _ => rfl, fun x _ _ l _ k hk => ?_⟩
    simp only [subCount, crossIndex_eq_indexOf]
    exact elem_crossWord_read i.ty x (fun k => (l * (64 / i.sh.width) + k) ^^^ indexOf i (x.b l) 0) l hk
  case xbcast =>
    refine ⟨_, fun _ => rfl, fun x _ _ l _ k hk => ?_⟩
    simp only [subCount, crossIndex_eq_indexOf]
    exact elem_crossWord_read i.ty x (fun _ => indexOf i (x.b l) 0) l hk
  case xpush =>
    refine ⟨_, fun _ => rfl, fun x hsorted _ l _ k hk => ⟨fun j hj m hm hlast => ?_, fun hnone => ?_⟩⟩
    · rw [elem_crossWord _ hk, pushedTo_eq_some hsorted hk hj hm hlast, Option.getD_some,
        Nat.mod_eq_of_lt (sixBits_elem_lt ..)]
    · rw [elem_crossWord _ hk, pushedTo_eq_none hk hnone, Option.getD_none, Nat.mod_eq_of_lt (elem_lt ..)]
      rfl
  case xballot =>
    refine ⟨_, fun _ => rfl, fun x _ hls l _ j hj => ?_⟩
    refine (getLsbD_laneBits x hls _ hj).trans ?_
    simp [Claims.Lanes.args]
  case xmatch =>
    refine ⟨_, fun _ => rfl, fun x _ hls l _ j hj => ?_⟩
    refine (getLsbD_laneBits x hls _ hj).trans ?_
    simp [Claims.Lanes.args]

/-- Settles O13: every word of the family runs the shared body, whose end `crossBody_plain` says. -/
theorem crossLaneMoves : Obligations.CrossLaneMoves := by
  intro s iss w i hi p hp _ hok ls hq
  obtain ⟨f, hexec, hrel⟩ := runsCross_of_mem_crossClaims i p hp
  obtain ⟨t, hbody, hdone⟩ := crossBody_plain f hi hok hq fun _ => rfl
  refine ⟨t, _, crossOld s iss w i, exec_eq_next (hexec s) hi hbody, hdone, fun d hd l _ => ?_, ?_⟩
  · rw [crossOld, hd]
  · exact hrel (crossLanes s iss w i) (lanesOf_sorted _) fun l hl => (mem_lanesOf.1 hl).1

end Sys2Proof.Machine

/-! PROOFS. MOV.u and the words on predicates (R102, R187, R196, R207, R208, R214): what the checks of their forms say of
their operands, how a predicate is written, and what each word decides. -/

namespace Sys2Proof.Machine

open Sys2Proof Claims

/-! ### Operands that a form accepts -/

theorem eq_pred_of_ok {o : Opnd} (h : FieldUse.pred.ok o = true) : ∃ p, o = .pred p := by
  cases o with
  | pred p => exact ⟨p, rfl⟩
  | _ => cases h

/-- The conditions of a V-format word's form, one by one. -/
theorem VForm.ok_iff (f : VForm) (i : VIns) : f.ok i = true ↔
    f.d.ok i.d = true ∧ f.a.ok i.a = true ∧ (f.bUse i.sub).ok i.b = true ∧ f.c.ok i.c = true ∧
    f.ty.ok i.ty i.sh i.sub = true ∧ f.rnd.ok i.ty i.sub i.rnd = true ∧ f.sat.ok i.sub i.sat = true ∧
    f.sub.ok i.ty i.sub = true ∧
    (f.sdst || !i.d.isS || (i.a.laneless && i.b.laneless && i.c.laneless)) = true ∧
    queuesOk i.d i.a i.b i.c = true ∧ f.extra.ok i = true := by
  simp only [VForm.ok, Bool.and_eq_true, and_assoc]

/-- PSET writes a predicate, and takes no third source. -/
theorem pset_fields {i : VIns} (h : (Instr.pset i).wf = true) : (∃ d, i.d = .pred d) ∧ i.c = .none := by
  obtain ⟨hd, -, -, hc, -⟩ := (VForm.ok_iff fPset i).1 h
  exact ⟨eq_pred_of_ok hd, eq_none_of_zero_ok hc⟩

/-- PLOP is on predicates alone, and its second source is p0 under `.not` and `.mov`. -/
theorem plop_fields {i : VIns} (h : (Instr.plop i).wf = true) : i.sub.toNat ≤ 5 ∧
    ∃ d a b, i.d = .pred d ∧ i.a = .pred a ∧ i.b = .pred b ∧ i.c = .none ∧ (4 ≤ i.sub.toNat → b = 0) := by
  obtain ⟨hd, ha, hb, hc, -, -, -, hsub, -, -, hextra⟩ := (VForm.ok_iff fPlop i).1 h
  obtain ⟨d, hd⟩ := eq_pred_of_ok hd
  obtain ⟨a, ha⟩ := eq_pred_of_ok ha
  obtain ⟨b, hb⟩ := eq_pred_of_ok hb
  have hle : i.sub.toNat ≤ 5 := of_decide_eq_true hsub
  refine ⟨hle, d, a, b, hd, ha, hb, eq_none_of_zero_ok hc, fun hge => ?_⟩
  have hsub : (i.sub == 4 || i.sub == 5) = true := by
    rw [Bool.or_eq_true, beq_iff_eq, beq_iff_eq, ← BitVec.toNat_inj, ← BitVec.toNat_inj]
    change i.sub.toNat = 4 ∨ i.sub.toNat = 5
    omega
  change (!(i.sub == 4 || i.sub == 5) || i.b == .pred 0) = true at hextra
  rw [hsub, Bool.not_true, Bool.false_or, beq_iff_eq, hb] at hextra
  exact Opnd.pred.inj hextra

/-- MOV.u is on U64. -/
theorem movU_ty {i : VIns} (h : (Instr.movU i).wf = true) : i.ty = .u64 := by
  obtain ⟨-, -, -, -, hty, -⟩ := (VForm.ok_iff fMovU i).1 h
  have hboth : (i.ty == .u64 && i.sh == .w64) = true := hty
  rw [Bool.and_eq_true, beq_iff_eq] at hboth
  exact hboth.1

/-! ### MOV.u -/

/-- What MOV.u reads in its lanes, in their order. -/
def movUValues (s : State) (iss : Issue) (w : Warp) (i : VIns) : List Word :=
  (lanesOf (w.partLanes iss i.g)).mapIdx fun k l => s.src iss.wk w .u64 i.a l (taken s w (popQueue i) k)

/-- How MOV.u ends whose source is not uniform, once it has taken its elements (R196). -/
def movUEnd (d : BitVec 6) (s : State) (iss : Issue) (w : Warp) (vals : List Word) : Res :=
  match vals with
  | [] => .ok (s.finish iss)
  | v :: r => if r.all (· == v) then .ok ((s.setWarp iss.wk (w.setS d.toNat v)).finish iss) else faultOf 2 s

theorem movUBody_vector {s : State} {iss : Issue} {w : Warp} {i : VIns} {d : BitVec 6} (hd : i.d = .s d)
    (hok : w.codesOk (needs i) = true) (hv : vScalar i = false)
    (hq : QueuesReady s iss w (popQueue i) none (lanesOf (w.partLanes iss i.g)).length) :
    movUBody i s iss w = movUEnd d (s.tookFrom w.blk (popQueue i) (lanesOf (w.partLanes iss i.g)).length) iss w
      (movUValues s iss w i) := by
  obtain ⟨els, htake, hels⟩ := takeFifo_ready hq
  have hvals : ((lanesOf (w.partLanes iss i.g)).mapIdx fun k l =>
      (s.tookFrom w.blk (popQueue i) (lanesOf (w.partLanes iss i.g)).length).src iss.wk w .u64 i.a l (els.getD k 0)) =
      movUValues s iss w i :=
    List.mapIdx_eq_mapIdx_iff.2 fun k hk => by rw [State.src_tookFrom, hels k hk]
  simp only [movUBody, hok, hv, htake, Except.bind, hvals, hd, Bool.not_true, Bool.false_eq_true, if_false]
  cases movUValues s iss w i <;> rfl

/-- MOV.u with a uniform source is a word of the scalar unit (R187). -/
theorem movUBody_scalar {s : State} {iss : Issue} {w : Warp} {i : VIns} (hok : w.codesOk (needs i) = true)
    (hv : vScalar i = true) : movUBody i s iss w = scalarBody i (pureSpec i (·.a)) s iss w := by
  simp only [movUBody, hok, hv, Bool.not_true, Bool.false_eq_true, if_false, if_true]

theorem Warp.regsAfter_setS (w : Warp) (d : BitVec 6) (v : Word) :
    RegsAfter w (w.setS d.toNat v) { s := fun r => if r = d.toNat then some v else none } := by
  obtain ⟨hv, -, hp, hh⟩ := w.regsAfter_refl
  refine ⟨hv, fun r _ => ?_, hp, hh⟩
  by_cases h : r = d.toNat <;> simp [Warp.s, Warp.setS, KMap.getD_set, h]

/-- MOV.u whose lanes hold one value writes it. -/
theorem movUEnd_common {d : BitVec 6} {s : State} {iss : Issue} {w : Warp} {vals : List Word} {v : Word}
    (hne : vals ≠ []) (hall : ∀ x ∈ vals, x = v) :
    movUEnd d s iss w vals = .ok ((s.setWarp iss.wk (w.setS d.toNat v)).finish iss) := by
  obtain ⟨x, r, rfl⟩ := List.exists_cons_of_ne_nil hne
  obtain rfl : x = v := hall x List.mem_cons_self
  have hsame : r.all (· == x) = true :=
    List.all_eq_true.2 fun y hy => beq_iff_eq.2 (hall y (List.mem_cons_of_mem _ hy))
  rw [movUEnd, if_pos hsame]

/-- MOV.u of which two lanes hold different values faults NONUNIFORM. -/
theorem movUEnd_differ {d : BitVec 6} {s : State} {iss : Issue} {w : Warp} {vals : List Word} {a b : Word}
    (ha : a ∈ vals) (hb : b ∈ vals) (hne : a ≠ b) : movUEnd d s iss w vals = faultOf 2 s := by
  cases vals with
  | nil => cases ha
  | cons v r =>
    have hdiff : ¬ r.all (· == v) = true := by
      intro h
      have heq : ∀ x ∈ v :: r, x = v := by simpa using h
      exact hne ((heq a ha).trans (heq b hb).symm)
    rw [movUEnd, if_neg hdiff]

/-- MOV.u, as R187 and R196 say: its body is the scalar unit's, or ends as `movUEnd` says. -/
theorem moveUniform : Claims.MoveUniform := by
  intro s iss w i d hi hwf hd hok ls val
  have hget : ∀ k l, ls[k]? = some l → val k l ∈ movUValues s iss w i := by
    intro k l hl
    refine List.mem_of_getElem? (i := k) ?_
    rw [movUValues, List.getElem?_mapIdx, hl]
    rfl
  refine ⟨fun hv => ?scalar, fun hv hq => ⟨fun hnil => ?noLane, fun v hne hall => ?common, fun hdiff => ?differ⟩⟩
  case scalar =>
    obtain ⟨t, hbody, hwrote⟩ := scalarBody_spec (sp := pureSpec i (·.a)) hi hd
    have hsrc : (s.vArgs iss.wk w i (pureSpec i (·.a)) iss.elected 0 (w.s d.toNat)).a =
        s.src iss.wk w .u64 i.a iss.elected 0 := by rw [← movU_ty hwf]; rfl
    refine ⟨t, exec_eq_next rfl hi ((movUBody_scalar hok hv).trans hbody), ?_⟩
    rw [← hsrc]
    exact hwrote
  case noLane =>
    have hlen : (lanesOf (w.partLanes iss i.g)).length = 0 := congrArg List.length hnil
    have hvals : movUValues s iss w i = [] := by rw [movUValues]; exact List.mapIdx_eq_nil_iff.2 hnil
    have hwarp : (s.tookFrom w.blk (popQueue i) 0).warp iss.wk = some w := by
      rw [State.tookFrom_frame]; exact hi.2.1
    refine ⟨_, exec_eq_next rfl hi ?_, completesOnQueues_finish_pop hi rfl w.regsAfter_refl rfl rfl (popQueue i) 0⟩
    rw [movUBody_vector hd hok hv hq, hvals, hlen, ← State.finish_eq_finish_setWarp hwarp, movUEnd]
  case common =>
    have hvals : movUValues s iss w i = ls.map fun _ => v := mapIdx_eq_map hall
    refine ⟨_, exec_eq_next rfl hi ?_,
      completesOnQueues_finish_pop hi rfl (w.regsAfter_setS d v) rfl rfl (popQueue i) ls.length⟩
    rw [movUBody_vector hd hok hv hq, hvals]
    exact movUEnd_common (by simpa using hne) (by simp)
  case differ =>
    obtain ⟨k, l, k', l', hl, hl', hne⟩ := hdiff
    have hlen : ls.length ≠ 0 := by
      have := (List.getElem?_eq_some_iff.1 hl).1
      omega
    have hrun : exec (.movU i) s =
        .next ((s.tookFrom w.blk (popQueue i) ls.length).takeFault iss { cause := 2 }) := by
      rw [show exec (.movU i) s = endWord iss (.movU i) (movUBody i s iss w) from runRaw_issues hi ..,
        movUBody_vector hd hok hv hq, movUEnd_differ (hget k l hl) (hget k' l' hl') hne]
      rfl
    rw [hrun]
    cases popQueue i with
    | none => rfl
    | some q => exact congrArg (fun t => Host.Outcome.next (State.takeFault t iss { cause := 2 })) (if_neg hlen)

/-! ### Predicates -/

/-- Writing a predicate in some lanes: bit l of predicate q (R161, R207). -/
theorem Warp.getLsbD_pred_putPred (w : Warp) (p : BitVec 3) (lanes m : LaneMask) (q : Nat) {l : Nat} (hl : l < 32) :
    ((w.putPred (.pred p) lanes m).pred q).getLsbD l =
      if q = 0 then true else if q = p.toNat ∧ lanes.getLsbD l then m.getLsbD l else (w.pred q).getLsbD l := by
  by_cases hq : q = 0
  · rw [if_pos hq, hq, Warp.pred_zero_getLsbD _ hl]
  · rw [if_neg hq]
    by_cases hp : p.toNat = 0
    · rw [if_neg (by omega), Warp.putPred, Warp.setPred, if_pos hp]
    · by_cases h : q = p.toNat
      · subst h
        have hset : (w.putPred (.pred p) lanes m).pred p.toNat = w.pred p.toNat &&& ~~~lanes ||| m &&& lanes := by
          simp [Warp.putPred, Warp.setPred, Warp.pred, hp]
        rw [hset, BitVec.getLsbD_or, BitVec.getLsbD_and, BitVec.getLsbD_and, BitVec.getLsbD_not, decide_eq_true hl]
        cases lanes.getLsbD l <;> simp
      · simp [Warp.putPred, Warp.setPred, Warp.pred, hp, hq, h, KMap.getD_set]

/-- `putPred` changes nothing but the predicates. -/
theorem Warp.putPred_frame (w : Warp) (o : Opnd) (lanes m : LaneMask) :
    w.putPred o lanes m = { w with preg := (w.putPred o lanes m).preg } := by
  unfold Warp.putPred Warp.setPred
  split
  · split <;> rfl
  · rfl

/-- What a word writes that writes predicate `d` in the lanes of a mask. -/
def predWrites (d : BitVec 3) (m : LaneMask) (x : Nat → Bool) : Writes :=
  { p := fun q l => if q = d.toNat ∧ m.getLsbD l then some (x l) else none }

theorem Warp.regsAfter_putPred (w : Warp) (d : BitVec 3) {lanes m : LaneMask} {x : Nat → Bool}
    (hx : ∀ l ∈ lanesOf lanes, m.getLsbD l = x l) :
    RegsAfter w (w.putPred (.pred d) lanes m) (predWrites d lanes x) := by
  have hframe := w.putPred_frame (.pred d) lanes m
  refine ⟨fun _ _ _ _ => by rw [hframe]; rfl, fun _ _ => by rw [hframe]; rfl, fun q _ l hl => ?_,
    fun _ _ => by rw [hframe]; rfl⟩
  rw [w.getLsbD_pred_putPred d lanes m q hl]
  by_cases h : q = d.toNat ∧ lanes.getLsbD l = true
  · simp only [predWrites, h, and_self, if_true, Option.getD_some, hx l (mem_lanesOf.2 ⟨hl, h.2⟩)]
  · simp only [predWrites, h, if_false, Option.getD_none]

/-! ### Comparisons (R102, R179, R207) -/

/-- A condition code on two integers. -/
theorem condHolds_eq_holds (c : Nat) (x y : Int) : condHolds c (decide (x < y)) (decide (x = y)) = holds c x y := by
  rcases c with _ | _ | _ | _ | _ | c
  · rfl
  · exact (decide_not).symm
  · rfl
  · change (decide (x < y) || decide (x = y)) = decide (x ≤ y)
    rw [← Bool.decide_or, decide_eq_decide]
    omega
  · change (!decide (x < y) && !decide (x = y)) = decide (y < x)
    rw [← decide_not, ← decide_not, ← Bool.decide_and, decide_eq_decide]
    omega
  · change (!decide (x < y)) = decide (y ≤ x)
    rw [← decide_not, decide_eq_decide]
    omega

/-- Patterns of a type's width are equal when their values are. -/
theorem valueAt_inj {t : VTy} {a b : Nat} (ha : a < 2 ^ t.width) (hb : b < 2 ^ t.width) :
    valueAt t a = valueAt t b ↔ a = b := by
  have hcast : (2 : Int) ^ t.width = (2 ^ t.width : Nat) := by norm_cast
  unfold valueAt
  rw [hcast]
  generalize 2 ^ t.width = size at *
  cases t.signed with
  | false => simp
  | true =>
    simp only [true_and]
    split <;> split <;> omega

theorem tyInt_eq_valueAt {t : VTy} {a : Nat} (ha : a < 2 ^ t.width) : tyInt t a = valueAt t a := by
  simp only [tyInt, intOf, valueAt, Nat.mod_eq_of_lt ha, Bool.and_eq_true, decide_eq_true_eq, ge_iff_le]

/-- Codes stand at one place of totalOrder when they are one encoding. -/
theorem key_inj (f : Fmt) (a b : Nat) : f.key a = f.key b ↔ a % 2 ^ f.width = b % 2 ^ f.width := by
  have hcast : ∀ n : Nat, (2 : Int) ^ n = (2 ^ n : Nat) := fun n => by norm_cast
  have ha : a % 2 ^ f.width < 2 ^ f.width := Nat.mod_lt a (by positivity)
  have hb : b % 2 ^ f.width < 2 ^ f.width := Nat.mod_lt b (by positivity)
  simp only [Fmt.key, hcast]
  generalize a % 2 ^ f.width = x at *
  generalize b % 2 ^ f.width = y at *
  generalize 2 ^ f.width = size at *
  generalize 2 ^ (f.width - 1) = half at *
  split
  · split <;> split <;> omega
  · split <;> split <;> omega

/-- PSET's comparison at a type. -/
theorem tyCond_eq_holds {t : VTy} {a b : Nat} (c : Nat) (ha : a < 2 ^ t.width) (hb : b < 2 ^ t.width) :
    tyCond t c a b = if t.isInt then holds c (valueAt t a) (valueAt t b)
      else holds c ((fmtOf t).key a) ((fmtOf t).key b) := by
  unfold tyCond
  split
  · rw [← condHolds_eq_holds, tyInt_eq_valueAt ha, tyInt_eq_valueAt hb]
    congr 1
    rw [Bool.eq_iff_iff, beq_iff_eq, decide_eq_true_iff, valueAt_inj ha hb]
  · rw [← condHolds_eq_holds]
    congr 1
    rw [Bool.eq_iff_iff, beq_iff_eq, decide_eq_true_iff, key_inj]

/-! ### Votes and logic on predicates (R208, R214) -/

/-- Bit l of PLOP's result. -/
theorem getLsbD_plopMask (op : Nat) (a b : LaneMask) {l : Nat} (hl : l < 32) :
    (plopMask op a b).getLsbD l =
      match op with
      | 0 => a.getLsbD l && b.getLsbD l
      | 1 => a.getLsbD l || b.getLsbD l
      | 2 => a.getLsbD l != b.getLsbD l
      | 3 => a.getLsbD l && !b.getLsbD l
      | 4 => !a.getLsbD l
      | _ => a.getLsbD l := by
  unfold plopMask
  split <;> simp [hl]

/-- Two masks share no lane when each lane of one is outside the other. -/
theorem and_eq_zero_iff_forall (m n : LaneMask) : m &&& n = 0 ↔ ∀ l ∈ lanesOf m, n.getLsbD l = false := by
  constructor
  · intro h l hl
    have hbit : (m &&& n).getLsbD l = false := by rw [h]; simp
    simpa [(mem_lanesOf.1 hl).2] using hbit
  · intro h
    refine BitVec.eq_of_getLsbD_eq fun l hl => ?_
    rw [BitVec.getLsbD_and]
    cases hm : m.getLsbD l with
    | false => simp
    | true => simp [h l (mem_lanesOf.2 ⟨hl, hm⟩)]

/-- What XVOTE decides, over the participating lanes (R214). -/
theorem voteHolds_eq (op : Nat) (lanes m : LaneMask) :
    voteHolds op lanes m =
      match op with
      | 0 => (lanesOf lanes).all m.getLsbD
      | 1 => (lanesOf lanes).any m.getLsbD
      | _ => (lanesOf lanes).all m.getLsbD || (lanesOf lanes).all fun l => !m.getLsbD l := by
  have hall : (lanes &&& ~~~m == 0) = (lanesOf lanes).all m.getLsbD := by
    rw [Bool.eq_iff_iff, beq_iff_eq, and_eq_zero_iff_forall, List.all_eq_true]
    refine forall₂_congr fun l hl => ?_
    rw [BitVec.getLsbD_not, decide_eq_true (mem_lanesOf.1 hl).1]
    simp
  have hnone : (lanes &&& m == 0) = (lanesOf lanes).all fun l => !m.getLsbD l := by
    rw [Bool.eq_iff_iff, beq_iff_eq, and_eq_zero_iff_forall, List.all_eq_true]
    simp
  have hany : (lanes &&& m != 0) = (lanesOf lanes).any m.getLsbD := by
    rw [bne, hnone, List.not_all_eq_any_not]
    simp
  rcases op with _ | _ | op
  · exact hall
  · exact hany
  · exact congrArg₂ or hall hnone

/-! ### The words on predicates -/

/-- The lanes where PSET's comparison holds. -/
def psetHolds (s : State) (iss : Issue) (w : Warp) (i : VIns) (l : Nat) : Bool :=
  let popped := taken s w (popQueue i) ((lanesOf (w.partLanes iss i.g)).findIdx (· == l))
  tyCond i.ty i.sub.toNat (elem i.ty.width 0 (s.src iss.wk w i.ty i.a l popped))
    (elem i.ty.width 0 (s.src iss.wk w i.ty i.b l popped))

/-- PSET completes: it writes its comparison in the participating lanes. -/
theorem psetBody_completes {s : State} {iss : Issue} {w : Warp} {i : VIns} {d : BitVec 3} (hi : Issues s iss w)
    (hd : i.d = .pred d) (hok : w.codesOk (needs i) = true)
    (hq : QueuesReady s iss w (popQueue i) none (lanesOf (w.partLanes iss i.g)).length) :
    ∃ t, psetBody i s iss w = .ok t ∧
      CompletesOnQueues s t iss w (popQueue i) none (lanesOf (w.partLanes iss i.g)).length []
        (predWrites d (w.partLanes iss i.g) (psetHolds s iss w i)) := by
  obtain ⟨els, htake, hels⟩ := takeFifo_ready hq
  generalize hm : w.partLanes iss i.g = m at *
  set s1 := s.tookFrom w.blk (popQueue i) (lanesOf m).length with hs1
  have hhit : ((lanesOf m).mapIdx fun k l =>
      (l, tyCond i.ty i.sub.toNat (elem i.ty.width 0 (s1.src iss.wk w i.ty i.a l (els.getD k 0)))
        (elem i.ty.width 0 (s1.src iss.wk w i.ty i.b l (els.getD k 0))))) =
      (lanesOf m).map fun l => (l, psetHolds s iss w i l) :=
    mapIdx_eq_map fun k l hl => by
      rw [hels k (List.getElem?_eq_some_iff.1 hl).1, psetHolds, hm, findIdx_lanesOf hl, hs1, State.src_tookFrom,
        State.src_tookFrom]
  set hits := maskOf ((((lanesOf m).map fun l => (l, psetHolds s iss w i l)).filter (·.2)).map (·.1)) with hhits
  have hbits : ∀ l ∈ lanesOf m, hits.getLsbD l = psetHolds s iss w i l := by
    intro l hl
    have hmem : l ∈ (((lanesOf m).map fun l => (l, psetHolds s iss w i l)).filter (·.2)).map (·.1) ↔
        psetHolds s iss w i l = true := by
      simpa using fun _ => hl
    rw [hhits, getLsbD_maskOf, Bool.eq_iff_iff, decide_eq_true_iff, hmem]
    exact and_iff_right (mem_lanesOf.1 hl).1
  have hbody : psetBody i s iss w = .ok ((s1.setWarp iss.wk (w.putPred (.pred d) m hits)).finish iss) := by
    simp only [psetBody, hok, hm, htake, Except.bind, hhit, hd, Bool.not_true, Bool.false_eq_true, if_false]
    rfl
  exact ⟨_, hbody, completesOnQueues_finish_pop hi (by rw [w.putPred_frame]) (w.regsAfter_putPred d hbits) rfl rfl _ _⟩

/-- A word that names no queue and writes one predicate of its warp completes. -/
theorem completes_putPred {s : State} {iss : Issue} {w : Warp} (hi : Issues s iss w) (d : BitVec 3)
    {lanes m : LaneMask} {x : Nat → Bool} (hx : ∀ l ∈ lanesOf lanes, m.getLsbD l = x l) :
    Completes s ((s.setWarp iss.wk (w.putPred (.pred d) lanes m)).finish iss) iss w (predWrites d lanes x) :=
  completes_finish hi (by rw [w.putPred_frame]) (w.regsAfter_putPred d hx) rfl rfl

/-- PSET, PLOP and XVOTE, as R207, R208 and R214 say. -/
theorem predicateWords : Claims.PredicateWords := by
  refine ⟨fun i => pset_fields, fun i => plop_fields, ?_⟩
  intro s iss w i d hi hd m ls put
  refine ⟨fun hwf hok hq => ?pset, fun a b ha hb hwf => ?plop, fun a ha hwf => ?xvote⟩
  case pset =>
    obtain ⟨t, hbody, hdone⟩ := psetBody_completes hi hd hok hq
    refine ⟨t, psetHolds s iss w i, exec_eq_next rfl hi hbody, hdone, fun j l hl => ?_⟩
    intro e
    rw [psetHolds, findIdx_lanesOf hl, tyCond_eq_holds _ (elem_lt ..) (elem_lt ..)]
  case plop =>
    have hbody : plopBody i s iss w = .ok ((s.setWarp iss.wk (w.putPred (.pred d) m
        (plopMask i.sub.toNat (w.pred a.toNat) (w.pred b.toNat)))).finish iss) := by
      rw [plopBody, hd, ha, hb]; rfl
    exact ⟨_, exec_eq_next rfl hi hbody, completes_putPred hi d fun l hl =>
      getLsbD_plopMask _ _ _ (mem_lanesOf.1 hl).1⟩
  case xvote =>
    set vote : LaneMask := if voteHolds i.sub.toNat m (w.pred a.toNat) then BitVec.allOnes 32 else 0 with hvote
    have hbody : xvoteBody i s iss w = .ok ((s.setWarp iss.wk (w.putPred (.pred d) m vote)).finish iss) := by
      rw [xvoteBody, hd, ha]; rfl
    have hbits : ∀ l ∈ lanesOf m, vote.getLsbD l = voteHolds i.sub.toNat m (w.pred a.toNat) := by
      intro l hl
      rw [hvote]
      cases voteHolds i.sub.toNat m (w.pred a.toNat) with
      | false => exact BitVec.getLsbD_zero
      | true => exact BitVec.getLsbD_allOnes.trans (decide_eq_true (mem_lanesOf.1 hl).1)
    exact ⟨_, exec_eq_next rfl hi hbody, completes_putPred hi d fun l hl =>
      (hbits l hl).trans (voteHolds_eq i.sub.toNat m (w.pred a.toNat))⟩

/-- Settles O56: MOV.u by `moveUniform`, the words on predicates by `predicateWords`. -/
theorem uniformMovesAndPredicates : Obligations.UniformMovesAndPredicates := ⟨moveUniform, predicateWords⟩

end Sys2Proof.Machine
